-- ==== Sys2Proof/Word.lean ====
section
/-! DEFINITION. The word types of the safe-ftdi SPI core: control bytes and data bytes, 32-bit
request words, the page operand, and the opaque error payloads of the ports. -/

namespace Sys2Proof

/-- One control byte, data byte, pin sample or direction byte (00_scope.md R9, CTRL_WIDTH = 8). -/
abbrev Byte := BitVec 8

/-- HDR, OPND, VALUE, the poll budget and the flash identifier are 32-bit words
(00_scope.md R11, 30_encoding.md R77, R83). -/
abbrev Word := BitVec 32

/-- The page operand and the workflow's page counter are 13 bits (00_scope.md R11). -/
abbrev Page := BitVec 13

/-- An error the adapter or the stream hands back: opaque to the core, passed on unchanged in the
DATA of a result, which is a byte sequence (20_memory.md R41, 30_encoding.md R84). -/
abbrev Payload := List Byte

end Sys2Proof
end

