-- ==== Sys2Proof/Syntax.lean ====
section
/-! DEFINITION. The instructions of the core: one constructor per row of spec/opcode_table.json, the
ten requests (30_encoding.md R78) and the five flash wire commands (R72); and the two shapes they
are written in, a request triple (R77) and the bytes of a flash command (R71). -/

namespace Sys2Proof

/-- DeviceSelect (30_encoding.md R64, R79). -/
inductive Device
  | idle | fpga | flash
  deriving DecidableEq, Repr

/-- The names of the table's rows, used by S.PHASE = BUSY(op, step) (10_state.md R21). -/
inductive Op
  | select | spiOut | spiIn | readId | writePage | eraseSector | eraseAll | flashPoll
  | openAdapter | program
  | readIdCmd | bufLoadCmd | commitCmd | sectorEraseCmd | statusReadCmd
  deriving DecidableEq, Repr

/-- The instructions. -/
inductive Instr
  /-- SELECT d (40_device_selector.md R88) -/
  | select (d : Device)
  /-- SPI_OUT d, data (41_spi_bitbanger.md R94) -/
  | spiOut (d : Device) (data : List Byte)
  /-- SPI_IN d, n (41_spi_bitbanger.md R99) -/
  | spiIn (d : Device) (n : BitVec 16)
  /-- READ_ID (42_flash_engine.md R106) -/
  | readId
  /-- WRITE_PAGE page, data (42_flash_engine.md R111) -/
  | writePage (page : Page) (data : List Byte)
  /-- ERASE_SECTOR [c0, c1, c2, c3], timeout (42_flash_engine.md R117) -/
  | eraseSector (c0 c1 c2 c3 : Byte) (timeout : Word)
  /-- ERASE_ALL timeout (42_flash_engine.md R121) -/
  | eraseAll (timeout : Word)
  /-- FLASH_POLL timeout (42_flash_engine.md R125) -/
  | flashPoll (timeout : Word)
  /-- OPEN (43_workflow.md R131) -/
  | openAdapter
  /-- PROGRAM (43_workflow.md R134) -/
  | program
  /-- wire command 0x9F, READ_ID_CMD (30_encoding.md R72) -/
  | readIdCmd
  /-- wire command 0x84, BUF_LOAD_CMD, with the 264 data bytes of its following phase (R72) -/
  | bufLoadCmd (data : List Byte)
  /-- wire command 0x88, COMMIT_CMD, with the 10-bit page index of its address field (R72, R73) -/
  | commitCmd (page : BitVec 10)
  /-- wire command 0x7C, SECTOR_ERASE_CMD, with its 3-byte address field (R72) -/
  | sectorEraseCmd (a2 a1 a0 : Byte)
  /-- wire command 0xD7, STATUS_READ_CMD (R72) -/
  | statusReadCmd
  deriving DecidableEq, Repr

/-- The table row an instruction belongs to. -/
def Instr.op : Instr → Op
  | .select _ => .select
  | .spiOut _ _ => .spiOut
  | .spiIn _ _ => .spiIn
  | .readId => .readId
  | .writePage _ _ => .writePage
  | .eraseSector _ _ _ _ _ => .eraseSector
  | .eraseAll _ => .eraseAll
  | .flashPoll _ => .flashPoll
  | .openAdapter => .openAdapter
  | .program => .program
  | .readIdCmd => .readIdCmd
  | .bufLoadCmd _ => .bufLoadCmd
  | .commitCmd _ => .commitCmd
  | .sectorEraseCmd _ _ _ => .sectorEraseCmd
  | .statusReadCmd => .statusReadCmd

/-- A request (HDR, OPND, DATA) as the host puts it on the request port (30_encoding.md R77). -/
structure Request where
  hdr : Word
  opnd : Word
  data : List Byte
  deriving DecidableEq, Repr

/-- The two forms an instruction is written in: a request of the host (30_encoding.md R77), or the
bytes of a flash command and of the data phase it sends (R71, R72). -/
inductive Encoding
  | request (r : Request)
  | command (bytes : List Byte)
  deriving DecidableEq, Repr

end Sys2Proof
end

