-- ==== Sys2Proof/Config.lean ====
section
/-! DEFINITION. What the implementation fixes: the core's fixed constants, its parameters
(00_scope.md R9, R10), and the free values the environment chooses (20_memory.md R49). The free
values are constants with no body, so nothing can be proved about which value they have. -/

namespace Sys2Proof

/-- The six pins (30_encoding.md R62). -/
inductive Pin
  | csFpga | csFlash | clk | dataOut | dataIn | progEnable
  deriving DecidableEq, Repr

/-- The parameters of the core (00_scope.md R10, 10_state.md R25). No request changes them. -/
structure Params where
  /-- PIN_POS, one position per pin -/
  posCsFpga : Fin 8
  posCsFlash : Fin 8
  posClk : Fin 8
  posDataOut : Fin 8
  posDataIn : Fin 8
  posProgEnable : Fin 8
  /-- CS_ACTIVE_LOW -/
  csActiveLow : Bool
  /-- BITBANG_MODE -/
  bitbangMode : Byte
  /-- VID -/
  vid : BitVec 16
  /-- PID -/
  pid : BitVec 16
  /-- ERASE_TIMEOUT, a poll iteration count -/
  eraseTimeout : Word
  /-- WRITE_TIMEOUT, a poll iteration count -/
  writeTimeout : Word
  /-- PAD_BYTE -/
  padByte : Byte
  deriving DecidableEq, Repr

/-- PIN_POS(p) (30_encoding.md R62). -/
def Params.pinPos (P : Params) : Pin → Fin 8
  | .csFpga => P.posCsFpga
  | .csFlash => P.posCsFlash
  | .clk => P.posClk
  | .dataOut => P.posDataOut
  | .dataIn => P.posDataIn
  | .progEnable => P.posProgEnable

/-- "positions are pairwise disjoint" (30_encoding.md R62). -/
def Params.wf (P : Params) : Bool :=
  decide [P.posCsFpga, P.posCsFlash, P.posClk, P.posDataOut, P.posDataIn, P.posProgEnable].Nodup

namespace Config

/-- PAGE_SIZE (00_scope.md R9). -/
def pageSize : Nat := 264

/-- CAPACITY_PAGES (00_scope.md R9). -/
def capacityPages : Nat := 8192

/-- ID_LEN (00_scope.md R9). -/
def idLen : Nat := 4

/-- BITBANG_MODE, VID, PID, ERASE_TIMEOUT and WRITE_TIMEOUT are OPEN in the spec (00_scope.md R10):
free constants. DESIGN CHOICE (safe), log entry 3. -/
opaque bitbangMode : Byte
opaque vid : BitVec 16
opaque pid : BitVec 16
opaque eraseTimeout : Word
opaque writeTimeout : Word

/-- Whether the `n`-th transport call past the listed answers fails, and with which payload: a free
value (20_memory.md R49). DESIGN CHOICE (safe), log entry 5. -/
opaque freeError : Nat → Option Payload

/-- The pin byte the `n`-th unlisted transport call returns: a free value (20_memory.md R49).
DESIGN CHOICE (safe), log entry 5. -/
opaque freePins : Nat → Byte

/-- Whether the `n`-th unlisted stream read fails, with which payload, and how many stream bytes the
failing read took away: a free value (20_memory.md R46, R49). DESIGN CHOICE (safe), log entries 5
and 6. -/
opaque freeStreamError : Nat → Option (Payload × Nat)

end Config

/-- The parameters after reset: the spec's reference values where it gives one (00_scope.md R10),
the free constants for those it leaves OPEN. -/
def Params.reset : Params where
  posCsFpga := 0
  posCsFlash := 1
  posClk := 2
  posDataOut := 3
  posDataIn := 4
  posProgEnable := 5
  csActiveLow := true
  bitbangMode := Config.bitbangMode
  vid := Config.vid
  pid := Config.pid
  eraseTimeout := Config.eraseTimeout
  writeTimeout := Config.writeTimeout
  padByte := 0x00

end Sys2Proof
end

