-- ==== Sys2Proof/WellFormed.lean ====
section
/-! DEFINITION. The checks on an instruction that its operand types do not already make: the byte
counts of 30_encoding.md R80 and of the BUF_LOAD_CMD data phase (R72). -/

namespace Sys2Proof

/-- A legal operand list (30_encoding.md R80): SPI_OUT's LEN fits 16 bits, WRITE_PAGE and
BUF_LOAD_CMD carry exactly one page. -/
def Instr.wellFormed : Instr → Bool
  | .select _ => true
  | .spiOut _ data => decide (data.length < 65536)
  | .spiIn _ _ => true
  | .readId => true
  | .writePage _ data => data.length == Config.pageSize
  | .eraseSector _ _ _ _ _ => true
  | .eraseAll _ => true
  | .flashPoll _ => true
  | .openAdapter => true
  | .program => true
  | .readIdCmd => true
  | .bufLoadCmd data => data.length == Config.pageSize
  | .commitCmd _ => true
  | .sectorEraseCmd _ _ _ => true
  | .statusReadCmd => true

end Sys2Proof
end

