-- ==== Sys2Proof/Decode.lean ====
section
/-! DEFINITION. Decoding a request word (30_encoding.md R77 to R82) or the bytes of a flash command
(R71 to R73) into an instruction, total and rejecting by name; then the encoder, written from the
same tables; the table's match and mask of each row; and the assembly syntax of R85. -/

namespace Sys2Proof

/-- Why a request or a command is no instruction. Every one of the first seven makes a request
illegal (30_encoding.md R81); the last three say why bytes are no flash command (R71, R72). -/
inductive DecodeError
  | reservedBits | reservedOp | reservedSel | selNotZero | badLen | badOpnd | badData
  | unknownOpcode | badCommandLength | badAddress
  deriving DecidableEq, Repr

/-! ### Fields of HDR (30_encoding.md R77) -/

def hdrOp (h : Word) : BitVec 4 := h.extractLsb' 0 4
def hdrSel (h : Word) : BitVec 2 := h.extractLsb' 4 2
def hdrRsvd (h : Word) : BitVec 10 := h.extractLsb' 6 10
def hdrLen (h : Word) : BitVec 16 := h.extractLsb' 16 16

/-- HDR from its fields, RSVD = 0 (30_encoding.md R77). -/
def mkHdr (op : BitVec 4) (sel : BitVec 2) (len : BitVec 16) : Word :=
  (len.setWidth 32 <<< 16) ||| (sel.setWidth 32 <<< 4) ||| op.setWidth 32

/-- SEL codes (30_encoding.md R79): 3 is reserved. -/
def deviceOfSel (sel : BitVec 2) : Option Device :=
  if sel = 0 then some .idle else if sel = 1 then some .fpga
  else if sel = 2 then some .flash else none

def selOfDevice : Device → BitVec 2
  | .idle => 0
  | .fpga => 1
  | .flash => 2

/-! ### Address fields of flash commands (30_encoding.md R73, 20_memory.md R37) -/

/-- A2 = (page >> 7) & 0x07. -/
def pageA2 (page : Page) : Byte := ((page >>> 7) &&& 0x07).setWidth 8

/-- A1 = (page << 1) & 0xFE. -/
def pageA1 (page : Page) : Byte := ((page <<< 1) &&& 0xFE).setWidth 8

/-- The page index an address field A2, A1 carries: page[9:7] in A2[2:0], page[6:0] in A1[7:1]. -/
def pageOfAddress (a2 a1 : Byte) : BitVec 10 :=
  (a2.setWidth 10 <<< 7) ||| (a1.extractLsb' 1 7).setWidth 10

/-! ### Decoding -/

/-- A request whose OP and SEL are known: the LEN, OPND and DATA columns of 30_encoding.md R80. -/
def checkRow (lenOk opndOk dataOk : Bool) (i : Instr) : Except DecodeError Instr :=
  if !lenOk then .error .badLen
  else if !opndOk then .error .badOpnd
  else if !dataOk then .error .badData
  else .ok i

/-- The three requests that use SEL (30_encoding.md R79). -/
def withDevice (r : Request) (k : Device → Except DecodeError Instr) : Except DecodeError Instr :=
  match deviceOfSel (hdrSel r.hdr) with
  | none => .error .reservedSel
  | some d => k d

/-- "Every other request must have SEL = 0" (30_encoding.md R79). -/
def withSelZero (r : Request) (k : Except DecodeError Instr) : Except DecodeError Instr :=
  if hdrSel r.hdr = 0 then k else .error .selNotZero

/-- DATA is exactly LEN bytes for the requests that carry data (30_encoding.md R77). -/
def Request.dataIsLen (r : Request) : Bool := r.data.length == (hdrLen r.hdr).toNat

/-- The legality check (30_encoding.md R80, R81): OP selects the row, the row fixes the rest. -/
def decodeRequest (r : Request) : Except DecodeError Instr :=
  let op := hdrOp r.hdr
  let len := hdrLen r.hdr
  if hdrRsvd r.hdr ≠ 0 then .error .reservedBits
  else if op = 0x1 then
    withDevice r fun d => checkRow (len == 0) (r.opnd == 0) r.data.isEmpty (.select d)
  else if op = 0x2 then
    withDevice r fun d => checkRow true (r.opnd == 0) r.dataIsLen (.spiOut d r.data)
  else if op = 0x3 then
    withDevice r fun d => checkRow true (r.opnd == 0) r.data.isEmpty (.spiIn d len)
  else if op = 0x4 then
    withSelZero r (checkRow (len == 0) (r.opnd == 0) r.data.isEmpty .readId)
  else if op = 0x5 then
    withSelZero r (checkRow (len == 264) (r.opnd.extractLsb' 13 19 == 0) r.dataIsLen
      (.writePage (r.opnd.extractLsb' 0 13) r.data))
  else if op = 0x6 then
    withSelZero r (match r.data with
      | [c0, c1, c2, c3] => checkRow (len == 4) true true (.eraseSector c0 c1 c2 c3 r.opnd)
      | _ => .error .badData)
  else if op = 0x7 then
    withSelZero r (checkRow (len == 0) true r.data.isEmpty (.eraseAll r.opnd))
  else if op = 0x8 then
    withSelZero r (checkRow (len == 0) true r.data.isEmpty (.flashPoll r.opnd))
  else if op = 0x9 then
    withSelZero r (checkRow (len == 0) (r.opnd == 0) r.data.isEmpty .openAdapter)
  else if op = 0xA then
    withSelZero r (checkRow (len == 0) (r.opnd == 0) r.data.isEmpty .program)
  else .error .reservedOp

/-- The bytes of a flash command, by its first byte (30_encoding.md R71, R72, R87). BUF_LOAD_CMD is
followed by its 264 data bytes in the same selection. -/
def decodeCommand : List Byte → Except DecodeError Instr
  | [] => .error .badCommandLength
  | opcode :: rest =>
    if opcode = 0x9F then (if rest.isEmpty then .ok .readIdCmd else .error .badCommandLength)
    else if opcode = 0xD7 then
      (if rest.isEmpty then .ok .statusReadCmd else .error .badCommandLength)
    else if opcode = 0x84 then
      match rest with
      | a2 :: a1 :: a0 :: data =>
        if a2 ≠ 0 ∨ a1 ≠ 0 ∨ a0 ≠ 0 then .error .badAddress
        else if data.length ≠ Config.pageSize then .error .badCommandLength
        else .ok (.bufLoadCmd data)
      | _ => .error .badCommandLength
    else if opcode = 0x88 then
      match rest with
      | [a2, a1, a0] =>
        if a2 &&& 0xF8 ≠ 0 ∨ a1 &&& 0x01 ≠ 0 ∨ a0 ≠ 0 then .error .badAddress
        else .ok (.commitCmd (pageOfAddress a2 a1))
      | _ => .error .badCommandLength
    else if opcode = 0x7C then
      match rest with
      | [a2, a1, a0] => .ok (.sectorEraseCmd a2 a1 a0)
      | _ => .error .badCommandLength
    else .error .unknownOpcode

/-- Decoding, total on every encoding. -/
def decode : Encoding → Except DecodeError Instr
  | .request r => decodeRequest r
  | .command bytes => decodeCommand bytes

/-! ### Encoding -/

/-- The bytes of COMMIT_CMD for a page operand (30_encoding.md R73). -/
def commitBytes (page : Page) : List Byte := [0x88, pageA2 page, pageA1 page, 0x00]

/-- The encoding of an instruction (30_encoding.md R71 to R73, R77 to R82). -/
def encode : Instr → Encoding
  | .select d => .request ⟨mkHdr 0x1 (selOfDevice d) 0, 0, []⟩
  | .spiOut d data => .request ⟨mkHdr 0x2 (selOfDevice d) (BitVec.ofNat 16 data.length), 0, data⟩
  | .spiIn d n => .request ⟨mkHdr 0x3 (selOfDevice d) n, 0, []⟩
  | .readId => .request ⟨mkHdr 0x4 0 0, 0, []⟩
  | .writePage page data => .request ⟨mkHdr 0x5 0 264, page.setWidth 32, data⟩
  | .eraseSector c0 c1 c2 c3 t => .request ⟨mkHdr 0x6 0 4, t, [c0, c1, c2, c3]⟩
  | .eraseAll t => .request ⟨mkHdr 0x7 0 0, t, []⟩
  | .flashPoll t => .request ⟨mkHdr 0x8 0 0, t, []⟩
  | .openAdapter => .request ⟨mkHdr 0x9 0 0, 0, []⟩
  | .program => .request ⟨mkHdr 0xA 0 0, 0, []⟩
  | .readIdCmd => .command [0x9F]
  | .bufLoadCmd data => .command (0x84 :: 0x00 :: 0x00 :: 0x00 :: data)
  | .commitCmd page => .command (commitBytes (page.setWidth 13))
  | .sectorEraseCmd a2 a1 a0 => .command [0x7C, a2, a1, a0]
  | .statusReadCmd => .command [0xD7]

/-! ### The opcode table: match and mask of each row (spec/opcode_table.json) -/

/-- A row: the value the masked bits have, and the mask; request rows speak of HDR, command rows of
byte 0. -/
structure Row where
  fixed : Word
  mask : Word
  deriving DecidableEq, Repr

/-- The row of each table name. -/
def Op.row : Op → Row
  | .select => ⟨0x00000001, 0xFFFFFFCF⟩
  | .spiOut => ⟨0x00000002, 0x0000FFCF⟩
  | .spiIn => ⟨0x00000003, 0x0000FFCF⟩
  | .readId => ⟨0x00000004, 0xFFFFFFFF⟩
  | .writePage => ⟨0x01080005, 0xFFFFFFFF⟩
  | .eraseSector => ⟨0x00040006, 0xFFFFFFFF⟩
  | .eraseAll => ⟨0x00000007, 0xFFFFFFFF⟩
  | .flashPoll => ⟨0x00000008, 0xFFFFFFFF⟩
  | .openAdapter => ⟨0x00000009, 0xFFFFFFFF⟩
  | .program => ⟨0x0000000A, 0xFFFFFFFF⟩
  | .readIdCmd => ⟨0x9F, 0xFF⟩
  | .bufLoadCmd => ⟨0x84, 0xFF⟩
  | .commitCmd => ⟨0x88, 0xFF⟩
  | .sectorEraseCmd => ⟨0x7C, 0xFF⟩
  | .statusReadCmd => ⟨0xD7, 0xFF⟩

/-- The word a row speaks of: HDR of a request, byte 0 of a command. -/
def Encoding.leadWord : Encoding → Word
  | .request r => r.hdr
  | .command bytes => (bytes.headD 0).setWidth 32

/-- The row holds on an encoding. -/
def Row.matches (row : Row) (c : Encoding) : Bool := c.leadWord &&& row.mask == row.fixed

/-! ### Words numbered as the table numbers them -/

/-- Byte `j` of a word numbered from its least significant bit. -/
def tableByte (w j : Nat) : Byte := BitVec.ofNat 8 (w >>> (8 * j))

/-- How many bytes a command with this opcode has, its data phase included (30_encoding.md R71,
R72). -/
def commandLength (opcode : Byte) : Nat :=
  if opcode = 0x84 then 4 + Config.pageSize
  else if opcode = 0x88 ∨ opcode = 0x7C then 4
  else 1

/-- A request that carries data (30_encoding.md R80). -/
def carriesData (op : BitVec 4) : Bool := op == 0x2 || op == 0x5 || op == 0x6

/-- The encoding whose bits are `w`: a row of 8 bits is a flash command, its first byte in bits
7..0; any wider row is a request, HDR in bits 31..0, OPND in bits 63..32, DATA from bit 64 on. Every
bit past the row is 0. Log entry 2. -/
def Encoding.ofTable (nbits w : Nat) : Encoding :=
  let v := w % 2 ^ nbits
  if nbits ≤ 8 then
    .command ((List.range (commandLength (tableByte v 0))).map (tableByte v))
  else
    let hdr := BitVec.ofNat 32 v
    let n := if carriesData (hdrOp hdr) then (hdrLen hdr).toNat else 0
    .request ⟨hdr, BitVec.ofNat 32 (v >>> 32), (List.range n).map fun j => tableByte v (8 + j)⟩

/-- The instruction the decoder reads from a table word. -/
def decodeTableWord (nbits w : Nat) : Option Instr :=
  match decode (Encoding.ofTable nbits w) with
  | .ok i => some i
  | .error _ => none

end Sys2Proof
end

