-- ==== Sys2Proof/Machine/State.lean ====
section
/-! DEFINITION. The state of the core (10_state.md), as plain data: the persistent registers, the
transient registers of one request, the shadow of the adapter, the ports, the trace, and the
environment's answers that are still to come. Grouped as the spec groups them. -/

namespace Sys2Proof.Machine

/-- S.PHASE (10_state.md R21). `step` counts the primitive calls the request has made so far. -/
inductive Phase
  | await
  | busy (op : Op) (step : Nat)
  deriving DecidableEq, Repr

/-- S.HANDLE (10_state.md R23). -/
inductive Handle
  | closed | opened
  deriving DecidableEq, Repr

/-- S.REQ_HDR, S.REQ_OPND, S.REQ_DATA (10_state.md R26). -/
structure ReqRegs where
  hdr : Word
  opnd : Word
  data : List Byte
  deriving DecidableEq, Repr

/-- S.W (10_state.md R27), S.ACC, S.RXBUF, S.ERR (R28). -/
structure SpiRegs where
  w : List Byte
  acc : Byte
  rxbuf : List Byte
  err : Option Payload
  deriving DecidableEq, Repr

/-- S.POLL_IT, S.STATUS (10_state.md R29). -/
structure PollRegs where
  it : Word
  status : Byte
  deriving DecidableEq, Repr

/-- S.PAGEBUF, S.K, S.P, S.P_STOP, S.ID (10_state.md R30, R35). -/
structure FlowRegs where
  pagebuf : List Byte
  k : BitVec 9
  p : Page
  pStop : Option Page
  id : Word
  deriving DecidableEq, Repr

/-- S.RESULT: CODE, VALUE, DATA (10_state.md R31, 30_encoding.md R83). -/
structure Result where
  code : Byte
  value : Word
  data : List Byte
  deriving DecidableEq, Repr

/-- The six error kinds a request ends with (60_exceptions.md R145). -/
inductive Failure
  | transport (e : Payload)
  | timeout
  | oversize
  | stream (e : Payload)
  | illegal
  | notOpen
  deriving DecidableEq, Repr

/-- The outcome `o` an event of the trace carries (20_memory.md R48). -/
inductive Reply (α : Type)
  | ok (a : α)
  | err (e : Payload)
  deriving DecidableEq, Repr

/-- The events of the trace T (20_memory.md R48). -/
inductive Event
  | openCall (vid pid : BitVec 16) (o : Reply Unit)
  | setDir (d m : Byte) (o : Reply Unit)
  | write (bs : List Byte) (o : Reply Unit)
  | readPins (o : Reply Byte)
  | streamRead (n : Nat) (o : Reply (List Byte))
  | diag (id : Word)
  | result (code : Byte) (value : Word) (data : List Byte)
  deriving DecidableEq, Repr

/-- An answer of the transport adapter to one call (20_memory.md R49). `ok` carries the pin byte a
read_pins call returns, and the count a write returns: `none` is the count of the bytes given
(R42). `never` is a call that does not return (93_implementation_defined.md U14). -/
inductive TxAnswer
  | ok (count : Option Nat) (pins : Byte)
  | err (e : Payload)
  | never
  deriving DecidableEq, Repr

/-- An answer of the stream port to one read (20_memory.md R46): the bytes of an `ok` are fixed by the
stream; a read that fails, or never returns, may take `lost` bytes of the stream away, which no rule
fixes (DESIGN CHOICE: any number, log entry 6). -/
inductive StreamAnswer
  | ok
  | err (e : Payload) (lost : Nat)
  | never (lost : Nat)
  deriving DecidableEq, Repr

/-- What the host does next on the core's inputs: puts a request on the request port (30_encoding.md
R77), or applies reset (70_reset_and_hazards.md R165). -/
inductive HostInput
  | request (r : Request)
  | reset
  deriving DecidableEq, Repr

/-- The external agents' part (00_scope.md R6): what they will do next, oldest first. `answers` and
`streamAnswers` list the adapter's and the stream's next answers; once a list is used up the answer
is the free value numbered by `drawn` (Config.freeError and its companions). `stream` is one input
stream for every PROGRAM: a second one reads what the first left of it (DESIGN CHOICE, log entry 5). -/
structure Env where
  inputs : List HostInput
  answers : List TxAnswer
  streamAnswers : List StreamAnswer
  stream : List Byte
  drawn : Nat
  deriving DecidableEq, Repr

/-- What the latest TxWrite left on the adapter's output pins: no write was made yet; the byte driven
when it succeeded; unknown when it failed or did not return (20_memory.md R40, R41). -/
inductive Driven
  | untouched
  | byte (b : Byte)
  | lost
  deriving DecidableEq, Repr

/-- A duty the spec puts on the host that an accepted request broke (70_reset_and_hazards.md R168 to
R170): recorded, never a fault of the core. -/
inductive DutyBreak
  /-- a flash command while a selection is open (R168) -/
  | selectionOpen
  /-- a direct change from Flash to Fpga or back (R168 (a)) -/
  | directSwitch
  /-- a command while what the latest write left is unknown (R168 (b), (c)) -/
  | selectionUnknown
  /-- SPI_IN while the clock level is unknown (R169) -/
  | clockUnknown
  /-- a flash command while the device may still be busy (R170) -/
  | deviceBusy
  deriving DecidableEq, Repr

/-- What the model keeps of the host's duties (70_reset_and_hazards.md R168, R170; log entry 10).
`broken` lists the violations so far, newest first. `opcode` is the first byte that SPI_OUT requests
sent in the Flash selection they stand in, `none` when they have sent none there. -/
structure HostDuty where
  broken : List DutyBreak
  opcode : Option Byte
  deriving DecidableEq, Repr

/-- The machine's state. -/
structure State where
  /-- the parameters (R25): an argument of every step, carried here because `step` takes a state -/
  params : Params
  phase : Phase
  handle : Handle
  /-- S.LAST_PAGE: NONE or a page index (R24) -/
  lastPage : Option Page
  req : ReqRegs
  spi : SpiRegs
  poll : PollRegs
  flow : FlowRegs
  result : Result
  /-- a result of the latest request is on the result port (R31) -/
  resultReady : Bool
  /-- S.WIRE_OUT, `none` is UNKNOWN (R33) -/
  wireOut : Option Byte
  /-- S.WIRE_DIR, `none` is UNKNOWN (R33) -/
  wireDir : Option Byte
  /-- the model's own: what the latest write left on the pins. S.WIRE_OUT says the same until a reset,
  which makes that UNKNOWN and leaves the pins alone (70_reset_and_hazards.md R163, R165; log entry
  10) -/
  driven : Driven
  /-- the model's own: a flash command built for the engine, which the next step sends -/
  cmdSlot : Option (List Byte)
  /-- the model's own: how the latest command of `cmdSlot` ended, `none` is Ok (R146) -/
  cmdOutcome : Option Failure
  env : Env
  /-- the trace T, newest event first (20_memory.md R48) -/
  log : List Event
  /-- the model's own: the host-duty violations so far, and what tells them (R168, R170) -/
  duty : HostDuty
  /-- the model's own: a commit or erase was sent and no later poll has read ready (R170) -/
  pollOwed : Bool
  deriving DecidableEq, Repr

/-- The trace T in the order of the calls (20_memory.md R48). -/
def State.trace (s : State) : List Event := s.log.reverse

/-- Why the machine stops. -/
inductive Fault
  /-- TRANSPORT_CONTRACT: raised by TxWrite when the adapter answers Ok with a count other than the
  number of bytes given (20_memory.md R42, 60_exceptions.md R148). Safe: the spec names it. -/
  | transportContract
  deriving DecidableEq, Repr

/-- Why an instruction has no meaning. -/
inductive Refusal
  /-- An arm of exec without a meaning; no arm is one. Safe. -/
  | notModelled (mnemonic : String)
  /-- Raised by the step when the command slot holds bytes that are no flash command: the core builds
  only the commands of 30_encoding.md R72. Safe: no run of the core puts such bytes there. -/
  | noFlashCommand
  deriving DecidableEq, Repr

/-- The state right after reset (70_reset_and_hazards.md R163). The registers the spec calls
unspecified are zero or empty: DESIGN CHOICE, log entry 4. The environment lists nothing: log
entry 5. -/
def State.reset : State where
  params := Params.reset
  phase := .await
  handle := .closed
  lastPage := none
  req := ⟨0, 0, []⟩
  spi := ⟨List.replicate 17 0, 0, [], none⟩
  poll := ⟨0, 0⟩
  flow := ⟨List.replicate 264 0, 0, 0, none, 0⟩
  result := ⟨0, 0, []⟩
  resultReady := false
  wireOut := none
  wireDir := none
  driven := .untouched
  cmdSlot := none
  cmdOutcome := none
  env := ⟨[], [], [], [], 0⟩
  log := []
  duty := ⟨[], none⟩
  pollOwed := false

end Sys2Proof.Machine
end

