-- ==== Sys2Proof/Machine/Flags.lean ====
section
/-! DEFINITION. The two condition values of the core (10_state.md R32): the ready bit of the flash
status byte, and the outcome of a request as its result code (30_encoding.md R83, R84). The core has
no flags register. -/

namespace Sys2Proof.Machine

/-- READY = S.STATUS[7] (10_state.md R29, 30_encoding.md R75). -/
def statusReady (status : Byte) : Bool := status.getLsbD 7

/-- A short stream read means the end of the input (20_memory.md R46, 43_workflow.md R138). -/
def shortRead (k : Nat) : Bool := decide (k < Config.pageSize)

/-- CODE = OK (30_encoding.md R83). -/
def codeOk : Byte := 0x00

/-- The CODE of an error (30_encoding.md R83). -/
def Failure.code : Failure → Byte
  | .transport _ => 0x01
  | .timeout => 0x02
  | .oversize => 0x03
  | .stream _ => 0x04
  | .illegal => 0x05
  | .notOpen => 0x06

/-- The DATA of an error result: the payload of TRANSPORT and STREAM, else empty
(30_encoding.md R84). -/
def Failure.payload : Failure → Payload
  | .transport e => e
  | .stream e => e
  | .timeout => []
  | .oversize => []
  | .illegal => []
  | .notOpen => []

/-- The result of a request that fails: VALUE = 0 on every error (30_encoding.md R84). -/
def Failure.toResult (f : Failure) : Result := ⟨f.code, 0, f.payload⟩

/-- The result of a request that succeeds (30_encoding.md R84). -/
def okResult (value : Word) (data : List Byte) : Result := ⟨codeOk, value, data⟩

end Sys2Proof.Machine
end

