-- ==== Sys2Proof/Machine/Operands.lean ====
section
/-! DEFINITION. The Pin Model and the operand forms built from it: selection patterns, direction
bytes, the SpiWord waveform (30_encoding.md R62 to R70), the flash commands the engine builds (R72
to R74), local-buffer access (00_scope.md R13), and the identifier's byte order (R76). -/

namespace Sys2Proof.Machine

/-- bit(p) = 1 << PIN_POS(p) (00_scope.md R15). -/
def pinBit (P : Params) (p : Pin) : Byte := (1#8) <<< (P.pinPos p).val

/-- lvl(asserted) << PIN_POS(cs), with lvl(asserted) = asserted XOR CS_ACTIVE_LOW
(30_encoding.md R64). -/
def csLevel (P : Params) (cs : Pin) (asserted : Bool) : Byte :=
  if asserted ^^ P.csActiveLow then pinBit P cs else 0

/-- selpat(d) (30_encoding.md R64). -/
def selpat (P : Params) (d : Device) : Byte :=
  csLevel P .csFpga (d == .fpga) ||| csLevel P .csFlash (d == .flash)

/-- IDLE = selpat(Idle) (00_scope.md R15). -/
def idleByte (P : Params) : Byte := selpat P .idle

/-- bit(CLK) and bit(DO) or nothing, as `c` and `o` say (30_encoding.md R65). -/
def onBit (P : Params) (p : Pin) (on : Bool) : Byte := if on then pinBit P p else 0

/-- A control byte selpat(d) | c·bit(CLK) | o·bit(DO) (30_encoding.md R65). -/
def controlByte (P : Params) (d : Device) (c o : Bool) : Byte :=
  selpat P d ||| onBit P .clk c ||| onBit P .dataOut o

/-- IDLE_DIRECTION (30_encoding.md R66). -/
def idleDirection (P : Params) : Byte :=
  pinBit P .clk ||| pinBit P .dataOut ||| pinBit P .csFpga ||| pinBit P .csFlash

/-- PROGRAM_DIRECTION (30_encoding.md R66). -/
def programDirection (P : Params) : Byte := idleDirection P ||| pinBit P .progEnable

/-- Entries 2i and 2i+1 of a SpiWord, for one data bit: data setup with the clock low, then the
sampling edge with the clock high (30_encoding.md R69). -/
def bitPair (P : Params) (d : Device) (bit : Bool) : List Byte :=
  let setup := selpat P d ||| onBit P .dataOut bit
  [setup, setup ||| pinBit P .clk]

/-- The bits of a byte, most significant first (20_memory.md R50). -/
def bitsMsbFirst (b : Byte) : List Bool :=
  [b.getLsbD 7, b.getLsbD 6, b.getLsbD 5, b.getLsbD 4,
   b.getLsbD 3, b.getLsbD 2, b.getLsbD 1, b.getLsbD 0]

/-- The SpiWord of data byte `b` under selection `d`: eight bit pairs, then the selection pattern
alone (30_encoding.md R69). -/
def spiWord (P : Params) (d : Device) (b : Byte) : List Byte :=
  (bitsMsbFirst b).flatMap (bitPair P d) ++ [selpat P d]

/-- The level of the data-in pin in a sample (20_memory.md R43). -/
def dataInLevel (P : Params) (pins : Byte) : Bool := pins.getLsbD (P.pinPos .dataIn).val

/-- The chip-select bits of a control byte (20_memory.md R58). -/
def chipSelectBits (P : Params) (b : Byte) : Byte :=
  b &&& (pinBit P .csFpga ||| pinBit P .csFlash)

/-- The device a control byte selects, by its chip-select bits (20_memory.md R58). -/
def selectedDevice (P : Params) (b : Byte) : Option Device :=
  [Device.idle, .fpga, .flash].find? fun d =>
    chipSelectBits P b == chipSelectBits P (selpat P d)

/-- A chip-select is asserted in a control byte (30_encoding.md R63). -/
def asserts (P : Params) (cs : Pin) (b : Byte) : Bool :=
  b.getLsbD (P.pinPos cs).val ^^ P.csActiveLow

/-- The level of the program-enable pin, when the direction byte drives it and the output byte is
known (30_encoding.md R67); `none` when it is not driven or not known. -/
def progEnableLevel (s : State) : Option Bool :=
  match s.wireDir, s.wireOut with
  | some d, some b =>
    if d.getLsbD (s.params.pinPos .progEnable).val then
      some (b.getLsbD (s.params.pinPos .progEnable).val) else none
  | _, _ => none

/-- The selection open on the wire (20_memory.md R58): `none` when S.WIRE_OUT is UNKNOWN. -/
def State.selection (s : State) : Option Device :=
  s.wireOut.bind (selectedDevice s.params)

/-! ### Flash commands (30_encoding.md R71 to R74) -/

def readIdBytes : List Byte := [0x9F]
def bufLoadBytes : List Byte := [0x84, 0x00, 0x00, 0x00]
def sectorEraseBytes (a2 a1 a0 : Byte) : List Byte := [0x7C, a2, a1, a0]
def statusReadBytes : List Byte := [0xD7]

/-- ERASE_LIST: two commands for the first sector, then i << 1 in the high address byte for
i = 1..16 (30_encoding.md R74). -/
def eraseList : List (List Byte) :=
  [sectorEraseBytes 0x00 0x00 0x00, sectorEraseBytes 0x00 0x10 0x00] ++
    (List.range 16).map fun j => sectorEraseBytes (BitVec.ofNat 8 (j + 1) <<< 1) 0x00 0x00

/-! ### Local buffers and byte order -/

/-- MemRead(buf, i, n) (00_scope.md R13). -/
def memRead (buf : List Byte) (i n : Nat) : List Byte := (buf.drop i).take n

/-- MemWrite(buf, i, n, bytes), n the number of bytes (00_scope.md R13). -/
def memWrite (buf : List Byte) (i : Nat) (bytes : List Byte) : List Byte :=
  buf.take i ++ bytes ++ buf.drop (i + bytes.length)

/-- The identifier of four received bytes, little-endian (20_memory.md R52, 30_encoding.md R76). -/
def identifier (b : List Byte) : Word :=
  (b.getD 0 0).setWidth 32 ||| ((b.getD 1 0).setWidth 32 <<< 8)
    ||| ((b.getD 2 0).setWidth 32 <<< 16) ||| ((b.getD 3 0).setWidth 32 <<< 24)

/-- The final page: the bytes of the short read, padded to a page (43_workflow.md R139). -/
def paddedPage (P : Params) (buf : List Byte) (k : Nat) : List Byte :=
  memRead buf 0 k ++ List.replicate (Config.pageSize - k) P.padByte

end Sys2Proof.Machine
end

