-- ==== Sys2Proof/Machine/Ops.lean ====
section
/-! DEFINITION. The shared operations: the transport and stream primitives (00_scope.md R14,
20_memory.md R40 to R46), the draws of the environment's answers (R49), error entry and recovery
(60_exceptions.md R149, R150), and how a request begins and ends (10_state.md R21, R31). -/

namespace Sys2Proof.Machine

/-! ### Register and port updates -/

/-- One more primitive call of the request in progress (10_state.md R21). -/
def Phase.tick : Phase → Phase
  | .await => .await
  | .busy op n => .busy op (n + 1)

/-- A primitive call made and answered: its event is appended to the trace (20_memory.md R48), and
S.PHASE is one step further. -/
def State.called (s : State) (e : Event) : State :=
  { s with log := e :: s.log, phase := s.phase.tick }

/-- What a TxWrite that left `b` on the wire, or UNKNOWN, leaves on the pins. -/
def Driven.ofWire : Option Byte → Driven
  | some b => .byte b
  | none => .lost

/-- A TxWrite leaves `b` on the wire, or UNKNOWN (20_memory.md R40, R41). -/
def State.setWireOut (s : State) (b : Option Byte) : State :=
  { s with wireOut := b, driven := .ofWire b }
def State.setWireDir (s : State) (b : Option Byte) : State := { s with wireDir := b }
def State.setHandle (s : State) (h : Handle) : State := { s with handle := h }
def State.setLastPage (s : State) (p : Option Page) : State := { s with lastPage := p }
def State.setSpi (s : State) (r : SpiRegs) : State := { s with spi := r }
def State.setPoll (s : State) (r : PollRegs) : State := { s with poll := r }
def State.setFlow (s : State) (r : FlowRegs) : State := { s with flow := r }
def State.setEnv (s : State) (e : Env) : State := { s with env := e }
def State.setPollOwed (s : State) (b : Bool) : State := { s with pollOwed := b }

/-! ### The outcome of an operation -/

/-- How an operation ends: with a value, with an error (60_exceptions.md R146), stuck in a call that
never returns (93_implementation_defined.md U14), or in a model fault (R148). -/
inductive Res (ε α : Type)
  | ok (a : α) (s : State)
  | err (e : ε) (s : State)
  | stuck (s : State)
  | fault (r : Fault)

/-- The next operation runs only after success. -/
def Res.andThen {ε α β : Type} (r : Res ε α) (k : α → State → Res ε β) : Res ε β :=
  match r with
  | .ok a s => k a s
  | .err e s => .err e s
  | .stuck s => .stuck s
  | .fault f => .fault f

/-! ### Draws (20_memory.md R49) -/

/-- The free answer numbered `n` (Config). -/
def freeAnswer (n : Nat) : TxAnswer :=
  match Config.freeError n with
  | some e => .err e
  | none => .ok none (Config.freePins n)

/-- The adapter's answer to the next transport call: the next listed one, else a free value. -/
def nextAnswer (e : Env) : TxAnswer × Env :=
  match e.answers with
  | a :: rest => (a, { e with answers := rest })
  | [] => (freeAnswer e.drawn, { e with drawn := e.drawn + 1 })

/-- The free stream answer numbered `n` (Config). -/
def freeStreamAnswer (n : Nat) : StreamAnswer :=
  match Config.freeStreamError n with
  | some (e, lost) => .err e lost
  | none => .ok

/-- The stream port's answer to the next read: the next listed one, else a free value. -/
def nextStreamAnswer (e : Env) : StreamAnswer × Env :=
  match e.streamAnswers with
  | a :: rest => (a, { e with streamAnswers := rest })
  | [] => (freeStreamAnswer e.drawn, { e with drawn := e.drawn + 1 })

/-! ### Primitives (00_scope.md R14) -/

/-- TxWrite(bs) (20_memory.md R40, R41, R42). -/
def txWrite (bs : List Byte) (s : State) : Res Payload Unit :=
  match nextAnswer s.env with
  | (.ok count _, e) =>
    if count.getD bs.length = bs.length then
      .ok () (((s.setEnv e).called (.write bs (.ok ()))).setWireOut bs.getLast?)
    else .fault .transportContract
  | (.err p, e) => .err p (((s.setEnv e).called (.write bs (.err p))).setWireOut none)
  | (.never, e) => .stuck ((s.setEnv e).setWireOut none)

/-- TxReadPins() (20_memory.md R43). -/
def txReadPins (s : State) : Res Payload Byte :=
  match nextAnswer s.env with
  | (.ok _ pins, e) => .ok pins ((s.setEnv e).called (.readPins (.ok pins)))
  | (.err p, e) => .err p ((s.setEnv e).called (.readPins (.err p)))
  | (.never, e) => .stuck (s.setEnv e)

/-- TxSetDir(d, BITBANG_MODE) (20_memory.md R44). -/
def txSetDir (d : Byte) (s : State) : Res Payload Unit :=
  match nextAnswer s.env with
  | (.ok _ _, e) =>
    .ok () (((s.setEnv e).called (.setDir d s.params.bitbangMode (.ok ()))).setWireDir (some d))
  | (.err p, e) =>
    .err p (((s.setEnv e).called (.setDir d s.params.bitbangMode (.err p))).setWireDir none)
  | (.never, e) => .stuck ((s.setEnv e).setWireDir none)

/-- TxOpen(VID, PID) (20_memory.md R45). -/
def txOpen (s : State) : Res Payload Unit :=
  match nextAnswer s.env with
  | (.ok _ _, e) => .ok () ((s.setEnv e).called (.openCall s.params.vid s.params.pid (.ok ())))
  | (.err p, e) => .err p ((s.setEnv e).called (.openCall s.params.vid s.params.pid (.err p)))
  | (.never, e) => .stuck (s.setEnv e)

/-- StreamRead(n): min(n, remaining) bytes in stream order, or an error (20_memory.md R46). How many
bytes a read takes away that fails, or never returns (or that a reset lands on), is the environment's
choice (DESIGN CHOICE, log entry 6). -/
def streamRead (n : Nat) (s : State) : Res Payload (List Byte) :=
  match nextStreamAnswer s.env with
  | (.ok, e) =>
    .ok (e.stream.take n)
      ((s.setEnv { e with stream := e.stream.drop n }).called
        (.streamRead n (.ok (e.stream.take n))))
  | (.err p lost, e) =>
    .err p ((s.setEnv { e with stream := e.stream.drop lost }).called (.streamRead n (.err p)))
  | (.never lost, e) => .stuck (s.setEnv { e with stream := e.stream.drop lost })

/-! ### Error entry and recovery (60_exceptions.md R149 to R151) -/

/-- "on Err(e): return Err(Transport(e))": the error goes up unchanged (60_exceptions.md R149). -/
def Res.raise {α : Type} (r : Res Payload α) : Res Failure α :=
  match r with
  | .ok a s => .ok a s
  | .err e s => .err (.transport e) s
  | .stuck s => .stuck s
  | .fault f => .fault f

/-- "on Err(e): return Err(Stream(e))" (43_workflow.md R135). -/
def Res.raiseStream {α : Type} (r : Res Payload α) : Res Failure α :=
  match r with
  | .ok a s => .ok a s
  | .err e s => .err (.stream e) s
  | .stuck s => .stuck s
  | .fault f => .fault f

/-- "on Err(e): Recover(); return Err(Transport(e))": one write of IDLE whose own outcome is
discarded (60_exceptions.md R150). -/
def Res.recover {α : Type} (r : Res Payload α) : Res Failure α :=
  match r with
  | .ok a s => .ok a s
  | .err e s =>
    match txWrite [idleByte s.params] s with
    | .ok _ t => .err (.transport e) t
    | .err _ t => .err (.transport e) t
    | .stuck t => .stuck t
    | .fault f => .fault f
  | .stuck s => .stuck s
  | .fault f => .fault f

/-! ### The request front-end -/

/-- The NotOpen check, before the first transport call (60_exceptions.md R147). -/
def requireHandle {α : Type} (body : State → Res Failure α) (s : State) : Res Failure α :=
  if s.handle = .closed then .err .notOpen s else body s

/-- Request `op` is in progress, none of its calls made; the previous result is off the port
(10_state.md R21, R31). -/
def State.begin (s : State) (op : Op) : State :=
  { s with phase := .busy op 0, resultReady := false }

/-- A request ends: its result is on the port, the Result event is appended, and S.PHASE is AWAIT
(10_state.md R21, R31, 20_memory.md R48, 60_exceptions.md R154). -/
def State.finish (s : State) (r : Result) : State :=
  { s with
    result := r, resultReady := true, phase := .await,
    log := .result r.code r.value r.data :: s.log }

/-- A flash command of the command slot is in progress. -/
def State.beginCommand (s : State) (op : Op) : State := { s with phase := .busy op 0 }

/-- A flash command of the command slot ends: no result is put on the port, since it is no request;
its outcome is kept in `cmdOutcome` (60_exceptions.md R146). Log entry 2. -/
def State.finishCommand (s : State) (o : Option Failure) : State :=
  { s with cmdOutcome := o, phase := .await }

/-- An answer that does not break the write contract (20_memory.md R42). -/
def TxAnswer.honest : TxAnswer → Bool
  | .ok none _ => true
  | .ok (some _) _ => false
  | .err _ => true
  | .never => true

/-- No listed answer breaks the write contract; the free answers never do. -/
def Env.honest (e : Env) : Bool := e.answers.all TxAnswer.honest

/-- The state an operation leaves, its success or error written down by `onOk` and `onErr`. A stuck
operation stays in BUSY (10_state.md R21). -/
def Res.final {α : Type} (r : Res Failure α) (onOk : α → State → State)
    (onErr : Failure → State → State) (start : State) : State :=
  match r with
  | .ok a t => onOk a t
  | .err f t => onErr f t
  | .stuck t => t
  | .fault _ => start

/-- The outcome of an operation: a fault when the transport contract was broken, else the next
state. -/
def Res.outcome {α : Type} (r : Res Failure α) (onOk : α → State → State)
    (onErr : Failure → State → State) : Host.Outcome State Fault Refusal :=
  match r with
  | .ok a t => .next (onOk a t)
  | .err f t => .next (onErr f t)
  | .stuck t => .next t
  | .fault f => .fault f

/-- The outcome of a run that started in `start`. The test of `Env.honest` changes nothing
(Laws/Ops.lean, settle_eq): a run from honest answers cannot fault, and saying so first lets the
outcome be computed without the free values. -/
def Res.settle {α : Type} (start : State) (r : Res Failure α) (onOk : α → State → State)
    (onErr : Failure → State → State) : Host.Outcome State Fault Refusal :=
  if start.env.honest then .next (r.final onOk onErr start) else r.outcome onOk onErr

/-- A request runs: it begins, its body runs, and it ends with the result of its outcome
(60_exceptions.md R145, R149, R154). -/
def runRequest (op : Op) (body : State → Res Failure Result) (s : State) :
    Host.Outcome State Fault Refusal :=
  (body (s.begin op)).settle s (fun r t => t.finish r) (fun f t => t.finish f.toResult)

/-- A flash command of the command slot runs. -/
def runCommand (op : Op) (body : State → Res Failure Unit) (s : State) :
    Host.Outcome State Fault Refusal :=
  (body (s.beginCommand op)).settle s (fun _ t => t.finishCommand none)
    (fun f t => t.finishCommand (some f))

end Sys2Proof.Machine
end

