-- ==== Sys2Proof/Machine/Selector.lean ====
section
/-! DEFINITION. The Device Selector: SELECT (40_device_selector.md R88 to R93). -/

namespace Sys2Proof.Machine

/-- Select(d) (40_device_selector.md R89). -/
def select (d : Device) (s : State) : Res Payload Unit := txWrite [selpat s.params d] s

/-- SELECT d (40_device_selector.md R89). -/
def execSelect (d : Device) (s : State) : Host.Outcome State Fault Refusal :=
  runRequest .select
    (requireHandle fun s => (select d s).raise.andThen fun _ s => .ok (okResult 0 []) s) s

end Sys2Proof.Machine
end

