-- ==== Sys2Proof/Machine/BitBanger.lean ====
section
/-! DEFINITION. The SPI Bit-Banger: SPI_OUT and SPI_IN (41_spi_bitbanger.md). -/

namespace Sys2Proof.Machine

/-- The loop of SpiOut: one SpiWord in S.W and one write per data byte (41_spi_bitbanger.md R95). -/
def spiOutLoop (d : Device) : List Byte → State → Res Payload Unit
  | [], s => .ok () s
  | b :: bs, s =>
    let s := s.setSpi { s.spi with w := spiWord s.params d b }
    (txWrite s.spi.w s).andThen fun _ s => spiOutLoop d bs s

/-- SpiOut(data, d) (41_spi_bitbanger.md R95). -/
def spiOut (data : List Byte) (d : Device) (s : State) : Res Payload Nat :=
  (spiOutLoop d data s).andThen fun _ s => .ok data.length s

/-- One bit of SpiIn: sample, then pulse the clock high and low; a 1 sets bit `i` of S.ACC
(41_spi_bitbanger.md R100, R101). -/
def sampleBit (d : Device) (i : Nat) (s : State) : Res Payload Unit :=
  (txReadPins s).andThen fun pins s =>
    let s := if dataInLevel s.params pins
      then s.setSpi { s.spi with acc := s.spi.acc ||| ((1#8) <<< i) } else s
    (txWrite [selpat s.params d ||| pinBit s.params .clk] s).andThen fun _ s =>
      txWrite [selpat s.params d] s

/-- Bits n-1 down to 0 of a byte (41_spi_bitbanger.md R100). -/
def bitLoop (d : Device) : Nat → State → Res Payload Unit
  | 0, s => .ok () s
  | i + 1, s => (sampleBit d i s).andThen fun _ s => bitLoop d i s

/-- `n` more bytes, the first of them byte `j` of S.RXBUF (41_spi_bitbanger.md R100). -/
def byteLoop (d : Device) : Nat → Nat → State → Res Payload Unit
  | 0, _, s => .ok () s
  | n + 1, j, s =>
    (bitLoop d 8 (s.setSpi { s.spi with acc := 0x00 })).andThen fun _ s =>
      byteLoop d n (j + 1)
        (s.setSpi { s.spi with rxbuf := memWrite s.spi.rxbuf j [s.spi.acc] })

/-- The end of SpiIn: IDLE is written, error or not; the first error is returned
(41_spi_bitbanger.md R100, R103). -/
def closeSpiIn (r : Res Payload Unit) : Res Payload (List Byte) :=
  match r with
  | .ok _ s =>
    match txWrite [idleByte s.params] s with
    | .ok _ t => .ok t.spi.rxbuf t
    | .err e t => .err e (t.setSpi { t.spi with err := some e })
    | .stuck t => .stuck t
    | .fault f => .fault f
  | .err e s =>
    match txWrite [idleByte s.params] (s.setSpi { s.spi with err := some e }) with
    | .ok _ t => .err e t
    | .err _ t => .err e t
    | .stuck t => .stuck t
    | .fault f => .fault f
  | .stuck s => .stuck s
  | .fault f => .fault f

/-- SpiIn(n, d) (41_spi_bitbanger.md R100). S.RXBUF starts empty: log entry 8. -/
def spiIn (n : Nat) (d : Device) (s : State) : Res Payload (List Byte) :=
  closeSpiIn (byteLoop d n 0 (s.setSpi { s.spi with err := none, rxbuf := [] }))

/-- SPI_OUT d, data (41_spi_bitbanger.md R95). -/
def execSpiOut (d : Device) (data : List Byte) (s : State) : Host.Outcome State Fault Refusal :=
  runRequest .spiOut
    (requireHandle fun s =>
      (spiOut data d s).raise.andThen fun n s => .ok (okResult (BitVec.ofNat 32 n) []) s) s

/-- SPI_IN d, n (41_spi_bitbanger.md R100). -/
def execSpiIn (d : Device) (n : BitVec 16) (s : State) : Host.Outcome State Fault Refusal :=
  runRequest .spiIn
    (requireHandle fun s =>
      (spiIn n.toNat d s).raise.andThen fun bytes s =>
        .ok (okResult (n.setWidth 32) bytes) s) s

end Sys2Proof.Machine
end

