-- ==== Sys2Proof/Machine/FlashCommands.lean ====
section
/-! DEFINITION. The five flash wire commands (30_encoding.md R72): for each, the transaction the
Flash Command Engine makes of it, from its opcode to its deselect (42_flash_engine.md R107, R112,
R118, R126; 20_memory.md R57), and its meaning as a row of the opcode table. -/

namespace Sys2Proof.Machine

/-- A command is sent under the Flash selection; a transport error is recovered from
(60_exceptions.md R151). -/
def sendFlash (bytes : List Byte) (s : State) : Res Failure Nat := (spiOut bytes .flash s).recover

/-- The deselect that ends a command; its failure is returned with no second attempt
(60_exceptions.md R151 (a)). -/
def deselect (s : State) : Res Failure Unit := (select .idle s).raise

/-- A command with an answer of `n` bytes: opcode out, bytes in, deselect (42_flash_engine.md R107,
R126). -/
def readTransaction (opcode : List Byte) (n : Nat) (s : State) : Res Failure (List Byte) :=
  (sendFlash opcode s).andThen fun _ s =>
    (spiIn n .flash s).recover.andThen fun bytes s =>
      (deselect s).andThen fun _ s => .ok bytes s

/-- READ_ID_CMD: 4 bytes in (42_flash_engine.md R107). -/
def readIdTransaction (s : State) : Res Failure (List Byte) :=
  readTransaction readIdBytes Config.idLen s

/-- BUF_LOAD_CMD: the command and the 264 data bytes in one selection, then the deselect
(42_flash_engine.md R112 (a) to (c), R113). -/
def bufLoadTransaction (data : List Byte) (s : State) : Res Failure Unit :=
  (sendFlash bufLoadBytes s).andThen fun _ s =>
    (sendFlash data s).andThen fun _ s => deselect s

/-- A command that starts a program or an erase in the device: from its deselect on, a poll is owed
(42_flash_engine.md R112 (d), R118; 70_reset_and_hazards.md R170). -/
def startTransaction (bytes : List Byte) (s : State) : Res Failure Unit :=
  (sendFlash bytes s).andThen fun _ s => deselect (s.setPollOwed true)

/-- COMMIT_CMD (42_flash_engine.md R112 (d)). -/
def commitTransaction (page : Page) (s : State) : Res Failure Unit :=
  startTransaction (commitBytes page) s

/-- STATUS_READ_CMD: 1 byte in, kept in S.STATUS; a ready status pays the owed poll
(42_flash_engine.md R126). -/
def statusTransaction (s : State) : Res Failure Unit :=
  (sendFlash statusReadBytes s).andThen fun _ s =>
    (spiIn 1 .flash s).recover.andThen fun bytes s =>
      (deselect (s.setPoll { s.poll with status := bytes.getD 0 0 })).andThen fun _ s =>
        .ok () (if statusReady s.poll.status then s.setPollOwed false else s)

/-- READ_ID_CMD as a command of the command slot; the bytes received stay in S.RXBUF. -/
def execReadIdCmd (s : State) : Host.Outcome State Fault Refusal :=
  runCommand .readIdCmd
    (requireHandle fun s => (readIdTransaction s).andThen fun _ s => .ok () s) s

/-- BUF_LOAD_CMD as a command of the command slot. -/
def execBufLoadCmd (data : List Byte) (s : State) : Host.Outcome State Fault Refusal :=
  runCommand .bufLoadCmd (requireHandle fun s => bufLoadTransaction data s) s

/-- COMMIT_CMD as a command of the command slot. -/
def execCommitCmd (page : BitVec 10) (s : State) : Host.Outcome State Fault Refusal :=
  runCommand .commitCmd (requireHandle fun s => commitTransaction (page.setWidth 13) s) s

/-- SECTOR_ERASE_CMD as a command of the command slot. -/
def execSectorEraseCmd (a2 a1 a0 : Byte) (s : State) : Host.Outcome State Fault Refusal :=
  runCommand .sectorEraseCmd
    (requireHandle fun s => startTransaction (sectorEraseBytes a2 a1 a0) s) s

/-- STATUS_READ_CMD as a command of the command slot. -/
def execStatusReadCmd (s : State) : Host.Outcome State Fault Refusal :=
  runCommand .statusReadCmd (requireHandle fun s => statusTransaction s) s

end Sys2Proof.Machine
end

