-- ==== Sys2Proof/Machine/FlashEngine.lean ====
section
/-! DEFINITION. The Flash Command Engine: READ_ID, WRITE_PAGE, ERASE_SECTOR, ERASE_ALL and
FLASH_POLL (42_flash_engine.md). -/

namespace Sys2Proof.Machine

/-- ReadId() (42_flash_engine.md R107). -/
def readId (s : State) : Res Failure Word :=
  (readIdTransaction s).andThen fun bytes s => .ok (identifier bytes) s

/-- The loop of FlashPoll with `n` iterations of the budget left (42_flash_engine.md R126). -/
def pollLoop : Nat → State → Res Failure Unit
  | 0, s => .err .timeout s
  | n + 1, s =>
    (statusTransaction (s.setPoll { s.poll with it := s.poll.it + 1 })).andThen fun _ s =>
      if statusReady s.poll.status then .ok () s else pollLoop n s

/-- FlashPoll(t) (42_flash_engine.md R126). -/
def flashPoll (t : Word) (s : State) : Res Failure Unit :=
  pollLoop t.toNat (s.setPoll { s.poll with it := 0 })

/-- WritePage(data, page) (42_flash_engine.md R112). -/
def writePage (data : List Byte) (page : Page) (s : State) : Res Failure Unit :=
  (bufLoadTransaction data s).andThen fun _ s =>
    (commitTransaction page s).andThen fun _ s => flashPoll s.params.writeTimeout s

/-- EraseSector(cmd, t): the bytes are sent as given (42_flash_engine.md R118, R120). -/
def eraseSector (cmd : List Byte) (t : Word) (s : State) : Res Failure Unit :=
  (startTransaction cmd s).andThen fun _ s => flashPoll t s

/-- The loop of EraseAll over the commands still to send (42_flash_engine.md R122). -/
def eraseLoop (t : Word) : List (List Byte) → State → Res Failure Unit
  | [], s => .ok () s
  | cmd :: rest, s => (eraseSector cmd t s).andThen fun _ s => eraseLoop t rest s

/-- EraseAll(t) (42_flash_engine.md R122). -/
def eraseAll (t : Word) (s : State) : Res Failure Unit := eraseLoop t eraseList s

/-- READ_ID (42_flash_engine.md R107). -/
def execReadId (s : State) : Host.Outcome State Fault Refusal :=
  runRequest .readId
    (requireHandle fun s => (readId s).andThen fun id s => .ok (okResult id []) s) s

/-- WRITE_PAGE page, data (42_flash_engine.md R112). -/
def execWritePage (page : Page) (data : List Byte) (s : State) :
    Host.Outcome State Fault Refusal :=
  runRequest .writePage
    (requireHandle fun s => (writePage data page s).andThen fun _ s => .ok (okResult 0 []) s) s

/-- ERASE_SECTOR [c0, c1, c2, c3], t (42_flash_engine.md R118). -/
def execEraseSector (c0 c1 c2 c3 : Byte) (t : Word) (s : State) :
    Host.Outcome State Fault Refusal :=
  runRequest .eraseSector
    (requireHandle fun s =>
      (eraseSector [c0, c1, c2, c3] t s).andThen fun _ s => .ok (okResult 0 []) s) s

/-- ERASE_ALL t (42_flash_engine.md R122). -/
def execEraseAll (t : Word) (s : State) : Host.Outcome State Fault Refusal :=
  runRequest .eraseAll
    (requireHandle fun s => (eraseAll t s).andThen fun _ s => .ok (okResult 0 []) s) s

/-- FLASH_POLL t (42_flash_engine.md R126). -/
def execFlashPoll (t : Word) (s : State) : Host.Outcome State Fault Refusal :=
  runRequest .flashPoll
    (requireHandle fun s => (flashPoll t s).andThen fun _ s => .ok (okResult 0 []) s) s

end Sys2Proof.Machine
end

