-- ==== Sys2Proof/Machine/Workflow.lean ====
section
/-! DEFINITION. The Programming Workflow: OPEN and PROGRAM (43_workflow.md). -/

namespace Sys2Proof.Machine

/-- The first half of Open(): TxOpen, only while no handle is held (43_workflow.md R132). -/
def openHandle (s : State) : Res Payload Unit :=
  if s.handle = .closed then
    (txOpen s).andThen fun _ s => .ok () (s.setHandle .opened)
  else .ok () s

/-- Open() (43_workflow.md R132). -/
def openSub (s : State) : Res Payload Unit :=
  (openHandle s).andThen fun _ s => txSetDir (idleDirection s.params) s

/-- OPEN (43_workflow.md R132). -/
def execOpenAdapter (s : State) : Host.Outcome State Fault Refusal :=
  runRequest .openAdapter
    (fun s => (openSub s).raise.andThen fun _ s => .ok (okResult 0 []) s) s

/-- Steps 1 and 2: open, read the identifier and report it (43_workflow.md R135, R136). -/
def programOpenAndId (s : State) : Res Failure Unit :=
  (openSub (s.setLastPage none)).raise.andThen fun _ s =>
    (readId s).andThen fun id s =>
      .ok () ((s.setFlow { s.flow with id := id }).called (.diag id))

/-- Step 3: program direction, then the erase (43_workflow.md R135, R137). -/
def programErase (s : State) : Res Failure Unit :=
  (txSetDir (programDirection s.params) s).raise.andThen fun _ s =>
    eraseAll s.params.eraseTimeout s

/-- A page the loop or step 5 writes; S.LAST_PAGE follows a success only (43_workflow.md R138). -/
def programPage (data : List Byte) (page : Page) (s : State) : Res Failure Unit :=
  (writePage data page s).andThen fun _ s => .ok () (s.setLastPage (some page))

/-- Step 4 with `n` page indices left, the first of them 8192 - n: read, stop at a short read, else
write the page (43_workflow.md R135, R138). -/
def pageLoop : Nat → State → Res Failure Unit
  | 0, s => .ok () s
  | n + 1, s =>
    let s := s.setFlow { s.flow with p := BitVec.ofNat 13 (Config.capacityPages - (n + 1)) }
    (streamRead Config.pageSize s).raiseStream.andThen fun bytes s =>
      let s := s.setFlow
        { s.flow with
          k := BitVec.ofNat 9 bytes.length, pagebuf := memWrite s.flow.pagebuf 0 bytes }
      if shortRead bytes.length then
        .ok () (s.setFlow { s.flow with pStop := some s.flow.p })
      else (programPage s.flow.pagebuf s.flow.p s).andThen fun _ s => pageLoop n s

/-- The final page of step 5: only after a short read of k > 0 bytes (43_workflow.md R139). -/
def finalPage (s : State) : Res Failure Unit :=
  match s.flow.pStop with
  | some page =>
    if s.flow.k = 0 then .ok () s
    else programPage (paddedPage s.params s.flow.pagebuf s.flow.k.toNat) page s
  | none => .ok () s

/-- Step 5: one further read, whose bytes are only counted; then the final page
(43_workflow.md R135, R139). -/
def programFinish (s : State) : Res Failure Unit :=
  (streamRead Config.pageSize s).raiseStream.andThen fun bytes s =>
    if bytes.length > 0 then .err .oversize s else finalPage s

/-- The number of pages written (43_workflow.md R140). -/
def pagesWritten (lastPage : Option Page) : Word :=
  match lastPage with
  | none => 0
  | some p => p.setWidth 32 + 1

/-- PROGRAM's steps in order (43_workflow.md R135). -/
def programBody (s : State) : Res Failure Result :=
  (programOpenAndId s).andThen fun _ s =>
    (programErase s).andThen fun _ s =>
      (pageLoop Config.capacityPages
          (s.setFlow { s.flow with pStop := none, k := 0 })).andThen fun _ s =>
        (programFinish s).andThen fun _ s =>
          (txSetDir (idleDirection s.params) s).raise.andThen fun _ s =>
            .ok (okResult (pagesWritten s.lastPage) []) s

/-- PROGRAM (43_workflow.md R135). -/
def execProgram (s : State) : Host.Outcome State Fault Refusal :=
  runRequest .program programBody s

end Sys2Proof.Machine
end

