-- ==== Sys2Proof/Machine/Dispatch.lean ====
section
/-! DEFINITION. The meaning of each instruction: one arm per constructor of Instr. -/

namespace Sys2Proof.Machine

def exec (i : Instr) (s : State) : Host.Outcome State Fault Refusal :=
  match i with
  | .select d => Sys2Proof.Machine.execSelect d s
  | .spiOut d data => Sys2Proof.Machine.execSpiOut d data s
  | .spiIn d n => Sys2Proof.Machine.execSpiIn d n s
  | .readId => Sys2Proof.Machine.execReadId s
  | .writePage page data => Sys2Proof.Machine.execWritePage page data s
  | .eraseSector c0 c1 c2 c3 t => Sys2Proof.Machine.execEraseSector c0 c1 c2 c3 t s
  | .eraseAll t => Sys2Proof.Machine.execEraseAll t s
  | .flashPoll t => Sys2Proof.Machine.execFlashPoll t s
  | .openAdapter => Sys2Proof.Machine.execOpenAdapter s
  | .program => Sys2Proof.Machine.execProgram s
  | .readIdCmd => Sys2Proof.Machine.execReadIdCmd s
  | .bufLoadCmd data => Sys2Proof.Machine.execBufLoadCmd data s
  | .commitCmd page => Sys2Proof.Machine.execCommitCmd page s
  | .sectorEraseCmd a2 a1 a0 => Sys2Proof.Machine.execSectorEraseCmd a2 a1 a0 s
  | .statusReadCmd => Sys2Proof.Machine.execStatusReadCmd s

end Sys2Proof.Machine
end

