-- ==== Sys2Proof/Machine/Fetch.lean ====
section
/-! DEFINITION. What the core runs next: the request port and the command slot, the acceptance of a
request (10_state.md R21, R26), illegal requests (30_encoding.md R81), reset as an input
(70_reset_and_hazards.md R163, R165), and the record of host duties (R168 to R170). -/

namespace Sys2Proof.Machine

/-- What a step finds: nothing to run, the state then being `s`; or an encoding to decode and run,
taken from the port or the slot in state `s`. -/
inductive Fetched
  | none (s : State)
  | code (c : Encoding) (s : State)

/-- Reset (70_reset_and_hazards.md R163, R165): every register as after power-up, the request in
progress abandoned; the parameters, what the outside world did and will do, what the writes left on
the pins, and the record of it stay. -/
def State.applyReset (s : State) : State :=
  { State.reset with
    params := s.params, env := s.env, log := s.log, driven := s.driven, duty := s.duty,
    pollOwed := s.pollOwed }

/-- The host's next input is taken from the port. -/
def State.dropInput (s : State) : State :=
  s.setEnv { s.env with inputs := s.env.inputs.tail }

/-- Request `r` is copied into S.REQ_HDR, S.REQ_OPND, S.REQ_DATA (10_state.md R26). -/
def State.accept (s : State) (r : Request) : State :=
  { s.dropInput with req := ⟨r.hdr, r.opnd, r.data⟩ }

/-- The command slot is emptied; its bytes are what runs. -/
def State.takeCommand (s : State) : State := { s with cmdSlot := none }

/-- What runs next. While a request is BUSY no other is accepted (10_state.md R21,
70_reset_and_hazards.md R171): a call that never returns leaves only reset, and a reset is taken only
at the head of the inputs, so not past a request that waits there (DESIGN CHOICE, log entry 11). In
AWAIT a flash command in the slot goes first, then the host's next input; with none the core waits
(R164). -/
def fetch (s : State) : Fetched :=
  match s.phase with
  | .busy _ _ =>
    match s.env.inputs with
    | .reset :: _ => .none s.dropInput.applyReset
    | _ => .none s
  | .await =>
    match s.cmdSlot with
    | some bytes => .code (.command bytes) s.takeCommand
    | none =>
      match s.env.inputs with
      | [] => .none s
      | .reset :: _ => .none s.dropInput.applyReset
      | .request r :: _ => .code (.request r) (s.accept r)

/-! ### Host duties (70_reset_and_hazards.md R168 to R170). The readings are log entry 10. -/

/-- The device that the latest write left selected, also across a reset, which undoes no selection
(R165); `none` when no write was made or what it left is unknown. -/
def State.drivenSelection (s : State) : Option Device :=
  match s.driven with
  | .byte b => selectedDevice s.params b
  | .untouched => none
  | .lost => none

/-- What the latest write left is unknown: a selection may be open (R168 (b), (c)). -/
def State.lostWire (s : State) : Bool := s.driven == .lost

/-- A Flash selection is open in which SPI_OUT has sent a byte: what comes next under Flash belongs to
that command, not to a new one (DESIGN CHOICE, log entry 10). -/
def State.midCommand (s : State) : Bool :=
  s.drivenSelection == some .flash && s.duty.opcode.isSome

/-- The commands that start an operation in the device at their deselect: COMMIT_CMD and
SECTOR_ERASE_CMD (30_encoding.md R72; R170). -/
def startsOperation (opcode : Byte) : Bool := opcode == 0x88 || opcode == 0x7C

/-- The duties a flash command (READ_ID to FLASH_POLL, PROGRAM) breaks; `poll` says it begins with a
status read, which is how a busy device is asked. -/
def engineDuties (poll : Bool) (s : State) : List DutyBreak :=
  (match s.drivenSelection with
    | some .fpga => [.selectionOpen]
    | some .flash => [.selectionOpen]
    | some .idle => []
    | none => if s.lostWire then [.selectionUnknown] else []) ++
  (if s.pollOwed && !poll then [.deviceBusy] else [])

/-- The duties a byte sequence under selection `d` breaks: a direct switch between the two devices,
and anything but a deselect while the wire is lost. R168 does not say which bytes continue an open
command sequence and which start another: bytes under the device already selected continue it, and
break no duty. Nor does it say whether bytes clocked under Idle (SPI_OUT or SPI_IN with no device
selected) while a selection is open are another command sequence: their first byte deselects, which is
taken as the close, and they break no duty either (DESIGN CHOICE both, log entry 10). -/
def busDuties (d : Device) (isSelect : Bool) (s : State) : List DutyBreak :=
  match s.drivenSelection with
  | some d0 => if d0 ≠ .idle ∧ d ≠ .idle ∧ d0 ≠ d then [.directSwitch] else []
  | none => if s.lostWire && !(isSelect && d == .idle) then [.selectionUnknown] else []

/-- Bytes clocked under Flash that begin a command while a poll is owed: a new command to a device
that may be busy (R170). -/
def busyDuties (d : Device) (s : State) : List DutyBreak :=
  if d == .flash && s.pollOwed && !s.midCommand then [.deviceBusy] else []

/-- The host duties an accepted request breaks in state `s`. A request turned away with NOT_OPEN
makes no call and breaks none (60_exceptions.md R147); an SPI_OUT of no byte makes none either, and an
SPI_IN of no byte only writes IDLE, the close R168 asks for. -/
def dutyBreaks (i : Instr) (s : State) : List DutyBreak :=
  let opened := s.handle == .opened
  match i with
  | .select d => if opened then busDuties d true s else []
  | .spiOut d data => if opened && !data.isEmpty then busDuties d false s ++ busyDuties d s else []
  | .spiIn d n =>
    if opened && n != 0 then
      busDuties d false s ++ busyDuties d s ++ (if s.wireOut.isNone then [.clockUnknown] else [])
    else []
  | .readId => if opened then engineDuties false s else []
  | .writePage _ _ => if opened then engineDuties false s else []
  | .eraseSector _ _ _ _ _ => if opened then engineDuties false s else []
  | .eraseAll _ => if opened then engineDuties false s else []
  | .flashPoll t => if opened && t != 0 then engineDuties true s else []
  | .openAdapter => []
  | .program => engineDuties false s
  | .readIdCmd => []
  | .bufLoadCmd _ => []
  | .commitCmd _ => []
  | .sectorEraseCmd _ _ _ => []
  | .statusReadCmd => []

/-- Instruction `i` ends the Flash selection that SPI_OUT requests stand in, or may, or begins a new
command: all but a SELECT of Flash, bytes that continue the command, and what makes no write. -/
def leavesCommand (i : Instr) (s : State) : Bool :=
  let opened := s.handle == .opened
  match i with
  | .select d => opened && d != .flash
  | .spiOut d data => opened && !data.isEmpty && !(d == .flash && s.midCommand)
  | .spiIn _ _ => opened
  | .readId => opened
  | .writePage _ _ => opened
  | .eraseSector _ _ _ _ _ => opened
  | .eraseAll _ => opened
  | .flashPoll t => opened && t != 0
  | .openAdapter => false
  | .program => true
  | .readIdCmd => opened
  | .bufLoadCmd _ => opened
  | .commitCmd _ => opened
  | .sectorEraseCmd _ _ _ => opened
  | .statusReadCmd => opened

/-- The first byte an SPI_OUT under Flash sends. -/
def hostOpcode : Instr → Option Byte
  | .spiOut d data => if d == .flash then data.head? else none
  | .select _ => none
  | .spiIn _ _ => none
  | .readId => none
  | .writePage _ _ => none
  | .eraseSector _ _ _ _ _ => none
  | .eraseAll _ => none
  | .flashPoll _ => none
  | .openAdapter => none
  | .program => none
  | .readIdCmd => none
  | .bufLoadCmd _ => none
  | .commitCmd _ => none
  | .sectorEraseCmd _ _ _ => none
  | .statusReadCmd => none

/-- The opcode that stands in the open Flash selection once `i` is accepted. -/
def opcodeAfter (i : Instr) (s : State) : Option Byte :=
  if leavesCommand i s then hostOpcode i else s.duty.opcode

/-- Whether a poll is owed once `i` is accepted: it is when `i` ends a selection in which SPI_OUT sent
a commit or an erase (R170). What the engine's own commands owe is set where they deselect
(startTransaction). An engine's commit or erase that a failed or hanging write cuts off before its own
deselect owes none, whatever deselects the device later, Recover or the host: R170 does not say
whether that edge starts the operation (DESIGN CHOICE, log entry 10). -/
def owedAfter (i : Instr) (s : State) : Bool :=
  s.pollOwed || (leavesCommand i s && s.duty.opcode.any startsOperation)

/-- "A model records it as a host-duty violation" (70_reset_and_hazards.md R168). -/
def noteDuties (i : Instr) (s : State) : State :=
  { s with
    duty := ⟨dutyBreaks i s ++ s.duty.broken, opcodeAfter i s⟩, pollOwed := owedAfter i s }

/-- An encoding that is no instruction. An illegal request makes no call, changes no persistent
state and ends at once with ILLEGAL (30_encoding.md R81); bytes that are no flash command are
refused, since the core never builds any (R72). -/
def rejected (c : Encoding) (s : State) : Host.Outcome State Fault Refusal :=
  match c with
  | .request _ => .next (s.finish Failure.illegal.toResult)
  | .command _ => .refused .noFlashCommand

/-- `s` with encoding `c` where the step takes its next instruction from: in phase AWAIT, a request
at the head of the host's inputs with the command slot empty, or a flash command in the slot. -/
def State.place (s : State) (c : Encoding) : State :=
  match c with
  | .request r =>
    { s with
      phase := .await, cmdSlot := none,
      env := { s.env with inputs := .request r :: s.env.inputs } }
  | .command bytes => { s with phase := .await, cmdSlot := some bytes }

end Sys2Proof.Machine
end

