-- ==== Sys2Proof/Machine/Step.lean ====
section
/-! DEFINITION. One step of the core: one request from acceptance to its result, or one flash
command; or waiting, when there is nothing to run (10_state.md R21). -/

namespace Sys2Proof.Machine

/-- The step: what is next is fetched, decoded and run. -/
def step (s : State) : Host.Outcome State Fault Refusal :=
  match fetch s with
  | .none t => .next t
  | .code c t =>
    match decode c with
    | .ok i => exec i (noteDuties i t)
    | .error _ => rejected c t

/-- `s` with the table word `w` placed where the next step takes its instruction from. -/
def State.withFetchWord (s : State) (nbits w : Nat) : State := s.place (Encoding.ofTable nbits w)

end Sys2Proof.Machine
end

