-- ==== Sys2Proof/Machine/Assembly.lean ====
section
/-! DEFINITION. The request syntax of 30_encoding.md R85: one line of text to one request. No step
of the machine reads it; it writes test programs. -/

namespace Sys2Proof.Machine

/-- The tokens of a line. -/
inductive Token
  | word (s : List Char)
  | num (n : Nat)
  | comma | lbrack | rbrack
  deriving DecidableEq, Repr

/-- The value of a digit character in base 16. -/
def digitValue (c : Char) : Option Nat :=
  if '0' ≤ c ∧ c ≤ '9' then some (c.toNat - '0'.toNat)
  else if 'a' ≤ c ∧ c ≤ 'f' then some (c.toNat - 'a'.toNat + 10)
  else if 'A' ≤ c ∧ c ≤ 'F' then some (c.toNat - 'A'.toNat + 10)
  else none

/-- Digits in base `base`, most significant first, after the value `acc`. -/
def digitsValue (base : Nat) : Nat → List Char → Option Nat
  | acc, [] => some acc
  | acc, c :: cs =>
    match digitValue c with
    | none => none
    | some d => if d < base then digitsValue base (acc * base + d) cs else none

/-- "Numbers are decimal or 0x-prefixed hex" (R85); any other run of characters is a word. -/
def runToken (run : List Char) : Option Token :=
  match run with
  | [] => none
  | '0' :: 'x' :: c :: cs => (digitsValue 16 0 (c :: cs)).map .num
  | c :: cs =>
    if '0' ≤ c ∧ c ≤ '9' then (digitsValue 10 0 (c :: cs)).map .num else some (.word (c :: cs))

/-- The token of a finished run of word characters (kept in reverse), before `rest`. -/
def flushRun (run : List Char) (rest : Option (List Token)) : Option (List Token) :=
  match run with
  | [] => rest
  | _ :: _ =>
    match runToken run.reverse, rest with
    | some t, some ts => some (t :: ts)
    | _, _ => none

/-- The tokens of a line; a semicolon begins a comment. -/
def lexLine : List Char → List Char → Option (List Token)
  | run, [] => flushRun run (some [])
  | run, c :: cs =>
    if c = ';' then flushRun run (some [])
    else if c = ' ' then flushRun run (lexLine [] cs)
    else if c = ',' then flushRun run ((lexLine [] cs).map (.comma :: ·))
    else if c = '[' then flushRun run ((lexLine [] cs).map (.lbrack :: ·))
    else if c = ']' then flushRun run ((lexLine [] cs).map (.rbrack :: ·))
    else lexLine (c :: run) cs

/-- A number of at most `w` bits. -/
def numberField (w n : Nat) : Option (BitVec w) :=
  if n < 2 ^ w then some (BitVec.ofNat w n) else none

/-- One or more bytes up to the closing bracket, and the tokens after it. -/
def byteItems : List Token → Option (List Byte × List Token)
  | .num n :: .comma :: ts =>
    match numberField 8 n, byteItems ts with
    | some b, some (bs, rest) => some (b :: bs, rest)
    | _, _ => none
  | .num n :: .rbrack :: ts => (numberField 8 n).map fun b => ([b], ts)
  | _ => none

/-- The bytes of a list after its opening bracket, and the tokens after it. -/
def byteList (ts : List Token) : Option (List Byte × List Token) :=
  match ts with
  | .rbrack :: rest => some ([], rest)
  | _ => byteItems ts

/-- sel ∈ {idle, fpga, flash} (R85). -/
def selWord (s : List Char) : Option Device :=
  if s = "idle".toList then some .idle
  else if s = "fpga".toList then some .fpga
  else if s = "flash".toList then some .flash
  else none

/-- The 264 bytes of write_page: a list, or a name of a block. R85 shows `<264 bytes>` without saying
how inline bytes are written: they are taken only in brackets with commas between, as spi_out's and
erase_sector's are (DESIGN CHOICE, log entry 15). -/
def pageBlock (blocks : List Char → Option (List Byte)) : List Token → Option (List Byte)
  | .lbrack :: ts =>
    match byteList ts with
    | some (bs, []) => some bs
    | _ => none
  | [.word name] => blocks name
  | _ => none

/-- One request per line (R85). -/
def parseTokens (blocks : List Char → Option (List Byte)) : List Token → Option Instr
  | [.word m] =>
    if m = "read_id".toList then some .readId
    else if m = "open".toList then some .openAdapter
    else if m = "program".toList then some .program
    else none
  | [.word m, .word sel] => if m = "select".toList then (selWord sel).map .select else none
  | [.word m, .num n] =>
    if m = "erase_all".toList then (numberField 32 n).map .eraseAll
    else if m = "flash_poll".toList then (numberField 32 n).map .flashPoll
    else none
  | [.word m, .word sel, .comma, .num n] =>
    if m = "spi_in".toList then
      (selWord sel).bind fun d => (numberField 16 n).map (.spiIn d)
    else none
  | .word m :: .word sel :: .comma :: .lbrack :: ts =>
    if m = "spi_out".toList then
      match selWord sel, byteList ts with
      | some d, some (bs, []) => some (.spiOut d bs)
      | _, _ => none
    else none
  | .word m :: .num page :: .comma :: ts =>
    if m = "write_page".toList then
      match numberField 13 page, pageBlock blocks ts with
      | some p, some bs => some (.writePage p bs)
      | _, _ => none
    else none
  | .word m :: .lbrack :: ts =>
    if m = "erase_sector".toList then
      match byteList ts with
      | some ([c0, c1, c2, c3], [.comma, .num t]) =>
        (numberField 32 t).map (.eraseSector c0 c1 c2 c3)
      | _ => none
    else none
  | _ => none

/-- The instruction of a line, when it is well formed; "each line encodes to one (HDR, OPND, DATA)"
(R85) by `encode`. `blocks` names the 264-byte blocks a program defines. -/
def assemble (blocks : List Char → Option (List Byte)) (line : String) : Option Instr :=
  match (lexLine [] line.toList).bind (parseTokens blocks) with
  | some i => if i.wellFormed then some i else none
  | none => none

end Sys2Proof.Machine
end

