-- ==== Sys2Proof/Safety.lean ====
section
/-! DEFINITION. The terms claims use: which requests are legal by the table of 30_encoding.md R80,
what a well-formed wire is (R65, R68), what the environment may answer (20_memory.md R49), transport
calls and their count (70_reset_and_hazards.md R175), the machine's invariant, and what a safe run
is. -/

namespace Sys2Proof

/-! ### Legal requests (30_encoding.md R80, R81) -/

/-- The row of R80 holds and RSVD = 0, said on numbers. -/
def Request.Legal (r : Request) : Prop :=
  let op := r.hdr.toNat % 16
  let sel := r.hdr.toNat / 16 % 4
  let rsvd := r.hdr.toNat / 64 % 1024
  let len := r.hdr.toNat / 65536
  let opnd := r.opnd.toNat
  rsvd = 0 ∧
    ((op = 0x1 ∧ sel ≤ 2 ∧ len = 0 ∧ opnd = 0 ∧ r.data = []) ∨
     (op = 0x2 ∧ sel ≤ 2 ∧ opnd = 0 ∧ r.data.length = len) ∨
     (op = 0x3 ∧ sel ≤ 2 ∧ opnd = 0 ∧ r.data = []) ∨
     (op = 0x4 ∧ sel = 0 ∧ len = 0 ∧ opnd = 0 ∧ r.data = []) ∨
     (op = 0x5 ∧ sel = 0 ∧ len = 264 ∧ opnd < 8192 ∧ r.data.length = 264) ∨
     (op = 0x6 ∧ sel = 0 ∧ len = 4 ∧ r.data.length = 4) ∨
     (op = 0x7 ∧ sel = 0 ∧ len = 0 ∧ r.data = []) ∨
     (op = 0x8 ∧ sel = 0 ∧ len = 0 ∧ r.data = []) ∨
     (op = 0x9 ∧ sel = 0 ∧ len = 0 ∧ opnd = 0 ∧ r.data = []) ∨
     (op = 0xA ∧ sel = 0 ∧ len = 0 ∧ opnd = 0 ∧ r.data = []))

/-- Every request of the host's: not one of the five flash commands (30_encoding.md R78). -/
def Op.isRequest : Op → Bool
  | .select | .spiOut | .spiIn | .readId | .writePage => true
  | .eraseSector | .eraseAll | .flashPoll | .openAdapter | .program => true
  | .readIdCmd | .bufLoadCmd | .commitCmd | .sectorEraseCmd | .statusReadCmd => false

/-- The requests that need a handle (60_exceptions.md R147): every one but OPEN and PROGRAM. -/
def Op.needsHandle : Op → Bool
  | .select | .spiOut | .spiIn | .readId | .writePage => true
  | .eraseSector | .eraseAll | .flashPoll => true
  | .openAdapter | .program => false
  | .readIdCmd | .bufLoadCmd | .commitCmd | .sectorEraseCmd | .statusReadCmd => true

end Sys2Proof

namespace Sys2Proof.Machine

/-! ### The wire -/

/-- The form of every control byte the core writes (30_encoding.md R65). -/
def ControlByteForm (P : Params) (b : Byte) : Prop := ∃ d c o, b = controlByte P d c o

/-- An event whose bytes, direction or code the spec allows: control bytes only, in a nonempty
write (20_memory.md R40, 30_encoding.md R65); IDLE_DIRECTION or PROGRAM_DIRECTION in BITBANG_MODE
(20_memory.md R44); reads of a page; a result code of the table (30_encoding.md R83). -/
def Event.Formed (P : Params) : Event → Prop
  | .openCall vid pid _ => vid = P.vid ∧ pid = P.pid
  | .setDir d m _ => (d = idleDirection P ∨ d = programDirection P) ∧ m = P.bitbangMode
  | .write bs _ => bs ≠ [] ∧ ∀ b ∈ bs, ControlByteForm P b
  | .readPins _ => True
  | .streamRead n _ => n = Config.pageSize
  | .diag _ => True
  | .result code _ _ => code.toNat ≤ 6

/-- A call on the transport port (00_scope.md R14): not a stream read, a report or a result. -/
def Event.isTxCall : Event → Bool
  | .openCall _ _ _ => true
  | .setDir _ _ _ => true
  | .write _ _ => true
  | .readPins _ => true
  | .streamRead _ _ => false
  | .diag _ => false
  | .result _ _ _ => false

/-- TxOpen. -/
def Event.isOpenCall : Event → Bool
  | .openCall _ _ _ => true
  | .setDir _ _ _ => false
  | .write _ _ => false
  | .readPins _ => false
  | .streamRead _ _ => false
  | .diag _ => false
  | .result _ _ _ => false

/-- The transport calls in a list of events (70_reset_and_hazards.md R175). -/
def txCalls (es : List Event) : Nat := es.countP Event.isTxCall

/-- The Write event of one byte's SpiWord under Flash, answered Ok. -/
def spiWordEvent (P : Params) (d : Device) (b : Byte) : Event := .write (spiWord P d b) (.ok ())

/-- The Write event of IDLE, answered Ok. -/
def idleEvent (P : Params) : Event := .write [idleByte P] (.ok ())

/-- What the adapter holds between two steps: UNKNOWN, or a selection pattern, its clock low
(70_reset_and_hazards.md R169); and the shadow S.WIRE_OUT, where it is known, is what the latest write
left. -/
def State.WireAtRest (s : State) : Prop :=
  ∀ b, (s.wireOut = some b → s.driven = .byte b) ∧
    (s.driven = .byte b → ∃ d, b = selpat s.params d)

/-- The direction the adapter holds is one of the two the core sets (20_memory.md R44). -/
def State.DirFormed (s : State) : Prop :=
  ∀ d, s.wireDir = some d → d = idleDirection s.params ∨ d = programDirection s.params

/-- The lengths of the fixed buffers and counts (10_state.md R27, R30, 30_encoding.md R83). -/
structure State.Shapes (s : State) : Prop where
  w : s.spi.w.length = 17
  pagebuf : s.flow.pagebuf.length = 264
  k : s.flow.k.toNat ≤ 264
  code : s.result.code.toNat ≤ 6

/-- The invariant of the machine: every event of the trace is formed, the wire and the direction are
as the core leaves them, and the buffers have their lengths. -/
structure State.Inv (s : State) : Prop where
  events : ∀ e ∈ s.log, e.Formed s.params
  wire : s.WireAtRest
  dir : s.DirFormed
  shapes : s.Shapes

/-- The first transport call ever made is TxOpen, and a handle is held only after one
(70_reset_and_hazards.md R164). -/
structure State.OpenedFirst (s : State) : Prop where
  first : ∀ e, s.trace.find? Event.isTxCall = some e → e.isOpenCall = true
  opened : s.handle = .opened → s.log.any Event.isOpenCall = true

/-! ### The environment's answers -/

/-- A listed answer that is a return: no call hangs (70_reset_and_hazards.md R176). -/
def TxAnswer.returns : TxAnswer → Bool
  | .ok _ _ => true
  | .err _ => true
  | .never => false

def StreamAnswer.returns : StreamAnswer → Bool
  | .ok => true
  | .err _ _ => true
  | .never _ => false

/-- Every transport and stream call returns. -/
def Env.returns (e : Env) : Bool :=
  e.answers.all TxAnswer.returns && e.streamAnswers.all StreamAnswer.returns

/-- Ok answers, one per pin byte: what a call other than read_pins does with its pin byte is
nothing. -/
def yes (pins : List Byte) : List TxAnswer := pins.map (.ok none)

/-- The level of the data-in pin in the `n`-th of a list of pin bytes. -/
def levelAt (P : Params) (pins : List Byte) (n : Nat) : Bool := dataInLevel P (pins.getD n 0)

/-- The answers of a poll that reads ready first in its `k`-th iteration: 27 calls an iteration, the
ready bit the first sample of each (42_flash_engine.md R127). -/
def PollReady (P : Params) (k : Nat) (pins : List Byte) : Prop :=
  0 < k ∧ pins.length = 27 * k ∧ ∀ j < k, levelAt P pins (27 * j + 1) = decide (j + 1 = k)

/-- The answers of `t` poll iterations none of which reads ready. -/
def PollBusy (P : Params) (t : Nat) (pins : List Byte) : Prop :=
  pins.length = 27 * t ∧ ∀ j < t, levelAt P pins (27 * j + 1) = false

/-- `lead` Ok answers, then a poll that reads ready within the budget `t`. -/
def ReadyAfter (P : Params) (lead : Nat) (t : Word) (pins : List Byte) : Prop :=
  ∃ k ≤ t.toNat, lead ≤ pins.length ∧ PollReady P k (pins.drop lead)

/-- `bytes` are what SpiIn assembles from the samples of a list of pin bytes that begins at `base`,
three calls a bit, most significant bit first (41_spi_bitbanger.md R100, R102). -/
def Sampled (P : Params) (pins : List Byte) (base : Nat) (bytes : List Byte) : Prop :=
  ∀ j < bytes.length, ∀ i < 8,
    (bytes.getD j 0).getLsbD i = levelAt P pins (base + 24 * j + 3 * (7 - i))

/-! ### The events of a run whose calls all succeed -/

/-- The events of SpiIn's bits: sample, clock high, clock low, three pin bytes a bit, of which the
first is the sample (41_spi_bitbanger.md R102). -/
def sampleEvents (P : Params) (d : Device) : List Byte → List Event
  | pins :: _ :: _ :: rest =>
    [.readPins (.ok pins), .write [selpat P d ||| pinBit P .clk] (.ok ()),
      .write [selpat P d] (.ok ())] ++ sampleEvents P d rest
  | _ => []

/-- The events of SpiOut: one write of 17 bytes per data byte (41_spi_bitbanger.md R96). -/
def spiOutEvents (P : Params) (d : Device) (data : List Byte) : List Event :=
  data.map (spiWordEvent P d)

/-- The events of SpiIn(n, d) on a list of 24n + 1 answers (41_spi_bitbanger.md R102). -/
def spiInEvents (P : Params) (d : Device) (n : Nat) (pins : List Byte) : List Event :=
  sampleEvents P d (pins.take (24 * n)) ++ [idleEvent P]

/-- A flash command with an answer of `n` bytes, on 24n + 3 answers (42_flash_engine.md R108, R127). -/
def readEvents (P : Params) (opcode : Byte) (n : Nat) (pins : List Byte) : List Event :=
  [spiWordEvent P .flash opcode] ++ spiInEvents P .flash n (pins.drop 1) ++ [idleEvent P]

/-- A flash command without an answer: its bytes, then the deselect (42_flash_engine.md R119). -/
def commandEvents (P : Params) (bytes : List Byte) : List Event :=
  spiOutEvents P .flash bytes ++ [idleEvent P]

/-- `k` poll iterations on 27k answers (42_flash_engine.md R127). -/
def pollEvents (P : Params) : Nat → List Byte → List Event
  | 0, _ => []
  | k + 1, pins => readEvents P 0xD7 1 pins ++ pollEvents P k (pins.drop 27)

/-- EraseSector on 5 + 27k answers (42_flash_engine.md R119). -/
def eraseEvents (P : Params) (cmd : List Byte) (pins : List Byte) : List Event :=
  commandEvents P cmd ++ pollEvents P ((pins.length - 5) / 27) (pins.drop 5)

/-- WritePage on 274 + 27k answers (42_flash_engine.md R114). -/
def pageEvents (P : Params) (data : List Byte) (page : Page) (pins : List Byte) : List Event :=
  commandEvents P (bufLoadBytes ++ data) ++ commandEvents P (commitBytes page)
    ++ pollEvents P ((pins.length - 274) / 27) (pins.drop 274)

/-- PROGRAM's step 4 over whole pages of the stream, the first of them page `p`: a read and a page
write for each (43_workflow.md R138, R143). -/
def fullPageEvents (P : Params) (stream : List Byte) : Nat → List (List Byte) → List Event
  | _, [] => []
  | p, pins :: rest =>
    [.streamRead 264 (.ok (stream.take 264))]
      ++ pageEvents P (stream.take 264) (BitVec.ofNat 13 p) pins
      ++ fullPageEvents P (stream.drop 264) (p + 1) rest

/-- PROGRAM's steps 1 to 3 when every call succeeds: the open when the handle was closed, the idle
direction, the identifier, its report, the program direction and the erase (43_workflow.md R143). -/
def programHead (P : Params) (closed : Bool) (idPins : List Byte) (id : Word)
    (eraseSegs : List (List Byte)) : List Event :=
  (if closed then [.openCall P.vid P.pid (.ok ())] else [])
    ++ [.setDir (idleDirection P) P.bitbangMode (.ok ())]
    ++ readEvents P 0x9F 4 idPins
    ++ [.diag id, .setDir (programDirection P) P.bitbangMode (.ok ())]
    ++ (List.zipWith (eraseEvents P) eraseList eraseSegs).flatten

/-! ### Calls that fail -/

/-- The error of a call's answer. -/
def Reply.error? {α : Type} : Reply α → Option Payload
  | .ok _ => none
  | .err e => some e

/-- The error a call was answered with, as the request reports it: Stream for a stream read, Transport
for every other call (60_exceptions.md R145). -/
def Event.failure? : Event → Option Failure
  | .openCall _ _ o => o.error?.map .transport
  | .setDir _ _ o => o.error?.map .transport
  | .write _ o => o.error?.map .transport
  | .readPins o => o.error?.map .transport
  | .streamRead _ o => o.error?.map .stream
  | .diag _ => none
  | .result _ _ _ => none

/-- The error of the first call of a list that failed. -/
def firstFailure (calls : List Event) : Option Failure := calls.findSome? Event.failure?

/-- Call number `n` of SpiIn, answered Ok: of every three the first is the sample, the others the
clock's two halves (41_spi_bitbanger.md R100). -/
def spiInCall (P : Params) (d : Device) (n : Nat) (pins : Byte) : Event :=
  if n % 3 = 0 then .readPins (.ok pins)
  else if n % 3 = 1 then .write [selpat P d ||| pinBit P .clk] (.ok ())
  else .write [selpat P d] (.ok ())

/-- Call number `n` of SpiIn, answered with an error. -/
def spiInFail (P : Params) (d : Device) (n : Nat) (e : Payload) : Event :=
  if n % 3 = 0 then .readPins (.err e)
  else if n % 3 = 1 then .write [selpat P d ||| pinBit P .clk] (.err e)
  else .write [selpat P d] (.err e)

/-- The answer a best-effort write of IDLE meets: what its event carries, and what the adapter then
holds (60_exceptions.md R150; 20_memory.md R40, R41). -/
inductive IdleAnswer (P : Params) : TxAnswer → Reply Unit → Option Byte → Prop
  | ok (pins : Byte) : IdleAnswer P (.ok none pins) (.ok ()) (some (idleByte P))
  | err (e : Payload) : IdleAnswer P (.err e) (.err e) none

/-! ### The engine's commands step by step -/

/-- The steps the flash commands are made of (30_encoding.md R86): SpiOut under Flash, SpiIn under
Flash, Select(Idle), which may start a program or an erase in the device (70_reset_and_hazards.md
R170), and a poll with `left` iterations of its budget left. -/
inductive EngineStep
  | send (bytes : List Byte)
  | receive (n : Nat)
  | deselect (starts : Bool)
  | poll (left : Nat)
  deriving DecidableEq, Repr

/-- One status read (42_flash_engine.md R126). -/
def pollScript : List EngineStep := [.send [0xD7], .receive 1, .deselect false]

/-- EraseSector(cmd, t) (30_encoding.md R86). -/
def eraseScript (t : Word) (cmd : List Byte) : List EngineStep :=
  [.send cmd, .deselect true, .poll t.toNat]

/-- The expansion of an engine command into its steps (30_encoding.md R86); the flash commands of the
slot are the transactions of the expansion (log entry 2). -/
def engineScript (P : Params) : Instr → List EngineStep
  | .readId => [.send [0x9F], .receive 4, .deselect false]
  | .writePage page data =>
    [.send [0x84, 0x00, 0x00, 0x00], .send data, .deselect false, .send (commitBytes page),
      .deselect true, .poll P.writeTimeout.toNat]
  | .eraseSector c0 c1 c2 c3 t => eraseScript t [c0, c1, c2, c3]
  | .eraseAll t => eraseList.flatMap (eraseScript t)
  | .flashPoll t => [.poll t.toNat]
  | .readIdCmd => [.send [0x9F], .receive 4, .deselect false]
  | .bufLoadCmd data => [.send [0x84, 0x00, 0x00, 0x00], .send data, .deselect false]
  | .commitCmd page => [.send (commitBytes (page.setWidth 13)), .deselect true]
  | .sectorEraseCmd a2 a1 a0 => [.send [0x7C, a2, a1, a0], .deselect true]
  | .statusReadCmd => pollScript
  | .select _ => []
  | .spiOut _ _ => []
  | .spiIn _ _ => []
  | .openAdapter => []
  | .program => []

/-- What a command leaves outside: the byte on the wire, and whether a poll is owed, the model's own
record (log entry 10). -/
structure BusView where
  wire : Option Byte
  owed : Bool
  deriving DecidableEq, Repr

/-- `Reaches P l v pins es m w`: the steps `l`, begun with the bus as `v` and answered Ok with the pin
bytes `pins`, make the calls `es` and come to the steps `m` with the bus as `w`. A poll goes on while
its status reads are not ready; a stop inside one of its status reads is reached by `inside`. -/
inductive Reaches (P : Params) :
    List EngineStep → BusView → List Byte → List Event → List EngineStep → BusView → Prop
  | here (l : List EngineStep) (v : BusView) : Reaches P l v [] [] l v
  | send {bytes now pins : List Byte} {r m : List EngineStep} {v w : BusView} {es : List Event}
      (hn : now.length = bytes.length)
      (h : Reaches P r ⟨if bytes = [] then v.wire else some (selpat P .flash), v.owed⟩ pins es m w) :
      Reaches P (.send bytes :: r) v (now ++ pins) (spiOutEvents P .flash bytes ++ es) m w
  | receive {n : Nat} {now pins : List Byte} {r m : List EngineStep} {v w : BusView}
      {es : List Event} (hn : now.length = 24 * n + 1)
      (h : Reaches P r ⟨some (idleByte P), v.owed⟩ pins es m w) :
      Reaches P (.receive n :: r) v (now ++ pins) (spiInEvents P .flash n now ++ es) m w
  | deselect {starts : Bool} (pin : Byte) {pins : List Byte} {r m : List EngineStep}
      {v w : BusView} {es : List Event}
      (h : Reaches P r ⟨some (idleByte P), starts || v.owed⟩ pins es m w) :
      Reaches P (.deselect starts :: r) v (pin :: pins) (idleEvent P :: es) m w
  | ready {left : Nat} {now pins : List Byte} {r m : List EngineStep} {v w : BusView}
      {es : List Event} (hn : now.length = 27) (hr : levelAt P now 1 = true)
      (h : Reaches P r ⟨some (idleByte P), false⟩ pins es m w) :
      Reaches P (.poll (left + 1) :: r) v (now ++ pins) (readEvents P 0xD7 1 now ++ es) m w
  | busy {left : Nat} {now pins : List Byte} {r m : List EngineStep} {v w : BusView}
      {es : List Event} (hn : now.length = 27) (hr : levelAt P now 1 = false)
      (h : Reaches P (.poll left :: r) ⟨some (idleByte P), v.owed⟩ pins es m w) :
      Reaches P (.poll (left + 1) :: r) v (now ++ pins) (readEvents P 0xD7 1 now ++ es) m w
  | inside {left : Nat} {pins : List Byte} {r m : List EngineStep} {x : EngineStep}
      {v w : BusView} {es : List Event} (h : Reaches P pollScript v pins es (x :: m) w) :
      Reaches P (.poll (left + 1) :: r) v pins es (x :: m) w

/-- A transport error inside a SpiOut or a SpiIn of the engine, and the recovery after it
(60_exceptions.md R150, R151): the answers met, the calls made, the error, and what the wire then
holds. In order: the write of byte `b` fails; a call of SpiIn's bits fails, SpiIn writes its own IDLE
and Recover another; SpiIn's closing IDLE fails, and Recover writes one more. -/
inductive PhaseFails (P : Params) :
    EngineStep → List TxAnswer → List Event → Payload → Option Byte → Prop
  | send {sent more pins : List Byte} {b : Byte} {e : Payload} {a : TxAnswer} {o : Reply Unit}
      {w : Option Byte} (hn : pins.length = sent.length) (hi : IdleAnswer P a o w) :
      PhaseFails P (.send (sent ++ b :: more)) (yes pins ++ [.err e, a])
        (spiOutEvents P .flash sent ++
          [.write (spiWord P .flash b) (.err e), .write [idleByte P] o]) e w
  | receive {n : Nat} {pins : List Byte} {e : Payload} {a1 a2 : TxAnswer} {o1 o2 : Reply Unit}
      {w1 w2 : Option Byte} (hn : pins.length < 24 * n) (h1 : IdleAnswer P a1 o1 w1)
      (h2 : IdleAnswer P a2 o2 w2) :
      PhaseFails P (.receive n) (yes pins ++ [.err e, a1, a2])
        ((List.range pins.length).map (fun k => spiInCall P .flash k (pins.getD k 0)) ++
          [spiInFail P .flash pins.length e, .write [idleByte P] o1, .write [idleByte P] o2]) e w2
  | close {n : Nat} {pins : List Byte} {e : Payload} {a : TxAnswer} {o : Reply Unit}
      {w : Option Byte} (hn : pins.length = 24 * n) (hi : IdleAnswer P a o w) :
      PhaseFails P (.receive n) (yes pins ++ [.err e, a])
        (sampleEvents P .flash pins ++
          [.write [idleByte P] (.err e), .write [idleByte P] o]) e w

/-- How a step of the engine fails: in a SpiOut or a SpiIn, at its deselect, which is not recovered
from (60_exceptions.md R151 (a)), or as a poll whose budget is used up. -/
inductive StepFails (P : Params) :
    EngineStep → BusView → List TxAnswer → List Event → Failure → BusView → Prop
  | phase {x : EngineStep} {v : BusView} {as : List TxAnswer} {es : List Event} {e : Payload}
      {w : Option Byte} (h : PhaseFails P x as es e w) :
      StepFails P x v as es (.transport e) ⟨w, v.owed⟩
  | deselect (starts : Bool) (v : BusView) (e : Payload) :
      StepFails P (.deselect starts) v [.err e] [.write [idleByte P] (.err e)] (.transport e)
        ⟨none, starts || v.owed⟩
  | timeout (v : BusView) : StepFails P (.poll 0) v [] [] .timeout v

/-- Instruction `i`, run from `s` to `t`, fails as `f` after the calls `es` and leaves the bus as `v`:
a request with the result `r`, a flash command of the slot with its outcome (log entry 2). -/
structure State.FailsWith (s t : State) (i : Instr) (f : Failure) (r : Result) (es : List Event)
    (v : BusView) : Prop where
  phase : t.phase = .await
  wire : t.wireOut = v.wire
  owed : t.pollOwed = v.owed
  request : i.op.isRequest = true → t.result = r ∧ t.resultReady = true ∧
    t.trace = s.trace ++ es ++ [.result r.code r.value r.data]
  command : i.op.isRequest = false →
    t.cmdOutcome = some f ∧ t.result = s.result ∧ t.trace = s.trace ++ es

/-! ### The write contract -/

/-- An answer with its count taken away: it then stands for the right one (log entry 9). -/
def TxAnswer.uncounted : TxAnswer → TxAnswer
  | .ok _ pins => .ok none pins
  | .err e => .err e
  | .never => .never

/-- `s` with the counts of the listed answers taken away. -/
def State.uncounted (s : State) : State :=
  { s with env := { s.env with answers := s.env.answers.map TxAnswer.uncounted } }

/-- A wrong count is answered to a write: of the transport calls the run from `s` to `t` makes, some
one, the `n`-th, is a write, and the `n`-th answer listed in `s` is Ok with another count than the
number of its bytes (20_memory.md R42). -/
def State.Miscounted (s t : State) : Prop :=
  ∃ (calls : List Event) (n c : Nat) (p : Byte) (bs : List Byte) (o : Reply Unit),
    t.trace = s.trace ++ calls ∧ (calls.filter Event.isTxCall)[n]? = some (.write bs o) ∧
    s.env.answers[n]? = some (TxAnswer.ok (some c) p) ∧ c ≠ bs.length

/-! ### Frames -/

/-- What no instruction but OPEN and PROGRAM changes once it runs (10_state.md R22 to R26, R30): the
parameters, the persistent registers, the request and workflow registers, the direction, the slot,
the duties, the inputs and the stream. -/
structure State.KeptByBus (s t : State) : Prop where
  params : t.params = s.params
  handle : t.handle = s.handle
  lastPage : t.lastPage = s.lastPage
  req : t.req = s.req
  flow : t.flow = s.flow
  wireDir : t.wireDir = s.wireDir
  cmdSlot : t.cmdSlot = s.cmdSlot
  duty : t.duty = s.duty
  inputs : t.env.inputs = s.env.inputs
  streamAnswers : t.env.streamAnswers = s.env.streamAnswers
  stream : t.env.stream = s.env.stream

/-- The calls of a trace, the results left out. -/
def Event.isCall : Event → Bool
  | .openCall _ _ _ => true
  | .setDir _ _ _ => true
  | .write _ _ => true
  | .readPins _ => true
  | .streamRead _ _ => true
  | .diag _ => true
  | .result _ _ _ => false

/-! ### Safe runs -/

/-- No host duty has been broken, so claims about the device have a premise to rest on
(70_reset_and_hazards.md R168). -/
def State.DutyKept (s : State) : Prop := s.duty.broken = []

/-- The clock-low precondition of SPI_IN holds (70_reset_and_hazards.md R169). -/
def State.ClockLow (s : State) : Prop :=
  ∃ b, s.wireOut = some b ∧ b.getLsbD (s.params.pinPos .clk).val = false

end Sys2Proof.Machine
end

