-- ==== Sys2Proof/Certificates/Slice0/Obligations.lean ====
section
/-! DEFINITION. The statements for the provers: encodings, the Pin Model, reset, what every
instruction does, errors and recovery, frames, and the invariants of a step. -/

section

open Sys2Proof Sys2Proof.Machine

/-! ### Encodings -/

/-- Decoding the encoding of a well-formed instruction gives it back, every operand at every value its
encoding admits (30_encoding.md R71 to R73, R77 to R82). -/
def Obligations.DecodeOfEncode : Prop :=
  ∀ i : Instr, i.wellFormed = true → decode (encode i) = .ok i

/-- An encoding has one meaning: whatever decodes is the encoding of what it decodes to, so no two
encodings stand for one instruction (30_encoding.md R77 to R80, R87). -/
def Obligations.EncodeOfDecode : Prop :=
  ∀ (c : Encoding) (i : Instr), decode c = .ok i → encode i = c

/-- What is decoded is well formed, holds its row's match and mask of the opcode table, and holds no
other row's among requests or among commands (30_encoding.md R78, R80, R87). -/
def Obligations.DecodedHoldsItsRowOnly : Prop :=
  ∀ (c : Encoding) (i : Instr), decode c = .ok i →
    i.wellFormed = true ∧ i.op.row.matches c = true ∧
      ∀ o : Op, o ≠ i.op → o.isRequest = i.op.isRequest → o.row.matches c = false

/-- 30_encoding.md R80: a request decodes exactly when it is legal. -/
def Obligations.LegalIffDecodes : Prop :=
  ∀ r : Request, r.Legal ↔ ∃ i, decode (.request r) = .ok i

/-- 30_encoding.md R82: the exact header of every request, at every operand. -/
def Obligations.RequestWords : Prop :=
  encode (.select .idle) = .request ⟨0x00000001, 0, []⟩ ∧
  encode (.select .fpga) = .request ⟨0x00000011, 0, []⟩ ∧
  encode (.select .flash) = .request ⟨0x00000021, 0, []⟩ ∧
  (∀ data : List Byte, data.length < 65536 → encode (.spiOut .flash data) =
    .request ⟨BitVec.ofNat 32 (data.length * 65536 + 0x22), 0, data⟩) ∧
  (∀ n : BitVec 16, encode (.spiIn .flash n) =
    .request ⟨BitVec.ofNat 32 (n.toNat * 65536 + 0x23), 0, []⟩) ∧
  encode .readId = .request ⟨0x00000004, 0, []⟩ ∧
  (∀ (p : Page) (data : List Byte), encode (.writePage p data) =
    .request ⟨0x01080005, BitVec.ofNat 32 p.toNat, data⟩) ∧
  (∀ (a b c d : Byte) (t : Word), encode (.eraseSector a b c d t) =
    .request ⟨0x00040006, t, [a, b, c, d]⟩) ∧
  (∀ t : Word, encode (.eraseAll t) = .request ⟨0x00000007, t, []⟩) ∧
  (∀ t : Word, encode (.flashPoll t) = .request ⟨0x00000008, t, []⟩) ∧
  encode .openAdapter = .request ⟨0x00000009, 0, []⟩ ∧
  encode .program = .request ⟨0x0000000A, 0, []⟩

/-- Words written out from the spec's encodings decode to their instructions (30_encoding.md R72, R73,
R82): a request of every kind with no data, and flash commands. That decodeTableWord lays a request out
in one table word, HDR in bits 31..0 and OPND in bits 63..32, is the model's choice (log entry 2). -/
def Obligations.SampleWordsDecode : Prop :=
  decodeTableWord 32 0x00000021 = some (.select .flash) ∧
  decodeTableWord 32 0x00000022 = some (.spiOut .flash []) ∧
  decodeTableWord 32 0x00040023 = some (.spiIn .flash 4) ∧
  decodeTableWord 32 0x00000004 = some .readId ∧
  decodeTableWord 64 0x000003E800000007 = some (.eraseAll 1000) ∧
  decodeTableWord 64 0x0000000300000008 = some (.flashPoll 3) ∧
  decodeTableWord 32 0x00000009 = some .openAdapter ∧
  decodeTableWord 32 0x0000000A = some .program ∧
  decodeTableWord 32 0x00000031 = none ∧
  decodeTableWord 32 0x0000000B = none ∧
  decode (.command [0x88, 0x00, 0x0A, 0x00]) = .ok (.commitCmd 5) ∧
  decode (.command [0x7C, 0x00, 0x10, 0x00]) = .ok (.sectorEraseCmd 0x00 0x10 0x00) ∧
  decode (.command [0xD7]) = .ok .statusReadCmd ∧
  decode (.command [0x9F]) = .ok .readIdCmd

/-- 30_encoding.md R73: the address of COMMIT_CMD; only ten bits of the page reach it, so pages that
agree modulo 1024, and no others, send the same address. -/
def Obligations.CommitAddress : Prop :=
  (∀ page : Page, ∃ a2 a1 : Byte, commitBytes page = [0x88, a2, a1, 0x00] ∧
    a2.toNat = page.toNat / 128 % 8 ∧ a1.toNat = 2 * (page.toNat % 128)) ∧
  (∀ p q : Page, commitBytes p = commitBytes q ↔ p.toNat % 1024 = q.toNat % 1024) ∧
  commitBytes 5 = [0x88, 0x00, 0x0A, 0x00] ∧ commitBytes 128 = [0x88, 0x01, 0x00, 0x00] ∧
  commitBytes 1023 = [0x88, 0x07, 0xFE, 0x00]

/-- 30_encoding.md R74: the commands of ERASE_ALL, in order, and the pages their address bytes name
through the layout of the commit command. -/
def Obligations.EraseCommands : Prop :=
  eraseList.length = 18 ∧
  eraseList[0]? = some [0x7C, 0x00, 0x00, 0x00] ∧
  eraseList[1]? = some [0x7C, 0x00, 0x10, 0x00] ∧
  (∀ i : Nat, 1 ≤ i → i ≤ 16 →
    eraseList[1 + i]? = some [0x7C, BitVec.ofNat 8 (2 * i), 0x00, 0x00]) ∧
  commitBytes 8 = [0x88, 0x00, 0x10, 0x00] ∧
  ∀ i : Nat, i ≤ 3 →
    commitBytes (BitVec.ofNat 13 (256 * i)) = [0x88, BitVec.ofNat 8 (2 * i), 0x00, 0x00]

/-- 20_memory.md R52: the identifier is little-endian (the example is that of 30_encoding.md R76). -/
def Obligations.IdentifierLittleEndian : Prop :=
  (∀ b0 b1 b2 b3 : Byte, (identifier [b0, b1, b2, b3]).toNat =
    b0.toNat + 256 * b1.toNat + 65536 * b2.toNat + 16777216 * b3.toNat) ∧
  identifier [0x1F, 0x25, 0x00, 0x00] = 0x0000251F

/-! ### The Pin Model -/

/-- 30_encoding.md R64: selpat(d) asserts exactly the chip-select of d, every other bit 0, and its
values for the reference positions under both polarities. -/
def Obligations.SelectionPattern : Prop :=
  (∀ (P : Params) (d : Device), P.wf = true →
    asserts P .csFpga (selpat P d) = (d == .fpga) ∧
    asserts P .csFlash (selpat P d) = (d == .flash) ∧
    (∀ n : Nat, n ≠ P.posCsFpga.val → n ≠ P.posCsFlash.val →
      (selpat P d).getLsbD n = false) ∧
    idleByte P = selpat P .idle) ∧
  (∀ d : Device, selpat Params.reset d =
    match d with | .idle => 0x03 | .fpga => 0x02 | .flash => 0x01) ∧
  (∀ d : Device, selpat { Params.reset with csActiveLow := false } d =
    match d with | .idle => 0x00 | .fpga => 0x01 | .flash => 0x02)

/-- 30_encoding.md R66: the two direction bytes, pin by pin, and their reference values. -/
def Obligations.DirectionBytes : Prop :=
  (∀ (P : Params) (n : Nat), n < 8 →
    ((idleDirection P).getLsbD n = true ↔
      n = P.posClk.val ∨ n = P.posDataOut.val ∨ n = P.posCsFpga.val ∨ n = P.posCsFlash.val) ∧
    ((programDirection P).getLsbD n = true ↔
      (idleDirection P).getLsbD n = true ∨ n = P.posProgEnable.val)) ∧
  (∀ P : Params, P.wf = true → (idleDirection P).getLsbD P.posDataIn.val = false ∧
    (programDirection P).getLsbD P.posDataIn.val = false ∧
    (idleDirection P).getLsbD P.posProgEnable.val = false) ∧
  idleDirection Params.reset = 0x0F ∧ programDirection Params.reset = 0x2F

/-- 30_encoding.md R69: the 17 entries of a SpiWord, and the reference example. -/
def Obligations.SpiWordEntries : Prop :=
  (∀ (P : Params) (d : Device) (b : Byte), (spiWord P d b).length = 17 ∧
    (∀ i : Nat, i < 8 →
      (spiWord P d b)[2 * i]? =
        some (selpat P d ||| if b.getLsbD (7 - i) then pinBit P .dataOut else 0x00) ∧
      (spiWord P d b)[2 * i + 1]? =
        some ((selpat P d ||| if b.getLsbD (7 - i) then pinBit P .dataOut else 0x00)
          ||| pinBit P .clk)) ∧
    (spiWord P d b)[16]? = some (selpat P d)) ∧
  spiWord Params.reset .flash 0x9F = [0x09, 0x0D, 0x01, 0x05, 0x01, 0x05, 0x09, 0x0D, 0x09, 0x0D,
    0x09, 0x0D, 0x09, 0x0D, 0x09, 0x0D, 0x01]

/-- 30_encoding.md R65, R68: in every step, every byte written has the form of a control byte; so it
never sets PE, DI or an unassigned bit, and never asserts both chip-selects. The premise Inv speaks
of the bytes written before the step; StepKeepsInv states that every step keeps it. -/
def Obligations.WrittenBytes : Prop :=
  ∀ s t : State, s.Inv → s.params.wf = true → step s = .next t →
    ∀ bs o b, Event.write bs o ∈ t.log → b ∈ bs →
      ControlByteForm t.params b ∧
      (asserts t.params .csFpga b && asserts t.params .csFlash b) = false ∧
      ∀ n : Nat, n ≠ t.params.posCsFpga.val → n ≠ t.params.posCsFlash.val →
        n ≠ t.params.posClk.val → n ≠ t.params.posDataOut.val → b.getLsbD n = false

/-- 30_encoding.md R67: under PROGRAM_DIRECTION the program-enable pin is driven, at the level of its
bit in the adapter's output byte, which is 0 in every byte the core writes; under IDLE_DIRECTION it is
not driven. -/
def Obligations.ProgramEnableLevel : Prop :=
  ∀ s : State, s.params.wf = true →
    (∀ b, s.wireDir = some (programDirection s.params) → s.wireOut = some b →
      progEnableLevel s = some (b.getLsbD s.params.posProgEnable.val) ∧
      (s.Inv → progEnableLevel s = some false)) ∧
    (s.wireDir = some (idleDirection s.params) → progEnableLevel s = none)

/-- 70_reset_and_hazards.md R169: whatever the core leaves on the wire has its clock low. -/
def Obligations.ClockLowAtRest : Prop :=
  ∀ s : State, s.Inv → s.params.wf = true → s.wireOut ≠ none → s.ClockLow

/-! ### Reset, the step, and the requests it accepts -/

/-- 70_reset_and_hazards.md R163: the values reset gives, at power-up and as an input; it changes no
parameter. (The registers R163 calls unspecified are the model's choice, log entry 4.) -/
def Obligations.ResetState : Prop :=
  (∀ s t : State, t = State.reset ∨ t = s.applyReset →
    t.phase = .await ∧ t.handle = .closed ∧ t.lastPage = none ∧ t.resultReady = false ∧
      t.wireOut = none ∧ t.wireDir = none) ∧
  ∀ s : State, s.applyReset.params = s.params

/-- A step runs the decoded instruction: a request at the head of the inputs is copied into the
request registers (10_state.md R26), its host duties are recorded (log entry 10), and exec runs it; a
flash command in the slot goes first (log entry 2). -/
def Obligations.StepRunsDecoded : Prop :=
  (∀ (s : State) (r : Request) (rest : List HostInput) (i : Instr),
    s.phase = .await → s.cmdSlot = none → s.env.inputs = .request r :: rest →
    decode (.request r) = .ok i →
    step s = exec i (noteDuties i (s.accept r)) ∧
      (s.accept r).req = ⟨r.hdr, r.opnd, r.data⟩ ∧ (s.accept r).env.inputs = rest) ∧
  (∀ (s : State) (bytes : List Byte) (i : Instr),
    s.phase = .await → s.cmdSlot = some bytes → decode (.command bytes) = .ok i →
    step s = exec i (noteDuties i s.takeCommand) ∧ s.takeCommand.cmdSlot = none)

/-- A request that is not legal makes no call, changes no persistent state and ends at once with
ILLEGAL, whatever the handle is (30_encoding.md R81). That the request registers hold it in AWAIT is the
model's: R26 of 10_state.md copies it at acceptance and calls them undefined there (log entry 12). -/
def Obligations.IllegalRequest : Prop :=
  ∀ (s : State) (r : Request) (rest : List HostInput),
    s.phase = .await → s.cmdSlot = none → s.env.inputs = .request r :: rest → ¬ r.Legal →
    step s = .next { s with
      req := ⟨r.hdr, r.opnd, r.data⟩, env := { s.env with inputs := rest },
      result := ⟨0x05, 0, []⟩, resultReady := true, log := .result 0x05 0 [] :: s.log }

/-- When the core runs nothing. In AWAIT with no request to take it waits, makes no call and changes
nothing, from reset too (70_reset_and_hazards.md R164). While a request is BUSY no other is accepted
(70_reset_and_hazards.md R171; 10_state.md R21); in this model a state is BUSY between steps only when a
call never returns (log entry 7), and only a reset at the head of the inputs ends that (log entry 11). -/
def Obligations.StepsThatWait : Prop :=
  (∀ s : State, s.phase = .await → s.cmdSlot = none → s.env.inputs = [] → step s = .next s) ∧
  step State.reset = .next State.reset ∧
  ∀ (s : State) (op : Op) (n : Nat), s.phase = .busy op n → s.env.inputs.head? ≠ some .reset →
    step s = .next s

/-- A reset input, taken in AWAIT or while a request is BUSY: the request is abandoned with no result,
the core state becomes that of 70_reset_and_hazards.md R163, and what the calls already made left
outside stays (R165). The model's: a BUSY state between steps is a call that never returns (log entry 7),
a full command slot goes before the inputs (log entry 2), and the parameters, the environment, the trace,
the duties, the owed poll and the record of what the writes left are kept (log entries 10 and 11). -/
def Obligations.ResetInput : Prop :=
  ∀ (s : State) (rest : List HostInput),
    (s.phase = .await ∧ s.cmdSlot = none) ∨ (∃ op n, s.phase = .busy op n) →
    s.env.inputs = .reset :: rest →
    ∃ t, step s = .next t ∧ t.phase = .await ∧ t.handle = .closed ∧ t.lastPage = none ∧
      t.resultReady = false ∧ t.wireOut = none ∧ t.wireDir = none ∧ t.params = s.params ∧
      t.log = s.log ∧ t.env = { s.env with inputs := rest } ∧ t.pollOwed = s.pollOwed ∧
      t.duty = s.duty ∧ t.driven = s.driven

/-! ### The Device Selector and the Bit-Banger -/

/-- 40_device_selector.md R90: SELECT on success; nothing but the wire's shadow, the result and the
trace changes, and afterwards exactly the device selected is addressable. (The model's own record of
what a write left, State.driven, is DutiesRecorded's; nothing is said of it here.) -/
def Obligations.SelectResult : Prop :=
  ∀ (s : State) (d : Device) (p : Byte) (rest : List TxAnswer),
    s.handle = .opened → s.env.answers = .ok none p :: rest →
    ∃ t, exec (.select d) s = .next t ∧
      t = { s with
        phase := .await, wireOut := some (selpat s.params d), result := ⟨0, 0, []⟩,
        resultReady := true, env := { s.env with answers := rest },
        log := [.result 0 0 [], .write [selpat s.params d] (.ok ())] ++ s.log,
        driven := t.driven } ∧
      (s.params.wf = true → t.selection = some d)

/-- SELECT whose write fails: TRANSPORT, the wire UNKNOWN, no recovery write
(40_device_selector.md R91; 60_exceptions.md R151); the model's own record notes that what it left is
unknown (log entry 10). -/
def Obligations.SelectError : Prop :=
  ∀ (s : State) (d : Device) (e : Payload) (rest : List TxAnswer),
    s.handle = .opened → s.env.answers = .err e :: rest →
    exec (.select d) s = .next { s with
      phase := .await, wireOut := none, driven := .lost, result := ⟨0x01, 0, e⟩, resultReady := true,
      env := { s.env with answers := rest },
      log := [.result 0x01 0 e, .write [selpat s.params d] (.err e)] ++ s.log }

/-- 41_spi_bitbanger.md R96: SPI_OUT on success, for every byte count 0 to 65535: one write of 17 bytes
per data byte, the count as VALUE, the selection left asserted, no persistent register written. -/
def Obligations.SpiOutResult : Prop :=
  ∀ (s : State) (d : Device) (data pins : List Byte) (rest : List TxAnswer),
    data.length < 65536 → s.handle = .opened → pins.length = data.length →
    s.env.answers = yes pins ++ rest →
    ∃ t, exec (.spiOut d data) s = .next t ∧ t.phase = .await ∧
      t.result = ⟨0, BitVec.ofNat 32 data.length, []⟩ ∧ t.resultReady = true ∧
      t.trace = s.trace ++ spiOutEvents s.params d data
        ++ [.result 0 (BitVec.ofNat 32 data.length) []] ∧
      t.wireOut = (if data = [] then s.wireOut else some (selpat s.params d)) ∧
      t.handle = s.handle ∧ t.lastPage = s.lastPage ∧ t.env.answers = rest

/-- SPI_OUT whose write of byte j fails: no later byte is sent, no recovery write is made, and the wire
is UNKNOWN (41_spi_bitbanger.md R97; 60_exceptions.md R151). -/
def Obligations.SpiOutError : Prop :=
  ∀ (s : State) (d : Device) (sent more pins : List Byte) (b : Byte) (e : Payload)
    (rest : List TxAnswer),
    s.handle = .opened → pins.length = sent.length →
    s.env.answers = yes pins ++ (.err e :: rest) →
    ∃ t, exec (.spiOut d (sent ++ b :: more)) s = .next t ∧ t.phase = .await ∧
      t.result = ⟨0x01, 0, e⟩ ∧
      t.trace = s.trace ++ spiOutEvents s.params d sent
        ++ [.write (spiWord s.params d b) (.err e), .result 0x01 0 e] ∧
      t.wireOut = none ∧ t.env.answers = rest ∧ t.handle = s.handle

/-- 41_spi_bitbanger.md R102: SPI_IN on success, for every byte count: the bytes assembled from the
samples, most significant bit first; the trace; the transaction closed and the clock low. That S.RXBUF
still holds those bytes in AWAIT, where 10_state.md R28 says it no longer exists, and that it started
empty, is the model's (log entries 12 and 8). -/
def Obligations.SpiInResult : Prop :=
  ∀ (s : State) (d : Device) (n : BitVec 16) (pins : List Byte) (rest : List TxAnswer),
    s.handle = .opened → pins.length = 24 * n.toNat + 1 → s.env.answers = yes pins ++ rest →
    ∃ t bytes, exec (.spiIn d n) s = .next t ∧ t.phase = .await ∧
      bytes.length = n.toNat ∧ Sampled s.params pins 0 bytes ∧ t.spi.rxbuf = bytes ∧
      t.result = ⟨0, n.setWidth 32, bytes⟩ ∧ t.resultReady = true ∧
      t.trace = s.trace ++ spiInEvents s.params d n.toNat pins
        ++ [.result 0 (n.setWidth 32) bytes] ∧
      t.wireOut = some (idleByte s.params) ∧
      (s.params.wf = true → t.selection = some .idle ∧ t.ClockLow) ∧
      t.handle = s.handle ∧ t.lastPage = s.lastPage ∧ t.env.answers = rest

/-- SPI_IN whose call number k fails: no further sample or pulse, one write of IDLE, the first error
returned whatever becomes of that write; and when only the closing write of IDLE fails, that error is
returned (41_spi_bitbanger.md R103). That S.ERR still holds the error in AWAIT, where 10_state.md R28
says it no longer exists, is the model's choice (log entry 12). -/
def Obligations.SpiInError : Prop :=
  (∀ (s : State) (d : Device) (n : BitVec 16) (pins : List Byte) (e : Payload) (a : TxAnswer)
      (rest : List TxAnswer) (o : Reply Unit) (w : Option Byte),
      s.handle = .opened → pins.length < 24 * n.toNat → IdleAnswer s.params a o w →
      s.env.answers = yes pins ++ (.err e :: a :: rest) →
      ∃ t, exec (.spiIn d n) s = .next t ∧ t.phase = .await ∧ t.result = ⟨0x01, 0, e⟩ ∧
        t.trace = s.trace
          ++ (List.range pins.length).map (fun k => spiInCall s.params d k (pins.getD k 0))
          ++ [spiInFail s.params d pins.length e, .write [idleByte s.params] o,
            .result 0x01 0 e] ∧
        t.wireOut = w ∧ t.env.answers = rest ∧ t.spi.err = some e) ∧
  (∀ (s : State) (d : Device) (n : BitVec 16) (pins : List Byte) (e : Payload)
      (rest : List TxAnswer),
      s.handle = .opened → pins.length = 24 * n.toNat →
      s.env.answers = yes pins ++ (.err e :: rest) →
      ∃ t, exec (.spiIn d n) s = .next t ∧ t.result = ⟨0x01, 0, e⟩ ∧
        t.trace = s.trace ++ sampleEvents s.params d pins
          ++ [.write [idleByte s.params] (.err e), .result 0x01 0 e] ∧
        t.wireOut = none ∧ t.env.answers = rest)

/-- 41_spi_bitbanger.md R105: if the samples of SPI_IN of one byte carry the bits of b, the byte
received is b; and those bits are the data-out levels of b's SpiWord at its sampling edges. -/
def Obligations.Loopback : Prop :=
  (∀ (s : State) (d : Device) (b : Byte) (pins : List Byte) (rest : List TxAnswer),
    s.handle = .opened → pins.length = 25 → s.env.answers = yes pins ++ rest →
    (∀ k : Nat, k < 8 → levelAt s.params pins (3 * k) = b.getLsbD (7 - k)) →
    ∃ t, exec (.spiIn d 1) s = .next t ∧ t.result = ⟨0, 1, [b]⟩) ∧
  (∀ (P : Params) (d : Device) (b : Byte), P.wf = true → ∀ k : Nat, k < 8 →
    ((spiWord P d b).getD (2 * k + 1) 0).getLsbD P.posDataOut.val = b.getLsbD (7 - k))

/-! ### The Flash Command Engine -/

/-- 42_flash_engine.md R108: READ_ID on success: its 99 calls, the identifier little-endian, the wire
idle, no persistent register written. -/
def Obligations.ReadIdResult : Prop :=
  ∀ (s : State) (pins : List Byte) (rest : List TxAnswer),
    s.handle = .opened → pins.length = 99 → s.env.answers = yes pins ++ rest →
    ∃ t bytes, exec .readId s = .next t ∧ t.phase = .await ∧
      bytes.length = 4 ∧ Sampled s.params pins 1 bytes ∧
      t.result = ⟨0, identifier bytes, []⟩ ∧ t.resultReady = true ∧
      t.trace = s.trace ++ readEvents s.params 0x9F 4 pins ++ [.result 0 (identifier bytes) []] ∧
      txCalls (readEvents s.params 0x9F 4 pins) = 99 ∧
      t.wireOut = some (idleByte s.params) ∧
      t.handle = s.handle ∧ t.lastPage = s.lastPage ∧ t.env.answers = rest

/-- READ_ID does what its expansion does: SPI_OUT of the opcode, SPI_IN of four bytes, SELECT idle, one
after the other, make the same calls and leave the same wire (30_encoding.md R86). -/
def Obligations.ReadIdIsItsExpansion : Prop :=
  ∀ (s : State) (pins : List Byte) (rest : List TxAnswer),
    s.handle = .opened → pins.length = 99 → s.env.answers = yes pins ++ rest →
    ∃ t u v w, exec .readId s = .next t ∧ exec (.spiOut .flash [0x9F]) s = .next u ∧
      exec (.spiIn .flash 4) u = .next v ∧ exec (.select .idle) v = .next w ∧
      t.trace.filter Event.isCall = w.trace.filter Event.isCall ∧
      t.result.value = identifier v.result.data ∧ t.wireOut = w.wireOut ∧ t.env = w.env

/-- FLASH_POLL. Ready first in iteration k, 1 ≤ k ≤ t: OK after k iterations of 27 calls
(42_flash_engine.md R127, R128). Not ready in any of the t: TIMEOUT after exactly t iterations; with
t = 0 no call, the wire as it was (R130 (a)). That a ready poll pays what is owed, and no other does, is
the model's record of 70_reset_and_hazards.md R170 (log entry 10). -/
def Obligations.FlashPollResult : Prop :=
  ∀ (s : State) (t : Word) (pins : List Byte) (rest : List TxAnswer),
    s.handle = .opened → s.env.answers = yes pins ++ rest →
    (∀ k : Nat, k ≤ t.toNat → PollReady s.params k pins →
      ∃ u, exec (.flashPoll t) s = .next u ∧ u.phase = .await ∧ u.result = ⟨0, 0, []⟩ ∧
        u.trace = s.trace ++ pollEvents s.params k pins ++ [.result 0 0 []] ∧
        txCalls (pollEvents s.params k pins) = 27 * k ∧
        u.wireOut = some (idleByte s.params) ∧ u.env.answers = rest ∧ u.pollOwed = false) ∧
    (PollBusy s.params t.toNat pins →
      ∃ u, exec (.flashPoll t) s = .next u ∧ u.phase = .await ∧ u.result = ⟨0x02, 0, []⟩ ∧
        u.trace = s.trace ++ pollEvents s.params t.toNat pins ++ [.result 0x02 0 []] ∧
        txCalls (pollEvents s.params t.toNat pins) = 27 * t.toNat ∧
        u.wireOut = (if t = 0 then s.wireOut else some (idleByte s.params)) ∧
        u.env.answers = rest ∧ u.pollOwed = s.pollOwed)

/-- 42_flash_engine.md R114: WRITE_PAGE on success: before the first poll 274 writes, exactly two of
them IDLE; then the poll; S.LAST_PAGE is not written. -/
def Obligations.WritePageResult : Prop :=
  ∀ (s : State) (page : Page) (data pins : List Byte) (rest : List TxAnswer),
    s.handle = .opened → data.length = 264 →
    ReadyAfter s.params 274 s.params.writeTimeout pins → s.env.answers = yes pins ++ rest →
    ∃ t, exec (.writePage page data) s = .next t ∧ t.phase = .await ∧ t.result = ⟨0, 0, []⟩ ∧
      t.resultReady = true ∧
      t.trace = s.trace ++ pageEvents s.params data page pins ++ [.result 0 0 []] ∧
      (commandEvents s.params (bufLoadBytes ++ data)
        ++ commandEvents s.params (commitBytes page)).length = 274 ∧
      (commandEvents s.params (bufLoadBytes ++ data)
        ++ commandEvents s.params (commitBytes page)).count (idleEvent s.params) = 2 ∧
      t.wireOut = some (idleByte s.params) ∧ t.handle = s.handle ∧ t.lastPage = s.lastPage ∧
      t.env.answers = rest

/-- A deselect step of an engine command that fails, wherever it stands: the last one of READ_ID, of a
status read in any poll, the one after the buffer load, the one after a commit or an erase. TRANSPORT
with no recovery write, no later step, the wire UNKNOWN (42_flash_engine.md R107, R112, R115, R118, R126,
R129; 60_exceptions.md R151 (a)). `Reaches` follows the Ok answers through the expansion of
30_encoding.md R86. The model's: the owed poll (log entry 10) and the commands of the slot (log
entry 2). -/
def Obligations.DeselectErrors : Prop :=
  ∀ (s : State) (i : Instr) (pins : List Byte) (es : List Event) (starts : Bool)
    (more : List EngineStep) (v : BusView) (e : Payload) (rest : List TxAnswer),
    s.handle = .opened →
    Reaches s.params (engineScript s.params i) ⟨s.wireOut, s.pollOwed⟩ pins es
      (.deselect starts :: more) v →
    s.env.answers = yes pins ++ (.err e :: rest) →
    ∃ t, exec i s = .next t ∧ t.env.answers = rest ∧
      s.FailsWith t i (.transport e) ⟨0x01, 0, e⟩
        (es ++ [.write [idleByte s.params] (.err e)]) ⟨none, starts || v.owed⟩

/-- ERASE_SECTOR on success: the four bytes as given, the deselect, the poll
(42_flash_engine.md R118 to R120). -/
def Obligations.EraseSectorResult : Prop :=
  ∀ (s : State) (c0 c1 c2 c3 : Byte) (t : Word) (pins : List Byte) (rest : List TxAnswer),
    s.handle = .opened → ReadyAfter s.params 5 t pins → s.env.answers = yes pins ++ rest →
    ∃ u, exec (.eraseSector c0 c1 c2 c3 t) s = .next u ∧ u.phase = .await ∧
      u.result = ⟨0, 0, []⟩ ∧ u.resultReady = true ∧
      u.trace = s.trace ++ eraseEvents s.params [c0, c1, c2, c3] pins ++ [.result 0 0 []] ∧
      u.wireOut = some (idleByte s.params) ∧ u.handle = s.handle ∧ u.lastPage = s.lastPage ∧
      u.env.answers = rest

/-- ERASE_ALL on success: 18 ERASE_SECTOR sequences in the order of the list
(42_flash_engine.md R122, R123). -/
def Obligations.EraseAllResult : Prop :=
  ∀ (s : State) (t : Word) (segs : List (List Byte)) (rest : List TxAnswer),
    s.handle = .opened → segs.length = 18 → (∀ p ∈ segs, ReadyAfter s.params 5 t p) →
    s.env.answers = yes segs.flatten ++ rest →
    ∃ u, exec (.eraseAll t) s = .next u ∧ u.phase = .await ∧ u.result = ⟨0, 0, []⟩ ∧
      u.resultReady = true ∧
      u.trace = s.trace ++ (List.zipWith (eraseEvents s.params) eraseList segs).flatten
        ++ [.result 0 0 []] ∧
      u.wireOut = some (idleByte s.params) ∧ u.handle = s.handle ∧ u.lastPage = s.lastPage ∧
      u.env.answers = rest

/-- A poll whose budget is used up, wherever it stands: in WRITE_PAGE after the commit, in ERASE_SECTOR,
in the j-th sector of ERASE_ALL, in FLASH_POLL; a budget of 0 at once, with no status read. TIMEOUT, no
recovery write, and no later command is sent (42_flash_engine.md R115, R116 (c), R119, R120 (b), R123,
R124 (a), R128; 60_exceptions.md R151 (c)). After a commit or an erase the device may still be busy
(70_reset_and_hazards.md R170): that the poll stays owed is the model's record (log entry 10). -/
def Obligations.EngineTimeouts : Prop :=
  ∀ (s : State) (i : Instr) (pins : List Byte) (es : List Event) (more : List EngineStep)
    (v : BusView) (rest : List TxAnswer),
    s.handle = .opened →
    Reaches s.params (engineScript s.params i) ⟨s.wireOut, s.pollOwed⟩ pins es (.poll 0 :: more) v →
    s.env.answers = yes pins ++ rest →
    ∃ t, exec i s = .next t ∧ t.env.answers = rest ∧
      s.FailsWith t i .timeout ⟨0x02, 0, []⟩ es v ∧
      (i.op = .writePage ∨ i.op = .eraseSector ∨ i.op = .eraseAll → t.pollOwed = true)

/-- A transport error in a SpiOut or a SpiIn of an engine command, at any byte and any call of it: no
later step runs, one recovery write of IDLE whose outcome is ignored, after SpiIn's own when the error
arose inside SpiIn, and the original error is returned (42_flash_engine.md R109, R115, R119, R123, R129;
60_exceptions.md R149 to R153). `PhaseFails` lists the three places. The model's: the owed poll, which
stays as it was (log entry 10), and the commands of the slot (log entry 2). -/
def Obligations.SendAndReceiveErrors : Prop :=
  ∀ (s : State) (i : Instr) (pins : List Byte) (es es' : List Event) (x : EngineStep)
    (more : List EngineStep) (v : BusView) (as rest : List TxAnswer) (e : Payload)
    (w : Option Byte),
    s.handle = .opened →
    Reaches s.params (engineScript s.params i) ⟨s.wireOut, s.pollOwed⟩ pins es (x :: more) v →
    PhaseFails s.params x as es' e w → s.env.answers = yes pins ++ (as ++ rest) →
    ∃ t, exec i s = .next t ∧ t.env.answers = rest ∧
      s.FailsWith t i (.transport e) ⟨0x01, 0, e⟩ (es ++ es') ⟨w, v.owed⟩

/-! ### The flash wire commands -/

/-- The two commands with an answer, from the command slot: opcode, bytes in, deselect; no result is
put on the port (30_encoding.md R72; 42_flash_engine.md R107, R126; the slot is the model's, log entry 2).
That a ready status pays the owed poll is the model's record of 70_reset_and_hazards.md R170 (log
entry 10). That S.RXBUF and S.STATUS still hold the answer in AWAIT, where 10_state.md R28 and R29 say
they no longer exist, is the model's choice (log entry 12). -/
def Obligations.ReadCommands : Prop :=
  (∀ (s : State) (pins : List Byte) (rest : List TxAnswer),
    s.handle = .opened → pins.length = 99 → s.env.answers = yes pins ++ rest →
    ∃ t, exec .readIdCmd s = .next t ∧ t.phase = .await ∧ t.cmdOutcome = none ∧
      t.trace = s.trace ++ readEvents s.params 0x9F 4 pins ∧
      t.spi.rxbuf.length = 4 ∧ Sampled s.params pins 1 t.spi.rxbuf ∧
      t.wireOut = some (idleByte s.params) ∧ t.result = s.result ∧ t.env.answers = rest) ∧
  (∀ (s : State) (pins : List Byte) (rest : List TxAnswer),
    s.handle = .opened → pins.length = 27 → s.env.answers = yes pins ++ rest →
    ∃ t, exec .statusReadCmd s = .next t ∧ t.phase = .await ∧ t.cmdOutcome = none ∧
      t.trace = s.trace ++ readEvents s.params 0xD7 1 pins ∧
      Sampled s.params pins 1 [t.poll.status] ∧
      statusReady t.poll.status = levelAt s.params pins 1 ∧
      t.pollOwed = (if levelAt s.params pins 1 then false else s.pollOwed) ∧
      t.wireOut = some (idleByte s.params) ∧ t.result = s.result ∧ t.env.answers = rest)

/-- The three commands without an answer, from the command slot: the bytes in one selection, then the
deselect (30_encoding.md R72, R73; 42_flash_engine.md R112, R113, R118; the slot is the model's, log
entry 2). That a commit or an erase then owes a poll is the model's record of 70_reset_and_hazards.md R170
(log entry 10). -/
def Obligations.SendCommands : Prop :=
  ∀ (s : State) (pins : List Byte) (rest : List TxAnswer) (i : Instr) (bytes : List Byte)
    (owed : Bool), s.handle = .opened →
    ((∃ data, data.length = 264 ∧ i = .bufLoadCmd data ∧
        bytes = [0x84, 0x00, 0x00, 0x00] ++ data ∧ owed = s.pollOwed) ∨
      (∃ page : BitVec 10, i = .commitCmd page ∧ bytes = commitBytes (page.setWidth 13) ∧
        owed = true) ∨
      (∃ a2 a1 a0, i = .sectorEraseCmd a2 a1 a0 ∧ bytes = [0x7C, a2, a1, a0] ∧ owed = true)) →
    pins.length = bytes.length + 1 → s.env.answers = yes pins ++ rest →
    ∃ t, exec i s = .next t ∧ t.phase = .await ∧ t.cmdOutcome = none ∧
      t.trace = s.trace ++ commandEvents s.params bytes ∧
      t.wireOut = some (idleByte s.params) ∧ t.pollOwed = owed ∧ t.result = s.result ∧
      t.env.answers = rest

/-! ### The Programming Workflow -/

/-- 43_workflow.md R133: OPEN. On success the handle is open and the direction idle, and nothing else
but the result and the trace changes; with the handle open only the direction is set; a failing
TxOpen leaves the handle closed; a failing TxSetDir leaves it open, the direction UNKNOWN. That TxOpen
and TxSetDir leave State.driven, the model's record of the output pins, is its choice (log entry 10). -/
def Obligations.OpenResult : Prop :=
  ∀ (s : State) (p q : Byte) (e : Payload) (rest : List TxAnswer),
    let opening : Event := .openCall s.params.vid s.params.pid (.ok ())
    let setting (o : Reply Unit) : Event :=
      .setDir (idleDirection s.params) s.params.bitbangMode o
    let ended (u : State) (r : Result) (calls : List Event) : State :=
      { u with
        phase := .await, result := r, resultReady := true, env := { s.env with answers := rest },
        log := [.result r.code r.value r.data] ++ calls ++ s.log }
    (s.handle = .closed → s.env.answers = .ok none p :: .ok none q :: rest →
      exec .openAdapter s = .next (ended
        { s with handle := .opened, wireDir := some (idleDirection s.params) } ⟨0, 0, []⟩
        [setting (.ok ()), opening])) ∧
    (s.handle = .opened → s.env.answers = .ok none p :: rest →
      exec .openAdapter s = .next (ended { s with wireDir := some (idleDirection s.params) }
        ⟨0, 0, []⟩ [setting (.ok ())])) ∧
    (s.handle = .closed → s.env.answers = .err e :: rest →
      exec .openAdapter s = .next (ended s ⟨0x01, 0, e⟩
        [.openCall s.params.vid s.params.pid (.err e)])) ∧
    (s.handle = .closed → s.env.answers = .ok none p :: .err e :: rest →
      exec .openAdapter s = .next (ended { s with handle := .opened, wireDir := none }
        ⟨0x01, 0, e⟩ [setting (.err e), opening])) ∧
    (s.handle = .opened → s.env.answers = .err e :: rest →
      exec .openAdapter s = .next (ended { s with wireDir := none } ⟨0x01, 0, e⟩
        [setting (.err e)]))

/-- PROGRAM on a stream of 264·q + r bytes within the capacity, every call Ok and every poll ready: the
whole trace in order; q full pages, and for r > 0 one page padded with PAD_BYTE at index q; the number
of pages as VALUE; the direction idle again and the handle open (43_workflow.md R135 to R140, R142 to
R144). The premise Shapes gives S.PAGEBUF its 264 bytes (10_state.md R30); StepKeepsInv keeps it. -/
def Obligations.ProgramCompletes : Prop :=
  ∀ (s : State) (openPins idPins dirPins endPins : List Byte)
    (eraseSegs pageSegs finalSegs : List (List Byte)) (rest : List TxAnswer)
    (srest : List StreamAnswer) (q r : Nat),
    s.Shapes → s.env.stream.length = 264 * q + r → r < 264 →
    q + finalSegs.length ≤ 8192 → finalSegs.length = (if r = 0 then 0 else 1) →
    openPins.length = (if s.handle = .closed then 2 else 1) → idPins.length = 99 →
    dirPins.length = 1 → endPins.length = 1 → eraseSegs.length = 18 →
    (∀ p ∈ eraseSegs, ReadyAfter s.params 5 s.params.eraseTimeout p) → pageSegs.length = q →
    (∀ p ∈ pageSegs ++ finalSegs, ReadyAfter s.params 274 s.params.writeTimeout p) →
    s.env.answers = yes (openPins ++ idPins ++ dirPins ++ eraseSegs.flatten ++ pageSegs.flatten
      ++ finalSegs.flatten ++ endPins) ++ rest →
    s.env.streamAnswers =
      List.replicate ((if q < 8192 then q + 1 else q) + 1) .ok ++ srest →
    ∃ t bytes, exec .program s = .next t ∧ t.phase = .await ∧
      bytes.length = 4 ∧ Sampled s.params idPins 1 bytes ∧
      t.trace = s.trace
        ++ programHead s.params (s.handle == .closed) idPins (identifier bytes) eraseSegs
        ++ fullPageEvents s.params s.env.stream 0 pageSegs
        ++ (if q < 8192 then [.streamRead 264 (.ok (s.env.stream.drop (264 * q)))] else [])
        ++ [.streamRead 264 (.ok [])]
        ++ (finalSegs.map (pageEvents s.params
            (s.env.stream.drop (264 * q) ++ List.replicate (264 - r) s.params.padByte)
            (BitVec.ofNat 13 q))).flatten
        ++ [.setDir (idleDirection s.params) s.params.bitbangMode (.ok ()),
          .result 0 (BitVec.ofNat 32 (q + finalSegs.length)) []] ∧
      t.result = ⟨0, BitVec.ofNat 32 (q + finalSegs.length), []⟩ ∧ t.resultReady = true ∧
      t.lastPage = (if q + finalSegs.length = 0 then none
        else some (BitVec.ofNat 13 (q + finalSegs.length - 1))) ∧
      t.handle = .opened ∧ t.wireDir = some (idleDirection s.params) ∧
      t.env.answers = rest ∧ t.env.streamAnswers = srest ∧ t.env.stream = []

/-- PROGRAM on a stream past the capacity: 8192 pages are written, the further read finds bytes, and
the run ends with OVERSIZE, writing nothing more and leaving PROGRAM_DIRECTION
(43_workflow.md R139, R141, R142). -/
def Obligations.ProgramOversize : Prop :=
  ∀ (s : State) (openPins idPins dirPins : List Byte) (eraseSegs pageSegs : List (List Byte))
    (rest : List TxAnswer) (srest : List StreamAnswer),
    s.Shapes → 264 * 8192 < s.env.stream.length →
    openPins.length = (if s.handle = .closed then 2 else 1) → idPins.length = 99 →
    dirPins.length = 1 → eraseSegs.length = 18 →
    (∀ p ∈ eraseSegs, ReadyAfter s.params 5 s.params.eraseTimeout p) → pageSegs.length = 8192 →
    (∀ p ∈ pageSegs, ReadyAfter s.params 274 s.params.writeTimeout p) →
    s.env.answers = yes (openPins ++ idPins ++ dirPins ++ eraseSegs.flatten ++ pageSegs.flatten)
      ++ rest →
    s.env.streamAnswers = List.replicate 8193 .ok ++ srest →
    ∃ t bytes, exec .program s = .next t ∧ bytes.length = 4 ∧ Sampled s.params idPins 1 bytes ∧
      t.trace = s.trace
        ++ programHead s.params (s.handle == .closed) idPins (identifier bytes) eraseSegs
        ++ fullPageEvents s.params s.env.stream 0 pageSegs
        ++ [.streamRead 264 (.ok ((s.env.stream.drop (264 * 8192)).take 264)),
          .result 0x03 0 []] ∧
      t.result = ⟨0x03, 0, []⟩ ∧ t.lastPage = some 8191 ∧
      t.wireDir = some (programDirection s.params) ∧ t.handle = .opened ∧ t.env.answers = rest

/-- PROGRAM that fails in steps 1 to 3: the result is that of the first error, no page is recorded, no
retry is made and the direction is not restored, UNKNOWN where setting it failed (43_workflow.md R133,
R135 to R137, R141; 20_memory.md R44; 60_exceptions.md R149, R151 (d)). In order: TxOpen fails, the handle stays closed; the idle direction
fails; reading the identifier fails, at any step of it, under IDLE_DIRECTION; the program direction fails;
the erase fails, at any step of it, under PROGRAM_DIRECTION. -/
def Obligations.ProgramHeadErrors : Prop :=
  ∀ (s : State) (openPins idPins dirPins pins : List Byte) (es es' : List Event) (x : EngineStep)
    (more : List EngineStep) (v w : BusView) (as rest : List TxAnswer) (f : Failure) (e : Payload),
    let P := s.params
    let opening : List Event :=
      if s.handle = .closed then [.openCall P.vid P.pid (.ok ())] else []
    let setting (d : Byte) (o : Reply Unit) : Event := .setDir d P.bitbangMode o
    let head : List Event := opening ++ [setting (idleDirection P) (.ok ())]
    let ended (t : State) (calls : List Event) (g : Failure) (h : Handle) (d : Option Byte) : Prop :=
      exec .program s = .next t ∧ t.trace = s.trace ++ calls ++ [.result g.code 0 g.payload] ∧
        t.result = ⟨g.code, 0, g.payload⟩ ∧ t.lastPage = none ∧ t.handle = h ∧ t.wireDir = d ∧
        t.env.answers = rest
    (s.handle = .closed → s.env.answers = .err e :: rest →
      ∃ t, ended t [.openCall P.vid P.pid (.err e)] (.transport e) .closed s.wireDir) ∧
    (openPins.length = (if s.handle = .closed then 1 else 0) →
      s.env.answers = yes openPins ++ (.err e :: rest) →
      ∃ t, ended t (opening ++ [setting (idleDirection P) (.err e)]) (.transport e) .opened none) ∧
    (openPins.length = (if s.handle = .closed then 2 else 1) →
      (Reaches P (engineScript P .readId) ⟨s.wireOut, s.pollOwed⟩ pins es (x :: more) v →
        StepFails P x v as es' f w → s.env.answers = yes (openPins ++ pins) ++ (as ++ rest) →
        ∃ t, ended t (head ++ (es ++ es')) f .opened (some (idleDirection P))) ∧
      (idPins.length = 99 → s.env.answers = yes (openPins ++ idPins) ++ (.err e :: rest) →
        ∃ t bytes, bytes.length = 4 ∧ Sampled P idPins 1 bytes ∧
          ended t (head ++ readEvents P 0x9F 4 idPins
            ++ [.diag (identifier bytes), setting (programDirection P) (.err e)])
            (.transport e) .opened none) ∧
      (idPins.length = 99 → dirPins.length = 1 →
        Reaches P (engineScript P (.eraseAll P.eraseTimeout)) ⟨some (idleByte P), s.pollOwed⟩ pins es
          (x :: more) v →
        StepFails P x v as es' f w →
        s.env.answers = yes (openPins ++ idPins ++ dirPins ++ pins) ++ (as ++ rest) →
        ∃ t bytes, bytes.length = 4 ∧ Sampled P idPins 1 bytes ∧
          ended t (head ++ readEvents P 0x9F 4 idPins
            ++ [.diag (identifier bytes), setting (programDirection P) (.ok ())] ++ (es ++ es'))
            f .opened (some (programDirection P))))

/-- PROGRAM that fails after q full pages: the result is that of the first error, S.LAST_PAGE keeps the
last page written, the handle stays open, no retry is made and PROGRAM_DIRECTION is not restored
(43_workflow.md R135, R138 to R141; 60_exceptions.md R149, R151 (d)). In order: the next StreamRead fails,
which after the 8192nd page is the further one of step 5; the write of page q fails, at any step of it, as
TRANSPORT or TIMEOUT; after a short read the further StreamRead fails; after a short read the write of the
padded page fails, at any step of it; every page is written and the closing direction fails, which leaves
it UNKNOWN (20_memory.md R44). -/
def Obligations.ProgramPageErrors : Prop :=
  ∀ (s : State) (openPins idPins dirPins : List Byte)
    (eraseSegs pageSegs finalSegs : List (List Byte)) (rest : List TxAnswer)
    (srest : List StreamAnswer) (pins : List Byte) (es es' : List Event) (x : EngineStep)
    (more : List EngineStep) (v w : BusView) (as : List TxAnswer) (f : Failure) (e : Payload)
    (lost q r : Nat),
    let P := s.params
    let tail := s.env.stream.drop (264 * q)
    let padded := tail ++ List.replicate (264 - r) P.padByte
    let okPins := openPins ++ idPins ++ dirPins ++ eraseSegs.flatten ++ pageSegs.flatten
    let pageOf (n : Nat) : Option Page := if n = 0 then none else some (BitVec.ofNat 13 (n - 1))
    let failed (t : State) (calls : List Event) (code : Byte) (data : List Byte) (n : Nat)
        (d : Option Byte) : Prop :=
      ∃ bytes, bytes.length = 4 ∧ Sampled P idPins 1 bytes ∧ exec .program s = .next t ∧
        t.trace = s.trace ++ programHead P (s.handle == .closed) idPins (identifier bytes) eraseSegs
          ++ fullPageEvents P s.env.stream 0 pageSegs ++ calls ++ [.result code 0 data] ∧
        t.result = ⟨code, 0, data⟩ ∧ t.lastPage = pageOf n ∧ t.handle = .opened ∧
        t.wireDir = d ∧ t.env.answers = rest
    let ended (t : State) (calls : List Event) (g : Failure) (n : Nat) (d : Option Byte) : Prop :=
      failed t calls g.code g.payload n d
    s.Shapes → openPins.length = (if s.handle = .closed then 2 else 1) → idPins.length = 99 →
    dirPins.length = 1 → eraseSegs.length = 18 →
    (∀ p ∈ eraseSegs, ReadyAfter P 5 P.eraseTimeout p) → pageSegs.length = q → q ≤ 8192 →
    264 * q ≤ s.env.stream.length → (∀ p ∈ pageSegs, ReadyAfter P 274 P.writeTimeout p) →
    (s.env.answers = yes okPins ++ rest →
      s.env.streamAnswers = List.replicate q .ok ++ (.err e lost :: srest) →
      ∃ t, failed t [.streamRead 264 (.err e)] 0x04 e q (some (programDirection P))) ∧
    (q < 8192 → 264 * (q + 1) ≤ s.env.stream.length →
      s.env.streamAnswers = List.replicate (q + 1) .ok ++ srest →
      Reaches P (engineScript P (.writePage (BitVec.ofNat 13 q) (tail.take 264)))
        ⟨some (idleByte P), false⟩ pins es (x :: more) v →
      StepFails P x v as es' f w → s.env.answers = yes (okPins ++ pins) ++ (as ++ rest) →
      ∃ t, ended t (.streamRead 264 (.ok (tail.take 264)) :: (es ++ es')) f q
        (some (programDirection P))) ∧
    (s.env.stream.length = 264 * q + r → r < 264 → q < 8192 →
      (s.env.answers = yes okPins ++ rest →
        s.env.streamAnswers = List.replicate (q + 1) .ok ++ (.err e lost :: srest) →
        ∃ t, failed t [.streamRead 264 (.ok tail), .streamRead 264 (.err e)] 0x04 e q
          (some (programDirection P))) ∧
      (0 < r → s.env.streamAnswers = List.replicate (q + 2) .ok ++ srest →
        Reaches P (engineScript P (.writePage (BitVec.ofNat 13 q) padded))
          ⟨some (idleByte P), false⟩ pins es (x :: more) v →
        StepFails P x v as es' f w → s.env.answers = yes (okPins ++ pins) ++ (as ++ rest) →
        ∃ t, ended t ([.streamRead 264 (.ok tail), .streamRead 264 (.ok [])] ++ (es ++ es')) f q
          (some (programDirection P)))) ∧
    (s.env.stream.length = 264 * q + r → r < 264 →
      finalSegs.length = (if r = 0 then 0 else 1) → q + finalSegs.length ≤ 8192 →
      (∀ p ∈ finalSegs, ReadyAfter P 274 P.writeTimeout p) →
      s.env.answers = yes (okPins ++ finalSegs.flatten) ++ (.err e :: rest) →
      s.env.streamAnswers =
        List.replicate ((if q < 8192 then q + 1 else q) + 1) .ok ++ srest →
      ∃ t, failed t
        ((if q < 8192 then [.streamRead 264 (.ok tail)] else []) ++ [.streamRead 264 (.ok [])]
          ++ (finalSegs.map (pageEvents P padded (BitVec.ofNat 13 q))).flatten
          ++ [.setDir (idleDirection P) P.bitbangMode (.err e)])
        0x01 e (q + finalSegs.length) none)

/-! ### Errors -/

/-- 60_exceptions.md R147: with the handle closed every request but OPEN and PROGRAM ends with NOT_OPEN
and makes no call; OPEN and PROGRAM open the handle themselves. -/
def Obligations.NotOpen : Prop :=
  (∀ (i : Instr) (s : State), i.op.isRequest = true → i.op.needsHandle = true →
    s.handle = .closed →
    exec i s = .next { s with
      phase := .await, result := ⟨0x06, 0, []⟩, resultReady := true,
      log := .result 0x06 0 [] :: s.log }) ∧
  (∀ (i : Instr) (s t : State) (p : Byte) (rest : List TxAnswer),
    i = .openAdapter ∨ i = .program → s.handle = .closed →
    s.env.answers = .ok none p :: rest → exec i s = .next t →
    t.handle = .opened ∧ ∃ more,
      t.trace = s.trace ++ .openCall s.params.vid s.params.pid (.ok ()) :: more)

/-- A flash command of the command slot with the handle closed makes no call, puts no result on the
port and ends with NotOpen (60_exceptions.md R147; log entry 2). -/
def Obligations.CommandNotOpen : Prop :=
  ∀ (i : Instr) (s : State), i.op.isRequest = false → s.handle = .closed →
    exec i s = .next { s with phase := .await, cmdOutcome := some .notOpen }

/-- The fault TRANSPORT_CONTRACT (20_memory.md R42; 60_exceptions.md R148), for every instruction and
every write it makes: run it on the same answers with their counts taken away; if one of the writes of
that run was answered Ok with another count than its bytes, the instruction is that fault, and if none
was, it is no fault but ends as that run does. How an adapter answers a count is the model's (log
entry 9), and so is that answers are listed (log entry 5). Said again of SELECT's one write. -/
def Obligations.TransportContract : Prop :=
  (∀ (i : Instr) (s : State), ∃ t, exec i s.uncounted = .next t ∧
    (s.Miscounted t → exec i s = .fault .transportContract) ∧
    (¬ s.Miscounted t → ∃ u, exec i s = .next u ∧ u.uncounted = t)) ∧
  ∀ (s : State) (d : Device) (c : Nat) (p : Byte) (rest : List TxAnswer), s.handle = .opened →
    s.env.answers = .ok (some c) p :: rest →
    (c ≠ 1 → exec (.select d) s = .fault .transportContract) ∧
    (c = 1 → ∃ t, exec (.select d) s = .next t ∧ t.result = ⟨0, 0, []⟩ ∧
      t.wireOut = some (selpat s.params d))

/-- What a result holds, for every request and however it ends: on OK the VALUE and DATA of
30_encoding.md R84; on an error VALUE = 0, and DATA empty but for TRANSPORT and STREAM, where it is the
payload of the first call that failed, a transport call and a stream read; otherwise no call failed;
no code past 0x06 (30_encoding.md R83, R84). Which request may end with which error is the table of
60_exceptions.md R145, R146; ILLEGAL is the front end's, before exec (IllegalRequest). The clauses of
SPI_IN and READ_ID read S.RXBUF in AWAIT, where 10_state.md R28 says it no longer exists: that it is
kept is the model's choice (log entry 12). -/
def Obligations.ResultForms : Prop :=
  ∀ (i : Instr) (s t : State), i.op.isRequest = true → i.wellFormed = true →
    exec i s = .next t → t.phase = .await →
    t.result.code.toNat ≤ 6 ∧
    (t.result.code ≠ 0 → t.result.value = 0) ∧
    (t.result.code = 0x02 ∨ t.result.code = 0x03 ∨ t.result.code = 0x05 ∨
      t.result.code = 0x06 → t.result.data = []) ∧
    (∃ calls, t.trace = s.trace ++ calls ++
        [.result t.result.code t.result.value t.result.data] ∧
      (t.result.code = 0x01 → firstFailure calls = some (.transport t.result.data)) ∧
      (t.result.code = 0x04 → firstFailure calls = some (.stream t.result.data)) ∧
      (t.result.code ≠ 0x01 → t.result.code ≠ 0x04 → firstFailure calls = none)) ∧
    (t.result.code = 0x02 → i.op = .writePage ∨ i.op = .eraseSector ∨ i.op = .eraseAll ∨
      i.op = .flashPoll ∨ i.op = .program) ∧
    (t.result.code = 0x03 ∨ t.result.code = 0x04 → i = .program) ∧
    t.result.code ≠ 0x05 ∧
    (t.result.code = 0x06 → i.op.needsHandle = true ∧ s.handle = .closed) ∧
    (t.result.code = 0 →
      (∀ d data, i = .spiOut d data →
        t.result.value.toNat = data.length ∧ t.result.data = []) ∧
      (∀ d n, i = .spiIn d n →
        t.result.value.toNat = n.toNat ∧ t.result.data = t.spi.rxbuf ∧
          t.result.data.length = n.toNat) ∧
      (i = .readId → t.result.value = identifier t.spi.rxbuf ∧ t.result.data = []) ∧
      (i = .program → t.result.value = pagesWritten t.lastPage ∧ t.result.data = []) ∧
      (i.op ≠ .spiOut → i.op ≠ .spiIn → i.op ≠ .readId → i.op ≠ .program →
        t.result.value = 0 ∧ t.result.data = []))

/-- Every instruction ends, provided every call returns and the write contract holds: exec answers a
next state in AWAIT, and a request's result is on the port, the last event of the trace
(70_reset_and_hazards.md R176; 10_state.md R21, R31; 60_exceptions.md R154). Whatever the answers are
that are not listed (log entry 5). -/
def Obligations.EveryInstructionEnds : Prop :=
  ∀ (i : Instr) (s : State), s.env.returns = true → s.env.honest = true →
    ∃ t, exec i s = .next t ∧ t.phase = .await ∧
      (i.op.isRequest = true → t.resultReady = true ∧
        t.log.head? = some (.result t.result.code t.result.value t.result.data))

/-! ### The trace and the persistent registers -/

/-- The trace only grows; a request that ends adds exactly one Result event, its last event, and a
flash command of the slot adds none (20_memory.md R48; 60_exceptions.md R152). One that does not end
stays BUSY in its operation (10_state.md R21) and adds calls only. R21 says of the step only that it is
one of the pseudocode: that it is the number of the primitive calls made, Diag among them, is the model's
choice (log entry 1), and so is that such a state is a call that never returns, with no event of its own
and a request's port empty (log entries 7 and 12). -/
def Obligations.TraceGrows : Prop :=
  ∀ (i : Instr) (s t : State), exec i s = .next t →
    ∃ calls, (∀ e ∈ calls, e.isCall = true) ∧
      (t.phase = .await → t.trace = s.trace ++ calls ++
        (if i.op.isRequest then [.result t.result.code t.result.value t.result.data] else [])) ∧
      (t.phase ≠ .await → t.trace = s.trace ++ calls ∧ t.phase = .busy i.op calls.length ∧
        t.resultReady = (if i.op.isRequest then false else s.resultReady) ∧
        s.env.returns = false)

/-- 10_state.md R23, R24, R25: no instruction closes the handle, and only OPEN and PROGRAM open it;
only PROGRAM writes S.LAST_PAGE; none changes a parameter. -/
def Obligations.PersistentRegisters : Prop :=
  ∀ (i : Instr) (s t : State), exec i s = .next t →
    t.params = s.params ∧ (s.handle = .opened → t.handle = .opened) ∧
      (i ≠ .openAdapter → i ≠ .program → t.handle = s.handle) ∧
      (i ≠ .program → t.lastPage = s.lastPage)

/-- The request registers hold the accepted request through its step, legal or not (10_state.md R26).
That they still hold it in AWAIT, where R26 calls them undefined, is the model's choice (log
entry 12). -/
def Obligations.RequestCopied : Prop :=
  ∀ (s t : State) (r : Request) (rest : List HostInput),
    s.phase = .await → s.cmdSlot = none → s.env.inputs = .request r :: rest → step s = .next t →
    t.req = ⟨r.hdr, r.opnd, r.data⟩ ∧ t.env.inputs = rest

/-- Host duties are recorded, never a fault of the core: the step of a legal request adds the duties it
breaks, and it faults only on a wrong count (TransportContract), whatever they are
(70_reset_and_hazards.md R168 to R170). The readings are the model's (log entry 10), among them: what is
open is what the latest write left, known or lost, and a reset does not undo it; a direct switch between
the two devices; bytes under Idle close a selection; an SPI_IN with the clock unknown, but not one of no
byte, which only writes IDLE; an engine command in an open selection; anything but SELECT idle and an
SPI_IN of no byte while what is open is lost; any command but a poll, also one built with SPI_OUT, while
a poll is owed; and a commit or an erase built with SPI_OUT owes a poll once its selection is left. -/
def Obligations.DutiesRecorded : Prop :=
  (∀ (s : State) (r : Request) (rest : List HostInput) (i : Instr),
    s.phase = .await → s.cmdSlot = none → s.env.inputs = .request r :: rest →
    decode (.request r) = .ok i →
    (∀ t, step s = .next t → t.duty.broken = dutyBreaks i (s.accept r) ++ s.duty.broken) ∧
    (∀ f, step s = .fault f → f = .transportContract ∧
      ∃ t, exec i (noteDuties i (s.accept r)).uncounted = .next t ∧
        (noteDuties i (s.accept r)).Miscounted t)) ∧
  (∀ (s t : State) (d : Device) (a : TxAnswer) (rest : List TxAnswer),
    s.handle = .opened → s.env.answers = a :: rest → exec (.select d) s = .next t →
    (∀ pins, a = .ok none pins → t.driven = .byte (selpat s.params d)) ∧
    (∀ e, a = .err e → t.driven = .lost) ∧ (a = .never → t.driven = .lost)) ∧
  (∀ (s : State) (i : Instr), (∀ d n, i ≠ .spiIn d n) →
    dutyBreaks i { s.applyReset with handle := s.handle } = dutyBreaks i s) ∧
  (∀ s : State, s.handle = .opened →
    let engine (i : Instr) : Prop := i = .readId ∨ (∃ p data, i = .writePage p data) ∨
      (∃ c0 c1 c2 c3 t, i = .eraseSector c0 c1 c2 c3 t) ∨ (∃ t, i = .eraseAll t) ∨ i = .program
    (s.drivenSelection = some .flash → .directSwitch ∈ dutyBreaks (.select .fpga) s) ∧
    (s.drivenSelection = some .fpga → .directSwitch ∈ dutyBreaks (.select .flash) s) ∧
    (s.driven ≠ .lost → ∀ data, dutyBreaks (.spiOut .idle data) s = []) ∧
    (s.driven = .lost →
      (∀ i, engine i → .selectionUnknown ∈ dutyBreaks i s) ∧
      (∀ t, t ≠ 0 → .selectionUnknown ∈ dutyBreaks (.flashPoll t) s) ∧
      (∀ d, d ≠ .idle → .selectionUnknown ∈ dutyBreaks (.select d) s) ∧
      (∀ d b more, .selectionUnknown ∈ dutyBreaks (.spiOut d (b :: more)) s) ∧
      (∀ d n, n ≠ 0 → .selectionUnknown ∈ dutyBreaks (.spiIn d n) s)) ∧
    dutyBreaks (.select .idle) s = [] ∧
    (s.wireOut = none → ∀ d n, n ≠ 0 → .clockUnknown ∈ dutyBreaks (.spiIn d n) s) ∧
    (∀ d, dutyBreaks (.spiIn d 0) s = []) ∧
    (s.drivenSelection = some .flash ∨ s.drivenSelection = some .fpga →
      (∀ i, engine i → .selectionOpen ∈ dutyBreaks i s) ∧
        ∀ t, t ≠ 0 → .selectionOpen ∈ dutyBreaks (.flashPoll t) s) ∧
    (s.pollOwed = true → (∀ i, engine i → .deviceBusy ∈ dutyBreaks i s) ∧
      (∀ t, .deviceBusy ∉ dutyBreaks (.flashPoll t) s) ∧
      (s.drivenSelection ≠ some .flash ∨ s.duty.opcode = none → ∀ b more,
        .deviceBusy ∈ dutyBreaks (.spiOut .flash (b :: more)) s)) ∧
    (s.drivenSelection = some .idle → s.pollOwed = false → ∀ i, engine i → dutyBreaks i s = []) ∧
    (s.drivenSelection ≠ some .flash ∨ s.duty.opcode = none → ∀ b more,
      (noteDuties (.spiOut .flash (b :: more)) s).duty.opcode = some b) ∧
    (s.duty.opcode = some 0x88 ∨ s.duty.opcode = some 0x7C →
      (noteDuties (.select .idle) s).pollOwed = true ∧
        ∀ d n, (noteDuties (.spiIn d n) s).pollOwed = true))

/-! ### Frames -/

/-- The frames of SELECT and SPI_OUT: beside the wire's shadow, the result, the phase, the answers used
and the trace, and S.W for SPI_OUT, nothing changes (40_device_selector.md R90, R91;
41_spi_bitbanger.md R96, R97). -/
def Obligations.FrameSelectSpiOut : Prop :=
  (∀ (s t : State) (d : Device), exec (.select d) s = .next t →
      s.KeptByBus t ∧ t.spi = s.spi ∧ t.poll = s.poll ∧ t.cmdOutcome = s.cmdOutcome ∧
        t.pollOwed = s.pollOwed) ∧
  (∀ (s t : State) (d : Device) (data : List Byte), exec (.spiOut d data) s = .next t →
      s.KeptByBus t ∧ t.spi.acc = s.spi.acc ∧ t.spi.rxbuf = s.spi.rxbuf ∧ t.spi.err = s.spi.err ∧
        (data = [] → t.spi = s.spi) ∧ t.poll = s.poll ∧ t.cmdOutcome = s.cmdOutcome ∧
        t.pollOwed = s.pollOwed)

/-- SPI_IN's and READ_ID's frame: the poll registers stay; SPI_IN also leaves S.W
(41_spi_bitbanger.md R102, R103; 42_flash_engine.md R108). -/
def Obligations.FrameSpiInReadId : Prop :=
  ∀ (s t : State) (i : Instr), exec i s = .next t →
    (∃ d n, i = .spiIn d n) ∨ i = .readId →
    s.KeptByBus t ∧ (i ≠ .readId → t.spi.w = s.spi.w) ∧ t.poll = s.poll ∧
      t.cmdOutcome = s.cmdOutcome ∧ t.pollOwed = s.pollOwed

/-- The frame of the engine's other requests: only the SPI and poll registers, the wire's shadow, the
result and the trace change (42_flash_engine.md R114, R119, R123, R128). -/
def Obligations.FrameEngine : Prop :=
  ∀ (s t : State) (i : Instr), exec i s = .next t →
    i.op = .writePage ∨ i.op = .eraseSector ∨ i.op = .eraseAll ∨ i.op = .flashPoll →
    s.KeptByBus t ∧ t.cmdOutcome = s.cmdOutcome

/-- The frames of OPEN and PROGRAM: OPEN changes only the handle, the direction, the result and the
trace; and what even the workflow leaves alone (43_workflow.md R133, R135). That OPEN leaves
State.driven, since TxWrite alone moves the output pins, is the model's choice (log entry 10). -/
def Obligations.FrameOpenProgram : Prop :=
  (∀ s t : State, exec .openAdapter s = .next t →
      t.params = s.params ∧ t.lastPage = s.lastPage ∧ t.req = s.req ∧ t.spi = s.spi ∧
        t.poll = s.poll ∧ t.flow = s.flow ∧ t.wireOut = s.wireOut ∧ t.driven = s.driven ∧
        t.cmdSlot = s.cmdSlot ∧
        t.cmdOutcome = s.cmdOutcome ∧ t.duty = s.duty ∧ t.pollOwed = s.pollOwed ∧
        t.env.inputs = s.env.inputs ∧ t.env.streamAnswers = s.env.streamAnswers ∧
        t.env.stream = s.env.stream) ∧
  (∀ s t : State, exec .program s = .next t →
      t.params = s.params ∧ t.req = s.req ∧ t.cmdSlot = s.cmdSlot ∧ t.cmdOutcome = s.cmdOutcome ∧
        t.duty = s.duty ∧ t.env.inputs = s.env.inputs)

/-- The frame of the five flash commands of the slot: no result, no request or workflow register, no
persistent register; BUF_LOAD_CMD, COMMIT_CMD and SECTOR_ERASE_CMD write only S.W of the SPI registers;
only STATUS_READ_CMD writes a poll register
(30_encoding.md R72; 10_state.md R35; log entry 2). -/
def Obligations.FrameCommands : Prop :=
  ∀ (s t : State) (i : Instr), i.op.isRequest = false → exec i s = .next t →
    s.KeptByBus t ∧ t.result = s.result ∧ t.resultReady = s.resultReady ∧
      (i ≠ .statusReadCmd → t.poll = s.poll) ∧
      (i ≠ .statusReadCmd → i ≠ .readIdCmd →
        t.spi.acc = s.spi.acc ∧ t.spi.rxbuf = s.spi.rxbuf ∧ t.spi.err = s.spi.err)

/-! ### Invariants -/

/-- The invariant holds at reset. That S.RESULT holds a code of the table there, and S.K a count up to
264, rests on the zeros of log entry 4: 70_reset_and_hazards.md R163 calls both unspecified. -/
def Obligations.InvAtReset : Prop := State.reset.Inv

/-- Every step keeps the invariant: every event formed, the wire at rest a selection pattern with the
clock low or UNKNOWN, the direction one of the core's two or UNKNOWN, the buffers at their lengths, no
result code past 0x06 (30_encoding.md R65, R83; 20_memory.md R40, R44; 10_state.md R27, R30;
70_reset_and_hazards.md R169); and where the shadow of the wire is known, the model's record of the
latest write agrees with it (log entry 10). A step that takes a reset keeps the bounds of S.RESULT and
S.K by the zeros of log entry 4. -/
def Obligations.StepKeepsInv : Prop := ∀ s t : State, s.Inv → step s = .next t → t.Inv

/-- The first transport call of any run is TxOpen, made by the first OPEN or PROGRAM: it holds at
reset, and every step keeps it (70_reset_and_hazards.md R164; 60_exceptions.md R147). -/
def Obligations.FirstCallIsOpen : Prop :=
  State.reset.OpenedFirst ∧
    (∀ s t : State, s.OpenedFirst → step s = .next t → t.OpenedFirst) ∧
    ∀ (s t : State) (i : Instr), exec i s = .next t → s.handle = .closed → i ≠ .openAdapter →
      i ≠ .program → txCalls t.trace = txCalls s.trace

end
end

