-- ==== Sys2Proof/Laws/State.lean ====
section
/-! SUPPORT. One lemma per field of State per update, each by rfl: what an update writes and what it
leaves alone. -/

namespace Sys2Proof.Machine

/-! ### State.called -/

@[simp] theorem State.called_params (s : State) (e : Event) : (s.called e).params = s.params := rfl
@[simp] theorem State.called_phase (s : State) (e : Event) :
    (s.called e).phase = s.phase.tick := rfl
@[simp] theorem State.called_handle (s : State) (e : Event) : (s.called e).handle = s.handle := rfl
@[simp] theorem State.called_lastPage (s : State) (e : Event) :
    (s.called e).lastPage = s.lastPage := rfl
@[simp] theorem State.called_req (s : State) (e : Event) : (s.called e).req = s.req := rfl
@[simp] theorem State.called_spi (s : State) (e : Event) : (s.called e).spi = s.spi := rfl
@[simp] theorem State.called_poll (s : State) (e : Event) : (s.called e).poll = s.poll := rfl
@[simp] theorem State.called_flow (s : State) (e : Event) : (s.called e).flow = s.flow := rfl
@[simp] theorem State.called_result (s : State) (e : Event) : (s.called e).result = s.result := rfl
@[simp] theorem State.called_resultReady (s : State) (e : Event) :
    (s.called e).resultReady = s.resultReady := rfl
@[simp] theorem State.called_wireOut (s : State) (e : Event) :
    (s.called e).wireOut = s.wireOut := rfl
@[simp] theorem State.called_wireDir (s : State) (e : Event) :
    (s.called e).wireDir = s.wireDir := rfl
@[simp] theorem State.called_cmdSlot (s : State) (e : Event) :
    (s.called e).cmdSlot = s.cmdSlot := rfl
@[simp] theorem State.called_cmdOutcome (s : State) (e : Event) :
    (s.called e).cmdOutcome = s.cmdOutcome := rfl
@[simp] theorem State.called_env (s : State) (e : Event) : (s.called e).env = s.env := rfl
@[simp] theorem State.called_log (s : State) (e : Event) : (s.called e).log = e :: s.log := rfl
@[simp] theorem State.called_duty (s : State) (e : Event) : (s.called e).duty = s.duty := rfl
@[simp] theorem State.called_pollOwed (s : State) (e : Event) :
    (s.called e).pollOwed = s.pollOwed := rfl
@[simp] theorem State.called_driven (s : State) (e : Event) :
    (s.called e).driven = s.driven := rfl

/-! ### State.setWireOut -/

@[simp] theorem Driven.ofWire_eq_byte (w : Option Byte) (b : Byte) :
    Driven.ofWire w = .byte b ↔ w = some b := by cases w <;> simp [Driven.ofWire]

@[simp] theorem State.setWireOut_params (s : State) (b : Option Byte) :
    (s.setWireOut b).params = s.params := rfl
@[simp] theorem State.setWireOut_phase (s : State) (b : Option Byte) :
    (s.setWireOut b).phase = s.phase := rfl
@[simp] theorem State.setWireOut_handle (s : State) (b : Option Byte) :
    (s.setWireOut b).handle = s.handle := rfl
@[simp] theorem State.setWireOut_lastPage (s : State) (b : Option Byte) :
    (s.setWireOut b).lastPage = s.lastPage := rfl
@[simp] theorem State.setWireOut_req (s : State) (b : Option Byte) :
    (s.setWireOut b).req = s.req := rfl
@[simp] theorem State.setWireOut_spi (s : State) (b : Option Byte) :
    (s.setWireOut b).spi = s.spi := rfl
@[simp] theorem State.setWireOut_poll (s : State) (b : Option Byte) :
    (s.setWireOut b).poll = s.poll := rfl
@[simp] theorem State.setWireOut_flow (s : State) (b : Option Byte) :
    (s.setWireOut b).flow = s.flow := rfl
@[simp] theorem State.setWireOut_result (s : State) (b : Option Byte) :
    (s.setWireOut b).result = s.result := rfl
@[simp] theorem State.setWireOut_resultReady (s : State) (b : Option Byte) :
    (s.setWireOut b).resultReady = s.resultReady := rfl
@[simp] theorem State.setWireOut_wireOut (s : State) (b : Option Byte) :
    (s.setWireOut b).wireOut = b := rfl
@[simp] theorem State.setWireOut_wireDir (s : State) (b : Option Byte) :
    (s.setWireOut b).wireDir = s.wireDir := rfl
@[simp] theorem State.setWireOut_cmdSlot (s : State) (b : Option Byte) :
    (s.setWireOut b).cmdSlot = s.cmdSlot := rfl
@[simp] theorem State.setWireOut_cmdOutcome (s : State) (b : Option Byte) :
    (s.setWireOut b).cmdOutcome = s.cmdOutcome := rfl
@[simp] theorem State.setWireOut_env (s : State) (b : Option Byte) :
    (s.setWireOut b).env = s.env := rfl
@[simp] theorem State.setWireOut_log (s : State) (b : Option Byte) :
    (s.setWireOut b).log = s.log := rfl
@[simp] theorem State.setWireOut_duty (s : State) (b : Option Byte) :
    (s.setWireOut b).duty = s.duty := rfl
@[simp] theorem State.setWireOut_pollOwed (s : State) (b : Option Byte) :
    (s.setWireOut b).pollOwed = s.pollOwed := rfl
@[simp] theorem State.setWireOut_driven (s : State) (b : Option Byte) :
    (s.setWireOut b).driven = .ofWire b := rfl

/-! ### State.setWireDir -/

@[simp] theorem State.setWireDir_params (s : State) (b : Option Byte) :
    (s.setWireDir b).params = s.params := rfl
@[simp] theorem State.setWireDir_phase (s : State) (b : Option Byte) :
    (s.setWireDir b).phase = s.phase := rfl
@[simp] theorem State.setWireDir_handle (s : State) (b : Option Byte) :
    (s.setWireDir b).handle = s.handle := rfl
@[simp] theorem State.setWireDir_lastPage (s : State) (b : Option Byte) :
    (s.setWireDir b).lastPage = s.lastPage := rfl
@[simp] theorem State.setWireDir_req (s : State) (b : Option Byte) :
    (s.setWireDir b).req = s.req := rfl
@[simp] theorem State.setWireDir_spi (s : State) (b : Option Byte) :
    (s.setWireDir b).spi = s.spi := rfl
@[simp] theorem State.setWireDir_poll (s : State) (b : Option Byte) :
    (s.setWireDir b).poll = s.poll := rfl
@[simp] theorem State.setWireDir_flow (s : State) (b : Option Byte) :
    (s.setWireDir b).flow = s.flow := rfl
@[simp] theorem State.setWireDir_result (s : State) (b : Option Byte) :
    (s.setWireDir b).result = s.result := rfl
@[simp] theorem State.setWireDir_resultReady (s : State) (b : Option Byte) :
    (s.setWireDir b).resultReady = s.resultReady := rfl
@[simp] theorem State.setWireDir_wireOut (s : State) (b : Option Byte) :
    (s.setWireDir b).wireOut = s.wireOut := rfl
@[simp] theorem State.setWireDir_wireDir (s : State) (b : Option Byte) :
    (s.setWireDir b).wireDir = b := rfl
@[simp] theorem State.setWireDir_cmdSlot (s : State) (b : Option Byte) :
    (s.setWireDir b).cmdSlot = s.cmdSlot := rfl
@[simp] theorem State.setWireDir_cmdOutcome (s : State) (b : Option Byte) :
    (s.setWireDir b).cmdOutcome = s.cmdOutcome := rfl
@[simp] theorem State.setWireDir_env (s : State) (b : Option Byte) :
    (s.setWireDir b).env = s.env := rfl
@[simp] theorem State.setWireDir_log (s : State) (b : Option Byte) :
    (s.setWireDir b).log = s.log := rfl
@[simp] theorem State.setWireDir_duty (s : State) (b : Option Byte) :
    (s.setWireDir b).duty = s.duty := rfl
@[simp] theorem State.setWireDir_pollOwed (s : State) (b : Option Byte) :
    (s.setWireDir b).pollOwed = s.pollOwed := rfl
@[simp] theorem State.setWireDir_driven (s : State) (b : Option Byte) :
    (s.setWireDir b).driven = s.driven := rfl

/-! ### State.setHandle -/

@[simp] theorem State.setHandle_params (s : State) (h : Handle) :
    (s.setHandle h).params = s.params := rfl
@[simp] theorem State.setHandle_phase (s : State) (h : Handle) :
    (s.setHandle h).phase = s.phase := rfl
@[simp] theorem State.setHandle_handle (s : State) (h : Handle) : (s.setHandle h).handle = h := rfl
@[simp] theorem State.setHandle_lastPage (s : State) (h : Handle) :
    (s.setHandle h).lastPage = s.lastPage := rfl
@[simp] theorem State.setHandle_req (s : State) (h : Handle) : (s.setHandle h).req = s.req := rfl
@[simp] theorem State.setHandle_spi (s : State) (h : Handle) : (s.setHandle h).spi = s.spi := rfl
@[simp] theorem State.setHandle_poll (s : State) (h : Handle) :
    (s.setHandle h).poll = s.poll := rfl
@[simp] theorem State.setHandle_flow (s : State) (h : Handle) :
    (s.setHandle h).flow = s.flow := rfl
@[simp] theorem State.setHandle_result (s : State) (h : Handle) :
    (s.setHandle h).result = s.result := rfl
@[simp] theorem State.setHandle_resultReady (s : State) (h : Handle) :
    (s.setHandle h).resultReady = s.resultReady := rfl
@[simp] theorem State.setHandle_wireOut (s : State) (h : Handle) :
    (s.setHandle h).wireOut = s.wireOut := rfl
@[simp] theorem State.setHandle_wireDir (s : State) (h : Handle) :
    (s.setHandle h).wireDir = s.wireDir := rfl
@[simp] theorem State.setHandle_cmdSlot (s : State) (h : Handle) :
    (s.setHandle h).cmdSlot = s.cmdSlot := rfl
@[simp] theorem State.setHandle_cmdOutcome (s : State) (h : Handle) :
    (s.setHandle h).cmdOutcome = s.cmdOutcome := rfl
@[simp] theorem State.setHandle_env (s : State) (h : Handle) : (s.setHandle h).env = s.env := rfl
@[simp] theorem State.setHandle_log (s : State) (h : Handle) : (s.setHandle h).log = s.log := rfl
@[simp] theorem State.setHandle_duty (s : State) (h : Handle) :
    (s.setHandle h).duty = s.duty := rfl
@[simp] theorem State.setHandle_pollOwed (s : State) (h : Handle) :
    (s.setHandle h).pollOwed = s.pollOwed := rfl
@[simp] theorem State.setHandle_driven (s : State) (h : Handle) :
    (s.setHandle h).driven = s.driven := rfl

/-! ### State.setLastPage -/

@[simp] theorem State.setLastPage_params (s : State) (p : Option Page) :
    (s.setLastPage p).params = s.params := rfl
@[simp] theorem State.setLastPage_phase (s : State) (p : Option Page) :
    (s.setLastPage p).phase = s.phase := rfl
@[simp] theorem State.setLastPage_handle (s : State) (p : Option Page) :
    (s.setLastPage p).handle = s.handle := rfl
@[simp] theorem State.setLastPage_lastPage (s : State) (p : Option Page) :
    (s.setLastPage p).lastPage = p := rfl
@[simp] theorem State.setLastPage_req (s : State) (p : Option Page) :
    (s.setLastPage p).req = s.req := rfl
@[simp] theorem State.setLastPage_spi (s : State) (p : Option Page) :
    (s.setLastPage p).spi = s.spi := rfl
@[simp] theorem State.setLastPage_poll (s : State) (p : Option Page) :
    (s.setLastPage p).poll = s.poll := rfl
@[simp] theorem State.setLastPage_flow (s : State) (p : Option Page) :
    (s.setLastPage p).flow = s.flow := rfl
@[simp] theorem State.setLastPage_result (s : State) (p : Option Page) :
    (s.setLastPage p).result = s.result := rfl
@[simp] theorem State.setLastPage_resultReady (s : State) (p : Option Page) :
    (s.setLastPage p).resultReady = s.resultReady := rfl
@[simp] theorem State.setLastPage_wireOut (s : State) (p : Option Page) :
    (s.setLastPage p).wireOut = s.wireOut := rfl
@[simp] theorem State.setLastPage_wireDir (s : State) (p : Option Page) :
    (s.setLastPage p).wireDir = s.wireDir := rfl
@[simp] theorem State.setLastPage_cmdSlot (s : State) (p : Option Page) :
    (s.setLastPage p).cmdSlot = s.cmdSlot := rfl
@[simp] theorem State.setLastPage_cmdOutcome (s : State) (p : Option Page) :
    (s.setLastPage p).cmdOutcome = s.cmdOutcome := rfl
@[simp] theorem State.setLastPage_env (s : State) (p : Option Page) :
    (s.setLastPage p).env = s.env := rfl
@[simp] theorem State.setLastPage_log (s : State) (p : Option Page) :
    (s.setLastPage p).log = s.log := rfl
@[simp] theorem State.setLastPage_duty (s : State) (p : Option Page) :
    (s.setLastPage p).duty = s.duty := rfl
@[simp] theorem State.setLastPage_pollOwed (s : State) (p : Option Page) :
    (s.setLastPage p).pollOwed = s.pollOwed := rfl
@[simp] theorem State.setLastPage_driven (s : State) (p : Option Page) :
    (s.setLastPage p).driven = s.driven := rfl

/-! ### State.setSpi -/

@[simp] theorem State.setSpi_params (s : State) (r : SpiRegs) :
    (s.setSpi r).params = s.params := rfl
@[simp] theorem State.setSpi_phase (s : State) (r : SpiRegs) : (s.setSpi r).phase = s.phase := rfl
@[simp] theorem State.setSpi_handle (s : State) (r : SpiRegs) :
    (s.setSpi r).handle = s.handle := rfl
@[simp] theorem State.setSpi_lastPage (s : State) (r : SpiRegs) :
    (s.setSpi r).lastPage = s.lastPage := rfl
@[simp] theorem State.setSpi_req (s : State) (r : SpiRegs) : (s.setSpi r).req = s.req := rfl
@[simp] theorem State.setSpi_spi (s : State) (r : SpiRegs) : (s.setSpi r).spi = r := rfl
@[simp] theorem State.setSpi_poll (s : State) (r : SpiRegs) : (s.setSpi r).poll = s.poll := rfl
@[simp] theorem State.setSpi_flow (s : State) (r : SpiRegs) : (s.setSpi r).flow = s.flow := rfl
@[simp] theorem State.setSpi_result (s : State) (r : SpiRegs) :
    (s.setSpi r).result = s.result := rfl
@[simp] theorem State.setSpi_resultReady (s : State) (r : SpiRegs) :
    (s.setSpi r).resultReady = s.resultReady := rfl
@[simp] theorem State.setSpi_wireOut (s : State) (r : SpiRegs) :
    (s.setSpi r).wireOut = s.wireOut := rfl
@[simp] theorem State.setSpi_wireDir (s : State) (r : SpiRegs) :
    (s.setSpi r).wireDir = s.wireDir := rfl
@[simp] theorem State.setSpi_cmdSlot (s : State) (r : SpiRegs) :
    (s.setSpi r).cmdSlot = s.cmdSlot := rfl
@[simp] theorem State.setSpi_cmdOutcome (s : State) (r : SpiRegs) :
    (s.setSpi r).cmdOutcome = s.cmdOutcome := rfl
@[simp] theorem State.setSpi_env (s : State) (r : SpiRegs) : (s.setSpi r).env = s.env := rfl
@[simp] theorem State.setSpi_log (s : State) (r : SpiRegs) : (s.setSpi r).log = s.log := rfl
@[simp] theorem State.setSpi_duty (s : State) (r : SpiRegs) : (s.setSpi r).duty = s.duty := rfl
@[simp] theorem State.setSpi_pollOwed (s : State) (r : SpiRegs) :
    (s.setSpi r).pollOwed = s.pollOwed := rfl
@[simp] theorem State.setSpi_driven (s : State) (r : SpiRegs) :
    (s.setSpi r).driven = s.driven := rfl

/-! ### State.setPoll -/

@[simp] theorem State.setPoll_params (s : State) (r : PollRegs) :
    (s.setPoll r).params = s.params := rfl
@[simp] theorem State.setPoll_phase (s : State) (r : PollRegs) :
    (s.setPoll r).phase = s.phase := rfl
@[simp] theorem State.setPoll_handle (s : State) (r : PollRegs) :
    (s.setPoll r).handle = s.handle := rfl
@[simp] theorem State.setPoll_lastPage (s : State) (r : PollRegs) :
    (s.setPoll r).lastPage = s.lastPage := rfl
@[simp] theorem State.setPoll_req (s : State) (r : PollRegs) : (s.setPoll r).req = s.req := rfl
@[simp] theorem State.setPoll_spi (s : State) (r : PollRegs) : (s.setPoll r).spi = s.spi := rfl
@[simp] theorem State.setPoll_poll (s : State) (r : PollRegs) : (s.setPoll r).poll = r := rfl
@[simp] theorem State.setPoll_flow (s : State) (r : PollRegs) : (s.setPoll r).flow = s.flow := rfl
@[simp] theorem State.setPoll_result (s : State) (r : PollRegs) :
    (s.setPoll r).result = s.result := rfl
@[simp] theorem State.setPoll_resultReady (s : State) (r : PollRegs) :
    (s.setPoll r).resultReady = s.resultReady := rfl
@[simp] theorem State.setPoll_wireOut (s : State) (r : PollRegs) :
    (s.setPoll r).wireOut = s.wireOut := rfl
@[simp] theorem State.setPoll_wireDir (s : State) (r : PollRegs) :
    (s.setPoll r).wireDir = s.wireDir := rfl
@[simp] theorem State.setPoll_cmdSlot (s : State) (r : PollRegs) :
    (s.setPoll r).cmdSlot = s.cmdSlot := rfl
@[simp] theorem State.setPoll_cmdOutcome (s : State) (r : PollRegs) :
    (s.setPoll r).cmdOutcome = s.cmdOutcome := rfl
@[simp] theorem State.setPoll_env (s : State) (r : PollRegs) : (s.setPoll r).env = s.env := rfl
@[simp] theorem State.setPoll_log (s : State) (r : PollRegs) : (s.setPoll r).log = s.log := rfl
@[simp] theorem State.setPoll_duty (s : State) (r : PollRegs) : (s.setPoll r).duty = s.duty := rfl
@[simp] theorem State.setPoll_pollOwed (s : State) (r : PollRegs) :
    (s.setPoll r).pollOwed = s.pollOwed := rfl
@[simp] theorem State.setPoll_driven (s : State) (r : PollRegs) :
    (s.setPoll r).driven = s.driven := rfl

/-! ### State.setFlow -/

@[simp] theorem State.setFlow_params (s : State) (r : FlowRegs) :
    (s.setFlow r).params = s.params := rfl
@[simp] theorem State.setFlow_phase (s : State) (r : FlowRegs) :
    (s.setFlow r).phase = s.phase := rfl
@[simp] theorem State.setFlow_handle (s : State) (r : FlowRegs) :
    (s.setFlow r).handle = s.handle := rfl
@[simp] theorem State.setFlow_lastPage (s : State) (r : FlowRegs) :
    (s.setFlow r).lastPage = s.lastPage := rfl
@[simp] theorem State.setFlow_req (s : State) (r : FlowRegs) : (s.setFlow r).req = s.req := rfl
@[simp] theorem State.setFlow_spi (s : State) (r : FlowRegs) : (s.setFlow r).spi = s.spi := rfl
@[simp] theorem State.setFlow_poll (s : State) (r : FlowRegs) : (s.setFlow r).poll = s.poll := rfl
@[simp] theorem State.setFlow_flow (s : State) (r : FlowRegs) : (s.setFlow r).flow = r := rfl
@[simp] theorem State.setFlow_result (s : State) (r : FlowRegs) :
    (s.setFlow r).result = s.result := rfl
@[simp] theorem State.setFlow_resultReady (s : State) (r : FlowRegs) :
    (s.setFlow r).resultReady = s.resultReady := rfl
@[simp] theorem State.setFlow_wireOut (s : State) (r : FlowRegs) :
    (s.setFlow r).wireOut = s.wireOut := rfl
@[simp] theorem State.setFlow_wireDir (s : State) (r : FlowRegs) :
    (s.setFlow r).wireDir = s.wireDir := rfl
@[simp] theorem State.setFlow_cmdSlot (s : State) (r : FlowRegs) :
    (s.setFlow r).cmdSlot = s.cmdSlot := rfl
@[simp] theorem State.setFlow_cmdOutcome (s : State) (r : FlowRegs) :
    (s.setFlow r).cmdOutcome = s.cmdOutcome := rfl
@[simp] theorem State.setFlow_env (s : State) (r : FlowRegs) : (s.setFlow r).env = s.env := rfl
@[simp] theorem State.setFlow_log (s : State) (r : FlowRegs) : (s.setFlow r).log = s.log := rfl
@[simp] theorem State.setFlow_duty (s : State) (r : FlowRegs) : (s.setFlow r).duty = s.duty := rfl
@[simp] theorem State.setFlow_pollOwed (s : State) (r : FlowRegs) :
    (s.setFlow r).pollOwed = s.pollOwed := rfl
@[simp] theorem State.setFlow_driven (s : State) (r : FlowRegs) :
    (s.setFlow r).driven = s.driven := rfl

/-! ### State.setEnv -/

@[simp] theorem State.setEnv_params (s : State) (e : Env) : (s.setEnv e).params = s.params := rfl
@[simp] theorem State.setEnv_phase (s : State) (e : Env) : (s.setEnv e).phase = s.phase := rfl
@[simp] theorem State.setEnv_handle (s : State) (e : Env) : (s.setEnv e).handle = s.handle := rfl
@[simp] theorem State.setEnv_lastPage (s : State) (e : Env) :
    (s.setEnv e).lastPage = s.lastPage := rfl
@[simp] theorem State.setEnv_req (s : State) (e : Env) : (s.setEnv e).req = s.req := rfl
@[simp] theorem State.setEnv_spi (s : State) (e : Env) : (s.setEnv e).spi = s.spi := rfl
@[simp] theorem State.setEnv_poll (s : State) (e : Env) : (s.setEnv e).poll = s.poll := rfl
@[simp] theorem State.setEnv_flow (s : State) (e : Env) : (s.setEnv e).flow = s.flow := rfl
@[simp] theorem State.setEnv_result (s : State) (e : Env) : (s.setEnv e).result = s.result := rfl
@[simp] theorem State.setEnv_resultReady (s : State) (e : Env) :
    (s.setEnv e).resultReady = s.resultReady := rfl
@[simp] theorem State.setEnv_wireOut (s : State) (e : Env) :
    (s.setEnv e).wireOut = s.wireOut := rfl
@[simp] theorem State.setEnv_wireDir (s : State) (e : Env) :
    (s.setEnv e).wireDir = s.wireDir := rfl
@[simp] theorem State.setEnv_cmdSlot (s : State) (e : Env) :
    (s.setEnv e).cmdSlot = s.cmdSlot := rfl
@[simp] theorem State.setEnv_cmdOutcome (s : State) (e : Env) :
    (s.setEnv e).cmdOutcome = s.cmdOutcome := rfl
@[simp] theorem State.setEnv_env (s : State) (e : Env) : (s.setEnv e).env = e := rfl
@[simp] theorem State.setEnv_log (s : State) (e : Env) : (s.setEnv e).log = s.log := rfl
@[simp] theorem State.setEnv_duty (s : State) (e : Env) : (s.setEnv e).duty = s.duty := rfl
@[simp] theorem State.setEnv_pollOwed (s : State) (e : Env) :
    (s.setEnv e).pollOwed = s.pollOwed := rfl
@[simp] theorem State.setEnv_driven (s : State) (e : Env) :
    (s.setEnv e).driven = s.driven := rfl

/-! ### State.setPollOwed -/

@[simp] theorem State.setPollOwed_params (s : State) (b : Bool) :
    (s.setPollOwed b).params = s.params := rfl
@[simp] theorem State.setPollOwed_phase (s : State) (b : Bool) :
    (s.setPollOwed b).phase = s.phase := rfl
@[simp] theorem State.setPollOwed_handle (s : State) (b : Bool) :
    (s.setPollOwed b).handle = s.handle := rfl
@[simp] theorem State.setPollOwed_lastPage (s : State) (b : Bool) :
    (s.setPollOwed b).lastPage = s.lastPage := rfl
@[simp] theorem State.setPollOwed_req (s : State) (b : Bool) : (s.setPollOwed b).req = s.req := rfl
@[simp] theorem State.setPollOwed_spi (s : State) (b : Bool) : (s.setPollOwed b).spi = s.spi := rfl
@[simp] theorem State.setPollOwed_poll (s : State) (b : Bool) :
    (s.setPollOwed b).poll = s.poll := rfl
@[simp] theorem State.setPollOwed_flow (s : State) (b : Bool) :
    (s.setPollOwed b).flow = s.flow := rfl
@[simp] theorem State.setPollOwed_result (s : State) (b : Bool) :
    (s.setPollOwed b).result = s.result := rfl
@[simp] theorem State.setPollOwed_resultReady (s : State) (b : Bool) :
    (s.setPollOwed b).resultReady = s.resultReady := rfl
@[simp] theorem State.setPollOwed_wireOut (s : State) (b : Bool) :
    (s.setPollOwed b).wireOut = s.wireOut := rfl
@[simp] theorem State.setPollOwed_wireDir (s : State) (b : Bool) :
    (s.setPollOwed b).wireDir = s.wireDir := rfl
@[simp] theorem State.setPollOwed_cmdSlot (s : State) (b : Bool) :
    (s.setPollOwed b).cmdSlot = s.cmdSlot := rfl
@[simp] theorem State.setPollOwed_cmdOutcome (s : State) (b : Bool) :
    (s.setPollOwed b).cmdOutcome = s.cmdOutcome := rfl
@[simp] theorem State.setPollOwed_env (s : State) (b : Bool) : (s.setPollOwed b).env = s.env := rfl
@[simp] theorem State.setPollOwed_log (s : State) (b : Bool) : (s.setPollOwed b).log = s.log := rfl
@[simp] theorem State.setPollOwed_duty (s : State) (b : Bool) :
    (s.setPollOwed b).duty = s.duty := rfl
@[simp] theorem State.setPollOwed_pollOwed (s : State) (b : Bool) :
    (s.setPollOwed b).pollOwed = b := rfl
@[simp] theorem State.setPollOwed_driven (s : State) (b : Bool) :
    (s.setPollOwed b).driven = s.driven := rfl

/-! ### State.begin -/

@[simp] theorem State.begin_params (s : State) (op : Op) : (s.begin op).params = s.params := rfl
@[simp] theorem State.begin_phase (s : State) (op : Op) : (s.begin op).phase = .busy op 0 := rfl
@[simp] theorem State.begin_handle (s : State) (op : Op) : (s.begin op).handle = s.handle := rfl
@[simp] theorem State.begin_lastPage (s : State) (op : Op) :
    (s.begin op).lastPage = s.lastPage := rfl
@[simp] theorem State.begin_req (s : State) (op : Op) : (s.begin op).req = s.req := rfl
@[simp] theorem State.begin_spi (s : State) (op : Op) : (s.begin op).spi = s.spi := rfl
@[simp] theorem State.begin_poll (s : State) (op : Op) : (s.begin op).poll = s.poll := rfl
@[simp] theorem State.begin_flow (s : State) (op : Op) : (s.begin op).flow = s.flow := rfl
@[simp] theorem State.begin_result (s : State) (op : Op) : (s.begin op).result = s.result := rfl
@[simp] theorem State.begin_resultReady (s : State) (op : Op) :
    (s.begin op).resultReady = false := rfl
@[simp] theorem State.begin_wireOut (s : State) (op : Op) : (s.begin op).wireOut = s.wireOut := rfl
@[simp] theorem State.begin_wireDir (s : State) (op : Op) : (s.begin op).wireDir = s.wireDir := rfl
@[simp] theorem State.begin_cmdSlot (s : State) (op : Op) : (s.begin op).cmdSlot = s.cmdSlot := rfl
@[simp] theorem State.begin_cmdOutcome (s : State) (op : Op) :
    (s.begin op).cmdOutcome = s.cmdOutcome := rfl
@[simp] theorem State.begin_env (s : State) (op : Op) : (s.begin op).env = s.env := rfl
@[simp] theorem State.begin_log (s : State) (op : Op) : (s.begin op).log = s.log := rfl
@[simp] theorem State.begin_duty (s : State) (op : Op) : (s.begin op).duty = s.duty := rfl
@[simp] theorem State.begin_pollOwed (s : State) (op : Op) :
    (s.begin op).pollOwed = s.pollOwed := rfl
@[simp] theorem State.begin_driven (s : State) (op : Op) :
    (s.begin op).driven = s.driven := rfl

/-! ### State.finish -/

@[simp] theorem State.finish_params (s : State) (r : Result) :
    (s.finish r).params = s.params := rfl
@[simp] theorem State.finish_phase (s : State) (r : Result) : (s.finish r).phase = .await := rfl
@[simp] theorem State.finish_handle (s : State) (r : Result) :
    (s.finish r).handle = s.handle := rfl
@[simp] theorem State.finish_lastPage (s : State) (r : Result) :
    (s.finish r).lastPage = s.lastPage := rfl
@[simp] theorem State.finish_req (s : State) (r : Result) : (s.finish r).req = s.req := rfl
@[simp] theorem State.finish_spi (s : State) (r : Result) : (s.finish r).spi = s.spi := rfl
@[simp] theorem State.finish_poll (s : State) (r : Result) : (s.finish r).poll = s.poll := rfl
@[simp] theorem State.finish_flow (s : State) (r : Result) : (s.finish r).flow = s.flow := rfl
@[simp] theorem State.finish_result (s : State) (r : Result) : (s.finish r).result = r := rfl
@[simp] theorem State.finish_resultReady (s : State) (r : Result) :
    (s.finish r).resultReady = true := rfl
@[simp] theorem State.finish_wireOut (s : State) (r : Result) :
    (s.finish r).wireOut = s.wireOut := rfl
@[simp] theorem State.finish_wireDir (s : State) (r : Result) :
    (s.finish r).wireDir = s.wireDir := rfl
@[simp] theorem State.finish_cmdSlot (s : State) (r : Result) :
    (s.finish r).cmdSlot = s.cmdSlot := rfl
@[simp] theorem State.finish_cmdOutcome (s : State) (r : Result) :
    (s.finish r).cmdOutcome = s.cmdOutcome := rfl
@[simp] theorem State.finish_env (s : State) (r : Result) : (s.finish r).env = s.env := rfl
@[simp] theorem State.finish_log (s : State) (r : Result) :
    (s.finish r).log = .result r.code r.value r.data :: s.log := rfl
@[simp] theorem State.finish_duty (s : State) (r : Result) : (s.finish r).duty = s.duty := rfl
@[simp] theorem State.finish_pollOwed (s : State) (r : Result) :
    (s.finish r).pollOwed = s.pollOwed := rfl
@[simp] theorem State.finish_driven (s : State) (r : Result) :
    (s.finish r).driven = s.driven := rfl

/-! ### State.beginCommand -/

@[simp] theorem State.beginCommand_params (s : State) (op : Op) :
    (s.beginCommand op).params = s.params := rfl
@[simp] theorem State.beginCommand_phase (s : State) (op : Op) :
    (s.beginCommand op).phase = .busy op 0 := rfl
@[simp] theorem State.beginCommand_handle (s : State) (op : Op) :
    (s.beginCommand op).handle = s.handle := rfl
@[simp] theorem State.beginCommand_lastPage (s : State) (op : Op) :
    (s.beginCommand op).lastPage = s.lastPage := rfl
@[simp] theorem State.beginCommand_req (s : State) (op : Op) :
    (s.beginCommand op).req = s.req := rfl
@[simp] theorem State.beginCommand_spi (s : State) (op : Op) :
    (s.beginCommand op).spi = s.spi := rfl
@[simp] theorem State.beginCommand_poll (s : State) (op : Op) :
    (s.beginCommand op).poll = s.poll := rfl
@[simp] theorem State.beginCommand_flow (s : State) (op : Op) :
    (s.beginCommand op).flow = s.flow := rfl
@[simp] theorem State.beginCommand_result (s : State) (op : Op) :
    (s.beginCommand op).result = s.result := rfl
@[simp] theorem State.beginCommand_resultReady (s : State) (op : Op) :
    (s.beginCommand op).resultReady = s.resultReady := rfl
@[simp] theorem State.beginCommand_wireOut (s : State) (op : Op) :
    (s.beginCommand op).wireOut = s.wireOut := rfl
@[simp] theorem State.beginCommand_wireDir (s : State) (op : Op) :
    (s.beginCommand op).wireDir = s.wireDir := rfl
@[simp] theorem State.beginCommand_cmdSlot (s : State) (op : Op) :
    (s.beginCommand op).cmdSlot = s.cmdSlot := rfl
@[simp] theorem State.beginCommand_cmdOutcome (s : State) (op : Op) :
    (s.beginCommand op).cmdOutcome = s.cmdOutcome := rfl
@[simp] theorem State.beginCommand_env (s : State) (op : Op) :
    (s.beginCommand op).env = s.env := rfl
@[simp] theorem State.beginCommand_log (s : State) (op : Op) :
    (s.beginCommand op).log = s.log := rfl
@[simp] theorem State.beginCommand_duty (s : State) (op : Op) :
    (s.beginCommand op).duty = s.duty := rfl
@[simp] theorem State.beginCommand_pollOwed (s : State) (op : Op) :
    (s.beginCommand op).pollOwed = s.pollOwed := rfl
@[simp] theorem State.beginCommand_driven (s : State) (op : Op) :
    (s.beginCommand op).driven = s.driven := rfl

/-! ### State.finishCommand -/

@[simp] theorem State.finishCommand_params (s : State) (o : Option Failure) :
    (s.finishCommand o).params = s.params := rfl
@[simp] theorem State.finishCommand_phase (s : State) (o : Option Failure) :
    (s.finishCommand o).phase = .await := rfl
@[simp] theorem State.finishCommand_handle (s : State) (o : Option Failure) :
    (s.finishCommand o).handle = s.handle := rfl
@[simp] theorem State.finishCommand_lastPage (s : State) (o : Option Failure) :
    (s.finishCommand o).lastPage = s.lastPage := rfl
@[simp] theorem State.finishCommand_req (s : State) (o : Option Failure) :
    (s.finishCommand o).req = s.req := rfl
@[simp] theorem State.finishCommand_spi (s : State) (o : Option Failure) :
    (s.finishCommand o).spi = s.spi := rfl
@[simp] theorem State.finishCommand_poll (s : State) (o : Option Failure) :
    (s.finishCommand o).poll = s.poll := rfl
@[simp] theorem State.finishCommand_flow (s : State) (o : Option Failure) :
    (s.finishCommand o).flow = s.flow := rfl
@[simp] theorem State.finishCommand_result (s : State) (o : Option Failure) :
    (s.finishCommand o).result = s.result := rfl
@[simp] theorem State.finishCommand_resultReady (s : State) (o : Option Failure) :
    (s.finishCommand o).resultReady = s.resultReady := rfl
@[simp] theorem State.finishCommand_wireOut (s : State) (o : Option Failure) :
    (s.finishCommand o).wireOut = s.wireOut := rfl
@[simp] theorem State.finishCommand_wireDir (s : State) (o : Option Failure) :
    (s.finishCommand o).wireDir = s.wireDir := rfl
@[simp] theorem State.finishCommand_cmdSlot (s : State) (o : Option Failure) :
    (s.finishCommand o).cmdSlot = s.cmdSlot := rfl
@[simp] theorem State.finishCommand_cmdOutcome (s : State) (o : Option Failure) :
    (s.finishCommand o).cmdOutcome = o := rfl
@[simp] theorem State.finishCommand_env (s : State) (o : Option Failure) :
    (s.finishCommand o).env = s.env := rfl
@[simp] theorem State.finishCommand_log (s : State) (o : Option Failure) :
    (s.finishCommand o).log = s.log := rfl
@[simp] theorem State.finishCommand_duty (s : State) (o : Option Failure) :
    (s.finishCommand o).duty = s.duty := rfl
@[simp] theorem State.finishCommand_pollOwed (s : State) (o : Option Failure) :
    (s.finishCommand o).pollOwed = s.pollOwed := rfl
@[simp] theorem State.finishCommand_driven (s : State) (o : Option Failure) :
    (s.finishCommand o).driven = s.driven := rfl

/-! ### State.accept -/

@[simp] theorem State.accept_params (s : State) (r : Request) :
    (s.accept r).params = s.params := rfl
@[simp] theorem State.accept_phase (s : State) (r : Request) : (s.accept r).phase = s.phase := rfl
@[simp] theorem State.accept_handle (s : State) (r : Request) :
    (s.accept r).handle = s.handle := rfl
@[simp] theorem State.accept_lastPage (s : State) (r : Request) :
    (s.accept r).lastPage = s.lastPage := rfl
@[simp] theorem State.accept_req (s : State) (r : Request) :
    (s.accept r).req = ⟨r.hdr, r.opnd, r.data⟩ := rfl
@[simp] theorem State.accept_spi (s : State) (r : Request) : (s.accept r).spi = s.spi := rfl
@[simp] theorem State.accept_poll (s : State) (r : Request) : (s.accept r).poll = s.poll := rfl
@[simp] theorem State.accept_flow (s : State) (r : Request) : (s.accept r).flow = s.flow := rfl
@[simp] theorem State.accept_result (s : State) (r : Request) :
    (s.accept r).result = s.result := rfl
@[simp] theorem State.accept_resultReady (s : State) (r : Request) :
    (s.accept r).resultReady = s.resultReady := rfl
@[simp] theorem State.accept_wireOut (s : State) (r : Request) :
    (s.accept r).wireOut = s.wireOut := rfl
@[simp] theorem State.accept_wireDir (s : State) (r : Request) :
    (s.accept r).wireDir = s.wireDir := rfl
@[simp] theorem State.accept_cmdSlot (s : State) (r : Request) :
    (s.accept r).cmdSlot = s.cmdSlot := rfl
@[simp] theorem State.accept_cmdOutcome (s : State) (r : Request) :
    (s.accept r).cmdOutcome = s.cmdOutcome := rfl
@[simp] theorem State.accept_env (s : State) (r : Request) :
    (s.accept r).env = { s.env with inputs := s.env.inputs.tail } := rfl
@[simp] theorem State.accept_log (s : State) (r : Request) : (s.accept r).log = s.log := rfl
@[simp] theorem State.accept_duty (s : State) (r : Request) : (s.accept r).duty = s.duty := rfl
@[simp] theorem State.accept_pollOwed (s : State) (r : Request) :
    (s.accept r).pollOwed = s.pollOwed := rfl
@[simp] theorem State.accept_driven (s : State) (r : Request) :
    (s.accept r).driven = s.driven := rfl

/-! ### State.takeCommand -/

@[simp] theorem State.takeCommand_params (s : State) : s.takeCommand.params = s.params := rfl
@[simp] theorem State.takeCommand_phase (s : State) : s.takeCommand.phase = s.phase := rfl
@[simp] theorem State.takeCommand_handle (s : State) : s.takeCommand.handle = s.handle := rfl
@[simp] theorem State.takeCommand_lastPage (s : State) : s.takeCommand.lastPage = s.lastPage := rfl
@[simp] theorem State.takeCommand_req (s : State) : s.takeCommand.req = s.req := rfl
@[simp] theorem State.takeCommand_spi (s : State) : s.takeCommand.spi = s.spi := rfl
@[simp] theorem State.takeCommand_poll (s : State) : s.takeCommand.poll = s.poll := rfl
@[simp] theorem State.takeCommand_flow (s : State) : s.takeCommand.flow = s.flow := rfl
@[simp] theorem State.takeCommand_result (s : State) : s.takeCommand.result = s.result := rfl
@[simp] theorem State.takeCommand_resultReady (s : State) :
    s.takeCommand.resultReady = s.resultReady := rfl
@[simp] theorem State.takeCommand_wireOut (s : State) : s.takeCommand.wireOut = s.wireOut := rfl
@[simp] theorem State.takeCommand_wireDir (s : State) : s.takeCommand.wireDir = s.wireDir := rfl
@[simp] theorem State.takeCommand_cmdSlot (s : State) : s.takeCommand.cmdSlot = none := rfl
@[simp] theorem State.takeCommand_cmdOutcome (s : State) :
    s.takeCommand.cmdOutcome = s.cmdOutcome := rfl
@[simp] theorem State.takeCommand_env (s : State) : s.takeCommand.env = s.env := rfl
@[simp] theorem State.takeCommand_log (s : State) : s.takeCommand.log = s.log := rfl
@[simp] theorem State.takeCommand_duty (s : State) : s.takeCommand.duty = s.duty := rfl
@[simp] theorem State.takeCommand_pollOwed (s : State) : s.takeCommand.pollOwed = s.pollOwed := rfl
@[simp] theorem State.takeCommand_driven (s : State) : s.takeCommand.driven = s.driven := rfl

/-! ### The duty record -/

@[simp] theorem noteDuties_params (i : Instr) (s : State) :
    (noteDuties i s).params = s.params := rfl
@[simp] theorem noteDuties_phase (i : Instr) (s : State) :
    (noteDuties i s).phase = s.phase := rfl
@[simp] theorem noteDuties_handle (i : Instr) (s : State) :
    (noteDuties i s).handle = s.handle := rfl
@[simp] theorem noteDuties_lastPage (i : Instr) (s : State) :
    (noteDuties i s).lastPage = s.lastPage := rfl
@[simp] theorem noteDuties_req (i : Instr) (s : State) :
    (noteDuties i s).req = s.req := rfl
@[simp] theorem noteDuties_spi (i : Instr) (s : State) :
    (noteDuties i s).spi = s.spi := rfl
@[simp] theorem noteDuties_poll (i : Instr) (s : State) :
    (noteDuties i s).poll = s.poll := rfl
@[simp] theorem noteDuties_flow (i : Instr) (s : State) :
    (noteDuties i s).flow = s.flow := rfl
@[simp] theorem noteDuties_result (i : Instr) (s : State) :
    (noteDuties i s).result = s.result := rfl
@[simp] theorem noteDuties_resultReady (i : Instr) (s : State) :
    (noteDuties i s).resultReady = s.resultReady := rfl
@[simp] theorem noteDuties_wireOut (i : Instr) (s : State) :
    (noteDuties i s).wireOut = s.wireOut := rfl
@[simp] theorem noteDuties_wireDir (i : Instr) (s : State) :
    (noteDuties i s).wireDir = s.wireDir := rfl
@[simp] theorem noteDuties_cmdSlot (i : Instr) (s : State) :
    (noteDuties i s).cmdSlot = s.cmdSlot := rfl
@[simp] theorem noteDuties_cmdOutcome (i : Instr) (s : State) :
    (noteDuties i s).cmdOutcome = s.cmdOutcome := rfl
@[simp] theorem noteDuties_env (i : Instr) (s : State) :
    (noteDuties i s).env = s.env := rfl
@[simp] theorem noteDuties_log (i : Instr) (s : State) :
    (noteDuties i s).log = s.log := rfl
@[simp] theorem noteDuties_duty (i : Instr) (s : State) :
    (noteDuties i s).duty = ⟨dutyBreaks i s ++ s.duty.broken, opcodeAfter i s⟩ := rfl
@[simp] theorem noteDuties_pollOwed (i : Instr) (s : State) :
    (noteDuties i s).pollOwed = owedAfter i s := rfl
@[simp] theorem noteDuties_driven (i : Instr) (s : State) :
    (noteDuties i s).driven = s.driven := rfl

/-! ### The trace, oldest event first -/

@[simp] theorem State.trace_called (s : State) (e : Event) :
    (s.called e).trace = s.trace ++ [e] := by simp [State.trace]

@[simp] theorem State.trace_finish (s : State) (r : Result) :
    (s.finish r).trace = s.trace ++ [.result r.code r.value r.data] := by simp [State.trace]

theorem State.trace_of_log {s t : State} (new : List Event) (h : t.log = new.reverse ++ s.log) :
    t.trace = s.trace ++ new := by simp [State.trace, h]

end Sys2Proof.Machine
end

