-- ==== Sys2Proof/Laws/Ops.lean ====
section
/-! SUPPORT. What the shared operations can do, said once: the answers that are drawn, the
primitives, sequencing, recovery, and the end of a request. `Res.Ends R s r` says how every end of
an operation started in `s` relates to `s`; the bus operations are proved to end in every relation
that is closed under their primitives (`BusClosed`), so that a frame, a trace fact and an invariant
are each one instantiation. -/

namespace Sys2Proof.Machine

/-! ### Draws -/

@[simp] theorem nextAnswer_cons (a : TxAnswer) (rest : List TxAnswer) (e : Env)
    (h : e.answers = a :: rest) : nextAnswer e = (a, { e with answers := rest }) := by
  simp [nextAnswer, h]

theorem freeAnswer_honest (n : Nat) : (freeAnswer n).honest = true := by
  unfold freeAnswer; split <;> rfl

theorem freeAnswer_returns (n : Nat) : (freeAnswer n).returns = true := by
  unfold freeAnswer; split <;> rfl

theorem freeStreamAnswer_returns (n : Nat) : (freeStreamAnswer n).returns = true := by
  unfold freeStreamAnswer; split <;> rfl

/-- What drawing keeps of the environment: only the list of answers and the counter move. -/
structure Env.Drawn (e f : Env) : Prop where
  inputs : f.inputs = e.inputs
  streamAnswers : f.streamAnswers = e.streamAnswers
  stream : f.stream = e.stream
  honest : e.honest = true → f.honest = true
  returns : e.returns = true → f.returns = true

theorem nextAnswer_drawn (e : Env) : e.Drawn (nextAnswer e).2 := by
  unfold nextAnswer
  split
  · rename_i a rest h
    constructor <;> simp_all [Env.honest, Env.returns]
  · constructor <;> simp_all [Env.honest, Env.returns]

theorem nextAnswer_honest (e : Env) (h : e.honest = true) : (nextAnswer e).1.honest = true := by
  unfold nextAnswer
  split
  · rename_i a rest he
    simp_all [Env.honest]
  · exact freeAnswer_honest _

theorem nextAnswer_returns (e : Env) (h : e.returns = true) : (nextAnswer e).1.returns = true := by
  unfold nextAnswer
  split
  · rename_i a rest he
    simp_all [Env.returns]
  · exact freeAnswer_returns _

/-- What a stream draw keeps of the environment. -/
structure Env.StreamDrawn (e f : Env) : Prop where
  inputs : f.inputs = e.inputs
  answers : f.answers = e.answers
  stream : f.stream = e.stream
  honest : e.honest = true → f.honest = true
  returns : e.returns = true → f.returns = true

theorem nextStreamAnswer_drawn (e : Env) : e.StreamDrawn (nextStreamAnswer e).2 := by
  unfold nextStreamAnswer
  split
  · rename_i a rest h
    constructor <;> simp_all [Env.honest, Env.returns]
  · constructor <;> simp_all [Env.honest, Env.returns]

theorem nextStreamAnswer_returns (e : Env) (h : e.returns = true) :
    (nextStreamAnswer e).1.returns = true := by
  unfold nextStreamAnswer
  split
  · rename_i a rest he
    simp_all [Env.returns]
  · exact freeStreamAnswer_returns _

/-! ### How an operation ends -/

/-- Every end of an operation started in `s` is related to `s`; it is stuck only when some listed
answer never comes, and faults only when some listed answer breaks the write contract. -/
def Res.Ends {ε α : Type} (R : State → State → Prop) (s : State) : Res ε α → Prop
  | .ok _ t => R s t
  | .err _ t => R s t
  | .stuck t => R s t ∧ s.env.returns = false
  | .fault _ => s.env.honest = false

/-- A relation that operations can be chained in: a preorder that keeps honest and returning
answers. -/
structure Chains (R : State → State → Prop) : Prop where
  refl : ∀ s, R s s
  trans : ∀ {s t u}, R s t → R t u → R s u
  honest : ∀ {s t}, R s t → s.env.honest = true → t.env.honest = true
  returns : ∀ {s t}, R s t → s.env.returns = true → t.env.returns = true

theorem bool_false_of {a b : Bool} (h : a = true → b = true) (hb : b = false) : a = false := by
  cases a <;> simp_all

theorem Res.Ends.from {ε α : Type} {R : State → State → Prop} (hR : Chains R) {s t : State}
    (hst : R s t) {r : Res ε α} (h : r.Ends R t) : r.Ends R s := by
  cases r with
  | ok a u => exact hR.trans hst h
  | err e u => exact hR.trans hst h
  | stuck u => exact ⟨hR.trans hst h.1, bool_false_of (hR.returns hst) h.2⟩
  | fault f => exact bool_false_of (hR.honest hst) h

theorem Res.Ends.andThen {ε α β : Type} {R : State → State → Prop} (hR : Chains R) {s : State}
    {r : Res ε α} {k : α → State → Res ε β} (hr : r.Ends R s)
    (hk : ∀ a t, R s t → (k a t).Ends R t) : (r.andThen k).Ends R s := by
  cases r with
  | ok a t => exact (hk a t hr).from hR hr
  | err e t => exact hr
  | stuck t => exact hr
  | fault f => exact hr

theorem Res.Ends.mono {ε α : Type} {R R' : State → State → Prop} {s : State} {r : Res ε α}
    (h : r.Ends R s) (hi : ∀ t, R s t → R' s t) : r.Ends R' s := by
  cases r with
  | ok a t => exact hi _ h
  | err e t => exact hi _ h
  | stuck t => exact ⟨hi _ h.1, h.2⟩
  | fault f => exact h

theorem Res.Ends.raise {α : Type} {R : State → State → Prop} {s : State} {r : Res Payload α}
    (h : r.Ends R s) : r.raise.Ends R s := by
  cases r <;> exact h

theorem Res.Ends.raiseStream {α : Type} {R : State → State → Prop} {s : State}
    {r : Res Payload α} (h : r.Ends R s) : r.raiseStream.Ends R s := by
  cases r <;> exact h

theorem Res.Ends.recover {α : Type} {R : State → State → Prop} (hR : Chains R) {s : State}
    {r : Res Payload α} (h : r.Ends R s)
    (hw : ∀ t, R s t → (txWrite [idleByte t.params] t).Ends R t) : r.recover.Ends R s := by
  cases r with
  | ok a t => exact h
  | err e t =>
    have hw := (hw t h).from hR h
    unfold Res.recover
    dsimp only
    cases hx : txWrite [idleByte t.params] t <;> rw [hx] at hw <;> exact hw
  | stuck t => exact h
  | fault f => exact h

theorem requireHandle_ends {α : Type} {R : State → State → Prop} (hR : Chains R)
    {body : State → Res Failure α} {s : State} (h : s.handle = .opened → (body s).Ends R s) :
    (requireHandle body s).Ends R s := by
  unfold requireHandle
  split
  · exact hR.refl s
  · rename_i hh
    exact h (by cases hs : s.handle <;> simp_all)

/-! ### Primitives -/

/-- The four ends of TxWrite (20_memory.md R40, R41, R42; 93_implementation_defined.md U14). -/
theorem txWrite_cases (bs : List Byte) (s : State) :
    (∃ e, s.env.Drawn e ∧ txWrite bs s =
      .ok () (((s.setEnv e).called (.write bs (.ok ()))).setWireOut bs.getLast?)) ∨
    (∃ e p, s.env.Drawn e ∧ txWrite bs s =
      .err p (((s.setEnv e).called (.write bs (.err p))).setWireOut none)) ∨
    (∃ e, s.env.Drawn e ∧ s.env.returns = false ∧
      txWrite bs s = .stuck ((s.setEnv e).setWireOut none)) ∨
    (s.env.honest = false ∧ txWrite bs s = .fault .transportContract) := by
  have hd := nextAnswer_drawn s.env
  have hh := nextAnswer_honest s.env
  have hr := nextAnswer_returns s.env
  unfold txWrite
  split <;> rename_i hx <;> rw [hx] at hd hh hr
  · split
    · exact .inl ⟨_, hd, rfl⟩
    · rename_i count pins e hne
      cases count with
      | none => simp at hne
      | some c => exact .inr (.inr (.inr ⟨bool_false_of hh rfl, rfl⟩))
  · exact .inr (.inl ⟨_, _, hd, rfl⟩)
  · exact .inr (.inr (.inl ⟨_, hd, bool_false_of hr rfl, rfl⟩))

/-- What TxWrite can do, for a relation between states. -/
theorem txWrite_ends {R : State → State → Prop} (bs : List Byte) (s : State)
    (hok : ∀ e, s.env.Drawn e →
      R s (((s.setEnv e).called (.write bs (.ok ()))).setWireOut bs.getLast?))
    (herr : ∀ e p, s.env.Drawn e →
      R s (((s.setEnv e).called (.write bs (.err p))).setWireOut none))
    (hstuck : ∀ e, s.env.Drawn e → R s ((s.setEnv e).setWireOut none)) :
    (txWrite bs s).Ends R s := by
  rcases txWrite_cases bs s with ⟨e, hd, h⟩ | ⟨e, p, hd, h⟩ | ⟨e, hd, hr, h⟩ | ⟨hh, h⟩ <;> rw [h]
  · exact hok e hd
  · exact herr e p hd
  · exact ⟨hstuck e hd, hr⟩
  · exact hh

/-- What TxReadPins can do (20_memory.md R43). -/
theorem txReadPins_ends {R : State → State → Prop} (s : State)
    (hcall : ∀ e o, s.env.Drawn e → R s ((s.setEnv e).called (.readPins o)))
    (hstuck : ∀ e, s.env.Drawn e → R s (s.setEnv e)) : (txReadPins s).Ends R s := by
  have hd := nextAnswer_drawn s.env
  have hr := nextAnswer_returns s.env
  unfold txReadPins
  split <;> rename_i hx <;> rw [hx] at hd hr
  · exact hcall _ _ hd
  · exact hcall _ _ hd
  · exact ⟨hstuck _ hd, bool_false_of hr rfl⟩

/-- What TxSetDir can do (20_memory.md R44). -/
theorem txSetDir_ends {R : State → State → Prop} (d : Byte) (s : State)
    (hok : ∀ e, s.env.Drawn e →
      R s (((s.setEnv e).called (.setDir d s.params.bitbangMode (.ok ()))).setWireDir (some d)))
    (herr : ∀ e p, s.env.Drawn e →
      R s (((s.setEnv e).called (.setDir d s.params.bitbangMode (.err p))).setWireDir none))
    (hstuck : ∀ e, s.env.Drawn e → R s ((s.setEnv e).setWireDir none)) :
    (txSetDir d s).Ends R s := by
  have hd := nextAnswer_drawn s.env
  have hr := nextAnswer_returns s.env
  unfold txSetDir
  split <;> rename_i hx <;> rw [hx] at hd hr
  · exact hok _ hd
  · exact herr _ _ hd
  · exact ⟨hstuck _ hd, bool_false_of hr rfl⟩

/-- What TxOpen can do (20_memory.md R45). -/
theorem txOpen_cases (s : State) :
    (∃ e, s.env.Drawn e ∧ txOpen s =
      .ok () ((s.setEnv e).called (.openCall s.params.vid s.params.pid (.ok ())))) ∨
    (∃ e p, s.env.Drawn e ∧ txOpen s =
      .err p ((s.setEnv e).called (.openCall s.params.vid s.params.pid (.err p)))) ∨
    (∃ e, s.env.Drawn e ∧ s.env.returns = false ∧ txOpen s = .stuck (s.setEnv e)) := by
  have hd := nextAnswer_drawn s.env
  have hr := nextAnswer_returns s.env
  unfold txOpen
  split <;> rename_i hx <;> rw [hx] at hd hr
  · exact .inl ⟨_, hd, rfl⟩
  · exact .inr (.inl ⟨_, _, hd, rfl⟩)
  · exact .inr (.inr ⟨_, hd, bool_false_of hr rfl, rfl⟩)

/-- What StreamRead can do (20_memory.md R46). -/
theorem streamRead_ends {R : State → State → Prop} (n : Nat) (s : State)
    (hcall : ∀ e o m, s.env.StreamDrawn e →
      R s ((s.setEnv { e with stream := e.stream.drop m }).called (.streamRead n o)))
    (hstuck : ∀ e m, s.env.StreamDrawn e → R s (s.setEnv { e with stream := e.stream.drop m })) :
    (streamRead n s).Ends R s := by
  have hd := nextStreamAnswer_drawn s.env
  have hr := nextStreamAnswer_returns s.env
  unfold streamRead
  split <;> rename_i hx <;> rw [hx] at hd hr
  · exact hcall _ _ _ hd
  · exact hcall _ _ _ hd
  · exact ⟨hstuck _ _ hd, bool_false_of hr rfl⟩

/-! ### The primitives when the listed answer is Ok or an error -/

theorem txWrite_ok {s : State} {bs : List Byte} {p : Byte} {rest : List TxAnswer}
    (h : s.env.answers = .ok none p :: rest) :
    txWrite bs s = .ok () (((s.setEnv { s.env with answers := rest }).called
      (.write bs (.ok ()))).setWireOut bs.getLast?) := by
  simp [txWrite, nextAnswer_cons _ _ _ h]

theorem txWrite_err {s : State} {bs : List Byte} {p : Payload} {rest : List TxAnswer}
    (h : s.env.answers = .err p :: rest) :
    txWrite bs s = .err p (((s.setEnv { s.env with answers := rest }).called
      (.write bs (.err p))).setWireOut none) := by
  simp [txWrite, nextAnswer_cons _ _ _ h]

theorem txReadPins_ok {s : State} {p : Byte} {c : Option Nat} {rest : List TxAnswer}
    (h : s.env.answers = .ok c p :: rest) :
    txReadPins s = .ok p ((s.setEnv { s.env with answers := rest }).called
      (.readPins (.ok p))) := by
  simp [txReadPins, nextAnswer_cons _ _ _ h]

theorem txReadPins_err {s : State} {p : Payload} {rest : List TxAnswer}
    (h : s.env.answers = .err p :: rest) :
    txReadPins s = .err p ((s.setEnv { s.env with answers := rest }).called
      (.readPins (.err p))) := by
  simp [txReadPins, nextAnswer_cons _ _ _ h]

theorem txSetDir_ok {s : State} {d p : Byte} {c : Option Nat} {rest : List TxAnswer}
    (h : s.env.answers = .ok c p :: rest) :
    txSetDir d s = .ok () (((s.setEnv { s.env with answers := rest }).called
      (.setDir d s.params.bitbangMode (.ok ()))).setWireDir (some d)) := by
  simp [txSetDir, nextAnswer_cons _ _ _ h]

theorem txSetDir_err {s : State} {d : Byte} {e : Payload} {rest : List TxAnswer}
    (h : s.env.answers = .err e :: rest) :
    txSetDir d s = .err e (((s.setEnv { s.env with answers := rest }).called
      (.setDir d s.params.bitbangMode (.err e))).setWireDir none) := by
  simp [txSetDir, nextAnswer_cons _ _ _ h]

theorem txOpen_ok {s : State} {p : Byte} {c : Option Nat} {rest : List TxAnswer}
    (h : s.env.answers = .ok c p :: rest) :
    txOpen s = .ok () ((s.setEnv { s.env with answers := rest }).called
      (.openCall s.params.vid s.params.pid (.ok ()))) := by
  simp [txOpen, nextAnswer_cons _ _ _ h]

theorem txOpen_err {s : State} {e : Payload} {rest : List TxAnswer}
    (h : s.env.answers = .err e :: rest) :
    txOpen s = .err e ((s.setEnv { s.env with answers := rest }).called
      (.openCall s.params.vid s.params.pid (.err e))) := by
  simp [txOpen, nextAnswer_cons _ _ _ h]

theorem streamRead_err {s : State} {n lost : Nat} {e : Payload} {rest : List StreamAnswer}
    (h : s.env.streamAnswers = .err e lost :: rest) :
    streamRead n s = .err e ((s.setEnv { s.env with
      streamAnswers := rest, stream := s.env.stream.drop lost }).called
      (.streamRead n (.err e))) := by
  simp [streamRead, nextStreamAnswer, h]

/-! ### The end of a request -/

/-- The outcome of a run by its four ends; the test of `Env.honest` in `settle` changes nothing. -/
theorem settle_eq {α : Type} {R : State → State → Prop} {start u : State} {r : Res Failure α}
    (onOk : α → State → State) (onErr : Failure → State → State)
    (h : r.Ends R u) (hu : start.env.honest = true → u.env.honest = true) :
    r.settle start onOk onErr = r.outcome onOk onErr := by
  unfold Res.settle
  cases r with
  | fault f =>
    have : start.env.honest = false := bool_false_of hu h
    simp [this]
  | _ => simp [Res.final, Res.outcome]

/-- How a request ends (60_exceptions.md R149, R154): with a result, or stuck in BUSY because a listed
answer never comes, or in a fault because a listed answer breaks the write contract. -/
theorem runRequest_cases {R : State → State → Prop} {op : Op} {body : State → Res Failure Result}
    {s : State} (h : (body (s.begin op)).Ends R (s.begin op)) :
    (∃ r t, body (s.begin op) = .ok r t ∧ R (s.begin op) t ∧
      runRequest op body s = .next (t.finish r)) ∨
    (∃ f t, body (s.begin op) = .err f t ∧ R (s.begin op) t ∧
      runRequest op body s = .next (t.finish f.toResult)) ∨
    (∃ t, body (s.begin op) = .stuck t ∧ R (s.begin op) t ∧ s.env.returns = false ∧
      runRequest op body s = .next t) ∨
    (∃ f, body (s.begin op) = .fault f ∧ s.env.honest = false ∧
      runRequest op body s = .fault f) := by
  have hs := settle_eq (start := s) (fun r (t : State) => t.finish r)
    (fun f (t : State) => t.finish f.toResult) h (by simp)
  unfold runRequest
  rw [hs]
  cases hb : body (s.begin op) with
  | ok r t => rw [hb] at h; exact .inl ⟨r, t, rfl, h, rfl⟩
  | err f t => rw [hb] at h; exact .inr (.inl ⟨f, t, rfl, h, rfl⟩)
  | stuck t => rw [hb] at h; exact .inr (.inr (.inl ⟨t, rfl, h.1, h.2, rfl⟩))
  | fault f => rw [hb] at h; exact .inr (.inr (.inr ⟨f, rfl, h, rfl⟩))

/-- How a flash command of the command slot ends. -/
theorem runCommand_cases {R : State → State → Prop} {op : Op} {body : State → Res Failure Unit}
    {s : State} (h : (body (s.beginCommand op)).Ends R (s.beginCommand op)) :
    (∃ o t, R (s.beginCommand op) t ∧ runCommand op body s = .next (t.finishCommand o) ∧
      (body (s.beginCommand op) = .ok () t ∧ o = none ∨
        ∃ f, body (s.beginCommand op) = .err f t ∧ o = some f)) ∨
    (∃ t, R (s.beginCommand op) t ∧ s.env.returns = false ∧
      runCommand op body s = .next t) ∨
    (∃ f, s.env.honest = false ∧ runCommand op body s = .fault f) := by
  have hs := settle_eq (start := s) (fun (_ : Unit) (t : State) => t.finishCommand none)
    (fun f (t : State) => t.finishCommand (some f)) h (by simp)
  unfold runCommand
  rw [hs]
  cases hb : body (s.beginCommand op) with
  | ok r t => rw [hb] at h; exact .inl ⟨none, t, h, rfl, .inl ⟨rfl, rfl⟩⟩
  | err f t => rw [hb] at h; exact .inl ⟨some f, t, h, rfl, .inr ⟨f, rfl, rfl⟩⟩
  | stuck t => rw [hb] at h; exact .inr (.inl ⟨t, h.1, h.2, rfl⟩)
  | fault f => rw [hb] at h; exact .inr (.inr ⟨f, h, rfl⟩)

end Sys2Proof.Machine
end

