-- ==== Sys2Proof/Laws/Pins.lean ====
section
/-! SUPPORT. The Pin Model's small lemmas: the form of the bytes the operands build
(30_encoding.md R64 to R69). -/

namespace Sys2Proof.Machine

theorem selpat_form (P : Params) (d : Device) : ControlByteForm P (selpat P d) :=
  ⟨d, false, false, by simp [controlByte, onBit]⟩

theorem selpat_clk_form (P : Params) (d : Device) :
    ControlByteForm P (selpat P d ||| pinBit P .clk) :=
  ⟨d, true, false, by simp [controlByte, onBit]⟩

theorem bitPair_form (P : Params) (d : Device) (bit : Bool) :
    ∀ b ∈ bitPair P d bit, ControlByteForm P b := by
  intro b hb
  simp only [bitPair, List.mem_cons, List.not_mem_nil, or_false] at hb
  rcases hb with rfl | rfl
  · exact ⟨d, false, bit, by simp [controlByte, onBit]⟩
  · refine ⟨d, true, bit, ?_⟩
    simp only [controlByte, onBit, if_true]
    rw [BitVec.or_assoc, BitVec.or_assoc, BitVec.or_comm (pinBit P .clk)]

theorem spiWord_form (P : Params) (d : Device) (x : Byte) :
    ∀ b ∈ spiWord P d x, ControlByteForm P b := by
  intro b hb
  simp only [spiWord, List.mem_append, List.mem_flatMap, List.mem_singleton] at hb
  rcases hb with ⟨bit, -, h⟩ | rfl
  · exact bitPair_form P d bit b h
  · exact selpat_form P d

@[simp] theorem spiWord_length (P : Params) (d : Device) (x : Byte) :
    (spiWord P d x).length = 17 := by
  simp [spiWord, bitsMsbFirst, bitPair]

@[simp] theorem spiWord_getLast (P : Params) (d : Device) (x : Byte) :
    (spiWord P d x).getLast? = some (selpat P d) := by
  simp [spiWord]

theorem spiWord_ne_nil (P : Params) (d : Device) (x : Byte) : spiWord P d x ≠ [] := by
  simp [spiWord]

/-! ### The bits of the bytes, one pin at a time -/

theorem pinBit_bit (P : Params) (p : Pin) (n : Nat) :
    (pinBit P p).getLsbD n = (n == (P.pinPos p).val) := by
  have := (P.pinPos p).isLt
  simp only [pinBit, BitVec.getLsbD_shiftLeft, BitVec.getLsbD_one]
  by_cases h : n = (P.pinPos p).val
  · subst h; simp
  · by_cases hlt : n < (P.pinPos p).val
    · simp [h, hlt]
    · have h0 : n - (P.pinPos p).val ≠ 0 := by omega
      simp [h, h0]

theorem csLevel_bit (P : Params) (p : Pin) (a : Bool) (n : Nat) :
    (csLevel P p a).getLsbD n = (n == (P.pinPos p).val && (a ^^ P.csActiveLow)) := by
  unfold csLevel
  by_cases h : (a ^^ P.csActiveLow) = true
  · rw [if_pos h, pinBit_bit, h, Bool.and_true]
  · have h' : (a ^^ P.csActiveLow) = false := by simpa using h
    rw [if_neg h, h']
    simp

theorem onBit_bit (P : Params) (p : Pin) (a : Bool) (n : Nat) :
    (onBit P p a).getLsbD n = (n == (P.pinPos p).val && a) := by
  unfold onBit
  cases a
  · simp
  · rw [if_pos rfl, pinBit_bit, Bool.and_true]

theorem selpat_bit (P : Params) (d : Device) (n : Nat) : (selpat P d).getLsbD n =
    ((n == P.posCsFpga.val && ((d == .fpga) ^^ P.csActiveLow)) ||
      (n == P.posCsFlash.val && ((d == .flash) ^^ P.csActiveLow))) := by
  simp only [selpat, BitVec.getLsbD_or, csLevel_bit, Params.pinPos]

theorem controlByte_bit (P : Params) (d : Device) (c o : Bool) (n : Nat) :
    (controlByte P d c o).getLsbD n =
      ((n == P.posCsFpga.val && ((d == .fpga) ^^ P.csActiveLow)) ||
        (n == P.posCsFlash.val && ((d == .flash) ^^ P.csActiveLow)) ||
        (n == P.posClk.val && c) || (n == P.posDataOut.val && o)) := by
  simp only [controlByte, BitVec.getLsbD_or, selpat_bit, onBit_bit, Params.pinPos]

/-- The positions of the six pins are apart (30_encoding.md R62). -/
structure Apart (P : Params) : Prop where
  ab : P.posCsFpga.val ≠ P.posCsFlash.val
  ac : P.posCsFpga.val ≠ P.posClk.val
  ad : P.posCsFpga.val ≠ P.posDataOut.val
  ae : P.posCsFpga.val ≠ P.posDataIn.val
  af : P.posCsFpga.val ≠ P.posProgEnable.val
  bc : P.posCsFlash.val ≠ P.posClk.val
  bd : P.posCsFlash.val ≠ P.posDataOut.val
  be : P.posCsFlash.val ≠ P.posDataIn.val
  bf : P.posCsFlash.val ≠ P.posProgEnable.val
  cd : P.posClk.val ≠ P.posDataOut.val
  ce : P.posClk.val ≠ P.posDataIn.val
  cf : P.posClk.val ≠ P.posProgEnable.val
  de : P.posDataOut.val ≠ P.posDataIn.val
  df : P.posDataOut.val ≠ P.posProgEnable.val
  ef : P.posDataIn.val ≠ P.posProgEnable.val

theorem apart {P : Params} (h : P.wf = true) : Apart P := by
  have h := of_decide_eq_true h
  simp only [List.nodup_cons, List.mem_cons, List.not_mem_nil, or_false, not_or, Fin.ext_iff] at h
  constructor <;> tauto

end Sys2Proof.Machine
end

