-- ==== Sys2Proof/Laws/Bus.lean ====
section
/-! SUPPORT. Everything the sub-operations can do, packaged once: a relation closed under the bus
primitives holds between the start and every end of each sub-operation from Select to EraseAll
(`BusClosed`), and one closed under the workflow's primitives too holds across PROGRAM
(`FlowClosed`). -/

namespace Sys2Proof.Machine

/-- Closed under what the Device Selector, the Bit-Banger and the Flash Command Engine do. -/
structure BusClosed (R : State → State → Prop) : Prop where
  chains : Chains R
  spi : ∀ s r, (r.w = s.spi.w ∨ r.w.length = 17) → R s (s.setSpi r)
  poll : ∀ s r, R s (s.setPoll r)
  owed : ∀ s b, R s (s.setPollOwed b)
  read : ∀ s, (txReadPins s).Ends R s
  /-- a write of control bytes that ends in a selection pattern -/
  write : ∀ s bs d, bs ≠ [] → (∀ b ∈ bs, ControlByteForm s.params b) →
    bs.getLast? = some (selpat s.params d) → (txWrite bs s).Ends R s
  /-- a clock pulse -/
  pulse : ∀ s d, ((txWrite [selpat s.params d ||| pinBit s.params .clk] s).andThen fun _ t =>
    txWrite [selpat t.params d] t).Ends R s

namespace BusClosed

variable {R : State → State → Prop} (h : BusClosed R)
include h

theorem selectEnds (d : Device) (s : State) : (select d s).Ends R s :=
  h.write s _ d (by simp) (by simpa using selpat_form s.params d) (by simp)

theorem idleEnds (s : State) : (txWrite [idleByte s.params] s).Ends R s := h.selectEnds .idle s

theorem recoverEnds {α : Type} {r : Res Payload α} {s : State} (hr : r.Ends R s) :
    r.recover.Ends R s := hr.recover h.chains fun t _ => h.idleEnds t

theorem deselectEnds (s : State) : (deselect s).Ends R s := (h.selectEnds .idle s).raise

theorem spiOutLoopEnds (d : Device) (data : List Byte) (s : State) :
    (spiOutLoop d data s).Ends R s := by
  induction data generalizing s with
  | nil => exact h.chains.refl s
  | cons b bs ih =>
    have hw : R s (s.setSpi { s.spi with w := spiWord s.params d b }) :=
      h.spi s _ (.inr (spiWord_length ..))
    exact Res.Ends.from h.chains hw <| Res.Ends.andThen h.chains
      (h.write _ _ d (spiWord_ne_nil s.params d b) (spiWord_form s.params d b)
        (spiWord_getLast s.params d b)) fun _ t _ => ih t

theorem spiOutEnds (data : List Byte) (d : Device) (s : State) : (spiOut data d s).Ends R s :=
  (h.spiOutLoopEnds d data s).andThen h.chains fun _ t _ => h.chains.refl t

theorem sampleBitEnds (d : Device) (i : Nat) (s : State) : (sampleBit d i s).Ends R s := by
  refine (h.read s).andThen h.chains fun pins t _ => ?_
  by_cases hd : dataInLevel t.params pins = true
  · simp only [hd, if_true]
    exact (h.pulse _ d).from h.chains (h.spi t _ (by simp))
  · simp only [hd]
    exact h.pulse t d

theorem bitLoopEnds (d : Device) (n : Nat) (s : State) : (bitLoop d n s).Ends R s := by
  induction n generalizing s with
  | zero => exact h.chains.refl s
  | succ n ih => exact (h.sampleBitEnds d n s).andThen h.chains fun _ t _ => ih t

theorem byteLoopEnds (d : Device) (n j : Nat) (s : State) : (byteLoop d n j s).Ends R s := by
  induction n generalizing j s with
  | zero => exact h.chains.refl s
  | succ n ih =>
    refine ((h.bitLoopEnds d 8 _).from h.chains (h.spi s _ (by simp))).andThen h.chains
      fun _ t _ => ?_
    exact (ih (j + 1) _).from h.chains (h.spi t _ (by simp))

theorem closeSpiInEnds {s : State} {r : Res Payload Unit} (hr : r.Ends R s) :
    (closeSpiIn r).Ends R s := by
  cases r with
  | ok a t =>
    have hw := (h.idleEnds t).from h.chains hr
    unfold closeSpiIn
    dsimp only
    cases hx : txWrite [idleByte t.params] t <;> rw [hx] at hw
    · exact hw
    · exact h.chains.trans hw (h.spi _ _ (by simp))
    · exact hw
    · exact hw
  | err e t =>
    have hw := (h.idleEnds (t.setSpi { t.spi with err := some e })).from h.chains
      (h.chains.trans hr (h.spi t _ (by simp)))
    unfold closeSpiIn
    dsimp only
    simp only [State.setSpi_params] at hw
    cases hx : txWrite [idleByte t.params] (t.setSpi { t.spi with err := some e }) <;>
      rw [hx] at hw <;> exact hw
  | stuck t => exact hr
  | fault f => exact hr

theorem spiInEnds (n : Nat) (d : Device) (s : State) : (spiIn n d s).Ends R s :=
  h.closeSpiInEnds ((h.byteLoopEnds d n 0 _).from h.chains (h.spi s _ (by simp)))

theorem sendFlashEnds (bytes : List Byte) (s : State) : (sendFlash bytes s).Ends R s :=
  h.recoverEnds (h.spiOutEnds bytes .flash s)

theorem readTransactionEnds (opcode : List Byte) (n : Nat) (s : State) :
    (readTransaction opcode n s).Ends R s :=
  (h.sendFlashEnds opcode s).andThen h.chains fun _ t _ =>
    (h.recoverEnds (h.spiInEnds n .flash t)).andThen h.chains fun _ u _ =>
      (h.deselectEnds u).andThen h.chains fun _ v _ => h.chains.refl v

theorem bufLoadEnds (data : List Byte) (s : State) : (bufLoadTransaction data s).Ends R s :=
  (h.sendFlashEnds _ s).andThen h.chains fun _ t _ =>
    (h.sendFlashEnds data t).andThen h.chains fun _ u _ => h.deselectEnds u

theorem startEnds (bytes : List Byte) (s : State) : (startTransaction bytes s).Ends R s :=
  (h.sendFlashEnds bytes s).andThen h.chains fun _ t _ =>
    (h.deselectEnds _).from h.chains (h.owed t true)

theorem statusEnds (s : State) : (statusTransaction s).Ends R s := by
  refine (h.sendFlashEnds _ s).andThen h.chains fun _ t _ =>
    (h.recoverEnds (h.spiInEnds 1 .flash t)).andThen h.chains fun bytes u _ => ?_
  refine ((h.deselectEnds _).from h.chains (h.poll u _)).andThen h.chains fun _ v _ => ?_
  by_cases hr : statusReady v.poll.status = true
  · simp only [hr, if_true]
    exact h.owed v false
  · simp only [hr]
    exact h.chains.refl v

theorem readIdEnds (s : State) : (readId s).Ends R s :=
  (h.readTransactionEnds _ _ s).andThen h.chains fun _ t _ => h.chains.refl t

theorem pollLoopEnds (n : Nat) (s : State) : (pollLoop n s).Ends R s := by
  induction n generalizing s with
  | zero => exact h.chains.refl s
  | succ n ih =>
    refine ((h.statusEnds _).from h.chains (h.poll s _)).andThen h.chains fun _ t _ => ?_
    by_cases hr : statusReady t.poll.status = true
    · simp only [hr, if_true]
      exact h.chains.refl t
    · simp only [hr]
      exact ih t

theorem flashPollEnds (t : Word) (s : State) : (flashPoll t s).Ends R s :=
  (h.pollLoopEnds t.toNat _).from h.chains (h.poll s _)

theorem writePageEnds (data : List Byte) (page : Page) (s : State) :
    (writePage data page s).Ends R s :=
  (h.bufLoadEnds data s).andThen h.chains fun _ t _ =>
    (h.startEnds _ t).andThen h.chains fun _ u _ => h.flashPollEnds _ u

theorem eraseSectorEnds (cmd : List Byte) (t : Word) (s : State) :
    (eraseSector cmd t s).Ends R s :=
  (h.startEnds cmd s).andThen h.chains fun _ u _ => h.flashPollEnds t u

theorem eraseAllEnds (t : Word) (s : State) : (eraseAll t s).Ends R s := by
  unfold eraseAll
  generalize eraseList = cmds
  induction cmds generalizing s with
  | nil => exact h.chains.refl s
  | cons cmd rest ih =>
    exact (h.eraseSectorEnds cmd t s).andThen h.chains fun _ u _ => ih u

end BusClosed

/-- Closed under what the Programming Workflow does as well. -/
structure FlowClosed (R : State → State → Prop) : Prop extends BusClosed R where
  lastPage : ∀ s p, R s (s.setLastPage p)
  flow : ∀ s r, (s.flow.pagebuf.length = 264 → r.pagebuf.length = 264) →
    (s.flow.k.toNat ≤ 264 → r.k.toNat ≤ 264) → R s (s.setFlow r)
  diag : ∀ s id, R s (s.called (.diag id))
  setDir : ∀ s d, (d = idleDirection s.params ∨ d = programDirection s.params) →
    (txSetDir d s).Ends R s
  openIt : ∀ s, (openHandle s).Ends R s
  stream : ∀ s, (streamRead Config.pageSize s).Ends R s

/-- A stream read hands over at most what was asked for (20_memory.md R46). -/
theorem streamRead_ok_length {n : Nat} {s t : State} {bytes : List Byte}
    (h : streamRead n s = .ok bytes t) : bytes.length ≤ n := by
  unfold streamRead at h
  split at h
  · cases h
    simp [List.length_take]
  · cases h
  · cases h

theorem memWrite_length {buf bytes : List Byte} (h : bytes.length ≤ buf.length) :
    (memWrite buf 0 bytes).length = buf.length := by
  simp [memWrite]; omega

theorem Res.Ends.andThen' {ε α β : Type} {R : State → State → Prop} (hR : Chains R) {s : State}
    {r : Res ε α} {k : α → State → Res ε β} (hr : r.Ends R s)
    (hk : ∀ a t, r = .ok a t → R s t → (k a t).Ends R t) : (r.andThen k).Ends R s := by
  cases r with
  | ok a t => exact (hk a t rfl hr).from hR hr
  | err e t => exact hr
  | stuck t => exact hr
  | fault f => exact hr

namespace FlowClosed

variable {R : State → State → Prop} (h : FlowClosed R)
include h

theorem openSubEnds (s : State) : (openSub s).Ends R s :=
  (h.openIt s).andThen h.chains fun _ t _ => h.setDir t _ (.inl rfl)

theorem programPageEnds (data : List Byte) (page : Page) (s : State) :
    (programPage data page s).Ends R s :=
  (h.writePageEnds data page s).andThen h.chains fun _ t _ => h.lastPage t _

theorem pageLoopEnds (n : Nat) (s : State) : (pageLoop n s).Ends R s := by
  induction n generalizing s with
  | zero => exact h.chains.refl s
  | succ n ih =>
    unfold pageLoop
    dsimp only
    refine Res.Ends.from h.chains (h.flow s { s.flow with
      p := BitVec.ofNat 13 (Config.capacityPages - (n + 1)) } id id) ?_
    refine Res.Ends.andThen' h.chains (h.stream _).raiseStream fun bytes t hok _ => ?_
    have hlen : bytes.length ≤ 264 := by
      cases hx : streamRead Config.pageSize
        (s.setFlow { s.flow with p := BitVec.ofNat 13 (Config.capacityPages - (n + 1)) }) with
      | ok b u =>
        rw [hx] at hok
        cases hok
        exact streamRead_ok_length hx
      | err e u => rw [hx] at hok; cases hok
      | stuck u => rw [hx] at hok; cases hok
      | fault f => rw [hx] at hok; cases hok
    refine Res.Ends.from h.chains (h.flow t { t.flow with
      k := BitVec.ofNat 9 bytes.length, pagebuf := memWrite t.flow.pagebuf 0 bytes } ?_ ?_) ?_
    · intro hb
      dsimp only
      rw [memWrite_length (by omega), hb]
    · intro _
      simp only [BitVec.toNat_ofNat]
      omega
    · by_cases hs : shortRead bytes.length = true
      · simp only [hs, if_true]
        exact h.flow _ _ (by simp) (by simp)
      · simp only [hs]
        exact (h.programPageEnds _ _ _).andThen h.chains fun _ u _ => ih u

theorem finalPageEnds (s : State) : (finalPage s).Ends R s := by
  unfold finalPage
  split
  · split
    · exact h.chains.refl s
    · exact h.programPageEnds _ _ s
  · exact h.chains.refl s

theorem programFinishEnds (s : State) : (programFinish s).Ends R s := by
  refine (h.stream s).raiseStream.andThen h.chains fun bytes t _ => ?_
  split
  · exact h.chains.refl t
  · exact h.finalPageEnds t

theorem programBodyEnds (s : State) : (programBody s).Ends R s := by
  refine Res.Ends.andThen h.chains ?_ fun _ t _ => Res.Ends.andThen h.chains ?_ fun _ u _ =>
    Res.Ends.andThen h.chains ?_ fun _ v _ => (h.programFinishEnds v).andThen h.chains fun _ w _ =>
      (h.setDir w _ (.inl rfl)).raise.andThen h.chains fun _ x _ => h.chains.refl x
  · refine ((h.openSubEnds _).from h.chains (h.lastPage s none)).raise.andThen h.chains
      fun _ t _ => (h.readIdEnds t).andThen h.chains fun id u _ => ?_
    exact h.chains.trans (h.flow u { u.flow with id := id } (by simp) (by simp)) (h.diag _ id)
  · exact (h.setDir t _ (.inr rfl)).raise.andThen h.chains fun _ u _ => h.eraseAllEnds _ u
  · exact (h.pageLoopEnds _ _).from h.chains (h.flow u { u.flow with pStop := none, k := 0 } id (by simp))

end FlowClosed

end Sys2Proof.Machine
end

