-- ==== Sys2Proof/Laws/Frame.lean ====
section
/-! SUPPORT. Two frames, each one instantiation of Laws/Bus.lean: what a bus operation leaves alone
(`BusFrame`), and what PROGRAM leaves alone (`FlowFrame`); and the memory operations' form, the
invariant `State.Inv`, across every operation (`InvKept`). -/

namespace Sys2Proof.Machine

/-- An event of a bus operation: a formed write, or a sample. -/
def BusEvent (P : Params) (e : Event) : Prop :=
  e.Formed P ∧ ((∃ bs o, e = .write bs o) ∨ ∃ o, e = .readPins o)

theorem BusEvent.write {P : Params} {bs : List Byte} {o : Reply Unit} (hne : bs ≠ [])
    (hf : ∀ b ∈ bs, ControlByteForm P b) : BusEvent P (.write bs o) :=
  ⟨⟨hne, hf⟩, .inl ⟨bs, o, rfl⟩⟩

theorem BusEvent.readPins {P : Params} {o : Reply Byte} : BusEvent P (.readPins o) :=
  ⟨trivial, .inr ⟨o, rfl⟩⟩

/-- A request in progress stays the one in progress; only its step moves (10_state.md R21). -/
def Phase.KeepsOp (p q : Phase) : Prop := ∀ op n, p = .busy op n → ∃ m, q = .busy op m

@[simp] theorem Phase.keepsOp_refl (p : Phase) : p.KeepsOp p := fun _ n h => ⟨n, h⟩

@[simp] theorem Phase.keepsOp_tick (p : Phase) : p.KeepsOp p.tick :=
  fun _ n h => ⟨n + 1, by simp [h, Phase.tick]⟩

theorem Phase.KeepsOp.trans {p q r : Phase} (h : p.KeepsOp q) (k : q.KeepsOp r) : p.KeepsOp r := by
  intro op n hp
  obtain ⟨m, hm⟩ := h op n hp
  exact k op m hm

/-- What the operations of the Selector, the Bit-Banger and the Flash Command Engine leave alone, and
what they add to the trace. -/
structure BusFrame (s t : State) : Prop where
  params : t.params = s.params
  handle : t.handle = s.handle
  lastPage : t.lastPage = s.lastPage
  req : t.req = s.req
  flow : t.flow = s.flow
  result : t.result = s.result
  resultReady : t.resultReady = s.resultReady
  wireDir : t.wireDir = s.wireDir
  cmdSlot : t.cmdSlot = s.cmdSlot
  cmdOutcome : t.cmdOutcome = s.cmdOutcome
  duty : t.duty = s.duty
  inputs : t.env.inputs = s.env.inputs
  streamAnswers : t.env.streamAnswers = s.env.streamAnswers
  stream : t.env.stream = s.env.stream
  honest : s.env.honest = true → t.env.honest = true
  returns : s.env.returns = true → t.env.returns = true
  phase : s.phase.KeepsOp t.phase
  log : ∃ new, t.log = new ++ s.log ∧ ∀ e ∈ new, BusEvent s.params e

theorem BusFrame.refl (s : State) : BusFrame s s := by
  constructor
  case log => exact ⟨[], rfl, by simp⟩
  all_goals first | rfl | exact fun x => x | simp

theorem BusFrame.trans {s t u : State} (h : BusFrame s t) (k : BusFrame t u) : BusFrame s u := by
  obtain ⟨n1, h1, f1⟩ := h.log
  obtain ⟨n2, h2, f2⟩ := k.log
  constructor
  case phase => exact h.phase.trans k.phase
  case log =>
    refine ⟨n2 ++ n1, by simp [h2, h1], ?_⟩
    intro e he
    rcases List.mem_append.1 he with he | he
    · exact h.params ▸ f2 e he
    · exact f1 e he
  case honest => exact fun x => k.honest (h.honest x)
  case returns => exact fun x => k.returns (h.returns x)
  all_goals simp [k.params, h.params, k.handle, h.handle, k.lastPage, h.lastPage, k.req, h.req,
    k.flow, h.flow, k.result, h.result, k.resultReady, h.resultReady, k.wireDir, h.wireDir,
    k.cmdSlot, h.cmdSlot, k.cmdOutcome, h.cmdOutcome, k.duty, h.duty, k.inputs, h.inputs,
    k.streamAnswers, h.streamAnswers, k.stream, h.stream]

/-- A call adds its event; the wire and the environment's answers may move. -/
theorem BusFrame.call {s : State} {e : Env} (hd : s.env.Drawn e) {ev : Event}
    (hev : BusEvent s.params ev) : BusFrame s ((s.setEnv e).called ev) := by
  constructor
  case phase => simp
  case log => exact ⟨[ev], rfl, by simpa using hev⟩
  all_goals simp [hd.inputs, hd.streamAnswers, hd.stream]
  · exact hd.honest
  · exact hd.returns

theorem BusFrame.draw {s : State} {e : Env} (hd : s.env.Drawn e) : BusFrame s (s.setEnv e) := by
  constructor
  case phase => simp
  case log => exact ⟨[], rfl, by simp⟩
  all_goals simp [hd.inputs, hd.streamAnswers, hd.stream]
  · exact hd.honest
  · exact hd.returns

theorem BusFrame.wire (s : State) (b : Option Byte) : BusFrame s (s.setWireOut b) := by
  constructor <;> simp

theorem busFrame_chains : Chains BusFrame where
  refl := BusFrame.refl
  trans := BusFrame.trans
  honest := BusFrame.honest
  returns := BusFrame.returns

theorem txWrite_busFrame {bs : List Byte} {s : State} (hne : bs ≠ [])
    (hf : ∀ b ∈ bs, ControlByteForm s.params b) : (txWrite bs s).Ends BusFrame s :=
  txWrite_ends bs s
    (fun _ hd => (BusFrame.call hd (.write hne hf)).trans (.wire _ _))
    (fun _ _ hd => (BusFrame.call hd (.write hne hf)).trans (.wire _ _))
    (fun _ hd => (BusFrame.draw hd).trans (.wire _ _))

theorem busFrame_closed : BusClosed BusFrame where
  chains := busFrame_chains
  spi s r _ := by constructor <;> simp
  poll s r := by constructor <;> simp
  owed s b := by constructor <;> simp
  read s := txReadPins_ends s (fun _ _ hd => BusFrame.call hd .readPins) fun _ hd =>
    BusFrame.draw hd
  write s bs d hne hf _ := txWrite_busFrame hne hf
  pulse s d :=
    (txWrite_busFrame (by simp) (by simpa using selpat_clk_form s.params d)).andThen
      busFrame_chains fun _ t _ =>
        txWrite_busFrame (by simp) (by simpa using selpat_form t.params d)

/-! ### PROGRAM's frame -/

/-- What the workflow leaves alone, and what it adds to the trace. -/
structure FlowFrame (s t : State) : Prop where
  params : t.params = s.params
  req : t.req = s.req
  result : t.result = s.result
  resultReady : t.resultReady = s.resultReady
  cmdSlot : t.cmdSlot = s.cmdSlot
  cmdOutcome : t.cmdOutcome = s.cmdOutcome
  duty : t.duty = s.duty
  inputs : t.env.inputs = s.env.inputs
  handle : s.handle = .opened → t.handle = .opened
  honest : s.env.honest = true → t.env.honest = true
  returns : s.env.returns = true → t.env.returns = true
  phase : s.phase.KeepsOp t.phase
  log : ∃ new, t.log = new ++ s.log ∧
    ∀ e ∈ new, e.Formed s.params ∧ ∀ c v d, e ≠ .result c v d

theorem FlowFrame.refl (s : State) : FlowFrame s s := by
  constructor
  case log => exact ⟨[], rfl, by simp⟩
  all_goals first | rfl | exact fun x => x | simp

theorem FlowFrame.trans {s t u : State} (h : FlowFrame s t) (k : FlowFrame t u) :
    FlowFrame s u := by
  obtain ⟨n1, h1, f1⟩ := h.log
  obtain ⟨n2, h2, f2⟩ := k.log
  constructor
  case phase => exact h.phase.trans k.phase
  case log =>
    refine ⟨n2 ++ n1, by simp [h2, h1], ?_⟩
    intro e he
    rcases List.mem_append.1 he with he | he
    · exact h.params ▸ f2 e he
    · exact f1 e he
  case handle => exact fun x => k.handle (h.handle x)
  case honest => exact fun x => k.honest (h.honest x)
  case returns => exact fun x => k.returns (h.returns x)
  all_goals simp [k.params, h.params, k.req, h.req, k.result, h.result, k.resultReady,
    h.resultReady, k.cmdSlot, h.cmdSlot, k.cmdOutcome, h.cmdOutcome, k.duty, h.duty, k.inputs,
    h.inputs]

theorem BusFrame.toFlow {s t : State} (h : BusFrame s t) : FlowFrame s t where
  params := h.params
  req := h.req
  result := h.result
  resultReady := h.resultReady
  cmdSlot := h.cmdSlot
  cmdOutcome := h.cmdOutcome
  duty := h.duty
  inputs := h.inputs
  handle hs := h.handle.trans hs
  honest := h.honest
  returns := h.returns
  phase := h.phase
  log := by
    obtain ⟨new, hl, hf⟩ := h.log
    refine ⟨new, hl, fun e he => ⟨(hf e he).1, ?_⟩⟩
    rcases (hf e he).2 with ⟨bs, o, rfl⟩ | ⟨o, rfl⟩ <;> simp

theorem flowFrame_chains : Chains FlowFrame where
  refl := FlowFrame.refl
  trans := FlowFrame.trans
  honest := FlowFrame.honest
  returns := FlowFrame.returns

/-- A call of the workflow's adds its event; the inputs stay. -/
theorem FlowFrame.call {s : State} {e : Env} (hin : e.inputs = s.env.inputs)
    (hh : s.env.honest = true → e.honest = true) (hr : s.env.returns = true → e.returns = true)
    {ev : Event} (hev : ev.Formed s.params) (hne : ∀ c v d, ev ≠ .result c v d) :
    FlowFrame s ((s.setEnv e).called ev) := by
  constructor
  case phase => simp
  case log => exact ⟨[ev], rfl, by simpa using ⟨hev, hne⟩⟩
  all_goals simp [hin]
  · exact hh
  · exact hr

theorem FlowFrame.draw {s : State} {e : Env} (hin : e.inputs = s.env.inputs)
    (hh : s.env.honest = true → e.honest = true) (hr : s.env.returns = true → e.returns = true) :
    FlowFrame s (s.setEnv e) := by
  constructor
  case phase => simp
  case log => exact ⟨[], rfl, by simp⟩
  all_goals simp [hin]
  · exact hh
  · exact hr

theorem FlowFrame.dir (s : State) (b : Option Byte) : FlowFrame s (s.setWireDir b) := by
  constructor <;> simp

theorem FlowFrame.opened (s : State) : FlowFrame s (s.setHandle .opened) := by
  constructor <;> simp

theorem flowFrame_closed : FlowClosed FlowFrame where
  chains := flowFrame_chains
  spi s r h := (busFrame_closed.spi s r h).toFlow
  poll s r := (busFrame_closed.poll s r).toFlow
  owed s b := (busFrame_closed.owed s b).toFlow
  read s := (busFrame_closed.read s).mono fun _ => BusFrame.toFlow
  write s bs d hne hf hl := (busFrame_closed.write s bs d hne hf hl).mono fun _ => BusFrame.toFlow
  pulse s d := (busFrame_closed.pulse s d).mono fun _ => BusFrame.toFlow
  lastPage s p := by constructor <;> simp
  flow s r _ _ := by constructor <;> simp
  diag s id := by
    constructor
    case phase => simp
    case log => exact ⟨[.diag id], rfl, by simp [Event.Formed]⟩
    all_goals simp
  setDir s d hd := txSetDir_ends d s
    (fun _ h => (FlowFrame.call h.inputs h.honest h.returns (ev := .setDir d _ _) ⟨hd, rfl⟩
      (by simp)).trans (.dir _ _))
    (fun _ _ h => (FlowFrame.call h.inputs h.honest h.returns (ev := .setDir d _ _) ⟨hd, rfl⟩
      (by simp)).trans (.dir _ _))
    (fun _ h => (FlowFrame.draw h.inputs h.honest h.returns).trans (.dir _ _))
  openIt s := by
    unfold openHandle
    split
    · rcases txOpen_cases s with ⟨e, h, hx⟩ | ⟨e, p, h, hx⟩ | ⟨e, h, hr, hx⟩ <;> rw [hx]
      · exact (FlowFrame.call h.inputs h.honest h.returns (ev := .openCall _ _ _) ⟨rfl, rfl⟩
          (by simp)).trans (.opened _)
      · exact FlowFrame.call h.inputs h.honest h.returns (ev := .openCall _ _ _) ⟨rfl, rfl⟩
          (by simp)
      · exact ⟨FlowFrame.draw h.inputs h.honest h.returns, hr⟩
    · exact FlowFrame.refl s
  stream s := streamRead_ends _ s
    (fun e _ m h => FlowFrame.call (e := { e with stream := e.stream.drop m }) h.inputs h.honest
      h.returns (ev := .streamRead _ _) rfl (by simp))
    (fun e m h => FlowFrame.draw (e := { e with stream := e.stream.drop m }) h.inputs h.honest
      h.returns)

/-! ### The invariant across the operations -/

/-- The parameters stay and the invariant is kept. -/
structure InvKept (s t : State) : Prop where
  params : t.params = s.params
  honest : s.env.honest = true → t.env.honest = true
  returns : s.env.returns = true → t.env.returns = true
  inv : s.Inv → t.Inv

theorem invKept_chains : Chains InvKept where
  refl _ := ⟨rfl, id, id, id⟩
  trans h k := ⟨k.params.trans h.params, fun x => k.honest (h.honest x),
    fun x => k.returns (h.returns x), fun x => k.inv (h.inv x)⟩
  honest := InvKept.honest
  returns := InvKept.returns

/-- What a write left is known, the wire is at rest: a selection pattern or UNKNOWN. -/
theorem State.WireAtRest.ofWire {s : State} {b : Option Byte} (hd : s.driven = .ofWire b)
    (hw : s.wireOut = b) (hb : ∀ x, b = some x → ∃ d, x = selpat s.params d) : s.WireAtRest :=
  fun x => ⟨fun h => by simpa [hd, hw] using h, fun h => hb x (by simpa [hd] using h)⟩

/-- An invariant state stays one when a formed event is added and the wire is left at rest. -/
theorem State.Inv.write {s : State} (h : s.Inv) {e : Env} {ev : Event} (hev : ev.Formed s.params)
    {b : Option Byte} (hb : ∀ x, b = some x → ∃ d, x = selpat s.params d) :
    (((s.setEnv e).called ev).setWireOut b).Inv where
  events := by
    intro x hx
    rcases List.mem_cons.1 hx with rfl | hx
    · exact hev
    · exact h.events x hx
  wire := .ofWire rfl rfl hb
  dir := h.dir
  shapes := ⟨h.shapes.w, h.shapes.pagebuf, h.shapes.k, h.shapes.code⟩

theorem State.Inv.call {s : State} (h : s.Inv) {e : Env} {ev : Event}
    (hev : ev.Formed s.params) : ((s.setEnv e).called ev).Inv where
  events x hx := (List.mem_cons.1 hx).elim (fun h1 => h1 ▸ hev) (h.events x)
  wire := h.wire
  dir := h.dir
  shapes := ⟨h.shapes.w, h.shapes.pagebuf, h.shapes.k, h.shapes.code⟩

theorem State.Inv.draw {s : State} (h : s.Inv) (e : Env) : (s.setEnv e).Inv :=
  ⟨h.events, h.wire, h.dir, ⟨h.shapes.w, h.shapes.pagebuf, h.shapes.k, h.shapes.code⟩⟩

theorem State.Inv.lostWire {s : State} (h : s.Inv) (e : Env) :
    ((s.setEnv e).setWireOut none).Inv :=
  ⟨h.events, .ofWire rfl rfl (by simp), h.dir,
    ⟨h.shapes.w, h.shapes.pagebuf, h.shapes.k, h.shapes.code⟩⟩

theorem State.Inv.setDir {s : State} (h : s.Inv) {e : Env} {ev : Event}
    (hev : ev.Formed s.params) {b : Option Byte}
    (hb : ∀ x, b = some x → x = idleDirection s.params ∨ x = programDirection s.params) :
    (((s.setEnv e).called ev).setWireDir b).Inv where
  events := (h.call (e := e) hev).events
  wire := h.wire
  dir := hb
  shapes := ⟨h.shapes.w, h.shapes.pagebuf, h.shapes.k, h.shapes.code⟩

/-- A clock pulse leaves the wire at rest, though its first half does not. -/
theorem State.Inv.pulse (s : State) (d : Device) :
    ((txWrite [selpat s.params d ||| pinBit s.params .clk] s).andThen fun _ t =>
      txWrite [selpat t.params d] t).Ends InvKept s := by
  have hclk : Event.Formed s.params (.write [selpat s.params d ||| pinBit s.params .clk] (.ok ())) :=
    ⟨by simp, by simpa using selpat_clk_form s.params d⟩
  rcases txWrite_cases [selpat s.params d ||| pinBit s.params .clk] s with
    ⟨e, hd, h⟩ | ⟨e, p, hd, h⟩ | ⟨e, hd, hr, h⟩ | ⟨hh, h⟩ <;> rw [h]
  · dsimp only [Res.andThen]
    have hlow : ∀ o, Event.Formed s.params (.write [selpat s.params d] o) := fun o =>
      ⟨by simp, by simpa using selpat_form s.params d⟩
    generalize hu : ((s.setEnv e).called (.write [selpat s.params d ||| pinBit s.params .clk]
      (.ok ()))).setWireOut _ = u
    have hp : u.params = s.params := by simp [← hu]
    have he : u.env = e := by simp [← hu]
    have hin : s.Inv → ∀ e' ev b, ev.Formed s.params →
        (∀ x, b = some x → ∃ d, x = selpat s.params d) →
        (((u.setEnv e').called ev).setWireOut b).Inv := by
      intro hs e' ev b hev hb
      have h1 := hs.call (e := e) hclk
      have h2 := h1.write (e := e') (ev := ev) hev (b := b) hb
      rw [← hu]
      exact ⟨h2.events, h2.wire, h2.dir, h2.shapes⟩
    rw [hp]
    rcases txWrite_cases [selpat s.params d] u with
      ⟨f, kd, k⟩ | ⟨f, p, kd, k⟩ | ⟨f, kd, kr, k⟩ | ⟨kh, k⟩ <;> rw [k]
    · exact ⟨by simp [hp], fun x => kd.honest (he ▸ hd.honest x),
        fun x => kd.returns (he ▸ hd.returns x),
        fun hs => hin hs f _ _ (hlow _) (by simp)⟩
    · exact ⟨by simp [hp], fun x => kd.honest (he ▸ hd.honest x),
        fun x => kd.returns (he ▸ hd.returns x),
        fun hs => hin hs f _ _ (hlow _) (by simp)⟩
    · refine ⟨⟨by simp [hp], fun x => kd.honest (he ▸ hd.honest x),
        fun x => kd.returns (he ▸ hd.returns x), fun hs => ?_⟩,
        bool_false_of (fun x => he ▸ hd.returns x) kr⟩
      have h1 := (hs.call (e := e) hclk).lostWire f
      rw [← hu]
      exact ⟨h1.events, h1.wire, h1.dir, h1.shapes⟩
    · exact bool_false_of (fun x => he ▸ hd.honest x) kh
  · exact ⟨by simp, hd.honest, hd.returns,
      fun hs => hs.write (ev := .write _ _) ⟨by simp, by simpa using selpat_clk_form s.params d⟩
        (by simp)⟩
  · exact ⟨⟨by simp, hd.honest, hd.returns, fun hs => hs.lostWire e⟩, hr⟩
  · exact hh

theorem invKept_closed : FlowClosed InvKept where
  chains := invKept_chains
  spi s r hw := ⟨rfl, id, id, fun h => ⟨h.events, h.wire, h.dir,
    ⟨hw.elim (fun x => by simpa [x] using h.shapes.w) id, h.shapes.pagebuf, h.shapes.k,
      h.shapes.code⟩⟩⟩
  poll s r := ⟨rfl, id, id, fun h => ⟨h.events, h.wire, h.dir,
    ⟨h.shapes.w, h.shapes.pagebuf, h.shapes.k, h.shapes.code⟩⟩⟩
  owed s b := ⟨rfl, id, id, fun h => ⟨h.events, h.wire, h.dir,
    ⟨h.shapes.w, h.shapes.pagebuf, h.shapes.k, h.shapes.code⟩⟩⟩
  read s := txReadPins_ends s
    (fun _ _ hd => ⟨rfl, hd.honest, hd.returns, fun h => h.call (ev := .readPins _) trivial⟩)
    (fun e hd => ⟨rfl, hd.honest, hd.returns, fun h => h.draw e⟩)
  write s bs d hne hf hl := txWrite_ends bs s
    (fun _ hd => ⟨rfl, hd.honest, hd.returns, fun h => h.write (ev := .write _ _) ⟨hne, hf⟩
      fun x hx => ⟨d, by rw [hl] at hx; exact (Option.some.inj hx).symm⟩⟩)
    (fun _ _ hd => ⟨rfl, hd.honest, hd.returns, fun h => h.write (ev := .write _ _) ⟨hne, hf⟩
      (by simp)⟩)
    (fun e hd => ⟨rfl, hd.honest, hd.returns, fun h => h.lostWire e⟩)
  pulse s d := State.Inv.pulse s d
  lastPage s p := ⟨rfl, id, id, fun h => ⟨h.events, h.wire, h.dir,
    ⟨h.shapes.w, h.shapes.pagebuf, h.shapes.k, h.shapes.code⟩⟩⟩
  flow s r hb hk := ⟨rfl, id, id, fun h => ⟨h.events, h.wire, h.dir,
    ⟨h.shapes.w, hb h.shapes.pagebuf, hk h.shapes.k, h.shapes.code⟩⟩⟩
  diag s id := ⟨rfl, fun x => x, fun x => x, fun h => h.call (e := s.env) (ev := .diag id) trivial⟩
  setDir s d hd := txSetDir_ends d s
    (fun _ h => ⟨rfl, h.honest, h.returns, fun hs => hs.setDir (ev := .setDir d _ _) ⟨hd, rfl⟩
      fun x hx => by cases hx; exact hd⟩)
    (fun _ _ h => ⟨rfl, h.honest, h.returns, fun hs => hs.setDir (ev := .setDir d _ _) ⟨hd, rfl⟩
      (by simp)⟩)
    (fun _ h => ⟨rfl, h.honest, h.returns, fun hs => ⟨hs.events, hs.wire, by simp [State.DirFormed],
      ⟨hs.shapes.w, hs.shapes.pagebuf, hs.shapes.k, hs.shapes.code⟩⟩⟩)
  openIt s := by
    unfold openHandle
    split
    · rcases txOpen_cases s with ⟨e, h, hx⟩ | ⟨e, p, h, hx⟩ | ⟨e, h, hr, hx⟩ <;> rw [hx]
      · exact ⟨rfl, h.honest, h.returns, fun hs =>
          have h1 := hs.call (e := e) (ev := .openCall s.params.vid s.params.pid (.ok ())) ⟨rfl, rfl⟩
          ⟨h1.events, h1.wire, h1.dir,
            ⟨h1.shapes.w, h1.shapes.pagebuf, h1.shapes.k, h1.shapes.code⟩⟩⟩
      · exact ⟨rfl, h.honest, h.returns, fun hs =>
          hs.call (ev := .openCall s.params.vid s.params.pid (.err p)) ⟨rfl, rfl⟩⟩
      · exact ⟨⟨rfl, h.honest, h.returns, fun hs => hs.draw e⟩, hr⟩
    · exact invKept_chains.refl s
  stream s := streamRead_ends _ s
    (fun _ _ _ h => ⟨rfl, h.honest, h.returns, fun hs => hs.call (ev := .streamRead _ _) rfl⟩)
    (fun _ _ h => ⟨rfl, h.honest, h.returns, fun hs => hs.draw _⟩)

end Sys2Proof.Machine
end

