-- ==== Sys2Proof/Laws/Runs.lean ====
section
/-! SUPPORT. The sub-operations when every listed answer is Ok: each returns Ok, uses up exactly its
answers, and adds exactly its events (41_spi_bitbanger.md R96, R102; 42_flash_engine.md R108, R114,
R119, R127, R128). -/

namespace Sys2Proof.Machine

@[simp] theorem yes_nil : yes [] = [] := rfl
@[simp] theorem yes_cons (p : Byte) (ps : List Byte) : yes (p :: ps) = .ok none p :: yes ps := rfl
@[simp] theorem yes_append (ps qs : List Byte) : yes (ps ++ qs) = yes ps ++ yes qs := by
  simp [yes]

theorem yes_honest (ps : List Byte) : (yes ps).all TxAnswer.honest = true := by
  induction ps with
  | nil => rfl
  | cons p ps ih => rw [yes_cons, List.all_cons, ih]; rfl

/-- A list at least `n` long is its first `n` elements and the rest. -/
theorem yes_split {pins : List Byte} (n : Nat) :
    yes pins = yes (pins.take n) ++ yes (pins.drop n) := by
  rw [← yes_append, List.take_append_drop]

/-- `t` is reached from `s` by successful bus calls: the frame, the events they add, the answers that
are left. -/
structure Passed (s t : State) (new : List Event) (rest : List TxAnswer) : Prop where
  frame : BusFrame s t
  trace : t.trace = s.trace ++ new
  answers : t.env.answers = rest
  drawn : t.env.drawn = s.env.drawn

theorem Passed.trans {s t u : State} {new new' : List Event} {rest rest' : List TxAnswer}
    (h : Passed s t new rest) (k : Passed t u new' rest') : Passed s u (new ++ new') rest' where
  frame := h.frame.trans k.frame
  trace := by rw [k.trace, h.trace, List.append_assoc]
  answers := k.answers
  drawn := k.drawn.trans h.drawn

theorem Passed.here (s : State) : Passed s s [] s.env.answers :=
  ⟨.refl s, by simp, rfl, rfl⟩

theorem Passed.spi (s : State) (r : SpiRegs) (hr : r.w = s.spi.w ∨ r.w.length = 17) :
    Passed s (s.setSpi r) [] s.env.answers :=
  ⟨busFrame_closed.spi s r hr, by simp [State.trace], rfl, rfl⟩

theorem Passed.poll (s : State) (r : PollRegs) : Passed s (s.setPoll r) [] s.env.answers :=
  ⟨busFrame_closed.poll s r, by simp [State.trace], rfl, rfl⟩

theorem Passed.owed (s : State) (b : Bool) : Passed s (s.setPollOwed b) [] s.env.answers :=
  ⟨busFrame_closed.owed s b, by simp [State.trace], rfl, rfl⟩

theorem drawn_of_cons {s : State} {a : TxAnswer} {rest : List TxAnswer}
    (h : s.env.answers = a :: rest) : s.env.Drawn { s.env with answers := rest } := by
  have := nextAnswer_drawn s.env
  rwa [nextAnswer_cons _ _ _ h] at this

/-- A formed write with an Ok answer. -/
theorem txWrite_passed {s : State} {bs : List Byte} {p : Byte} {rest : List TxAnswer}
    (hne : bs ≠ []) (hf : ∀ b ∈ bs, ControlByteForm s.params b)
    (h : s.env.answers = .ok none p :: rest) :
    ∃ t, txWrite bs s = .ok () t ∧ Passed s t [.write bs (.ok ())] rest ∧
      t.wireOut = bs.getLast? ∧ t.spi = s.spi ∧ t.poll = s.poll ∧ t.pollOwed = s.pollOwed := by
  refine ⟨_, txWrite_ok h, ⟨?_, ?_, rfl, rfl⟩, rfl, rfl, rfl, rfl⟩
  · exact (BusFrame.call (drawn_of_cons h) (.write hne hf)).trans (.wire _ _)
  · simp [State.trace]

theorem txReadPins_passed {s : State} {p : Byte} {rest : List TxAnswer}
    (h : s.env.answers = .ok none p :: rest) :
    ∃ t, txReadPins s = .ok p t ∧ Passed s t [.readPins (.ok p)] rest ∧
      t.wireOut = s.wireOut ∧ t.spi = s.spi ∧ t.poll = s.poll ∧ t.pollOwed = s.pollOwed := by
  refine ⟨_, txReadPins_ok h, ⟨?_, ?_, rfl, rfl⟩, rfl, rfl, rfl, rfl⟩
  · exact BusFrame.call (drawn_of_cons h) .readPins
  · simp [State.trace]

/-- Select(d) with an Ok answer. -/
theorem select_passed {s : State} {d : Device} {p : Byte} {rest : List TxAnswer}
    (h : s.env.answers = .ok none p :: rest) :
    ∃ t, select d s = .ok () t ∧ Passed s t [.write [selpat s.params d] (.ok ())] rest ∧
      t.wireOut = some (selpat s.params d) ∧ t.spi = s.spi ∧ t.poll = s.poll ∧
      t.pollOwed = s.pollOwed :=
  txWrite_passed (by simp) (by simpa using selpat_form s.params d) h

theorem idle_passed {s : State} {p : Byte} {rest : List TxAnswer}
    (h : s.env.answers = .ok none p :: rest) :
    ∃ t, txWrite [idleByte s.params] s = .ok () t ∧ Passed s t [idleEvent s.params] rest ∧
      t.wireOut = some (idleByte s.params) ∧ t.spi = s.spi ∧ t.poll = s.poll ∧
      t.pollOwed = s.pollOwed :=
  select_passed (d := .idle) h

/-- SpiOut's loop with Ok answers. -/
theorem spiOutLoop_passed (d : Device) (data : List Byte) (s : State) (pins : List Byte)
    (rest : List TxAnswer) (hp : pins.length = data.length)
    (h : s.env.answers = yes pins ++ rest) :
    ∃ t, spiOutLoop d data s = .ok () t ∧ Passed s t (spiOutEvents s.params d data) rest ∧
      t.wireOut = (if data = [] then s.wireOut else some (selpat s.params d)) ∧
      t.poll = s.poll ∧ t.pollOwed = s.pollOwed ∧ t.spi.acc = s.spi.acc ∧
      t.spi.rxbuf = s.spi.rxbuf ∧ t.spi.err = s.spi.err := by
  induction data generalizing s pins with
  | nil =>
    obtain rfl : pins = [] := List.eq_nil_of_length_eq_zero hp
    refine ⟨s, rfl, ?_, by simp, rfl, rfl, rfl, rfl, rfl⟩
    have := Passed.here s
    rwa [h] at this
  | cons b bs ih =>
    obtain ⟨p, ps, rfl⟩ : ∃ p ps, pins = p :: ps := by
      cases pins with
      | nil => simp at hp
      | cons p ps => exact ⟨p, ps, rfl⟩
    generalize hw : s.setSpi { s.spi with w := spiWord s.params d b } = s1
    have p1 : Passed s s1 [] s.env.answers := hw ▸ Passed.spi s _ (.inr (spiWord_length ..))
    have hpar : s1.params = s.params := p1.frame.params
    have hword : s1.spi.w = spiWord s.params d b := by simp [← hw]
    obtain ⟨t1, hx1, q1, w1, e1, o1, k1⟩ := txWrite_passed (s := s1) (bs := s1.spi.w) (p := p)
      (rest := yes ps ++ rest) (by rw [hword]; exact spiWord_ne_nil s.params d b)
      (by rw [hword, hpar]; exact spiWord_form s.params d b) (by rw [p1.answers, h]; rfl)
    have hpar1 : t1.params = s.params := q1.frame.params.trans hpar
    obtain ⟨t, hx, q, w, o, k, a, r, er⟩ := ih t1 ps (by simpa using hp) q1.answers
    refine ⟨t, ?_, ?_, ?_, ?_, ?_, ?_, ?_, ?_⟩
    · unfold spiOutLoop
      rw [hw]
      dsimp only
      rw [hx1]
      exact hx
    · have := (p1.trans q1).trans q
      simpa [spiOutEvents, spiWordEvent, hword, hpar1] using this
    · rw [w, w1, hword, hpar1]
      by_cases hbs : bs = [] <;> simp [hbs]
    · rw [o, o1, ← hw, State.setSpi_poll]
    · rw [k, k1, ← hw, State.setSpi_pollOwed]
    · rw [a, e1, ← hw]; rfl
    · rw [r, e1, ← hw]; rfl
    · rw [er, e1, ← hw]; rfl

theorem spiOut_passed (d : Device) (data : List Byte) (s : State) (pins : List Byte)
    (rest : List TxAnswer) (hp : pins.length = data.length)
    (h : s.env.answers = yes pins ++ rest) :
    ∃ t, spiOut data d s = .ok data.length t ∧ Passed s t (spiOutEvents s.params d data) rest ∧
      t.wireOut = (if data = [] then s.wireOut else some (selpat s.params d)) ∧
      t.poll = s.poll ∧ t.pollOwed = s.pollOwed ∧ t.spi.acc = s.spi.acc ∧
      t.spi.rxbuf = s.spi.rxbuf ∧ t.spi.err = s.spi.err := by
  obtain ⟨t, hx, rest⟩ := spiOutLoop_passed d data s pins rest hp h
  exact ⟨t, by simp [spiOut, hx, Res.andThen], rest⟩

/-- S.ACC after a sample for bit `i` (41_spi_bitbanger.md R100). -/
def accAfter (P : Params) (p : Byte) (i : Nat) (acc : Byte) : Byte :=
  if dataInLevel P p then acc ||| ((1#8) <<< i) else acc

theorem accAfter_bit (P : Params) (p : Byte) (n : Nat) (acc : Byte) (j : Nat) (hj : j < 8) :
    (accAfter P p n acc).getLsbD j = (acc.getLsbD j || (decide (j = n) && dataInLevel P p)) := by
  unfold accAfter
  by_cases hd : dataInLevel P p = true
  · simp only [hd, if_true, BitVec.getLsbD_or, BitVec.getLsbD_shiftLeft, Bool.and_true]
    congr 1
    by_cases hjn : j = n
    · subst hjn; simp [hj]
    · by_cases hlt : j < n
      · simp [hlt, hjn]
      · have : j - n ≠ 0 := by omega
        simp [hjn, BitVec.getLsbD_one, this]
  · simp [hd]

/-- One bit of SpiIn with Ok answers. -/
theorem sampleBit_passed (d : Device) (i : Nat) (s : State) (p x y : Byte) (rest : List TxAnswer)
    (h : s.env.answers = yes [p, x, y] ++ rest) :
    ∃ t, sampleBit d i s = .ok () t ∧ Passed s t (sampleEvents s.params d [p, x, y]) rest ∧
      t.wireOut = some (selpat s.params d) ∧ t.poll = s.poll ∧ t.pollOwed = s.pollOwed ∧
      t.spi = { s.spi with acc := accAfter s.params p i s.spi.acc } := by
  obtain ⟨t1, hx1, q1, w1, e1, o1, k1⟩ := txReadPins_passed (s := s) (p := p)
    (rest := yes [x, y] ++ rest) (by simpa using h)
  have hp1 : t1.params = s.params := q1.frame.params
  generalize hs : (if dataInLevel t1.params p
    then t1.setSpi { t1.spi with acc := t1.spi.acc ||| ((1#8) <<< i) } else t1) = t2
  have q2 : Passed t1 t2 [] t1.env.answers := by
    rw [← hs]
    split
    · exact Passed.spi t1 _ (.inl rfl)
    · exact Passed.here t1
  have hp2 : t2.params = s.params := q2.frame.params.trans hp1
  obtain ⟨t3, hx3, q3, w3, e3, o3, k3⟩ := txWrite_passed (s := t2)
    (bs := [selpat t2.params d ||| pinBit t2.params .clk]) (p := x) (rest := yes [y] ++ rest)
    (by simp) (by simpa using selpat_clk_form t2.params d) (by rw [q2.answers, q1.answers]; simp)
  have hp3 : t3.params = s.params := q3.frame.params.trans hp2
  obtain ⟨t4, hx4, q4, w4, e4, o4, k4⟩ := txWrite_passed (s := t3)
    (bs := [selpat t3.params d]) (p := y) (rest := rest)
    (by simp) (by simpa using selpat_form t3.params d) (by rw [q3.answers]; simp)
  refine ⟨t4, ?_, ?_, ?_, ?_, ?_, ?_⟩
  · simp only [sampleBit, hx1, Res.andThen, hs, hx3, hx4]
  · have := ((q1.trans q2).trans q3).trans q4
    simpa [sampleEvents, hp2, hp3] using this
  · simp [w4, hp3]
  · rw [o4, o3, ← hs]; split <;> simp [o1]
  · rw [k4, k3, ← hs]; split <;> simp [k1]
  · rw [e4, e3, ← hs, hp1]
    by_cases hd : dataInLevel s.params p = true <;> simp [hd, e1, accAfter]

/-- `n` bits of SpiIn with Ok answers: bit j is the sample n - 1 - j, the others stay. -/
theorem bitLoop_passed (d : Device) (n : Nat) (hn : n ≤ 8) (s : State) (pins : List Byte)
    (rest : List TxAnswer) (hp : pins.length = 3 * n) (h : s.env.answers = yes pins ++ rest) :
    ∃ t, bitLoop d n s = .ok () t ∧ Passed s t (sampleEvents s.params d pins) rest ∧
      t.wireOut = (if n = 0 then s.wireOut else some (selpat s.params d)) ∧ t.poll = s.poll ∧
      t.pollOwed = s.pollOwed ∧ t.spi.w = s.spi.w ∧ t.spi.rxbuf = s.spi.rxbuf ∧
      t.spi.err = s.spi.err ∧
      ∀ j < 8, t.spi.acc.getLsbD j =
        (s.spi.acc.getLsbD j || (decide (j < n) && levelAt s.params pins (3 * (n - 1 - j)))) := by
  induction n generalizing s pins with
  | zero =>
    obtain rfl : pins = [] := List.eq_nil_of_length_eq_zero (by simpa using hp)
    refine ⟨s, rfl, ?_, by simp, rfl, rfl, rfl, rfl, rfl, by simp⟩
    have := Passed.here s
    rw [h] at this
    simpa [sampleEvents] using this
  | succ n ih =>
    obtain ⟨p, x, y, ps, rfl⟩ : ∃ p x y ps, pins = p :: x :: y :: ps := by
      match pins, hp with
      | p :: x :: y :: ps, _ => exact ⟨p, x, y, ps, rfl⟩
      | [], hp => simp at hp
      | [_], hp => simp at hp; omega
      | [_, _], hp => simp at hp; omega
    obtain ⟨t1, hx1, q1, w1, o1, k1, e1⟩ := sampleBit_passed d n s p x y (yes ps ++ rest)
      (by simpa using h)
    have hpar : t1.params = s.params := q1.frame.params
    obtain ⟨t, hx, q, w, o, k, sw, sr, se, acc⟩ := ih (by omega) t1 ps
      (by simp only [List.length_cons] at hp; omega) q1.answers
    refine ⟨t, ?_, ?_, ?_, o.trans o1, k.trans k1, ?_, ?_, ?_, ?_⟩
    · simp only [bitLoop, hx1, Res.andThen, hx]
    · have := q1.trans q
      simpa [sampleEvents, hpar] using this
    · rw [w, hpar, w1]; by_cases hz : n = 0 <;> simp [hz]
    · simp [sw, e1]
    · simp [sr, e1]
    · simp [se, e1]
    · intro j hj
      rw [acc j hj, e1, hpar, accAfter_bit _ _ _ _ _ hj]
      by_cases hjn : j = n
      · subst hjn
        simp [levelAt]
      · by_cases hlt : j < n
        · have h1 : 3 * (n + 1 - 1 - j) = 3 * (n - 1 - j) + 3 := by omega
          have h2 : j < n + 1 := by omega
          rw [h1]
          simp [hlt, h2, hjn, levelAt]
        · have h2 : ¬ j < n + 1 := by omega
          simp [hlt, h2, hjn]

theorem sampleEvents_append (P : Params) (d : Device) (k : Nat) (ps qs : List Byte)
    (hp : ps.length = 3 * k) :
    sampleEvents P d (ps ++ qs) = sampleEvents P d ps ++ sampleEvents P d qs := by
  induction k generalizing ps with
  | zero =>
    obtain rfl : ps = [] := List.eq_nil_of_length_eq_zero (by simpa using hp)
    simp [sampleEvents]
  | succ k ih =>
    match ps, hp with
    | p :: x :: y :: ps, hp =>
      simp only [List.length_cons] at hp
      simp [sampleEvents, ih ps (by omega)]
    | [], hp => simp at hp
    | [_], hp => simp at hp; omega
    | [_, _], hp => simp at hp; omega

theorem levelAt_append_right (P : Params) (ps qs : List Byte) (n m : Nat) (h : ps.length = n) :
    levelAt P (ps ++ qs) (n + m) = levelAt P qs m := by
  simp [levelAt, ← h, List.getElem?_append_right]

theorem levelAt_append_left (P : Params) (ps qs : List Byte) (n : Nat) (h : n < ps.length) :
    levelAt P (ps ++ qs) n = levelAt P ps n := by
  simp [levelAt, List.getElem?_append_left h]

theorem levelAt_drop (P : Params) (ps : List Byte) (n m : Nat) :
    levelAt P (ps.drop n) m = levelAt P ps (n + m) := by
  simp [levelAt, List.getElem?_drop]

theorem levelAt_take (P : Params) (ps : List Byte) (n m : Nat) (h : m < n) :
    levelAt P (ps.take n) m = levelAt P ps m := by
  simp [levelAt, h]

theorem Sampled.drop {P : Params} {pins : List Byte} {n : Nat} {bytes : List Byte}
    (h : Sampled P (pins.drop n) 0 bytes) : Sampled P pins n bytes := by
  intro j hj i hi
  rw [h j hj i hi, levelAt_drop]
  congr 1
  omega

theorem Sampled.take {P : Params} {pins : List Byte} {n : Nat} {bytes : List Byte}
    (h : Sampled P (pins.take n) 0 bytes) (hn : 24 * bytes.length ≤ n) :
    Sampled P pins 0 bytes := by
  intro j hj i hi
  rw [h j hj i hi, levelAt_take]
  omega

/-- The byte loop of SpiIn with Ok answers. -/
theorem byteLoop_passed (d : Device) (n j : Nat) (s : State) (pins : List Byte)
    (rest : List TxAnswer) (hp : pins.length = 24 * n) (hj : s.spi.rxbuf.length = j)
    (h : s.env.answers = yes pins ++ rest) :
    ∃ t bytes, byteLoop d n j s = .ok () t ∧ Passed s t (sampleEvents s.params d pins) rest ∧
      t.wireOut = (if n = 0 then s.wireOut else some (selpat s.params d)) ∧ t.poll = s.poll ∧
      t.pollOwed = s.pollOwed ∧ t.spi.w = s.spi.w ∧ t.spi.err = s.spi.err ∧
      t.spi.rxbuf = s.spi.rxbuf ++ bytes ∧ bytes.length = n ∧ Sampled s.params pins 0 bytes := by
  induction n generalizing s pins j with
  | zero =>
    obtain rfl : pins = [] := List.eq_nil_of_length_eq_zero (by simpa using hp)
    refine ⟨s, [], rfl, ?_, by simp, rfl, rfl, rfl, rfl, by simp, rfl, by simp [Sampled]⟩
    have := Passed.here s
    rw [h] at this
    simpa [sampleEvents] using this
  | succ n ih =>
    have hl24 : (pins.take 24).length = 24 := by simp; omega
    generalize hz : s.setSpi { s.spi with acc := 0x00 } = s1
    have q1 : Passed s s1 [] s.env.answers := hz ▸ Passed.spi s _ (.inl rfl)
    have hp1 : s1.params = s.params := q1.frame.params
    obtain ⟨t1, hx1, q2, w2, o2, k2, sw2, sr2, se2, acc2⟩ := bitLoop_passed d 8 (by omega) s1
      (pins.take 24) (yes (pins.drop 24) ++ rest) hl24
      (by rw [q1.answers, h, ← List.append_assoc, ← yes_split])
    have hpt1 : t1.params = s.params := q2.frame.params.trans hp1
    generalize hm : t1.setSpi { t1.spi with rxbuf := memWrite t1.spi.rxbuf j [t1.spi.acc] } = t2
    have q3 : Passed t1 t2 [] t1.env.answers := hm ▸ Passed.spi t1 _ (.inl rfl)
    have hpt2 : t2.params = s.params := q3.frame.params.trans hpt1
    have hrx1 : t1.spi.rxbuf = s.spi.rxbuf := by rw [sr2, ← hz]; rfl
    have hrx : t2.spi.rxbuf = s.spi.rxbuf ++ [t1.spi.acc] := by
      rw [← hm, State.setSpi_spi]
      simp [memWrite, hrx1, ← hj]
    obtain ⟨t, bytes, hx, q, w, o, k, sw, se, rx, hlen, hsam⟩ := ih (j + 1) t2 (pins.drop 24)
      (by simp; omega) (by simp [hrx, hj]) (by rw [q3.answers, q2.answers])
    refine ⟨t, t1.spi.acc :: bytes, ?_, ?_, ?_, ?_, ?_, ?_, ?_, ?_, ?_, ?_⟩
    · simp only [byteLoop, hz, hx1, Res.andThen, hm, hx]
    · have := ((q1.trans q2).trans q3).trans q
      have hsplit := sampleEvents_append s.params d 8 (pins.take 24) (pins.drop 24) hl24
      rw [List.take_append_drop] at hsplit
      rw [hsplit]
      simpa [hp1, hpt2] using this
    · rw [w, hpt2, ← hm]
      by_cases hn : n = 0 <;> simp [hn, w2, hp1]
    · rw [o, ← hm, State.setSpi_poll, o2, ← hz, State.setSpi_poll]
    · rw [k, ← hm, State.setSpi_pollOwed, k2, ← hz, State.setSpi_pollOwed]
    · rw [sw, ← hm, State.setSpi_spi, sw2, ← hz, State.setSpi_spi]
    · rw [se, ← hm, State.setSpi_spi, se2, ← hz, State.setSpi_spi]
    · simp [rx, hrx]
    · simp [hlen]
    · intro k hk i hi
      cases k with
      | zero =>
        have := acc2 i hi
        rw [← hz] at this
        simp only [List.getD_cons_zero, this]
        have hz0 : (0x00 : Byte).getLsbD i = false := BitVec.getLsbD_zero
        simp only [State.setSpi_spi, State.setSpi_params, hz0, Bool.false_or, hi, decide_true,
          Bool.true_and]
        rw [levelAt_take _ _ _ _ (by omega)]
        exact congrArg _ (by omega)
      | succ k =>
        have := hsam k (by simpa using hk) i hi
        rw [hpt2, levelAt_drop] at this
        rw [List.getD_cons_succ, this]
        congr 1
        omega

/-- SpiIn(n, d) with Ok answers (41_spi_bitbanger.md R102). -/
theorem spiIn_passed (n : Nat) (d : Device) (s : State) (pins : List Byte) (rest : List TxAnswer)
    (hp : pins.length = 24 * n + 1) (h : s.env.answers = yes pins ++ rest) :
    ∃ t bytes, spiIn n d s = .ok bytes t ∧ Passed s t (spiInEvents s.params d n pins) rest ∧
      t.wireOut = some (idleByte s.params) ∧ t.poll = s.poll ∧ t.pollOwed = s.pollOwed ∧
      t.spi.w = s.spi.w ∧ t.spi.err = none ∧ t.spi.rxbuf = bytes ∧ bytes.length = n ∧
      Sampled s.params pins 0 bytes := by
  generalize hz : s.setSpi { s.spi with err := none, rxbuf := [] } = s1
  have q1 : Passed s s1 [] s.env.answers := hz ▸ Passed.spi s _ (.inl rfl)
  have hp1 : s1.params = s.params := q1.frame.params
  obtain ⟨t1, bytes, hx1, q2, w2, o2, k2, sw2, se2, rx2, hlen, hsam⟩ := byteLoop_passed d n 0 s1
    (pins.take (24 * n)) (yes (pins.drop (24 * n)) ++ rest) (by simp; omega) (by simp [← hz])
    (by rw [q1.answers, h, ← List.append_assoc, ← yes_split])
  obtain ⟨p, hdrop⟩ : ∃ p, pins.drop (24 * n) = [p] :=
    List.length_eq_one_iff.1 (by simp; omega)
  have hpt1 : t1.params = s.params := q2.frame.params.trans hp1
  obtain ⟨t, hx, q, w, e, o, k⟩ := idle_passed (s := t1) (p := p) (rest := rest)
    (by rw [q2.answers, hdrop]; rfl)
  refine ⟨t, bytes, ?_, ?_, ?_, ?_, ?_, ?_, ?_, ?_, hlen, ?_⟩
  · have : t.spi.rxbuf = bytes := by rw [e, rx2, ← hz]; simp
    simp only [spiIn, hz, hx1, closeSpiIn, hx, this]
  · have := (q1.trans q2).trans q
    simpa [spiInEvents, hp1, hpt1] using this
  · rw [w, hpt1]
  · rw [o, o2, ← hz, State.setSpi_poll]
  · rw [k, k2, ← hz, State.setSpi_pollOwed]
  · rw [e, sw2, ← hz, State.setSpi_spi]
  · rw [e, se2, ← hz, State.setSpi_spi]
  · rw [e, rx2, ← hz]; simp
  · have hs1 : Sampled s.params (pins.take (24 * n)) 0 bytes := hp1 ▸ hsam
    exact hs1.take (by omega)

/-- The answers before and after the first `n`. -/
theorem answers_split {s : State} {pins : List Byte} {rest : List TxAnswer} (n : Nat)
    (h : s.env.answers = yes pins ++ rest) :
    s.env.answers = yes (pins.take n) ++ (yes (pins.drop n) ++ rest) := by
  rw [h, ← List.append_assoc, ← yes_split]

theorem sendFlash_passed (bytes : List Byte) (s : State) (pins : List Byte)
    (rest : List TxAnswer) (hp : pins.length = bytes.length)
    (h : s.env.answers = yes pins ++ rest) :
    ∃ t, sendFlash bytes s = .ok bytes.length t ∧
      Passed s t (spiOutEvents s.params .flash bytes) rest ∧
      t.wireOut = (if bytes = [] then s.wireOut else some (selpat s.params .flash)) ∧
      t.poll = s.poll ∧ t.pollOwed = s.pollOwed ∧ t.spi.acc = s.spi.acc ∧
      t.spi.rxbuf = s.spi.rxbuf ∧ t.spi.err = s.spi.err := by
  obtain ⟨t, hx, r⟩ := spiOut_passed .flash bytes s pins rest hp h
  exact ⟨t, by simp [sendFlash, hx, Res.recover], r⟩

theorem deselect_passed {s : State} {p : Byte} {rest : List TxAnswer}
    (h : s.env.answers = .ok none p :: rest) :
    ∃ t, deselect s = .ok () t ∧ Passed s t [idleEvent s.params] rest ∧
      t.wireOut = some (idleByte s.params) ∧ t.spi = s.spi ∧ t.poll = s.poll ∧
      t.pollOwed = s.pollOwed := by
  obtain ⟨t, hx, r⟩ := select_passed (d := .idle) h
  exact ⟨t, by simp [deselect, hx, Res.raise], r⟩

/-- A flash command with an answer of `n` bytes, with Ok answers (42_flash_engine.md R108). -/
theorem readTransaction_passed (opcode : Byte) (n : Nat) (s : State) (pins : List Byte)
    (rest : List TxAnswer) (hp : pins.length = 24 * n + 3)
    (h : s.env.answers = yes pins ++ rest) :
    ∃ t bytes, readTransaction [opcode] n s = .ok bytes t ∧
      Passed s t (readEvents s.params opcode n pins) rest ∧
      t.wireOut = some (idleByte s.params) ∧ t.poll = s.poll ∧ t.pollOwed = s.pollOwed ∧
      t.spi.rxbuf = bytes ∧ bytes.length = n ∧ Sampled s.params pins 1 bytes := by
  obtain ⟨t1, hx1, q1, w1, o1, k1, a1, r1, e1⟩ := sendFlash_passed [opcode] s (pins.take 1) _
    (by simp; omega) (answers_split 1 h)
  have hp1 : t1.params = s.params := q1.frame.params
  obtain ⟨t2, bytes, hx2, q2, w2, o2, k2, sw2, se2, rx2, hlen, hsam⟩ := spiIn_passed n .flash t1
    ((pins.drop 1).take (24 * n + 1)) (yes ((pins.drop 1).drop (24 * n + 1)) ++ rest)
    (by simp; omega) (answers_split _ q1.answers)
  have hp2 : t2.params = s.params := q2.frame.params.trans hp1
  obtain ⟨p, hdrop⟩ : ∃ p, (pins.drop 1).drop (24 * n + 1) = [p] :=
    List.length_eq_one_iff.1 (by simp; omega)
  obtain ⟨t, hx, q, w, e, o, k⟩ := deselect_passed (s := t2) (p := p) (rest := rest)
    (by rw [q2.answers, hdrop]; rfl)
  refine ⟨t, bytes, ?_, ?_, ?_, ?_, ?_, ?_, hlen, ?_⟩
  · simp only [readTransaction, hx1, Res.andThen, hx2, Res.recover, hx]
  · have := (q1.trans q2).trans q
    have htk : (pins.tail.take (24 * n + 1)).take (24 * n) = pins.tail.take (24 * n) := by
      rw [List.take_take]; congr 1; omega
    simpa [readEvents, spiInEvents, spiOutEvents, htk, hp1, hp2] using this
  · rw [w, hp2]
  · rw [o, o2, o1]
  · rw [k, k2, k1]
  · rw [e, rx2]
  · have hs1 : Sampled s.params (pins.drop 1) 0 bytes :=
      Sampled.take (n := 24 * n + 1) (hp1 ▸ hsam) (by omega)
    exact hs1.drop

/-- STATUS_READ_CMD with Ok answers (42_flash_engine.md R127). -/
theorem statusTransaction_passed (s : State) (pins : List Byte) (rest : List TxAnswer)
    (hp : pins.length = 27) (h : s.env.answers = yes pins ++ rest) :
    ∃ t, statusTransaction s = .ok () t ∧ Passed s t (readEvents s.params 0xD7 1 pins) rest ∧
      t.wireOut = some (idleByte s.params) ∧ t.poll.it = s.poll.it ∧
      Sampled s.params pins 1 [t.poll.status] ∧
      statusReady t.poll.status = levelAt s.params pins 1 ∧
      t.pollOwed = (if levelAt s.params pins 1 then false else s.pollOwed) := by
  obtain ⟨t1, hx1, q1, w1, o1, k1, a1, r1, e1⟩ := sendFlash_passed statusReadBytes s (pins.take 1) _
    (by simp [statusReadBytes]; omega) (answers_split 1 h)
  have hp1 : t1.params = s.params := q1.frame.params
  obtain ⟨t2, bytes, hx2, q2, w2, o2, k2, sw2, se2, rx2, hlen, hsam⟩ := spiIn_passed 1 .flash t1
    ((pins.drop 1).take 25) (yes ((pins.drop 1).drop 25) ++ rest)
    (by simp; omega) (answers_split _ q1.answers)
  have hp2 : t2.params = s.params := q2.frame.params.trans hp1
  obtain ⟨b, rfl⟩ := List.length_eq_one_iff.1 hlen
  have hsam1 : Sampled s.params pins 1 [b] := by
    have hs1 : Sampled s.params (pins.drop 1) 0 [b] :=
      Sampled.take (n := 25) (hp1 ▸ hsam) (by simp)
    exact hs1.drop
  obtain ⟨p, hdrop⟩ : ∃ p, (pins.drop 1).drop 25 = [p] :=
    List.length_eq_one_iff.1 (by simp; omega)
  generalize hst : t2.setPoll { t2.poll with status := [b].getD 0 0 } = t3
  have q3 : Passed t2 t3 [] t2.env.answers := hst ▸ Passed.poll t2 _
  have hp3 : t3.params = s.params := q3.frame.params.trans hp2
  obtain ⟨t4, hx4, q4, w4, e4, o4, k4⟩ := deselect_passed (s := t3) (p := p) (rest := rest)
    (by rw [q3.answers, q2.answers, hdrop]; rfl)
  have hready : statusReady b = levelAt s.params pins 1 := by
    have := hsam1 0 (by simp) 7 (by omega)
    simpa [statusReady] using this
  have hstat : t4.poll.status = b := by rw [o4, ← hst]; simp
  generalize hu : (if statusReady t4.poll.status then t4.setPollOwed false else t4) = t
  have q5 : Passed t4 t [] t4.env.answers := by
    rw [← hu]
    split
    · exact Passed.owed t4 false
    · exact Passed.here t4
  have hpoll : t.poll = t4.poll := by rw [← hu]; split <;> rfl
  have hwire : t.wireOut = t4.wireOut := by rw [← hu]; split <;> rfl
  have howed : t.pollOwed = (if statusReady b then false else t4.pollOwed) := by
    rw [← hu, hstat]; split <;> simp
  refine ⟨t, ?_, ?_, ?_, ?_, ?_, ?_, ?_⟩
  · simp only [statusTransaction, hx1, Res.andThen, hx2, Res.recover, hst, hx4, hu]
  · have := (((q1.trans q2).trans q3).trans q4).trans q5
    rw [q4.answers] at this
    have htk : (pins.tail.take 25).take 24 = pins.tail.take 24 := by
      rw [List.take_take]; congr 1
    simpa [readEvents, spiInEvents, spiOutEvents, statusReadBytes, htk, hp1, hp3] using this
  · rw [hwire, w4, hp3]
  · rw [hpoll, o4, ← hst]
    simp [o2, o1]
  · rw [hpoll, hstat]; exact hsam1
  · rw [hpoll, hstat, hready]
  · rw [howed, hready, k4, ← hst, State.setPoll_pollOwed, k2, k1]

end Sys2Proof.Machine
end

