-- ==== Sys2Proof/Laws/Engine.lean ====
section
/-! SUPPORT. The Flash Command Engine when every listed answer is Ok: each command's events, its
answers, and when a poll ends (42_flash_engine.md R108, R114, R119, R127, R128). -/

namespace Sys2Proof.Machine

theorem idFour (bytes : List Byte) (h : bytes.length = 4) :
    ∃ a b c d, bytes = [a, b, c, d] := by
  match bytes, h with
  | [a, b, c, d], _ => exact ⟨a, b, c, d, rfl⟩

/-- ReadId() with Ok answers (42_flash_engine.md R108). -/
theorem readId_passed (s : State) (pins : List Byte) (rest : List TxAnswer)
    (hp : pins.length = 99) (h : s.env.answers = yes pins ++ rest) :
    ∃ t bytes, readId s = .ok (identifier bytes) t ∧
      Passed s t (readEvents s.params 0x9F 4 pins) rest ∧
      t.wireOut = some (idleByte s.params) ∧ t.poll = s.poll ∧ t.pollOwed = s.pollOwed ∧
      t.spi.rxbuf = bytes ∧ bytes.length = 4 ∧ Sampled s.params pins 1 bytes := by
  obtain ⟨t, bytes, hx, r⟩ := readTransaction_passed 0x9F 4 s pins rest (by omega) h
  have hx' : readTransaction readIdBytes Config.idLen s = .ok bytes t := hx
  exact ⟨t, bytes, by simp only [readId, readIdTransaction, hx', Res.andThen], r⟩

/-- A command that starts a program or an erase, with Ok answers (42_flash_engine.md R119). -/
theorem startTransaction_passed (cmd : List Byte) (s : State) (pins : List Byte)
    (rest : List TxAnswer) (hp : pins.length = cmd.length + 1)
    (h : s.env.answers = yes pins ++ rest) :
    ∃ t, startTransaction cmd s = .ok () t ∧ Passed s t (commandEvents s.params cmd) rest ∧
      t.wireOut = some (idleByte s.params) ∧ t.poll = s.poll ∧ t.pollOwed = true := by
  obtain ⟨t1, hx1, q1, w1, o1, k1, -⟩ := sendFlash_passed cmd s (pins.take cmd.length) _
    (by simp; omega) (answers_split _ h)
  have hp1 : t1.params = s.params := q1.frame.params
  obtain ⟨p, hdrop⟩ : ∃ p, pins.drop cmd.length = [p] :=
    List.length_eq_one_iff.1 (by simp; omega)
  have q2 := Passed.owed t1 true
  obtain ⟨t, hx, q, w, e, o, k⟩ := deselect_passed (s := t1.setPollOwed true) (p := p) (rest := rest)
    (by rw [q2.answers, q1.answers, hdrop]; rfl)
  refine ⟨t, ?_, ?_, ?_, ?_, ?_⟩
  · simp only [startTransaction, hx1, Res.andThen, hx]
  · have := (q1.trans q2).trans q
    simpa [commandEvents, hp1] using this
  · rw [w]; simp [hp1]
  · rw [o]; simp [o1]
  · rw [k]; simp

/-- BUF_LOAD_CMD with Ok answers (42_flash_engine.md R113). -/
theorem bufLoad_passed (data : List Byte) (s : State) (pins : List Byte) (rest : List TxAnswer)
    (hp : pins.length = data.length + 5) (h : s.env.answers = yes pins ++ rest) :
    ∃ t, bufLoadTransaction data s = .ok () t ∧
      Passed s t (commandEvents s.params (bufLoadBytes ++ data)) rest ∧
      t.wireOut = some (idleByte s.params) ∧ t.poll = s.poll ∧ t.pollOwed = s.pollOwed ∧
      t.spi.acc = s.spi.acc ∧ t.spi.rxbuf = s.spi.rxbuf ∧ t.spi.err = s.spi.err := by
  obtain ⟨t1, hx1, q1, w1, o1, k1, a1, r1, e1⟩ := sendFlash_passed bufLoadBytes s (pins.take 4) _
    (by simp [bufLoadBytes]; omega) (answers_split _ h)
  have hp1 : t1.params = s.params := q1.frame.params
  obtain ⟨t2, hx2, q2, w2, o2, k2, a2, r2, e2⟩ := sendFlash_passed data t1
    ((pins.drop 4).take data.length) _ (by simp; omega) (answers_split _ q1.answers)
  have hp2 : t2.params = s.params := q2.frame.params.trans hp1
  obtain ⟨p, hdrop⟩ : ∃ p, (pins.drop 4).drop data.length = [p] :=
    List.length_eq_one_iff.1 (by simp; omega)
  obtain ⟨t, hx, q, w, e, o, k⟩ := deselect_passed (s := t2) (p := p) (rest := rest)
    (by rw [q2.answers, hdrop]; rfl)
  refine ⟨t, ?_, ?_, ?_, ?_, ?_, ?_, ?_, ?_⟩
  · simp only [bufLoadTransaction, hx1, Res.andThen, hx2, hx]
  · have := (q1.trans q2).trans q
    simpa [commandEvents, spiOutEvents, hp1, hp2] using this
  · rw [w, hp2]
  · rw [o, o2, o1]
  · rw [k, k2, k1]
  · rw [e, a2, a1]
  · rw [e, r2, r1]
  · rw [e, e2, e1]

/-- One iteration of the poll whose status read succeeds (42_flash_engine.md R126). -/
theorem pollLoop_of {n : Nat} {s t : State}
    (h : statusTransaction (s.setPoll { s.poll with it := s.poll.it + 1 }) = .ok () t) :
    pollLoop (n + 1) s = if statusReady t.poll.status then .ok () t else pollLoop n t := by
  show Res.andThen _ _ = _
  rw [h]
  rfl

/-- A poll that reads ready in its `k`-th iteration, with budget for it (42_flash_engine.md R128). -/
theorem pollLoop_ready (k n : Nat) (hk : k ≤ n) (s : State) (pins : List Byte)
    (rest : List TxAnswer) (hr : PollReady s.params k pins) (h : s.env.answers = yes pins ++ rest) :
    ∃ t, pollLoop n s = .ok () t ∧ Passed s t (pollEvents s.params k pins) rest ∧
      t.wireOut = some (idleByte s.params) ∧ t.pollOwed = false ∧
      t.poll.it = s.poll.it + BitVec.ofNat 32 k ∧ statusReady t.poll.status = true := by
  induction k generalizing n s pins with
  | zero => exact absurd hr.1 (by omega)
  | succ k ih =>
    obtain ⟨n, rfl⟩ : ∃ m, n = m + 1 := ⟨n - 1, by omega⟩
    obtain ⟨-, hlen, hlev⟩ := hr
    have q0 := Passed.poll s { s.poll with it := s.poll.it + 1 }
    obtain ⟨t1, hx1, q1, w1, i1, -, r1, k1⟩ := statusTransaction_passed
      (s.setPoll { s.poll with it := s.poll.it + 1 }) (pins.take 27) _ (by simp; omega)
      (by rw [q0.answers]; exact answers_split 27 h)
    have hp1 : t1.params = s.params := q1.frame.params
    have h0 := hlev 0 (by omega)
    have htake : levelAt s.params (pins.take 27) 1 = decide (1 = k + 1) := by
      rw [levelAt_take _ _ _ _ (by omega)]
      simpa using h0
    have htk : readEvents s.params 0xD7 1 (pins.take 27) = readEvents s.params 0xD7 1 pins := by
      have : ((pins.take 27).drop 1).take 24 = (pins.drop 1).take 24 := by
        rw [List.drop_take, List.take_take]; rfl
      simp only [readEvents, spiInEvents]
      rw [show 24 * 1 = 24 from rfl, this]
    simp only [State.setPoll_params] at q1 w1 r1 k1
    simp only [htake] at r1 k1
    rw [htk] at q1
    by_cases hz : k = 0
    · subst hz
      have hd27 : pins.drop 27 = [] := List.drop_eq_nil_of_le (by omega)
      refine ⟨t1, ?_, ?_, w1, ?_, ?_, ?_⟩
      · rw [pollLoop_of hx1, r1]; simp
      · have := q0.trans q1
        simpa [pollEvents, hd27] using this
      · simpa using k1
      · rw [i1]; simp
      · simpa using r1
    · have hk1 : ¬ (1 = k + 1) := by omega
      obtain ⟨t, hx, q, w, o, it, st⟩ := ih n (by omega) t1 (pins.drop 27)
        ⟨by omega, by simp; omega, by
          intro j hj
          have := hlev (j + 1) (by omega)
          rw [hp1, levelAt_drop, show 27 + (27 * j + 1) = 27 * (j + 1) + 1 by omega, this]
          simp⟩
        q1.answers
      refine ⟨t, ?_, ?_, ?_, o, ?_, st⟩
      · rw [pollLoop_of hx1, r1]; simp [hz, hx]
      · have := (q0.trans q1).trans q
        simpa [pollEvents, hp1] using this
      · rw [w, hp1]
      · rw [it, i1]
        simp only [State.setPoll_poll]
        rw [BitVec.add_assoc]
        congr 1
        apply BitVec.eq_of_toNat_eq
        simp [Nat.add_comm]

/-- A poll whose whole budget reads not ready (42_flash_engine.md R128). -/
theorem pollLoop_busy (n : Nat) (s : State) (pins : List Byte) (rest : List TxAnswer)
    (hr : PollBusy s.params n pins) (h : s.env.answers = yes pins ++ rest) :
    ∃ t, pollLoop n s = .err .timeout t ∧ Passed s t (pollEvents s.params n pins) rest ∧
      t.wireOut = (if n = 0 then s.wireOut else some (idleByte s.params)) ∧
      t.pollOwed = s.pollOwed := by
  induction n generalizing s pins with
  | zero =>
    obtain rfl : pins = [] := List.eq_nil_of_length_eq_zero (by simpa using hr.1)
    refine ⟨s, rfl, ?_, by simp, rfl⟩
    have := Passed.here s
    rw [h] at this
    simpa [pollEvents] using this
  | succ n ih =>
    obtain ⟨hlen, hlev⟩ := hr
    have q0 := Passed.poll s { s.poll with it := s.poll.it + 1 }
    obtain ⟨t1, hx1, q1, w1, i1, -, r1, k1⟩ := statusTransaction_passed
      (s.setPoll { s.poll with it := s.poll.it + 1 }) (pins.take 27) _ (by simp; omega)
      (by rw [q0.answers]; exact answers_split 27 h)
    have hp1 : t1.params = s.params := q1.frame.params
    have htake : levelAt s.params (pins.take 27) 1 = false := by
      rw [levelAt_take _ _ _ _ (by omega)]
      simpa using hlev 0 (by omega)
    have htk : readEvents s.params 0xD7 1 (pins.take 27) = readEvents s.params 0xD7 1 pins := by
      have : ((pins.take 27).drop 1).take 24 = (pins.drop 1).take 24 := by
        rw [List.drop_take, List.take_take]; rfl
      simp only [readEvents, spiInEvents]
      rw [show 24 * 1 = 24 from rfl, this]
    simp only [State.setPoll_params] at q1 w1 r1 k1
    simp only [htake] at r1 k1
    rw [htk] at q1
    obtain ⟨t, hx, q, w, o⟩ := ih t1 (pins.drop 27)
      ⟨by simp; omega, by
        intro j hj
        have := hlev (j + 1) (by omega)
        rw [hp1, levelAt_drop, show 27 + (27 * j + 1) = 27 * (j + 1) + 1 by omega, this]⟩
      q1.answers
    refine ⟨t, ?_, ?_, ?_, ?_⟩
    · rw [pollLoop_of hx1, r1]; simp [hx]
    · have := (q0.trans q1).trans q
      simpa [pollEvents, hp1] using this
    · rw [w, hp1, w1]; simp
    · rw [o, k1]; simp

theorem flashPoll_ready (k : Nat) (t : Word) (hk : k ≤ t.toNat) (s : State) (pins : List Byte)
    (rest : List TxAnswer) (hr : PollReady s.params k pins) (h : s.env.answers = yes pins ++ rest) :
    ∃ u, flashPoll t s = .ok () u ∧ Passed s u (pollEvents s.params k pins) rest ∧
      u.wireOut = some (idleByte s.params) ∧ u.pollOwed = false ∧
      u.poll.it = BitVec.ofNat 32 k ∧ statusReady u.poll.status = true := by
  have q0 := Passed.poll s { s.poll with it := 0 }
  obtain ⟨u, hx, q, w, o, it, st⟩ := pollLoop_ready k t.toNat hk (s.setPoll { s.poll with it := 0 })
    pins rest hr (q0.answers.trans h)
  exact ⟨u, hx, by simpa using q0.trans q, w, o, by simpa using it, st⟩

theorem flashPoll_busy (t : Word) (s : State) (pins : List Byte) (rest : List TxAnswer)
    (hr : PollBusy s.params t.toNat pins) (h : s.env.answers = yes pins ++ rest) :
    ∃ u, flashPoll t s = .err .timeout u ∧ Passed s u (pollEvents s.params t.toNat pins) rest ∧
      u.wireOut = (if t = 0 then s.wireOut else some (idleByte s.params)) ∧
      u.pollOwed = s.pollOwed := by
  have q0 := Passed.poll s { s.poll with it := 0 }
  obtain ⟨u, hx, q, w, o⟩ := pollLoop_busy t.toNat (s.setPoll { s.poll with it := 0 })
    pins rest hr (q0.answers.trans h)
  refine ⟨u, hx, by simpa using q0.trans q, ?_, o⟩
  rw [w]
  have : t.toNat = 0 ↔ t = 0 := by
    constructor
    · intro hz; exact BitVec.eq_of_toNat_eq (by simpa using hz)
    · rintro rfl; rfl
  simp only [this, State.setPoll_wireOut, State.setPoll_params]

theorem pollCount {P : Params} {k lead : Nat} {pins : List Byte}
    (h : PollReady P k (pins.drop lead)) :
    (pins.length - lead) / 27 = k := by
  have := h.2.1
  simp only [List.length_drop] at this
  omega

/-- EraseSector with Ok answers and a poll that reads ready (42_flash_engine.md R119). -/
theorem eraseSector_passed (cmd : List Byte) (hcmd : cmd.length = 4) (t : Word) (s : State)
    (pins : List Byte) (rest : List TxAnswer) (hr : ReadyAfter s.params 5 t pins)
    (h : s.env.answers = yes pins ++ rest) :
    ∃ u, eraseSector cmd t s = .ok () u ∧ Passed s u (eraseEvents s.params cmd pins) rest ∧
      u.wireOut = some (idleByte s.params) ∧ u.pollOwed = false := by
  obtain ⟨k, hk, hl, hr⟩ := hr
  obtain ⟨t1, hx1, q1, w1, o1, k1⟩ := startTransaction_passed cmd s (pins.take 5) _
    (by simp; omega) (answers_split 5 h)
  have hp1 : t1.params = s.params := q1.frame.params
  obtain ⟨u, hx, q, w, o, -⟩ := flashPoll_ready k t hk t1 (pins.drop 5) rest (hp1 ▸ hr) q1.answers
  refine ⟨u, by simp [eraseSector, hx1, Res.andThen, hx], ?_, by rw [w, hp1], o⟩
  have := q1.trans q
  simpa [eraseEvents, pollCount hr, hp1] using this

/-- WritePage with Ok answers and a poll that reads ready (42_flash_engine.md R114). -/
theorem writePage_passed (data : List Byte) (hd : data.length = 264) (page : Page) (s : State)
    (pins : List Byte) (rest : List TxAnswer)
    (hr : ReadyAfter s.params 274 s.params.writeTimeout pins)
    (h : s.env.answers = yes pins ++ rest) :
    ∃ u, writePage data page s = .ok () u ∧ Passed s u (pageEvents s.params data page pins) rest ∧
      u.wireOut = some (idleByte s.params) ∧ u.pollOwed = false := by
  obtain ⟨k, hk, hl, hr⟩ := hr
  obtain ⟨t1, hx1, q1, -⟩ := bufLoad_passed data s (pins.take 269) _
    (by simp; omega) (answers_split 269 h)
  have hp1 : t1.params = s.params := q1.frame.params
  obtain ⟨t2, hx2, q2, -⟩ := startTransaction_passed (commitBytes page) t1 ((pins.drop 269).take 5) _
    (by simp [commitBytes]; omega) (answers_split 5 q1.answers)
  have hp2 : t2.params = s.params := q2.frame.params.trans hp1
  have hdd : (pins.drop 269).drop 5 = pins.drop 274 := by rw [List.drop_drop]
  obtain ⟨u, hx, q, w, o, -⟩ := flashPoll_ready k t2.params.writeTimeout (by rw [hp2]; exact hk) t2
    (pins.drop 274) rest (hp2 ▸ hr) (by rw [q2.answers, hdd])
  refine ⟨u, ?_, ?_, by rw [w, hp2], o⟩
  · simp only [writePage, commitTransaction, hx1, Res.andThen, hx2, hx]
  · have := (q1.trans q2).trans q
    simpa [pageEvents, pollCount hr, hp1, hp2] using this

/-- EraseAll's loop with Ok answers, every poll ready (42_flash_engine.md R123). -/
theorem eraseLoop_passed (t : Word) (cmds : List (List Byte)) (hc : ∀ c ∈ cmds, c.length = 4)
    (s : State) (segs : List (List Byte)) (rest : List TxAnswer)
    (hlen : segs.length = cmds.length) (hr : ∀ p ∈ segs, ReadyAfter s.params 5 t p)
    (h : s.env.answers = yes segs.flatten ++ rest) :
    ∃ u, eraseLoop t cmds s = .ok () u ∧
      Passed s u (List.zipWith (eraseEvents s.params) cmds segs).flatten rest ∧
      u.wireOut = (if cmds = [] then s.wireOut else some (idleByte s.params)) ∧
      u.pollOwed = (if cmds = [] then s.pollOwed else false) := by
  induction cmds generalizing s segs with
  | nil =>
    obtain rfl : segs = [] := List.eq_nil_of_length_eq_zero hlen
    refine ⟨s, rfl, ?_, by simp, by simp⟩
    have := Passed.here s
    rw [h] at this
    simpa using this
  | cons cmd cmds ih =>
    obtain ⟨pins, segs, rfl⟩ : ∃ p ps, segs = p :: ps := by
      cases segs with
      | nil => simp at hlen
      | cons p ps => exact ⟨p, ps, rfl⟩
    obtain ⟨t1, hx1, q1, w1, o1⟩ := eraseSector_passed cmd (hc cmd (by simp)) t s pins
      (yes segs.flatten ++ rest) (hr pins (by simp)) (by simp [h])
    have hp1 : t1.params = s.params := q1.frame.params
    obtain ⟨u, hx, q, w, o⟩ := ih (fun c hcm => hc c (by simp [hcm])) t1 segs (by simpa using hlen)
      (fun p hp => hp1 ▸ hr p (by simp [hp])) q1.answers
    refine ⟨u, by simp [eraseLoop, hx1, Res.andThen, hx], ?_, ?_, ?_⟩
    · have := q1.trans q
      simpa [hp1] using this
    · rw [w, w1, hp1]; by_cases hn : cmds = [] <;> simp [hn]
    · rw [o, o1]; by_cases hn : cmds = [] <;> simp [hn]

theorem eraseList_four : ∀ c ∈ eraseList, c.length = 4 := by decide

theorem eraseAll_passed (t : Word) (s : State) (segs : List (List Byte)) (rest : List TxAnswer)
    (hlen : segs.length = 18) (hr : ∀ p ∈ segs, ReadyAfter s.params 5 t p)
    (h : s.env.answers = yes segs.flatten ++ rest) :
    ∃ u, eraseAll t s = .ok () u ∧
      Passed s u (List.zipWith (eraseEvents s.params) eraseList segs).flatten rest ∧
      u.wireOut = some (idleByte s.params) ∧ u.pollOwed = false := by
  obtain ⟨u, hx, q, w, o⟩ := eraseLoop_passed t eraseList eraseList_four s segs rest
    (by rw [hlen]; rfl) hr h
  have hn : eraseList ≠ [] := by decide
  exact ⟨u, hx, q, by simpa [hn] using w, by simpa [hn] using o⟩

end Sys2Proof.Machine
end

