-- ==== Sys2Proof/Laws/Exec.lean ====
section
/-! SUPPORT. Everything an instruction can do, said once over every relation closed under the
primitives: it ends with a result, or as a flash command, or stuck in a call that never returns, or
in the one fault (`exec_cases`); and the same of a step (`step_cases`). -/

namespace Sys2Proof.Machine

theorem Res.andThen_ok {ε α β : Type} {x : Res ε α} {k : α → State → Res ε β} {b : β} {t : State}
    (h : x.andThen k = .ok b t) : ∃ a u, x = .ok a u ∧ k a u = .ok b t := by
  cases x with
  | ok a u => exact ⟨a, u, rfl, h⟩
  | err e u => cases h
  | stuck u => cases h
  | fault f => cases h

theorem requireHandle_ok {α : Type} {body : State → Res Failure α} {s t : State} {a : α}
    (h : requireHandle body s = .ok a t) : s.handle = .opened ∧ body s = .ok a t := by
  unfold requireHandle at h
  cases hs : s.handle with
  | closed => simp [hs] at h
  | opened => simp [hs] at h; exact ⟨rfl, h⟩

theorem requireHandle_opened {α : Type} {body : State → Res Failure α} {s : State}
    (h : s.handle = .opened) : requireHandle body s = body s := by
  simp [requireHandle, h]

/-- A result is an OK result or that of an error (30_encoding.md R84). -/
def Result.Formed (r : Result) : Prop := (∃ v d, r = okResult v d) ∨ ∃ f : Failure, r = f.toResult

theorem Result.Formed.code {r : Result} (h : r.Formed) : r.code.toNat ≤ 6 := by
  rcases h with ⟨v, d, rfl⟩ | ⟨f, rfl⟩
  · simp [okResult, codeOk]
  · cases f <;> simp [Failure.toResult, Failure.code]

/-- The state an instruction starts from. -/
def State.started (s : State) (op : Op) : State :=
  if op.isRequest then s.begin op else s.beginCommand op

theorem State.started_request {s : State} {op : Op} (h : op.isRequest = true) :
    s.started op = s.begin op := by simp [State.started, h]

theorem State.started_command {s : State} {op : Op} (h : op.isRequest = false) :
    s.started op = s.beginCommand op := by simp [State.started, h]

/-- The ends of instruction `i` from `s`. -/
inductive ExecEnds (R : State → State → Prop) (i : Instr) (s : State) : Prop
  | result (hi : i.op.isRequest = true) (r : Result) (t : State) (hR : R (s.begin i.op) t)
      (hr : r.Formed) (h : exec i s = .next (t.finish r))
  | command (hi : i.op.isRequest = false) (o : Option Failure) (t : State)
      (hR : R (s.beginCommand i.op) t) (h : exec i s = .next (t.finishCommand o))
  | stuck (t : State) (hR : R (s.started i.op) t) (hr : s.env.returns = false)
      (h : exec i s = .next t)
  | fault (f : Fault) (hh : s.env.honest = false) (h : exec i s = .fault f)

theorem request_ends {R : State → State → Prop} {i : Instr} {s : State}
    {body : State → Res Failure Result} (hi : i.op.isRequest = true)
    (hx : exec i s = runRequest i.op body s) (h : (body (s.begin i.op)).Ends R (s.begin i.op))
    (hr : ∀ r t, body (s.begin i.op) = .ok r t → ∃ v d, r = okResult v d) : ExecEnds R i s := by
  rcases runRequest_cases h with ⟨r, t, hb, hR, he⟩ | ⟨f, t, -, hR, he⟩ | ⟨t, -, hR, hs, he⟩ |
    ⟨f, -, hh, he⟩
  · exact .result hi r t hR (.inl (hr r t hb)) (hx.trans he)
  · exact .result hi _ t hR (.inr ⟨f, rfl⟩) (hx.trans he)
  · exact .stuck t (State.started_request hi ▸ hR) hs (hx.trans he)
  · exact .fault f hh (hx.trans he)

theorem command_ends {R : State → State → Prop} {i : Instr} {s : State}
    {body : State → Res Failure Unit} (hi : i.op.isRequest = false)
    (hx : exec i s = runCommand i.op body s)
    (h : (body (s.beginCommand i.op)).Ends R (s.beginCommand i.op)) : ExecEnds R i s := by
  rcases runCommand_cases h with ⟨o, t, hR, he, -⟩ | ⟨t, hR, hs, he⟩ | ⟨f, hh, he⟩
  · exact .command hi o t hR (hx.trans he)
  · exact .stuck t (State.started_command hi ▸ hR) hs (hx.trans he)
  · exact .fault f hh (hx.trans he)

theorem handled_okResult {α : Type} {x : State → Res Failure α} {k : α → State → Res Failure Result}
    {f : α → Word × List Byte} (hk : ∀ a u, k a u = .ok (okResult (f a).1 (f a).2) u)
    {s t : State} {r : Result} (h : requireHandle (fun s => (x s).andThen k) s = .ok r t) :
    ∃ v d, r = okResult v d := by
  obtain ⟨a, u, -, h⟩ := Res.andThen_ok (requireHandle_ok h).2
  rw [hk] at h
  cases h
  exact ⟨_, _, rfl⟩

theorem programBody_ok {s t : State} {r : Result} (h : programBody s = .ok r t) :
    ∃ v d, r = okResult v d := by
  obtain ⟨-, u1, -, h⟩ := Res.andThen_ok h
  obtain ⟨-, u2, -, h⟩ := Res.andThen_ok h
  obtain ⟨-, u3, -, h⟩ := Res.andThen_ok h
  obtain ⟨-, u4, -, h⟩ := Res.andThen_ok h
  obtain ⟨-, u5, -, h⟩ := Res.andThen_ok h
  cases h
  exact ⟨_, _, rfl⟩

/-- Everything an instruction can do, for a relation closed under the primitives
(60_exceptions.md R145 to R149, R154). -/
theorem exec_cases {R : State → State → Prop} (h : FlowClosed R) (i : Instr) (s : State) :
    ExecEnds R i s := by
  have hc := h.chains
  cases i with
  | select d =>
    exact request_ends rfl rfl (requireHandle_ends hc fun _ =>
      (h.selectEnds d _).raise.andThen hc fun _ t _ => hc.refl t)
      fun _ _ => handled_okResult (f := fun _ => (0, [])) (by intros; rfl)
  | spiOut d data =>
    exact request_ends rfl rfl (requireHandle_ends hc fun _ =>
      (h.spiOutEnds data d _).raise.andThen hc fun _ t _ => hc.refl t)
      fun _ _ => handled_okResult (f := fun n => (BitVec.ofNat 32 n, [])) (by intros; rfl)
  | spiIn d n =>
    exact request_ends rfl rfl (requireHandle_ends hc fun _ =>
      (h.spiInEnds n.toNat d _).raise.andThen hc fun _ t _ => hc.refl t)
      fun _ _ => handled_okResult (f := fun b => (n.setWidth 32, b)) (by intros; rfl)
  | readId =>
    exact request_ends rfl rfl (requireHandle_ends hc fun _ =>
      (h.readIdEnds _).andThen hc fun _ t _ => hc.refl t)
      fun _ _ => handled_okResult (f := fun id => (id, [])) (by intros; rfl)
  | writePage page data =>
    exact request_ends rfl rfl (requireHandle_ends hc fun _ =>
      (h.writePageEnds data page _).andThen hc fun _ t _ => hc.refl t)
      fun _ _ => handled_okResult (f := fun _ => (0, [])) (by intros; rfl)
  | eraseSector c0 c1 c2 c3 t =>
    exact request_ends rfl rfl (requireHandle_ends hc fun _ =>
      (h.eraseSectorEnds _ t _).andThen hc fun _ t _ => hc.refl t)
      fun _ _ => handled_okResult (f := fun _ => (0, [])) (by intros; rfl)
  | eraseAll t =>
    exact request_ends rfl rfl (requireHandle_ends hc fun _ =>
      (h.eraseAllEnds t _).andThen hc fun _ t _ => hc.refl t)
      fun _ _ => handled_okResult (f := fun _ => (0, [])) (by intros; rfl)
  | flashPoll t =>
    exact request_ends rfl rfl (requireHandle_ends hc fun _ =>
      (h.flashPollEnds t _).andThen hc fun _ t _ => hc.refl t)
      fun _ _ => handled_okResult (f := fun _ => (0, [])) (by intros; rfl)
  | openAdapter =>
    exact request_ends (body := fun s => (openSub s).raise.andThen fun _ s => .ok (okResult 0 []) s)
      rfl rfl ((h.openSubEnds _).raise.andThen hc fun _ t _ => hc.refl t)
      fun _ _ hb => by
        obtain ⟨-, u, -, hb⟩ := Res.andThen_ok hb
        cases hb
        exact ⟨_, _, rfl⟩
  | program =>
    exact request_ends rfl rfl (h.programBodyEnds _) fun _ _ => programBody_ok
  | readIdCmd =>
    exact command_ends rfl rfl (requireHandle_ends hc fun _ =>
      (h.readTransactionEnds _ _ _).andThen hc fun _ t _ => hc.refl t)
  | bufLoadCmd data =>
    exact command_ends rfl rfl (requireHandle_ends hc fun _ => h.bufLoadEnds data _)
  | commitCmd page =>
    exact command_ends rfl rfl (requireHandle_ends hc fun _ => h.startEnds _ _)
  | sectorEraseCmd a2 a1 a0 =>
    exact command_ends rfl rfl (requireHandle_ends hc fun _ => h.startEnds _ _)
  | statusReadCmd =>
    exact command_ends rfl rfl (requireHandle_ends hc fun _ => h.statusEnds _)

/-! ### The step -/

/-- The ends of a step from `s` (10_state.md R21; 70_reset_and_hazards.md R164, R165). -/
inductive StepEnds (s : State) : Prop
  | idle (h : step s = .next s)
  | reset (rest : List HostInput) (hin : s.env.inputs = .reset :: rest)
      (h : step s = .next s.dropInput.applyReset)
  | illegal (r : Request) (rest : List HostInput) (hin : s.env.inputs = .request r :: rest)
      (hp : s.phase = .await) (h : step s = .next ((s.accept r).finish Failure.illegal.toResult))
  | request (r : Request) (rest : List HostInput) (i : Instr)
      (hin : s.env.inputs = .request r :: rest) (hp : s.phase = .await)
      (hd : decode (.request r) = .ok i) (h : step s = exec i (noteDuties i (s.accept r)))
  | command (bytes : List Byte) (i : Instr) (hc : s.cmdSlot = some bytes) (hp : s.phase = .await)
      (hd : decode (.command bytes) = .ok i) (h : step s = exec i (noteDuties i s.takeCommand))
  | refused (h : step s = .refused .noFlashCommand)

/-- Everything a step can do. -/
theorem step_cases (s : State) : StepEnds s := by
  cases hp : s.phase with
  | busy op n =>
    cases hin : s.env.inputs with
    | nil => exact .idle (by simp [step, fetch, hp, hin])
    | cons x rest =>
      cases x with
      | reset => exact .reset rest hin (by simp [step, fetch, hp, hin])
      | request r => exact .idle (by simp [step, fetch, hp, hin])
  | await =>
    cases hc : s.cmdSlot with
    | some bytes =>
      cases hd : decode (.command bytes) with
      | ok i => exact .command bytes i hc hp hd (by simp [step, fetch, hp, hc, hd])
      | error e => exact .refused (by simp [step, fetch, hp, hc, hd, rejected])
    | none =>
      cases hin : s.env.inputs with
      | nil => exact .idle (by simp [step, fetch, hp, hc, hin])
      | cons x rest =>
        cases x with
        | reset => exact .reset rest hin (by simp [step, fetch, hp, hc, hin])
        | request r =>
          cases hd : decode (.request r) with
          | ok i => exact .request r rest i hin hp hd (by simp [step, fetch, hp, hc, hin, hd])
          | error e =>
            exact .illegal r rest hin hp (by simp [step, fetch, hp, hc, hin, hd, rejected])

end Sys2Proof.Machine
end

