-- ==== Sys2Proof/Laws/Counts.lean ====
section
/-! SUPPORT. The write contract across every operation: a run on the listed answers against the run on
the same answers with their counts taken away (`State.uncounted`). The two agree until a wrong count
is answered to a write, and there the first is the fault TRANSPORT_CONTRACT (20_memory.md R42). `Sim`
is closed under sequencing; `counted_request` and `counted_command` carry it to an instruction. -/

namespace Sys2Proof.Machine

/-! ### Erasing counts -/

@[simp] theorem State.uncounted_params (s : State) : s.uncounted.params = s.params := rfl
@[simp] theorem State.uncounted_phase (s : State) : s.uncounted.phase = s.phase := rfl
@[simp] theorem State.uncounted_handle (s : State) : s.uncounted.handle = s.handle := rfl
@[simp] theorem State.uncounted_trace (s : State) : s.uncounted.trace = s.trace := rfl
@[simp] theorem State.uncounted_answers (s : State) :
    s.uncounted.env.answers = s.env.answers.map TxAnswer.uncounted := rfl

theorem TxAnswer.uncounted_honest (a : TxAnswer) : a.uncounted.honest = true := by
  cases a <;> rfl

theorem State.uncounted_honest (s : State) : s.uncounted.env.honest = true := by
  simp [Env.honest, TxAnswer.uncounted_honest]

theorem freeAnswer_uncounted (n : Nat) : (freeAnswer n).uncounted = freeAnswer n := by
  unfold freeAnswer; split <;> rfl

/-- The environment with the counts taken away. -/
def Env.uncounted (e : Env) : Env := { e with answers := e.answers.map TxAnswer.uncounted }

/-- A draw from the erased answers is the erased draw, and it takes one listed answer away. -/
theorem nextAnswer_uncounted (e : Env) :
    nextAnswer e.uncounted = ((nextAnswer e).1.uncounted, (nextAnswer e).2.uncounted) ∧
      (nextAnswer e).2.answers = e.answers.drop 1 ∧
      (∀ c p, (nextAnswer e).1 = .ok (some c) p → e.answers[0]? = some (.ok (some c) p)) ∧
      ∀ c p, e.answers[0]? = some (.ok (some c) p) → (nextAnswer e).1 = .ok (some c) p := by
  cases h : e.answers with
  | nil =>
    refine ⟨?_, ?_, ?_, ?_⟩
    · simp [nextAnswer, Env.uncounted, h, freeAnswer_uncounted]
    · simp [nextAnswer, h]
    · intro c p hx
      have := freeAnswer_honest e.drawn
      simp only [nextAnswer, h] at hx
      rw [hx] at this
      cases this
    · simp
  | cons a rest => simp [nextAnswer, Env.uncounted, h]

/-! ### Wrong counts -/

/-- A wrong count among the answers to a list of transport calls. -/
def Wrong (answers : List TxAnswer) (calls : List Event) : Prop :=
  ∃ (n c : Nat) (p : Byte) (bs : List Byte) (o : Reply Unit), calls[n]? = some (.write bs o) ∧
    answers[n]? = some (TxAnswer.ok (some c) p) ∧ c ≠ bs.length

theorem Wrong.nil (answers : List TxAnswer) : ¬ Wrong answers [] := by
  rintro ⟨n, c, p, bs, o, h, -⟩
  simp at h

theorem wrong_append (answers : List TxAnswer) (xs ys : List Event) :
    Wrong answers (xs ++ ys) ↔ Wrong answers xs ∨ Wrong (answers.drop xs.length) ys := by
  constructor
  · rintro ⟨n, c, p, bs, o, hc, ha, hne⟩
    by_cases hn : n < xs.length
    · exact .inl ⟨n, c, p, bs, o, by rwa [List.getElem?_append_left hn] at hc, ha, hne⟩
    · rw [List.getElem?_append_right (by omega)] at hc
      exact .inr ⟨n - xs.length, c, p, bs, o, hc, by
        rw [List.getElem?_drop, show xs.length + (n - xs.length) = n by omega, ha], hne⟩
  · rintro (⟨n, c, p, bs, o, hc, ha, hne⟩ | ⟨n, c, p, bs, o, hc, ha, hne⟩)
    · obtain ⟨hn, -⟩ := List.getElem?_eq_some_iff.1 hc
      exact ⟨n, c, p, bs, o, by rw [List.getElem?_append_left hn, hc], ha, hne⟩
    · rw [List.getElem?_drop] at ha
      exact ⟨xs.length + n, c, p, bs, o, by
        rw [List.getElem?_append_right (by omega), Nat.add_sub_cancel_left, hc], ha, hne⟩

/-- The transport calls of a list of events, in order. -/
def txOf (calls : List Event) : List Event := calls.filter Event.isTxCall

@[simp] theorem txOf_append (xs ys : List Event) : txOf (xs ++ ys) = txOf xs ++ txOf ys := by
  simp [txOf]

/-- Whether a wrong count is answered between `s` and `t` does not depend on how the trace is cut. -/
theorem miscounted_iff {s t : State} {calls : List Event} (h : t.trace = s.trace ++ calls) :
    s.Miscounted t ↔ Wrong s.env.answers (txOf calls) := by
  constructor
  · rintro ⟨calls', n, c, p, bs, o, ht, hc, ha, hne⟩
    obtain rfl : calls' = calls := List.append_cancel_left (ht.symm.trans h)
    exact ⟨n, c, p, bs, o, hc, ha, hne⟩
  · rintro ⟨n, c, p, bs, o, hc, ha, hne⟩
    exact ⟨calls, n, c, p, bs, o, h, hc, ha, hne⟩

/-! ### Two runs -/

/-- The state an operation leaves, but for a fault. -/
def Res.left {ε α : Type} : Res ε α → Option State
  | .ok _ t => some t
  | .err _ t => some t
  | .stuck t => some t
  | .fault _ => none

/-- A run from `s` against the run from `s.uncounted`. -/
inductive Counts {ε α : Type} (s : State) : Res ε α → Res ε α → Prop
  | ok {a : α} {t : State} (calls : List Event) (h : t.trace = s.trace ++ calls)
      (hw : ¬ Wrong s.env.answers (txOf calls))
      (ha : t.env.answers = s.env.answers.drop (txOf calls).length) :
      Counts s (.ok a t) (.ok a t.uncounted)
  | err {e : ε} {t : State} (calls : List Event) (h : t.trace = s.trace ++ calls)
      (hw : ¬ Wrong s.env.answers (txOf calls))
      (ha : t.env.answers = s.env.answers.drop (txOf calls).length) :
      Counts s (.err e t) (.err e t.uncounted)
  | stuck {t : State} (calls : List Event) (h : t.trace = s.trace ++ calls)
      (hw : ¬ Wrong s.env.answers (txOf calls)) : Counts s (.stuck t) (.stuck t.uncounted)
  | fault {r : Res ε α} {t : State} (hr : r.left = some t) (calls : List Event)
      (h : t.trace = s.trace ++ calls) (hw : Wrong s.env.answers (txOf calls))
      (hh : t.env.honest = true) : Counts s (.fault .transportContract) r

/-- An operation that erased counts change only where one of them is wrong. -/
structure Sim {ε α : Type} (f : State → Res ε α) : Prop where
  counts : ∀ s, Counts s (f s) (f s.uncounted)
  flows : ∀ s, (f s).Ends FlowFrame s

/-- What is done next, after success and after an error. -/
def Res.follow {ε α δ β : Type} (r : Res ε α) (k : α → State → Res δ β) (l : ε → State → Res δ β) :
    Res δ β :=
  match r with
  | .ok a s => k a s
  | .err e s => l e s
  | .stuck s => .stuck s
  | .fault f => .fault f

variable {ε α δ β : Type}

theorem Counts.after {s t : State} {r r' : Res ε α} (calls : List Event)
    (h : t.trace = s.trace ++ calls) (hw : ¬ Wrong s.env.answers (txOf calls))
    (ha : t.env.answers = s.env.answers.drop (txOf calls).length) (hc : Counts t r r') :
    Counts s r r' := by
  have key : ∀ more, Wrong s.env.answers (txOf (calls ++ more)) ↔
      Wrong t.env.answers (txOf more) := by
    intro more
    rw [txOf_append, wrong_append, ha]
    exact or_iff_right hw
  have drop : ∀ more, t.env.answers.drop (txOf more).length =
      s.env.answers.drop (txOf (calls ++ more)).length := by
    intro more
    rw [ha, List.drop_drop, txOf_append, List.length_append]
  cases hc with
  | ok more h' hw' ha' =>
    exact .ok (calls ++ more) (by rw [h', h, List.append_assoc]) (by rwa [key]) (ha'.trans (drop _))
  | err more h' hw' ha' =>
    exact .err (calls ++ more) (by rw [h', h, List.append_assoc]) (by rwa [key]) (ha'.trans (drop _))
  | stuck more h' hw' =>
    exact .stuck (calls ++ more) (by rw [h', h, List.append_assoc]) (by rwa [key])
  | fault hr more h' hw' hh =>
    exact .fault hr (calls ++ more) (by rw [h', h, List.append_assoc]) (by rwa [key]) hh

/-- After a wrong count the erased run goes on; the wrong count stays in its trace. -/
theorem Counts.faultOn {s t : State} (calls : List Event) (h : t.trace = s.trace ++ calls)
    (hw : Wrong s.env.answers (txOf calls)) (hh : t.env.honest = true) {r : Res δ β}
    (hr : r.Ends FlowFrame t) : Counts s (.fault .transportContract) r := by
  have key : ∀ u, FlowFrame t u →
      ∃ more, u.trace = s.trace ++ more ∧ Wrong s.env.answers (txOf more) := by
    intro u hu
    obtain ⟨new, hl, -⟩ := hu.log
    refine ⟨calls ++ new.reverse, ?_, ?_⟩
    · rw [State.trace_of_log new.reverse (by simpa using hl), h, List.append_assoc]
    · rw [txOf_append, wrong_append]
      exact .inl hw
  cases r with
  | ok a u =>
    obtain ⟨more, h1, h2⟩ := key u hr
    exact .fault rfl more h1 h2 (hr.honest hh)
  | err e u =>
    obtain ⟨more, h1, h2⟩ := key u hr
    exact .fault rfl more h1 h2 (hr.honest hh)
  | stuck u =>
    obtain ⟨more, h1, h2⟩ := key u hr.1
    exact .fault rfl more h1 h2 (hr.1.honest hh)
  | fault f => exact absurd hh (by rw [hr]; decide)

namespace Sim

theorem follow {f : State → Res ε α} {k : α → State → Res δ β} {l : ε → State → Res δ β}
    (hf : Sim f) (hk : ∀ a, Sim (k a)) (hl : ∀ e, Sim (l e)) :
    Sim fun s => (f s).follow k l where
  counts s := by
    have hc := hf.counts s
    generalize f s = r at hc
    generalize f s.uncounted = r' at hc
    cases hc with
    | ok calls h hw ha => exact .after calls h hw ha ((hk _).counts _)
    | err calls h hw ha => exact .after calls h hw ha ((hl _).counts _)
    | stuck calls h hw => exact .stuck calls h hw
    | fault hr calls h hw hh =>
      cases r' with
      | ok a u => cases hr; exact .faultOn calls h hw hh ((hk a).flows _)
      | err e u => cases hr; exact .faultOn calls h hw hh ((hl e).flows _)
      | stuck u => exact .fault hr calls h hw hh
      | fault f => cases hr
  flows s := by
    have hc := hf.flows s
    cases hr : f s with
    | ok a t => rw [hr] at hc; exact ((hk a).flows t).from flowFrame_chains hc
    | err e t => rw [hr] at hc; exact ((hl e).flows t).from flowFrame_chains hc
    | stuck t => rw [hr] at hc; exact hc
    | fault g => rw [hr] at hc; exact hc

theorem ret (v : State → α) (hv : ∀ s, v s.uncounted = v s) :
    Sim fun s => (Res.ok (v s) s : Res ε α) where
  counts s := by
    rw [hv]
    exact .ok [] (by simp) (Wrong.nil _) rfl
  flows s := FlowFrame.refl s

theorem raised (e : ε) : Sim fun s => (Res.err e s : Res ε α) where
  counts s := .err [] (by simp) (Wrong.nil _) rfl
  flows s := FlowFrame.refl s

/-- A register is written first. -/
theorem pre {f : State → Res ε α} (hf : Sim f) (g : State → State)
    (hg : ∀ s, g s.uncounted = (g s).uncounted) (ht : ∀ s, (g s).trace = s.trace)
    (ha : ∀ s, (g s).env.answers = s.env.answers) (hs : ∀ s, FlowFrame s (g s)) :
    Sim fun s => f (g s) where
  counts s := by
    rw [hg]
    exact .after [] (by simp [ht]) (Wrong.nil _) (ha s) (hf.counts (g s))
  flows s := (hf.flows (g s)).from flowFrame_chains (hs s)

theorem andThen {f : State → Res ε α} {k : α → State → Res ε β} (hf : Sim f)
    (hk : ∀ a, Sim (k a)) : Sim fun s => (f s).andThen k := by
  have h := hf.follow hk fun e => raised e
  have : (fun s => (f s).andThen k) = fun s => (f s).follow k fun e s => .err e s := by
    funext s; cases f s <;> rfl
  rw [this]
  exact h

theorem setSpi {f : State → Res ε α} (hf : Sim f) (g : State → SpiRegs)
    (hg : ∀ s, g s.uncounted = g s) (hw : ∀ s, (g s).w = s.spi.w ∨ (g s).w.length = 17) :
    Sim fun s => f (s.setSpi (g s)) :=
  hf.pre _ (fun s => by rw [hg]; rfl) (fun _ => rfl) (fun _ => rfl)
    fun s => flowFrame_closed.spi s _ (hw s)

theorem setPoll {f : State → Res ε α} (hf : Sim f) (g : State → PollRegs)
    (hg : ∀ s, g s.uncounted = g s) : Sim fun s => f (s.setPoll (g s)) :=
  hf.pre _ (fun s => by rw [hg]; rfl) (fun _ => rfl) (fun _ => rfl)
    fun s => flowFrame_closed.poll s _

theorem setPollOwed {f : State → Res ε α} (hf : Sim f) (b : Bool) :
    Sim fun s => f (s.setPollOwed b) :=
  hf.pre _ (fun _ => rfl) (fun _ => rfl) (fun _ => rfl) fun s => flowFrame_closed.owed s _

theorem setLastPage {f : State → Res ε α} (hf : Sim f) (p : Option Page) :
    Sim fun s => f (s.setLastPage p) :=
  hf.pre _ (fun _ => rfl) (fun _ => rfl) (fun _ => rfl) fun s => flowFrame_closed.lastPage s _

theorem setHandle {f : State → Res ε α} (hf : Sim f) :
    Sim fun s => f (s.setHandle .opened) :=
  hf.pre _ (fun _ => rfl) (fun _ => rfl) (fun _ => rfl) FlowFrame.opened

theorem ite {f g : State → Res ε α} (c : State → Prop) [DecidablePred c]
    (hc : ∀ s, c s.uncounted ↔ c s) (hf : Sim f) (hg : Sim g) :
    Sim fun s => if c s then f s else g s where
  counts s := by
    by_cases h : c s
    · simp only [h, (hc s).2 h, if_true]; exact hf.counts s
    · simp only [h, mt (hc s).1 h, if_false]; exact hg.counts s
  flows s := by
    by_cases h : c s
    · simp only [h, if_true]; exact hf.flows s
    · simp only [h, if_false]; exact hg.flows s

end Sim

/-- The workflow's registers do not enter a frame. -/
theorem FlowFrame.flow (s : State) (r : FlowRegs) : FlowFrame s (s.setFlow r) := by
  constructor <;> simp

theorem Sim.setFlow {f : State → Res ε α} (hf : Sim f) (g : State → FlowRegs)
    (hg : ∀ s, g s.uncounted = g s) : Sim fun s => f (s.setFlow (g s)) :=
  hf.pre _ (fun s => by rw [hg]; rfl) (fun _ => rfl) (fun _ => rfl) fun s => FlowFrame.flow s _

/-! ### The primitives -/

/-- One transport call, in both runs. -/
theorem one_call {s t : State} {ev : Event} (htx : ev.isTxCall = true)
    (ha : t.env.answers = s.env.answers.drop 1) :
    t.env.answers = s.env.answers.drop (txOf [ev]).length ∧
      (Wrong s.env.answers (txOf [ev]) ↔ ∃ (c : Nat) (p : Byte) (bs : List Byte) (o : Reply Unit),
        ev = .write bs o ∧ s.env.answers[0]? = some (TxAnswer.ok (some c) p) ∧ c ≠ bs.length) := by
  have h1 : txOf [ev] = [ev] := by simp [txOf, htx]
  rw [h1]
  refine ⟨ha, ?_⟩
  constructor
  · rintro ⟨n, c, p, bs, o, hc, hx, hne⟩
    cases n with
    | zero => exact ⟨c, p, bs, o, by simpa using hc, hx, hne⟩
    | succ n => simp at hc
  · rintro ⟨c, p, bs, o, hev, hx, hne⟩
    exact ⟨0, c, p, bs, o, by simp [hev], hx, hne⟩

theorem txWrite_counts (bs : List Byte) (s : State) :
    Counts s (txWrite bs s) (txWrite bs s.uncounted) := by
  obtain ⟨hu, ha, hc, hc'⟩ := nextAnswer_uncounted s.env
  have hu' : nextAnswer s.uncounted.env = _ := hu
  unfold txWrite
  rw [hu']
  generalize hx : nextAnswer s.env = x at *
  obtain ⟨a, e⟩ := x
  dsimp only at ha hc hc'
  cases a with
  | ok count pins =>
    dsimp only [TxAnswer.uncounted]
    rw [if_pos (show (none : Option Nat).getD bs.length = bs.length from rfl)]
    have hone := one_call (s := s)
      (t := ((s.setEnv e).called (.write bs (.ok ()))).setWireOut bs.getLast?)
      (ev := .write bs (.ok ())) rfl ha
    by_cases hcount : count.getD bs.length = bs.length
    · simp only [hcount, if_true]
      refine .ok [.write bs (.ok ())] (by simp [State.trace]) ?_ hone.1
      rw [hone.2]
      rintro ⟨c, p, bs', o, hev, hx', hne⟩
      cases hev
      have := hc' c p hx'
      cases this
      exact hne (by simpa using hcount)
    · simp only [hcount, if_false]
      cases count with
      | none => simp at hcount
      | some c =>
        refine .fault (t := (((s.setEnv e).called (.write bs (.ok ()))).setWireOut bs.getLast?).uncounted)
          rfl [.write bs (.ok ())] (by simp [State.trace, State.uncounted]) ?_ ?_
        · rw [hone.2]
          exact ⟨c, pins, bs, .ok (), rfl, hc c pins rfl, by simpa using hcount⟩
        · exact State.uncounted_honest _
  | err p =>
    have hone := one_call (s := s)
      (t := ((s.setEnv e).called (.write bs (.err p))).setWireOut none)
      (ev := .write bs (.err p)) rfl ha
    refine .err [.write bs (.err p)] (by simp [State.trace]) ?_ hone.1
    rw [hone.2]
    rintro ⟨c, q, bs', o, hev, hx', hne⟩
    have := hc' c q hx'
    cases this
  | never => exact .stuck [] (by simp [State.trace]) (Wrong.nil _)

/-- A call that is no write keeps both runs together, whatever its count is. -/
theorem no_wrong {s : State} {ev : Event} (hev : ∀ bs o, ev ≠ .write bs o)
    (htx : ev.isTxCall = true) : ¬ Wrong s.env.answers (txOf [ev]) := by
  rintro ⟨n, c, p, bs, o, hc, hx, hne⟩
  have h1 : txOf [ev] = [ev] := by simp [txOf, htx]
  rw [h1] at hc
  cases n with
  | zero => exact hev bs o (by simpa using hc)
  | succ n => simp at hc

theorem sim_readPins : Sim txReadPins where
  counts s := by
    obtain ⟨hu, ha, -, -⟩ := nextAnswer_uncounted s.env
    have hu' : nextAnswer s.uncounted.env = _ := hu
    unfold txReadPins
    rw [hu']
    generalize nextAnswer s.env = x at *
    obtain ⟨a, e⟩ := x
    cases a with
    | ok count pins =>
      exact .ok [.readPins (.ok pins)] (by simp [State.trace]) (no_wrong (by simp) rfl) ha
    | err p => exact .err [.readPins (.err p)] (by simp [State.trace]) (no_wrong (by simp) rfl) ha
    | never => exact .stuck [] (by simp [State.trace]) (Wrong.nil _)
  flows s := flowFrame_closed.read s

theorem sim_setDir (d : State → Byte) (hd : ∀ s, d s.uncounted = d s)
    (hf : ∀ s, d s = idleDirection s.params ∨ d s = programDirection s.params) :
    Sim fun s => txSetDir (d s) s where
  counts s := by
    obtain ⟨hu, ha, -, -⟩ := nextAnswer_uncounted s.env
    have hu' : nextAnswer s.uncounted.env = _ := hu
    unfold txSetDir
    rw [hu', hd]
    generalize nextAnswer s.env = x at *
    obtain ⟨a, e⟩ := x
    cases a with
    | ok count pins =>
      exact .ok [.setDir (d s) s.params.bitbangMode (.ok ())] (by simp [State.trace])
        (no_wrong (by simp) rfl) ha
    | err p =>
      exact .err [.setDir (d s) s.params.bitbangMode (.err p)] (by simp [State.trace])
        (no_wrong (by simp) rfl) ha
    | never => exact .stuck [] (by simp [State.trace]) (Wrong.nil _)
  flows s := flowFrame_closed.setDir s _ (hf s)

theorem sim_streamRead : Sim (streamRead Config.pageSize) where
  counts s := by
    have hs : nextStreamAnswer s.uncounted.env =
        ((nextStreamAnswer s.env).1, (nextStreamAnswer s.env).2.uncounted) := by
      unfold nextStreamAnswer
      cases h : s.env.streamAnswers <;> simp [State.uncounted, Env.uncounted, h]
    have hd := nextStreamAnswer_drawn s.env
    unfold streamRead
    rw [hs]
    generalize nextStreamAnswer s.env = x at *
    obtain ⟨a, e⟩ := x
    have ha : e.answers = s.env.answers := hd.answers
    have hno : ∀ o, ¬ Wrong s.env.answers (txOf [.streamRead Config.pageSize o]) :=
      fun o => Wrong.nil _
    cases a with
    | ok => exact .ok [.streamRead Config.pageSize _] (by simp [State.trace]; rfl) (hno _) ha
    | err p lost => exact .err [.streamRead Config.pageSize _] (by simp [State.trace]; rfl) (hno _) ha
    | never lost => exact .stuck [] (by simp [State.trace]) (Wrong.nil _)
  flows s := flowFrame_closed.stream s

/-- TxOpen and the first half of Open(). -/
theorem sim_openHandle : Sim openHandle where
  counts s := by
    obtain ⟨hu, ha, -, -⟩ := nextAnswer_uncounted s.env
    have hu' : nextAnswer s.uncounted.env = _ := hu
    unfold openHandle
    rw [State.uncounted_handle]
    by_cases hh : s.handle = .closed
    · simp only [hh, if_true]
      unfold txOpen
      rw [hu']
      generalize nextAnswer s.env = x at *
      obtain ⟨a, e⟩ := x
      cases a with
      | ok count pins =>
        exact .ok [.openCall s.params.vid s.params.pid (.ok ())] (by simp [State.trace])
          (no_wrong (by simp) rfl) ha
      | err p =>
        exact .err [.openCall s.params.vid s.params.pid (.err p)] (by simp [State.trace])
          (no_wrong (by simp) rfl) ha
      | never => exact .stuck [] (by simp [State.trace]) (Wrong.nil _)
    · simp only [hh, if_false]
      exact .ok [] (by simp) (Wrong.nil _) rfl
  flows s := flowFrame_closed.openIt s

/-! ### The sub-operations -/

theorem sim_select (d : Device) : Sim (select d) :=
  ⟨fun s => txWrite_counts _ s, flowFrame_closed.selectEnds d⟩

theorem sim_idle : Sim fun s => txWrite [idleByte s.params] s := sim_select .idle

theorem Sim.raise {f : State → Res Payload α} (hf : Sim f) : Sim fun s => (f s).raise := by
  have : (fun s => (f s).raise) =
      fun s => (f s).follow (fun a s => .ok a s) fun e s => .err (.transport e) s := by
    funext s; cases f s <;> rfl
  rw [this]
  exact hf.follow (fun a => .ret _ fun _ => rfl) fun e => .raised _

theorem Sim.raiseStream {f : State → Res Payload α} (hf : Sim f) :
    Sim fun s => (f s).raiseStream := by
  have : (fun s => (f s).raiseStream) =
      fun s => (f s).follow (fun a s => .ok a s) fun e s => .err (.stream e) s := by
    funext s; cases f s <;> rfl
  rw [this]
  exact hf.follow (fun a => .ret _ fun _ => rfl) fun e => .raised _

theorem Sim.recover {f : State → Res Payload α} (hf : Sim f) : Sim fun s => (f s).recover := by
  have : (fun s => (f s).recover) =
      fun s => (f s).follow (fun a s => .ok a s) fun e s =>
        (txWrite [idleByte s.params] s).follow (fun _ t => .err (.transport e) t)
          fun _ t => .err (.transport e) t := by
    funext s
    cases f s with
    | err e t => simp only [Res.recover, Res.follow]; cases txWrite [idleByte t.params] t <;> rfl
    | _ => rfl
  rw [this]
  exact hf.follow (fun a => .ret _ fun _ => rfl) fun e =>
    sim_idle.follow (fun _ => .raised _) fun _ => .raised _

theorem sim_spiOutLoop (d : Device) (data : List Byte) : Sim (spiOutLoop d data) := by
  induction data with
  | nil => exact .ret _ fun _ => rfl
  | cons b bs ih =>
    have hw : Sim fun s : State => txWrite (spiWord s.params d b)
        (s.setSpi { s.spi with w := spiWord s.params d b }) :=
      ⟨fun s => by
        refine .after [] (t := s.setSpi { s.spi with w := spiWord s.params d b }) (by simp [State.trace])
          (Wrong.nil _) rfl ?_
        exact txWrite_counts _ _,
      fun s => by
        refine Res.Ends.from flowFrame_chains (flowFrame_closed.spi s
          { s.spi with w := spiWord s.params d b } (.inr (spiWord_length ..))) ?_
        exact flowFrame_closed.write _ _ d (spiWord_ne_nil s.params d b) (spiWord_form s.params d b)
          (spiWord_getLast s.params d b)⟩
    exact hw.andThen fun _ => ih

theorem sim_spiOut (data : List Byte) (d : Device) : Sim (spiOut data d) :=
  (sim_spiOutLoop d data).andThen fun _ => .ret _ fun _ => rfl

/-- A clock pulse. -/
theorem sim_pulse (d : Device) : Sim fun s : State =>
    (txWrite [selpat s.params d ||| pinBit s.params .clk] s).andThen fun _ s =>
      txWrite [selpat s.params d] s := by
  have h : Sim fun s : State => txWrite [selpat s.params d ||| pinBit s.params .clk] s :=
    ⟨fun s => txWrite_counts _ s, fun s => (txWrite_busFrame (by simp)
      (by simpa using selpat_clk_form s.params d)).mono fun _ => BusFrame.toFlow⟩
  exact h.andThen fun _ => sim_select d

theorem sim_sampleBit (d : Device) (i : Nat) : Sim (sampleBit d i) := by
  refine sim_readPins.andThen fun pins => ?_
  exact (sim_pulse d).pre (fun s => if dataInLevel s.params pins
      then s.setSpi { s.spi with acc := s.spi.acc ||| ((1#8) <<< i) } else s)
    (fun s => by
      by_cases h : dataInLevel s.params pins = true <;> simp [h] <;> rfl)
    (fun s => by dsimp only; split <;> rfl) (fun s => by dsimp only; split <;> rfl)
    fun s => by
      dsimp only
      split
      · exact flowFrame_closed.spi s _ (.inl rfl)
      · exact FlowFrame.refl s

theorem sim_bitLoop (d : Device) (n : Nat) : Sim (bitLoop d n) := by
  induction n with
  | zero => exact .ret _ fun _ => rfl
  | succ n ih => exact (sim_sampleBit d n).andThen fun _ => ih

theorem sim_byteLoop (d : Device) (n j : Nat) : Sim (byteLoop d n j) := by
  induction n generalizing j with
  | zero => exact .ret _ fun _ => rfl
  | succ n ih =>
    exact ((sim_bitLoop d 8).setSpi (fun s => { s.spi with acc := 0x00 }) (fun _ => rfl)
      (by simp)).andThen fun _ => (ih (j + 1)).setSpi (fun s => { s.spi with
        rxbuf := memWrite s.spi.rxbuf j [s.spi.acc] }) (fun _ => rfl) (by simp)

theorem Sim.close {f : State → Res Payload Unit} (hf : Sim f) : Sim fun s => closeSpiIn (f s) := by
  have : (fun s => closeSpiIn (f s)) =
      fun s => (f s).follow
        (fun _ s => (txWrite [idleByte s.params] s).follow (fun _ t => .ok t.spi.rxbuf t)
          fun e t => .err e (t.setSpi { t.spi with err := some e }))
        fun e s => (fun s => (txWrite [idleByte s.params] s).follow (fun _ t => .err e t)
          fun _ t => .err e t) (s.setSpi { s.spi with err := some e }) := by
    funext s
    cases f s with
    | ok a t => simp only [closeSpiIn, Res.follow]; cases txWrite [idleByte t.params] t <;> rfl
    | err e t =>
      simp only [closeSpiIn, Res.follow, State.setSpi_params]
      cases txWrite [idleByte t.params] (t.setSpi { t.spi with err := some e }) <;> rfl
    | _ => rfl
  rw [this]
  refine hf.follow (fun _ => sim_idle.follow (fun _ => .ret _ fun _ => rfl) fun e => ?_)
    fun e => (sim_idle.follow (fun _ => .raised e) fun _ => .raised e).setSpi
      (fun s => { s.spi with err := some e }) (fun _ => rfl) (by simp)
  exact (Sim.raised e).setSpi (fun s => { s.spi with err := some e }) (fun _ => rfl) (by simp)

theorem sim_spiIn (n : Nat) (d : Device) : Sim (spiIn n d) :=
  ((sim_byteLoop d n 0).setSpi (fun s => { s.spi with err := none, rxbuf := [] }) (fun _ => rfl)
    (by simp)).close

theorem sim_sendFlash (bytes : List Byte) : Sim (sendFlash bytes) := (sim_spiOut bytes .flash).recover

theorem sim_deselect : Sim deselect := (sim_select .idle).raise

theorem sim_readTransaction (opcode : List Byte) (n : Nat) : Sim (readTransaction opcode n) :=
  (sim_sendFlash opcode).andThen fun _ => (sim_spiIn n .flash).recover.andThen fun _ =>
    sim_deselect.andThen fun _ => .ret _ fun _ => rfl

theorem sim_bufLoad (data : List Byte) : Sim (bufLoadTransaction data) :=
  (sim_sendFlash _).andThen fun _ => (sim_sendFlash data).andThen fun _ => sim_deselect

theorem sim_start (bytes : List Byte) : Sim (startTransaction bytes) :=
  (sim_sendFlash bytes).andThen fun _ => sim_deselect.setPollOwed true

theorem sim_status : Sim statusTransaction :=
  (sim_sendFlash _).andThen fun _ => (sim_spiIn 1 .flash).recover.andThen fun bytes =>
    (sim_deselect.setPoll (fun s => { s.poll with status := bytes.getD 0 0 })
      fun _ => rfl).andThen fun _ =>
      ((Sim.ret (fun _ => ()) fun _ => rfl).pre (fun s =>
          if statusReady s.poll.status then s.setPollOwed false else s)
        (fun s => by by_cases h : statusReady s.poll.status = true <;> simp [State.uncounted, h] <;> rfl)
        (fun s => by split <;> rfl) (fun s => by split <;> rfl)
        fun s => by
          split
          · exact flowFrame_closed.owed s false
          · exact FlowFrame.refl s)

theorem sim_readId : Sim readId :=
  (sim_readTransaction _ _).andThen fun _ => .ret _ fun _ => rfl

theorem sim_pollLoop (n : Nat) : Sim (pollLoop n) := by
  induction n with
  | zero => exact .raised _
  | succ n ih =>
    exact (sim_status.setPoll (fun s => { s.poll with it := s.poll.it + 1 })
      fun _ => rfl).andThen fun _ =>
        .ite (fun s => statusReady s.poll.status = true) (fun _ => Iff.rfl) (.ret _ fun _ => rfl) ih

theorem sim_flashPoll (t : Word) : Sim (flashPoll t) :=
  (sim_pollLoop t.toNat).setPoll (fun s => { s.poll with it := 0 }) fun _ => rfl

/-- The budget is read from the parameters. -/
theorem sim_flashPollOf (t : Params → Word) : Sim fun s => flashPoll (t s.params) s :=
  ⟨fun s => (sim_flashPoll (t s.params)).counts s, fun s => (sim_flashPoll _).flows s⟩

theorem sim_writePage (data : List Byte) (page : Page) : Sim (writePage data page) :=
  (sim_bufLoad data).andThen fun _ => (sim_start _).andThen fun _ =>
    sim_flashPollOf Params.writeTimeout

theorem sim_eraseSector (cmd : List Byte) (t : Word) : Sim (eraseSector cmd t) :=
  (sim_start cmd).andThen fun _ => sim_flashPoll t

theorem sim_eraseAll (t : Word) : Sim (eraseAll t) := by
  show Sim (eraseLoop t eraseList)
  generalize eraseList = cmds
  induction cmds with
  | nil => exact .ret _ fun _ => rfl
  | cons cmd rest ih => exact (sim_eraseSector cmd t).andThen fun _ => ih

theorem sim_openSub : Sim openSub :=
  sim_openHandle.andThen fun _ =>
    sim_setDir (fun s => idleDirection s.params) (fun _ => rfl) fun _ => .inl rfl

theorem sim_programPage (data : List Byte) (page : Page) : Sim (programPage data page) :=
  (sim_writePage data page).andThen fun _ => (Sim.ret (fun _ => ()) fun _ => rfl).setLastPage _

/-- The page and its index are read from the workflow's registers. -/
theorem sim_programPageOf (data : State → List Byte) (page : State → Page)
    (hd : ∀ s, data s.uncounted = data s) (hp : ∀ s, page s.uncounted = page s) :
    Sim fun s => programPage (data s) (page s) s :=
  ⟨fun s => by rw [hd, hp]; exact (sim_programPage _ _).counts s,
    fun s => (sim_programPage _ _).flows s⟩

theorem sim_pageLoop (n : Nat) : Sim (pageLoop n) := by
  induction n with
  | zero => exact .ret _ fun _ => rfl
  | succ n ih =>
    refine Sim.setFlow (f := fun s => (streamRead Config.pageSize s).raiseStream.andThen
      fun bytes s =>
        let s := s.setFlow
          { s.flow with
            k := BitVec.ofNat 9 bytes.length, pagebuf := memWrite s.flow.pagebuf 0 bytes }
        if shortRead bytes.length then
          .ok () (s.setFlow { s.flow with pStop := some s.flow.p })
        else (programPage s.flow.pagebuf s.flow.p s).andThen fun _ s => pageLoop n s) ?_
      (fun s => { s.flow with p := BitVec.ofNat 13 (Config.capacityPages - (n + 1)) }) fun _ => rfl
    refine sim_streamRead.raiseStream.andThen fun bytes => ?_
    refine Sim.setFlow (f := fun s => if shortRead bytes.length then
          .ok () (s.setFlow { s.flow with pStop := some s.flow.p })
        else (programPage s.flow.pagebuf s.flow.p s).andThen fun _ s => pageLoop n s) ?_
      (fun s => { s.flow with
        k := BitVec.ofNat 9 bytes.length, pagebuf := memWrite s.flow.pagebuf 0 bytes }) fun _ => rfl
    refine .ite (fun _ => shortRead bytes.length = true) (fun _ => Iff.rfl) ?_ ?_
    · exact (Sim.ret (fun _ => ()) fun _ => rfl).setFlow
        (fun s => { s.flow with pStop := some s.flow.p }) fun _ => rfl
    · exact (sim_programPageOf (fun s => s.flow.pagebuf) (fun s => s.flow.p) (fun _ => rfl)
        fun _ => rfl).andThen fun _ => ih

theorem sim_finalPage : Sim finalPage where
  counts s := by
    unfold finalPage
    have hf : s.uncounted.flow = s.flow := rfl
    rw [hf]
    cases s.flow.pStop with
    | none => exact .ok [] (by simp) (Wrong.nil _) rfl
    | some page =>
      dsimp only
      split
      · exact .ok [] (by simp) (Wrong.nil _) rfl
      · exact (sim_programPage _ _).counts s
  flows s := flowFrame_closed.finalPageEnds s

theorem sim_programFinish : Sim programFinish :=
  sim_streamRead.raiseStream.andThen fun bytes =>
    .ite (fun _ => bytes.length > 0) (fun _ => Iff.rfl) (.raised _) sim_finalPage

theorem sim_programOpenAndId : Sim programOpenAndId := by
  refine Sim.andThen (f := fun s => (openSub (s.setLastPage none)).raise)
    (sim_openSub.setLastPage none).raise fun _ => sim_readId.andThen fun id => ?_
  exact ⟨fun s => .ok [.diag id] (by simp [State.trace]) (Wrong.nil _) rfl, fun s =>
    FlowFrame.trans (FlowFrame.flow s _) (flowFrame_closed.diag _ id)⟩

theorem sim_programErase : Sim programErase :=
  (sim_setDir (fun s => programDirection s.params) (fun _ => rfl) fun _ => .inr rfl).raise.andThen
    fun _ => ⟨fun s => (sim_eraseAll s.params.eraseTimeout).counts s, fun s =>
      (sim_eraseAll _).flows s⟩

theorem sim_programBody : Sim programBody := by
  refine sim_programOpenAndId.andThen fun _ => sim_programErase.andThen fun _ => ?_
  refine Sim.andThen ((sim_pageLoop Config.capacityPages).setFlow
    (fun s => { s.flow with pStop := none, k := 0 }) fun _ => rfl) fun _ => ?_
  refine sim_programFinish.andThen fun _ => ?_
  exact (sim_setDir (fun s => idleDirection s.params) (fun _ => rfl)
    fun _ => .inl rfl).raise.andThen fun _ =>
      .ret (fun s => okResult (pagesWritten s.lastPage) []) fun _ => rfl

/-! ### Instructions -/

theorem Sim.handled {body : State → Res Failure α} (h : Sim body) : Sim (requireHandle body) where
  counts s := by
    unfold requireHandle
    rw [State.uncounted_handle]
    split
    · exact .err [] (by simp) (Wrong.nil _) rfl
    · exact h.counts s
  flows s := by
    unfold requireHandle
    split
    · exact FlowFrame.refl s
    · exact h.flows s

/-- The outcome of an instruction against the run with the counts taken away. -/
def CountedExec (i : Instr) (s : State) : Prop :=
  ∃ t, exec i s.uncounted = .next t ∧
    (s.Miscounted t → exec i s = .fault .transportContract) ∧
    (¬ s.Miscounted t → ∃ u, exec i s = .next u ∧ u.uncounted = t)

/-- An operation between a start `b` and an end that touch neither the answers nor, but for events that
are no transport calls, the trace. -/
theorem counted_settle {s : State} {f : State → Res Failure α} (hf : Sim f) (b : State → State)
    (onOk : α → State → State) (onErr : Failure → State → State)
    (hb : ∀ s, b s.uncounted = (b s).uncounted) (hbt : ∀ s, (b s).trace = s.trace)
    (hba : ∀ s, (b s).env = s.env)
    (hok : ∀ a t, onOk a t.uncounted = (onOk a t).uncounted)
    (herr : ∀ e t, onErr e t.uncounted = (onErr e t).uncounted)
    (hokt : ∀ a t, ∃ es, (onOk a t).trace = t.trace ++ es ∧ txOf es = [])
    (herrt : ∀ e t, ∃ es, (onErr e t).trace = t.trace ++ es ∧ txOf es = []) :
    ∃ t, (f (b s.uncounted)).settle s.uncounted onOk onErr = .next t ∧
      (s.Miscounted t → (f (b s)).settle s onOk onErr = .fault .transportContract) ∧
      (¬ s.Miscounted t → ∃ u, (f (b s)).settle s onOk onErr = .next u ∧ u.uncounted = t) := by
  have hc := hf.counts (b s)
  rw [settle_eq (start := s.uncounted) onOk onErr (hf.flows (b s.uncounted)) (by rw [hba]; exact id),
    settle_eq (start := s) onOk onErr (hf.flows (b s)) (by rw [hba]; exact id)]
  rw [hb]
  generalize f (b s) = r at hc
  generalize f (b s).uncounted = r' at hc
  have mis : ∀ (v : State) (calls es : List Event), v.trace = (b s).trace ++ calls ++ es →
      txOf es = [] → (s.Miscounted v ↔ Wrong (b s).env.answers (txOf calls)) := by
    intro v calls es hv he
    rw [miscounted_iff (calls := calls ++ es) (by rw [hv, hbt, List.append_assoc]), hba, txOf_append,
      he, List.append_nil]
  cases hc with
  | ok calls h hw ha =>
    rename_i a t
    obtain ⟨es, h1, h2⟩ := hokt a t
    have hm := mis (onOk a t.uncounted) calls es (by rw [hok, State.uncounted_trace, h1, h]) h2
    exact ⟨_, rfl, fun x => absurd (hm.1 x) hw, fun _ => ⟨_, rfl, (hok a t).symm⟩⟩
  | err calls h hw ha =>
    rename_i e t
    obtain ⟨es, h1, h2⟩ := herrt e t
    have hm := mis (onErr e t.uncounted) calls es (by rw [herr, State.uncounted_trace, h1, h]) h2
    exact ⟨_, rfl, fun x => absurd (hm.1 x) hw, fun _ => ⟨_, rfl, (herr e t).symm⟩⟩
  | stuck calls h hw =>
    rename_i t
    have hm := mis t.uncounted calls [] (by simp [h]) rfl
    exact ⟨_, rfl, fun x => absurd (hm.1 x) hw, fun _ => ⟨_, rfl, rfl⟩⟩
  | fault hr calls h hw hh =>
    rename_i t
    cases r' with
    | ok a u =>
      cases hr
      obtain ⟨es, h1, h2⟩ := hokt a t
      have hm := mis (onOk a t) calls es (by rw [h1, h]) h2
      exact ⟨_, rfl, fun _ => rfl, fun x => absurd (hm.2 hw) x⟩
    | err e u =>
      cases hr
      obtain ⟨es, h1, h2⟩ := herrt e t
      have hm := mis (onErr e t) calls es (by rw [h1, h]) h2
      exact ⟨_, rfl, fun _ => rfl, fun x => absurd (hm.2 hw) x⟩
    | stuck u =>
      cases hr
      have hm := mis t calls [] (by simp [h]) rfl
      exact ⟨_, rfl, fun _ => rfl, fun x => absurd (hm.2 hw) x⟩
    | fault g => cases hr

theorem counted_request {i : Instr} {body : State → Res Failure Result} (hb : Sim body)
    (hx : ∀ s, exec i s = runRequest i.op body s) (s : State) : CountedExec i s := by
  unfold CountedExec
  rw [hx, hx]
  exact counted_settle hb (fun s => s.begin i.op) _ _ (fun _ => rfl) (fun _ => rfl) (fun _ => rfl)
    (fun _ _ => rfl) (fun _ _ => rfl) (fun r t => ⟨_, State.trace_finish t r, rfl⟩)
    fun f t => ⟨_, State.trace_finish t f.toResult, rfl⟩

theorem counted_command {i : Instr} {body : State → Res Failure Unit} (hb : Sim body)
    (hx : ∀ s, exec i s = runCommand i.op body s) (s : State) : CountedExec i s := by
  unfold CountedExec
  rw [hx, hx]
  exact counted_settle hb (fun s => s.beginCommand i.op) _ _ (fun _ => rfl) (fun _ => rfl)
    (fun _ => rfl) (fun _ _ => rfl) (fun _ _ => rfl) (fun _ t => ⟨[], by simp [State.trace], rfl⟩)
    fun f t => ⟨[], by simp [State.trace], rfl⟩

end Sys2Proof.Machine
end

