-- ==== Sys2Proof/Laws/Decode.lean ====
section
/-! SUPPORT. What the decoder's parts answer: the fields of a header made of its fields, the checks of
30_encoding.md R80, and what a decoded encoding must have held. -/

namespace Sys2Proof

@[simp] theorem hdrOp_mkHdr (op : BitVec 4) (sel : BitVec 2) (len : BitVec 16) :
    hdrOp (mkHdr op sel len) = op := by
  simp only [hdrOp, mkHdr]
  ext i hi
  simp only [BitVec.getElem_extractLsb', BitVec.getLsbD_or, BitVec.getLsbD_shiftLeft,
    BitVec.getLsbD_setWidth, Nat.zero_add]
  have h1 : i < 16 := by omega
  have h2 : i < 32 := by omega
  simp [h1, h2, hi, BitVec.getLsbD_eq_getElem]

@[simp] theorem hdrSel_mkHdr (op : BitVec 4) (sel : BitVec 2) (len : BitVec 16) :
    hdrSel (mkHdr op sel len) = sel := by
  simp only [hdrSel, mkHdr]
  ext i hi
  simp only [BitVec.getElem_extractLsb', BitVec.getLsbD_or, BitVec.getLsbD_shiftLeft,
    BitVec.getLsbD_setWidth]
  have h1 : 4 + i < 16 := by omega
  have h2 : 4 + i < 32 := by omega
  have h4 : i < 32 := by omega
  simp [h1, h2, h4, BitVec.getLsbD_eq_getElem, hi]

@[simp] theorem hdrRsvd_mkHdr (op : BitVec 4) (sel : BitVec 2) (len : BitVec 16) :
    hdrRsvd (mkHdr op sel len) = 0 := by
  simp only [hdrRsvd, mkHdr]
  ext i hi
  simp only [BitVec.getElem_extractLsb', BitVec.getLsbD_or, BitVec.getLsbD_shiftLeft,
    BitVec.getLsbD_setWidth]
  have h1 : 6 + i < 16 := by omega
  have h2 : 6 + i < 32 := by omega
  have h3 : op.getLsbD (6 + i) = false := BitVec.getLsbD_of_ge _ _ (by omega)
  have h4 : sel.getLsbD (6 + i - 4) = false := BitVec.getLsbD_of_ge _ _ (by omega)
  simp [h1, h2, h3, h4]

@[simp] theorem hdrLen_mkHdr (op : BitVec 4) (sel : BitVec 2) (len : BitVec 16) :
    hdrLen (mkHdr op sel len) = len := by
  simp only [hdrLen, mkHdr]
  ext i hi
  simp only [BitVec.getElem_extractLsb', BitVec.getLsbD_or, BitVec.getLsbD_shiftLeft,
    BitVec.getLsbD_setWidth]
  have h1 : ¬ 16 + i < 16 := by omega
  have h2 : 16 + i < 32 := by omega
  have h3 : op.getLsbD (16 + i) = false := BitVec.getLsbD_of_ge _ _ (by omega)
  have h4 : sel.getLsbD (16 + i - 4) = false := BitVec.getLsbD_of_ge _ _ (by omega)
  have h5 : i < 32 := by omega
  simp [h1, h2, h3, h4, h5, BitVec.getLsbD_eq_getElem, hi]

/-- A header with RSVD = 0 is made of its fields (30_encoding.md R77). -/
theorem mkHdr_fields (h : Word) (hr : hdrRsvd h = 0) :
    mkHdr (hdrOp h) (hdrSel h) (hdrLen h) = h := by
  have hz : ∀ i < 10, h.getLsbD (6 + i) = false := by
    intro i hi
    have := congrArg (fun v : BitVec 10 => v.getLsbD i) hr
    simpa [hdrRsvd, hi] using this
  apply BitVec.eq_of_getLsbD_eq
  intro i hi
  simp only [mkHdr, hdrOp, hdrSel, hdrLen, BitVec.getLsbD_or, BitVec.getLsbD_shiftLeft,
    BitVec.getLsbD_setWidth, BitVec.getLsbD_extractLsb']
  by_cases h4 : i < 4
  · have h16 : i < 16 := by omega
    simp [h4, h16, hi]
  · by_cases h6 : i < 6
    · have h16 : i < 16 := by omega
      have h2 : i - 4 < 2 := by omega
      have h32 : i - 4 < 32 := by omega
      have he : 4 + (i - 4) = i := by omega
      simp [h4, h16, hi, h2, h32, he]
    · by_cases h16 : i < 16
      · have h2 : ¬ i - 4 < 2 := by omega
        have := hz (i - 6) (by omega)
        rw [show 6 + (i - 6) = i by omega] at this
        simp [h4, h16, h2, this]
      · have h2 : ¬ i - 4 < 2 := by omega
        have h3 : i - 16 < 16 := by omega
        have he : 16 + (i - 16) = i := by omega
        simp [h4, h16, hi, h2, h3, he]
        intro hc; omega

/-- A command of the slot decodes to a flash command, and a request to a request. -/
theorem decodeCommand_op {bytes : List Byte} {i : Instr} (h : decodeCommand bytes = .ok i) :
    i.op.isRequest = false := by
  unfold decodeCommand at h
  split at h
  · cases h
  · repeat' (first | (cases h; rfl) | cases h | split at h)

theorem checkRow_ok {a b c : Bool} {i j : Instr} (h : checkRow a b c i = .ok j) :
    a = true ∧ b = true ∧ c = true ∧ j = i := by
  unfold checkRow at h
  cases a <;> cases b <;> cases c <;> simp at h
  exact ⟨rfl, rfl, rfl, h.symm⟩

theorem withDevice_ok {r : Request} {k : Device → Except DecodeError Instr} {i : Instr}
    (h : withDevice r k = .ok i) : ∃ d, hdrSel r.hdr = selOfDevice d ∧ k d = .ok i := by
  unfold withDevice deviceOfSel at h
  split at h
  · cases h
  · rename_i d hd
    refine ⟨d, ?_, h⟩
    split at hd
    · cases hd; assumption
    · split at hd
      · cases hd; assumption
      · split at hd
        · cases hd; assumption
        · cases hd

theorem withSelZero_ok {r : Request} {k : Except DecodeError Instr} {i : Instr}
    (h : withSelZero r k = .ok i) : hdrSel r.hdr = 0 ∧ k = .ok i := by
  unfold withSelZero at h
  split at h
  · exact ⟨by assumption, h⟩
  · cases h

/-- The fields of a header as numbers (30_encoding.md R77). -/
theorem hdrOp_toNat (h : Word) : (hdrOp h).toNat = h.toNat % 16 := by
  simp [hdrOp, BitVec.extractLsb'_toNat]

theorem hdrSel_toNat (h : Word) : (hdrSel h).toNat = h.toNat / 16 % 4 := by
  simp [hdrSel, BitVec.extractLsb'_toNat, Nat.shiftRight_eq_div_pow]

theorem hdrRsvd_toNat (h : Word) : (hdrRsvd h).toNat = h.toNat / 64 % 1024 := by
  simp [hdrRsvd, BitVec.extractLsb'_toNat, Nat.shiftRight_eq_div_pow]

theorem hdrLen_toNat (h : Word) : (hdrLen h).toNat = h.toNat / 65536 := by
  have := h.isLt
  simp [hdrLen, BitVec.extractLsb'_toNat, Nat.shiftRight_eq_div_pow]
  omega

/-- A header as a number (30_encoding.md R77). -/
theorem mkHdr_toNat (op : BitVec 4) (sel : BitVec 2) (len : BitVec 16) :
    (mkHdr op sel len).toNat = len.toNat * 65536 + sel.toNat * 16 + op.toNat := by
  have h1 := congrArg BitVec.toNat (hdrOp_mkHdr op sel len)
  have h2 := congrArg BitVec.toNat (hdrSel_mkHdr op sel len)
  have h3 := congrArg BitVec.toNat (hdrRsvd_mkHdr op sel len)
  have h4 := congrArg BitVec.toNat (hdrLen_mkHdr op sel len)
  rw [hdrOp_toNat] at h1
  rw [hdrSel_toNat] at h2
  rw [hdrRsvd_toNat] at h3
  rw [hdrLen_toNat] at h4
  simp only [BitVec.toNat_zero, BitVec.ofNat_eq_ofNat] at h3
  omega

/-! ### The address fields of COMMIT_CMD (30_encoding.md R73) -/

theorem and_low (x n : Nat) : x &&& (2 ^ n - 1) = x % 2 ^ n := Nat.and_two_pow_sub_one_eq_mod x n

/-- A2 carries page bits 9 to 7. -/
theorem pageA2_toNat (page : Page) : (pageA2 page).toNat = page.toNat / 128 % 8 := by
  have h : (page >>> 7 &&& 0x07#13).toNat = page.toNat / 128 % 8 := by
    rw [BitVec.toNat_and, BitVec.toNat_ushiftRight, Nat.shiftRight_eq_div_pow]
    exact and_low _ 3
  unfold pageA2
  rw [BitVec.toNat_setWidth]
  have := Nat.mod_lt (page.toNat / 128) (show 0 < 8 by omega)
  erw [h]
  omega

/-- A1 carries page bits 6 to 0, shifted up by one. -/
theorem pageA1_toNat (page : Page) : (pageA1 page).toNat = 2 * (page.toNat % 128) := by
  have h : pageA1 page = (page.setWidth 7).setWidth 8 <<< 1 := by
    apply BitVec.eq_of_getLsbD_eq
    intro i hi
    simp only [pageA1, BitVec.getLsbD_setWidth, BitVec.getLsbD_and, BitVec.getLsbD_shiftLeft]
    have : i = 0 ∨ i = 1 ∨ i = 2 ∨ i = 3 ∨ i = 4 ∨ i = 5 ∨ i = 6 ∨ i = 7 := by omega
    rcases this with rfl | rfl | rfl | rfl | rfl | rfl | rfl | rfl <;> simp
  rw [h, BitVec.toNat_shiftLeft, BitVec.toNat_setWidth, BitVec.toNat_setWidth,
    Nat.shiftLeft_eq]
  omega

/-- The page index read back from an address field. -/
theorem pageOfAddress_toNat (a2 a1 : Byte) :
    (pageOfAddress a2 a1).toNat = a2.toNat % 8 * 128 + a1.toNat / 2 := by
  have h1 : ((a1.extractLsb' 1 7).setWidth 10).toNat = a1.toNat / 2 := by
    simp [BitVec.extractLsb'_toNat, Nat.shiftRight_eq_div_pow]
    omega
  have h2 : (a2.setWidth 10 <<< 7).toNat = a2.toNat % 8 * 128 := by
    rw [BitVec.toNat_shiftLeft, BitVec.toNat_setWidth, Nat.shiftLeft_eq]
    omega
  unfold pageOfAddress
  rw [BitVec.toNat_or, h1, h2, ← Nat.shiftLeft_eq _ 7,
    ← Nat.shiftLeft_add_eq_or_of_lt (by omega), Nat.shiftLeft_eq]

/-- The two ways an `if` gives its value. -/
theorem ite_cases {α : Type} {c : Prop} [Decidable c] {a b x : α}
    (h : (if c then a else b) = x) : (c ∧ a = x) ∨ (¬ c ∧ b = x) := by
  by_cases hc : c
  · exact .inl ⟨hc, by rwa [if_pos hc] at h⟩
  · exact .inr ⟨hc, by rwa [if_neg hc] at h⟩

/-- What a request that decodes has held: its row of 30_encoding.md R80. -/
inductive RowHeld (r : Request) : Instr → Prop
  | select (d : Device) (ho : hdrOp r.hdr = 0x1) (hs : hdrSel r.hdr = selOfDevice d)
      (hl : hdrLen r.hdr = 0) (hp : r.opnd = 0) (hd : r.data = []) : RowHeld r (.select d)
  | spiOut (d : Device) (ho : hdrOp r.hdr = 0x2) (hs : hdrSel r.hdr = selOfDevice d)
      (hp : r.opnd = 0) (hd : r.data.length = (hdrLen r.hdr).toNat) : RowHeld r (.spiOut d r.data)
  | spiIn (d : Device) (ho : hdrOp r.hdr = 0x3) (hs : hdrSel r.hdr = selOfDevice d)
      (hp : r.opnd = 0) (hd : r.data = []) : RowHeld r (.spiIn d (hdrLen r.hdr))
  | readId (ho : hdrOp r.hdr = 0x4) (hs : hdrSel r.hdr = 0) (hl : hdrLen r.hdr = 0)
      (hp : r.opnd = 0) (hd : r.data = []) : RowHeld r .readId
  | writePage (ho : hdrOp r.hdr = 0x5) (hs : hdrSel r.hdr = 0) (hl : hdrLen r.hdr = 264)
      (hp : r.opnd.extractLsb' 13 19 = 0) (hd : r.data.length = 264) :
      RowHeld r (.writePage (r.opnd.extractLsb' 0 13) r.data)
  | eraseSector (c0 c1 c2 c3 : Byte) (ho : hdrOp r.hdr = 0x6) (hs : hdrSel r.hdr = 0)
      (hl : hdrLen r.hdr = 4) (hd : r.data = [c0, c1, c2, c3]) :
      RowHeld r (.eraseSector c0 c1 c2 c3 r.opnd)
  | eraseAll (ho : hdrOp r.hdr = 0x7) (hs : hdrSel r.hdr = 0) (hl : hdrLen r.hdr = 0)
      (hd : r.data = []) : RowHeld r (.eraseAll r.opnd)
  | flashPoll (ho : hdrOp r.hdr = 0x8) (hs : hdrSel r.hdr = 0) (hl : hdrLen r.hdr = 0)
      (hd : r.data = []) : RowHeld r (.flashPoll r.opnd)
  | openAdapter (ho : hdrOp r.hdr = 0x9) (hs : hdrSel r.hdr = 0) (hl : hdrLen r.hdr = 0)
      (hp : r.opnd = 0) (hd : r.data = []) : RowHeld r .openAdapter
  | program (ho : hdrOp r.hdr = 0xA) (hs : hdrSel r.hdr = 0) (hl : hdrLen r.hdr = 0)
      (hp : r.opnd = 0) (hd : r.data = []) : RowHeld r .program

/-- A request that decodes has RSVD = 0 and holds its row (30_encoding.md R80, R81). -/
theorem decodeRequest_row {r : Request} {i : Instr} (h : decodeRequest r = .ok i) :
    hdrRsvd r.hdr = 0 ∧ RowHeld r i := by
  unfold decodeRequest at h
  rcases ite_cases h with ⟨-, h⟩ | ⟨h0, h⟩
  · cases h
  refine ⟨by simpa using h0, ?_⟩
  rcases ite_cases h with ⟨ho, h⟩ | ⟨-, h⟩
  · obtain ⟨d, hs, h⟩ := withDevice_ok h
    obtain ⟨hl, hp, hd, rfl⟩ := checkRow_ok h
    exact .select d ho hs (by simpa using hl) (by simpa using hp) (by simpa using hd)
  rcases ite_cases h with ⟨ho, h⟩ | ⟨-, h⟩
  · obtain ⟨d, hs, h⟩ := withDevice_ok h
    obtain ⟨-, hp, hd, rfl⟩ := checkRow_ok h
    exact .spiOut d ho hs (by simpa using hp) (by simpa [Request.dataIsLen] using hd)
  rcases ite_cases h with ⟨ho, h⟩ | ⟨-, h⟩
  · obtain ⟨d, hs, h⟩ := withDevice_ok h
    obtain ⟨-, hp, hd, rfl⟩ := checkRow_ok h
    exact .spiIn d ho hs (by simpa using hp) (by simpa using hd)
  rcases ite_cases h with ⟨ho, h⟩ | ⟨-, h⟩
  · obtain ⟨hs, h⟩ := withSelZero_ok h
    obtain ⟨hl, hp, hd, rfl⟩ := checkRow_ok h
    exact .readId ho hs (by simpa using hl) (by simpa using hp) (by simpa using hd)
  rcases ite_cases h with ⟨ho, h⟩ | ⟨-, h⟩
  · obtain ⟨hs, h⟩ := withSelZero_ok h
    obtain ⟨hl, hp, hd, rfl⟩ := checkRow_ok h
    have hl : hdrLen r.hdr = 264 := eq_of_beq hl
    refine .writePage ho hs hl (eq_of_beq hp) ?_
    have hd : r.data.length = (hdrLen r.hdr).toNat := by simpa [Request.dataIsLen] using hd
    rw [hd, hl]; rfl
  rcases ite_cases h with ⟨ho, h⟩ | ⟨-, h⟩
  · obtain ⟨hs, h⟩ := withSelZero_ok h
    split at h
    · rename_i c0 c1 c2 c3 hdata
      obtain ⟨hl, -, -, rfl⟩ := checkRow_ok h
      exact .eraseSector c0 c1 c2 c3 ho hs (eq_of_beq hl) hdata
    · cases h
  rcases ite_cases h with ⟨ho, h⟩ | ⟨-, h⟩
  · obtain ⟨hs, h⟩ := withSelZero_ok h
    obtain ⟨hl, -, hd, rfl⟩ := checkRow_ok h
    exact .eraseAll ho hs (by simpa using hl) (by simpa using hd)
  rcases ite_cases h with ⟨ho, h⟩ | ⟨-, h⟩
  · obtain ⟨hs, h⟩ := withSelZero_ok h
    obtain ⟨hl, -, hd, rfl⟩ := checkRow_ok h
    exact .flashPoll ho hs (by simpa using hl) (by simpa using hd)
  rcases ite_cases h with ⟨ho, h⟩ | ⟨-, h⟩
  · obtain ⟨hs, h⟩ := withSelZero_ok h
    obtain ⟨hl, hp, hd, rfl⟩ := checkRow_ok h
    exact .openAdapter ho hs (by simpa using hl) (by simpa using hp) (by simpa using hd)
  rcases ite_cases h with ⟨ho, h⟩ | ⟨-, h⟩
  · obtain ⟨hs, h⟩ := withSelZero_ok h
    obtain ⟨hl, hp, hd, rfl⟩ := checkRow_ok h
    exact .program ho hs (by simpa using hl) (by simpa using hp) (by simpa using hd)
  · cases h

/-- A request decodes to a request (30_encoding.md R78). -/
theorem decodeRequest_op {r : Request} {i : Instr} (h : decodeRequest r = .ok i) :
    i.op.isRequest = true := by
  cases (decodeRequest_row h).2 <;> rfl

end Sys2Proof
end

