-- ==== Sys2Proof/Laws/Errors.lean ====
section
/-! SUPPORT. Which error an operation ends with: the error of the first call that failed, unchanged
(60_exceptions.md R149, R153), or one that no call carries (a poll budget spent, an oversize stream, a
closed handle); after an operation that succeeds no call has failed. -/

namespace Sys2Proof.Machine

/-- The failure, if it is the error of a call. -/
def Failure.ofCall : Failure → Option Failure
  | .transport e => some (.transport e)
  | .stream e => some (.stream e)
  | .timeout => none
  | .oversize => none
  | .illegal => none
  | .notOpen => none

/-- An operation started in `s` that ends well met no failed call; one that ends with an error met
first the call that carries it, if a call does, and its error is one of `Q`. `φ` reads an error as the
request reports it. -/
def Res.Tells {ε α : Type} (φ : ε → Failure) (Q : Failure → Prop) (s : State) : Res ε α → Prop
  | .ok _ t => ∃ new, t.log = new ++ s.log ∧ firstFailure new.reverse = none
  | .err e t => Q (φ e) ∧ ∃ new, t.log = new ++ s.log ∧
      firstFailure new.reverse = (φ e).ofCall
  | .stuck _ => True
  | .fault _ => True

theorem firstFailure_append (a b : List Event) :
    firstFailure (a ++ b) = (firstFailure a).or (firstFailure b) := by
  simp [firstFailure, List.findSome?_append]

section

variable {ε α β : Type} {φ : ε → Failure} {Q : Failure → Prop}

theorem Res.Tells.done {a : α} {s t : State} (h : t.log = s.log) :
    (Res.ok a t : Res ε α).Tells φ Q s := ⟨[], by simp [h], rfl⟩

/-- The start may differ in what is no trace. -/
theorem Res.Tells.from {r : Res ε α} {s t : State} (hr : r.Tells φ Q t) (h : t.log = s.log) :
    r.Tells φ Q s := by
  cases r with
  | ok a u => simpa [Res.Tells, h] using hr
  | err e u => simpa [Res.Tells, h] using hr
  | stuck u => trivial
  | fault f => trivial

/-- Events without a failure may come before. -/
theorem Res.Tells.after {r : Res ε α} {s t : State} {new : List Event} (hl : t.log = new ++ s.log)
    (hn : firstFailure new.reverse = none) (hr : r.Tells φ Q t) : r.Tells φ Q s := by
  cases r with
  | ok a u =>
    obtain ⟨m, hm, hf⟩ := hr
    exact ⟨m ++ new, by simp [hm, hl], by simp [firstFailure_append, hn, hf]⟩
  | err e u =>
    obtain ⟨hq, m, hm, hf⟩ := hr
    exact ⟨hq, m ++ new, by simp [hm, hl], by simp [firstFailure_append, hn, hf]⟩
  | stuck u => trivial
  | fault f => trivial

theorem Res.Tells.andThen {r : Res ε α} {k : α → State → Res ε β} {s : State}
    (hr : r.Tells φ Q s) (hk : ∀ a t, (k a t).Tells φ Q t) : (r.andThen k).Tells φ Q s := by
  cases r with
  | ok a t =>
    obtain ⟨new, hl, hn⟩ := hr
    exact (hk a t).after hl hn
  | err e t => exact hr
  | stuck t => trivial
  | fault f => trivial

theorem Res.Tells.mono {Q' : Failure → Prop} {r : Res ε α} {s : State} (hr : r.Tells φ Q s)
    (h : ∀ f, Q f → Q' f) : r.Tells φ Q' s := by
  cases r with
  | ok a t => exact hr
  | err e t => exact ⟨h _ hr.1, hr.2⟩
  | stuck t => trivial
  | fault f => trivial

theorem Res.Tells.raise {r : Res Payload α} {s : State} (hr : r.Tells .transport Q s) :
    r.raise.Tells id Q s := by
  cases r <;> exact hr

theorem Res.Tells.raiseStream {r : Res Payload α} {s : State} (hr : r.Tells .stream Q s) :
    r.raiseStream.Tells id Q s := by
  cases r <;> exact hr

end

/-- Any error of a transport call. -/
def Failure.isTransport (f : Failure) : Prop := ∃ e, f = .transport e

/-- Any error of an engine command (60_exceptions.md R146). -/
def Failure.isEngine (f : Failure) : Prop := f.isTransport ∨ f = .timeout

/-- Any error of PROGRAM (60_exceptions.md R146). -/
def Failure.isWorkflow (f : Failure) : Prop := f.isEngine ∨ f = .oversize ∨ ∃ e, f = .stream e

/-- Any error of an operation that reads no stream and never polls. -/
abbrev Res.TellsTx {α : Type} (s : State) (r : Res Payload α) : Prop :=
  r.Tells .transport Failure.isTransport s

/-! ### The primitives -/

theorem txWrite_tells (bs : List Byte) (s : State) : (txWrite bs s).TellsTx s := by
  unfold txWrite
  split
  · split
    · exact ⟨[_], rfl, rfl⟩
    · trivial
  · exact ⟨⟨_, rfl⟩, [_], rfl, rfl⟩
  · trivial

theorem txReadPins_tells (s : State) : (txReadPins s).TellsTx s := by
  unfold txReadPins
  split
  · exact ⟨[_], rfl, rfl⟩
  · exact ⟨⟨_, rfl⟩, [_], rfl, rfl⟩
  · trivial

theorem txSetDir_tells (d : Byte) (s : State) : (txSetDir d s).TellsTx s := by
  unfold txSetDir
  split
  · exact ⟨[_], rfl, rfl⟩
  · exact ⟨⟨_, rfl⟩, [_], rfl, rfl⟩
  · trivial

theorem txOpen_tells (s : State) : (txOpen s).TellsTx s := by
  unfold txOpen
  split
  · exact ⟨[_], rfl, rfl⟩
  · exact ⟨⟨_, rfl⟩, [_], rfl, rfl⟩
  · trivial

theorem streamRead_tells (n : Nat) (s : State) :
    (streamRead n s).Tells .stream Failure.isWorkflow s := by
  unfold streamRead
  split
  · exact ⟨[_], rfl, rfl⟩
  · exact ⟨.inr (.inr ⟨_, rfl⟩), [_], rfl, rfl⟩
  · trivial

/-- The recovery write comes after the error it is for, and its own error is dropped
(60_exceptions.md R150). -/
theorem Res.Tells.recover {α : Type} {r : Res Payload α} {s : State} (hr : r.TellsTx s) :
    r.recover.Tells id Failure.isTransport s := by
  cases r with
  | ok a t => exact hr
  | err e t =>
    obtain ⟨hq, new, hl, hf⟩ := hr
    have hw := txWrite_tells [idleByte t.params] t
    unfold Res.recover
    dsimp only
    split <;> rename_i hx <;> rw [hx] at hw
    · obtain ⟨m, hm, -⟩ := hw
      exact ⟨hq, m ++ new, by simp [hm, hl], by simp [firstFailure_append, hf, Failure.ofCall]⟩
    · obtain ⟨-, m, hm, -⟩ := hw
      exact ⟨hq, m ++ new, by simp [hm, hl], by simp [firstFailure_append, hf, Failure.ofCall]⟩
    · trivial
    · trivial
  | stuck t => trivial
  | fault f => trivial

/-! ### The sub-operations -/

theorem spiOut_tells (data : List Byte) (d : Device) (s : State) : (spiOut data d s).TellsTx s := by
  have hl : ∀ s, (spiOutLoop d data s).TellsTx s := by
    induction data with
    | nil => exact fun s => .done rfl
    | cons b bs ih =>
      exact fun s => Res.Tells.from (Res.Tells.andThen (txWrite_tells _ _) fun _ t => ih t)
        (State.setSpi_log _ _)
  exact (hl s).andThen fun _ _ => .done rfl

theorem sampleBit_tells (d : Device) (i : Nat) (s : State) : (sampleBit d i s).TellsTx s := by
  refine (txReadPins_tells s).andThen fun pins t => ?_
  dsimp only
  split
  · exact ((txWrite_tells _ _).andThen fun _ u => txWrite_tells _ u).from (State.setSpi_log _ _)
  · exact (txWrite_tells _ _).andThen fun _ u => txWrite_tells _ u

theorem byteLoop_tells (d : Device) (n j : Nat) (s : State) : (byteLoop d n j s).TellsTx s := by
  have hb : ∀ m s, (bitLoop d m s).TellsTx s := by
    intro m
    induction m with
    | zero => exact fun s => .done rfl
    | succ m ih => exact fun s => (sampleBit_tells d m s).andThen fun _ t => ih t
  induction n generalizing j s with
  | zero => exact .done rfl
  | succ n ih =>
    exact ((hb 8 _).from (State.setSpi_log _ _)).andThen fun _ t =>
      (ih (j + 1) _).from (State.setSpi_log _ _)

theorem closeSpiIn_tells {s : State} {r : Res Payload Unit} (hr : r.TellsTx s) :
    (closeSpiIn r).TellsTx s := by
  cases r with
  | ok a t =>
    obtain ⟨new, hl, hn⟩ := hr
    have hw := txWrite_tells [idleByte t.params] t
    unfold closeSpiIn
    dsimp only
    split <;> rename_i hx <;> rw [hx] at hw
    · exact Res.Tells.after (φ := Failure.transport) (r := .ok _ _) hl hn hw
    · exact Res.Tells.after (φ := Failure.transport) (r := .err _ _) hl hn hw
    · trivial
    · trivial
  | err e t =>
    obtain ⟨hq, new, hl, hf⟩ := hr
    have hw := txWrite_tells [idleByte t.params] (t.setSpi { t.spi with err := some e })
    unfold closeSpiIn
    dsimp only [State.setSpi_params]
    split <;> rename_i hx <;> rw [hx] at hw
    · obtain ⟨m, hm, -⟩ := hw
      exact ⟨hq, m ++ new, by simp [hm, hl], by simp [firstFailure_append, hf, Failure.ofCall]⟩
    · obtain ⟨-, m, hm, -⟩ := hw
      exact ⟨hq, m ++ new, by simp [hm, hl], by simp [firstFailure_append, hf, Failure.ofCall]⟩
    · trivial
    · trivial
  | stuck t => trivial
  | fault f => trivial

theorem spiIn_tells (n : Nat) (d : Device) (s : State) : (spiIn n d s).TellsTx s :=
  closeSpiIn_tells ((byteLoop_tells d n 0 _).from (State.setSpi_log _ _))

/-! ### The Flash Command Engine -/

/-- Any error an engine command may end with. -/
abbrev Res.TellsEngine {α : Type} (s : State) (r : Res Failure α) : Prop :=
  r.Tells id Failure.isEngine s

theorem Res.Tells.engine {α : Type} {r : Res Failure α} {s : State}
    (hr : r.Tells id Failure.isTransport s) : r.TellsEngine s := hr.mono fun _ => .inl

theorem sendFlash_tells (bytes : List Byte) (s : State) :
    (sendFlash bytes s).Tells id Failure.isTransport s := (spiOut_tells bytes .flash s).recover

theorem deselect_tells (s : State) : (deselect s).Tells id Failure.isTransport s :=
  (txWrite_tells _ s).raise

theorem readId_tells (s : State) : (readId s).Tells id Failure.isTransport s :=
  Res.Tells.andThen ((sendFlash_tells _ s).andThen fun _ t =>
    (spiIn_tells _ .flash t).recover.andThen fun _ u =>
      (deselect_tells u).andThen fun _ _ => .done rfl) fun _ _ => .done rfl

theorem bufLoad_tells (data : List Byte) (s : State) :
    (bufLoadTransaction data s).Tells id Failure.isTransport s :=
  (sendFlash_tells _ s).andThen fun _ t =>
    (sendFlash_tells data t).andThen fun _ u => deselect_tells u

theorem start_tells (bytes : List Byte) (s : State) :
    (startTransaction bytes s).Tells id Failure.isTransport s :=
  (sendFlash_tells bytes s).andThen fun _ t =>
    (deselect_tells _).from (State.setPollOwed_log t true)

theorem status_tells (s : State) : (statusTransaction s).Tells id Failure.isTransport s := by
  refine (sendFlash_tells _ s).andThen fun _ t =>
    (spiIn_tells 1 .flash t).recover.andThen fun bytes u => ?_
  refine ((deselect_tells _).from (State.setPoll_log u _)).andThen fun _ v => .done ?_
  split <;> rfl

theorem flashPoll_tells (t : Word) (s : State) : (flashPoll t s).TellsEngine s := by
  have hl : ∀ n s, (pollLoop n s).TellsEngine s := by
    intro n
    induction n with
    | zero => exact fun s => ⟨.inr rfl, [], rfl, rfl⟩
    | succ n ih =>
      intro s
      refine ((status_tells _).engine.from (State.setPoll_log s _)).andThen fun _ u => ?_
      split
      · exact .done rfl
      · exact ih u
  exact (hl _ _).from (State.setPoll_log s _)

theorem writePage_tells (data : List Byte) (page : Page) (s : State) :
    (writePage data page s).TellsEngine s :=
  (bufLoad_tells data s).engine.andThen fun _ t =>
    (start_tells _ t).engine.andThen fun _ u => flashPoll_tells _ u

theorem eraseSector_tells (cmd : List Byte) (t : Word) (s : State) :
    (eraseSector cmd t s).TellsEngine s :=
  (start_tells cmd s).engine.andThen fun _ u => flashPoll_tells t u

theorem eraseAll_tells (t : Word) (s : State) : (eraseAll t s).TellsEngine s := by
  unfold eraseAll
  generalize eraseList = cmds
  induction cmds generalizing s with
  | nil => exact .done rfl
  | cons cmd rest ih => exact (eraseSector_tells cmd t s).andThen fun _ u => ih u

/-! ### The Programming Workflow -/

/-- Any error PROGRAM may end with. -/
abbrev Res.TellsFlow {α : Type} (s : State) (r : Res Failure α) : Prop :=
  r.Tells id Failure.isWorkflow s

theorem Res.Tells.flow {α : Type} {r : Res Failure α} {s : State} (hr : r.TellsEngine s) :
    r.TellsFlow s := hr.mono fun _ => .inl

theorem openSub_tells (s : State) : (openSub s).TellsTx s := by
  refine Res.Tells.andThen ?_ fun _ t => txSetDir_tells _ t
  unfold openHandle
  split
  · exact (txOpen_tells s).andThen fun _ _ => .done rfl
  · exact .done rfl

theorem programPage_tells (data : List Byte) (page : Page) (s : State) :
    (programPage data page s).TellsFlow s :=
  (writePage_tells data page s).flow.andThen fun _ _ => .done rfl

theorem pageLoop_tells (n : Nat) (s : State) : (pageLoop n s).TellsFlow s := by
  induction n generalizing s with
  | zero => exact .done rfl
  | succ n ih =>
    refine Res.Tells.from (Res.Tells.andThen (streamRead_tells _ _).raiseStream fun bytes t => ?_)
      (State.setFlow_log s _)
    dsimp only
    split
    · exact .done rfl
    · exact ((programPage_tells _ _ _).from (State.setFlow_log t _)).andThen fun _ u => ih u

theorem programFinish_tells (s : State) : (programFinish s).TellsFlow s := by
  refine (streamRead_tells _ s).raiseStream.andThen fun bytes t => ?_
  split
  · exact ⟨.inr (.inl rfl), [], rfl, rfl⟩
  · unfold finalPage
    split
    · split
      · exact .done rfl
      · exact programPage_tells _ _ t
    · exact .done rfl

theorem programBody_tells (s : State) : (programBody s).TellsFlow s := by
  refine Res.Tells.andThen ?_ fun _ t => Res.Tells.andThen ?_ fun _ u =>
    ((pageLoop_tells _ _).from (State.setFlow_log u _)).andThen fun _ v =>
      (programFinish_tells v).andThen fun _ w =>
        (txSetDir_tells _ w).raise.engine.flow.andThen fun _ _ => .done rfl
  · refine ((openSub_tells _).from (State.setLastPage_log s none)).raise.engine.flow.andThen
      fun _ t => (readId_tells t).engine.flow.andThen fun id u => ?_
    exact ⟨[.diag id], rfl, rfl⟩
  · exact (txSetDir_tells _ t).raise.engine.flow.andThen fun _ u => (eraseAll_tells _ u).flow

/-! ### The requests -/

/-- The errors instruction `i` may end with in state `s` (60_exceptions.md R145 to R147). -/
def MayFail (i : Instr) (s : State) (f : Failure) : Prop :=
  (f = .notOpen ∧ i.op.needsHandle = true ∧ s.handle = .closed) ∨ f.isTransport ∨
    (f = .timeout ∧ (i.op = .writePage ∨ i.op = .eraseSector ∨ i.op = .eraseAll ∨
      i.op = .flashPoll ∨ i.op = .program)) ∨
    (i.op = .program ∧ (f = .oversize ∨ ∃ e, f = .stream e))

theorem requireHandle_tells {α : Type} {body : State → Res Failure α} {i : Instr} {s u : State}
    (hn : i.op.needsHandle = true) (hu : u.handle = s.handle)
    (hb : (body u).Tells id (MayFail i s) u) :
    (requireHandle body u).Tells id (MayFail i s) u := by
  unfold requireHandle
  split
  · exact ⟨.inl ⟨rfl, hn, by rw [← hu]; assumption⟩, [], rfl, rfl⟩
  · exact hb

/-- How a request that ends tells its error, in its result and its trace. -/
def Told (i : Instr) (s t : State) : Prop :=
  (∃ v d new, t.result = okResult v d ∧
    t.log = .result t.result.code t.result.value t.result.data :: (new ++ s.log) ∧
    firstFailure new.reverse = none) ∨
  (∃ (f : Failure) (new : List Event), t.result = f.toResult ∧ MayFail i s f ∧
    t.log = .result t.result.code t.result.value t.result.data :: (new ++ s.log) ∧
    firstFailure new.reverse = f.ofCall)

theorem told_of_body {i : Instr} {s t : State} (h : exec i s = .next t) (hp : t.phase = .await)
    (body : State → Res Failure Result) (hx : exec i s = runRequest i.op body s)
    (ht : (body (s.begin i.op)).Tells id (MayFail i s) (s.begin i.op))
    (hE : (body (s.begin i.op)).Ends FlowFrame (s.begin i.op))
    (hr : ∀ r u, body (s.begin i.op) = .ok r u → ∃ v d, r = okResult v d) : Told i s t := by
  rcases runRequest_cases hE with ⟨r, u, hb, -, he⟩ | ⟨f, u, hb, -, he⟩ | ⟨u, -, hR, -, he⟩ |
    ⟨f, -, -, he⟩ <;> rw [hx, he] at h <;> cases h
  · rw [hb] at ht
    obtain ⟨v, d, rfl⟩ := hr r u hb
    obtain ⟨new, hl, hf⟩ := ht
    exact .inl ⟨v, d, new, rfl, by simp [State.finish, hl], hf⟩
  · rw [hb] at ht
    obtain ⟨hq, new, hl, hf⟩ := ht
    exact .inr ⟨f, new, rfl, hq, by simp [State.finish, hl], hf⟩
  · obtain ⟨m, hm⟩ := hR.phase i.op 0 rfl
    rw [hm] at hp
    cases hp

theorem request_tells {i : Instr} {s t : State} (hi : i.op.isRequest = true)
    (h : exec i s = .next t) (hp : t.phase = .await) : Told i s t := by
  have tx : ∀ f : Failure, f.isTransport → MayFail i s f := fun f hf => .inr (.inl hf)
  have eng (ho : i.op = .writePage ∨ i.op = .eraseSector ∨ i.op = .eraseAll ∨ i.op = .flashPoll ∨
      i.op = .program) (f : Failure) (hf : f.isEngine) : MayFail i s f :=
    hf.elim (tx f) fun ht => .inr (.inr (.inl ⟨ht, ho⟩))
  have key := told_of_body h hp
  have hc := flowFrame_chains
  have hF := flowFrame_closed
  cases i with
  | select d =>
    exact key _ rfl (requireHandle_tells rfl rfl
      (((txWrite_tells _ _).raise.mono tx).andThen fun _ _ => .done rfl))
      (requireHandle_ends hc fun _ =>
        (hF.selectEnds d _).raise.andThen hc fun _ t _ => hc.refl t)
      fun _ _ => handled_okResult (f := fun _ => (0, [])) (by intros; rfl)
  | spiOut d data =>
    exact key _ rfl (requireHandle_tells rfl rfl
      (((spiOut_tells data d _).raise.mono tx).andThen fun _ _ => .done rfl))
      (requireHandle_ends hc fun _ =>
        (hF.spiOutEnds data d _).raise.andThen hc fun _ t _ => hc.refl t)
      fun _ _ => handled_okResult (f := fun n => (BitVec.ofNat 32 n, [])) (by intros; rfl)
  | spiIn d n =>
    exact key _ rfl (requireHandle_tells rfl rfl
      (((spiIn_tells n.toNat d _).raise.mono tx).andThen fun _ _ => .done rfl))
      (requireHandle_ends hc fun _ =>
        (hF.spiInEnds n.toNat d _).raise.andThen hc fun _ t _ => hc.refl t)
      fun _ _ => handled_okResult (f := fun b => (n.setWidth 32, b)) (by intros; rfl)
  | readId =>
    exact key _ rfl (requireHandle_tells rfl rfl
      (((readId_tells _).mono tx).andThen fun _ _ => .done rfl))
      (requireHandle_ends hc fun _ => (hF.readIdEnds _).andThen hc fun _ t _ => hc.refl t)
      fun _ _ => handled_okResult (f := fun id => (id, [])) (by intros; rfl)
  | writePage page data =>
    exact key _ rfl (requireHandle_tells rfl rfl
      (((writePage_tells data page _).mono (eng (by simp [Instr.op]))).andThen fun _ _ => .done rfl))
      (requireHandle_ends hc fun _ => (hF.writePageEnds data page _).andThen hc fun _ t _ => hc.refl t)
      fun _ _ => handled_okResult (f := fun _ => (0, [])) (by intros; rfl)
  | eraseSector c0 c1 c2 c3 t =>
    exact key _ rfl (requireHandle_tells rfl rfl
      (((eraseSector_tells _ t _).mono (eng (by simp [Instr.op]))).andThen fun _ _ => .done rfl))
      (requireHandle_ends hc fun _ => (hF.eraseSectorEnds _ t _).andThen hc fun _ t _ => hc.refl t)
      fun _ _ => handled_okResult (f := fun _ => (0, [])) (by intros; rfl)
  | eraseAll t =>
    exact key _ rfl (requireHandle_tells rfl rfl
      (((eraseAll_tells t _).mono (eng (by simp [Instr.op]))).andThen fun _ _ => .done rfl))
      (requireHandle_ends hc fun _ => (hF.eraseAllEnds t _).andThen hc fun _ t _ => hc.refl t)
      fun _ _ => handled_okResult (f := fun _ => (0, [])) (by intros; rfl)
  | flashPoll t =>
    exact key _ rfl (requireHandle_tells rfl rfl
      (((flashPoll_tells t _).mono (eng (by simp [Instr.op]))).andThen fun _ _ => .done rfl))
      (requireHandle_ends hc fun _ => (hF.flashPollEnds t _).andThen hc fun _ t _ => hc.refl t)
      fun _ _ => handled_okResult (f := fun _ => (0, [])) (by intros; rfl)
  | openAdapter =>
    exact key (fun s => (openSub s).raise.andThen fun _ s => .ok (okResult 0 []) s) rfl
      (((openSub_tells _).raise.mono tx).andThen fun _ _ => .done rfl)
      ((hF.openSubEnds _).raise.andThen hc fun _ t _ => hc.refl t)
      fun _ _ hb => by
        obtain ⟨-, u, -, hb⟩ := Res.andThen_ok hb
        cases hb
        exact ⟨_, _, rfl⟩
  | program =>
    refine key _ rfl ((programBody_tells _).mono fun f hf => ?_) (hF.programBodyEnds _)
      fun _ _ => programBody_ok
    exact hf.elim (eng (by simp [Instr.op]) f) fun h => .inr (.inr (.inr ⟨rfl, h⟩))
  | readIdCmd => cases hi
  | bufLoadCmd data => cases hi
  | commitCmd page => cases hi
  | sectorEraseCmd a2 a1 a0 => cases hi
  | statusReadCmd => cases hi

end Sys2Proof.Machine
end

