-- ==== Sys2Proof/Laws/Workflow.lean ====
section
/-! SUPPORT. The Programming Workflow when every listed answer is Ok: the open, the identifier, the
erase, the pages, the short read and the end (43_workflow.md R133, R135 to R143). -/

namespace Sys2Proof.Machine

/-- The bus as a state leaves it. -/
def State.view (s : State) : BusView := ⟨s.wireOut, s.pollOwed⟩

/-- `t` is reached from `s` by successful calls of the workflow: the frame, the events they add, the
answers that are left. -/
structure Went (s t : State) (new : List Event) (rest : List TxAnswer) : Prop where
  frame : FlowFrame s t
  trace : t.trace = s.trace ++ new
  answers : t.env.answers = rest

theorem Went.trans {s t u : State} {new new' : List Event} {rest rest' : List TxAnswer}
    (h : Went s t new rest) (k : Went t u new' rest') : Went s u (new ++ new') rest' where
  frame := h.frame.trans k.frame
  trace := by rw [k.trace, h.trace, List.append_assoc]
  answers := k.answers

theorem Passed.went {s t : State} {new : List Event} {rest : List TxAnswer}
    (h : Passed s t new rest) : Went s t new rest := ⟨h.frame.toFlow, h.trace, h.answers⟩

theorem Went.flow (s : State) (r : FlowRegs) : Went s (s.setFlow r) [] s.env.answers :=
  ⟨by constructor <;> simp, by simp [State.trace], rfl⟩

theorem Went.lastPage (s : State) (p : Option Page) : Went s (s.setLastPage p) [] s.env.answers :=
  ⟨by constructor <;> simp, by simp [State.trace], rfl⟩

/-- TxSetDir with an Ok answer (20_memory.md R44). -/
theorem txSetDir_went {s : State} {d p : Byte} {rest : List TxAnswer}
    (hd : d = idleDirection s.params ∨ d = programDirection s.params)
    (h : s.env.answers = .ok none p :: rest) :
    ∃ t, txSetDir d s = .ok () t ∧
      Went s t [.setDir d s.params.bitbangMode (.ok ())] rest ∧ t.wireDir = some d ∧
      t.handle = s.handle ∧ t.lastPage = s.lastPage ∧ t.flow = s.flow ∧
      t.env.stream = s.env.stream ∧ t.env.streamAnswers = s.env.streamAnswers ∧ t.view = s.view := by
  have hdr := drawn_of_cons h
  exact ⟨_, txSetDir_ok h, ⟨(FlowFrame.call hdr.inputs hdr.honest hdr.returns
    (ev := .setDir d _ _) ⟨hd, rfl⟩ (by simp)).trans (.dir _ _), by simp [State.trace], rfl⟩, rfl, rfl, rfl,
    rfl, rfl, rfl, rfl⟩

/-- Open() with Ok answers (43_workflow.md R132, R133). -/
theorem openSub_went (s : State) (pins : List Byte) (rest : List TxAnswer)
    (hp : pins.length = if s.handle = .closed then 2 else 1)
    (h : s.env.answers = yes pins ++ rest) :
    ∃ t, openSub s = .ok () t ∧
      Went s t ((if s.handle = .closed then [.openCall s.params.vid s.params.pid (.ok ())] else [])
        ++ [.setDir (idleDirection s.params) s.params.bitbangMode (.ok ())]) rest ∧
      t.wireDir = some (idleDirection s.params) ∧ t.handle = .opened ∧
      t.lastPage = s.lastPage ∧ t.flow = s.flow ∧
      t.env.stream = s.env.stream ∧ t.env.streamAnswers = s.env.streamAnswers ∧ t.view = s.view := by
  by_cases hc : s.handle = .closed
  · simp only [hc, if_true] at hp ⊢
    obtain ⟨a, b, rfl⟩ : ∃ a b, pins = [a, b] := by
      match pins, hp with
      | [a, b], _ => exact ⟨a, b, rfl⟩
    have h1 : s.env.answers = .ok none a :: .ok none b :: rest := h
    have hdr := drawn_of_cons h1
    generalize hu : ((s.setEnv { s.env with answers := .ok none b :: rest }).called
      (.openCall s.params.vid s.params.pid (.ok ()))).setHandle .opened = u
    have hp1 : u.params = s.params := by rw [← hu]; rfl
    have w1 : Went s u [.openCall s.params.vid s.params.pid (.ok ())] (.ok none b :: rest) := by
      rw [← hu]
      exact ⟨(FlowFrame.call hdr.inputs hdr.honest hdr.returns (ev := .openCall _ _ _) ⟨rfl, rfl⟩
        (by simp)).trans (.opened _), by simp [State.trace], rfl⟩
    have ho : openHandle s = .ok () u := by
      simp only [openHandle, hc, if_true, txOpen_ok h1, Res.andThen, hu]
    obtain ⟨t, hx, w2, d, e1, e2, e3, e4, e5, e6⟩ := txSetDir_went (s := u)
      (d := idleDirection u.params) (.inl rfl) w1.answers
    refine ⟨t, ?_, ?_, ?_, ?_, ?_, ?_, ?_, ?_, ?_⟩
    · simp only [openSub, ho, Res.andThen, hx]
    · simpa [hp1] using w1.trans w2
    · rw [d, hp1]
    · rw [e1, ← hu]; rfl
    · rw [e2, ← hu]; rfl
    · rw [e3, ← hu]; rfl
    · rw [e4, ← hu]; rfl
    · rw [e5, ← hu]; rfl
    · rw [e6, ← hu]; rfl
  · have hop : s.handle = .opened := by cases hs : s.handle <;> simp_all
    simp only [hop] at hp ⊢
    obtain ⟨a, rfl⟩ : ∃ a, pins = [a] := List.length_eq_one_iff.1 (by simpa using hp)
    have ho : openHandle s = .ok () s := by simp [openHandle, hop]
    obtain ⟨t, hx, w2, d, e1, e2, e3, e4, e5, e6⟩ := txSetDir_went (s := s)
      (d := idleDirection s.params) (p := a) (rest := rest) (.inl rfl) (by simpa using h)
    refine ⟨t, ?_, ?_, d, ?_, e2, e3, e4, e5, e6⟩
    · simp only [openSub, ho, Res.andThen, hx]
    · simpa using w2
    · rw [e1, hop]

/-- The identifier is reported (43_workflow.md R136). -/
theorem diag_went (s : State) (id : Word) :
    Went s ((s.setFlow { s.flow with id := id }).called (.diag id)) [.diag id] s.env.answers :=
  ⟨(Went.flow s _).frame.trans (flowFrame_closed.diag _ id), by simp [State.trace], rfl⟩

/-- What a bus operation leaves of the workflow's own state. -/
structure FlowKept (s t : State) : Prop where
  wireDir : t.wireDir = s.wireDir
  handle : t.handle = s.handle
  lastPage : t.lastPage = s.lastPage
  flow : t.flow = s.flow
  stream : t.env.stream = s.env.stream
  streamAnswers : t.env.streamAnswers = s.env.streamAnswers

theorem Passed.kept {s t : State} {new : List Event} {rest : List TxAnswer}
    (h : Passed s t new rest) : FlowKept s t :=
  ⟨h.frame.wireDir, h.frame.handle, h.frame.lastPage, h.frame.flow, h.frame.stream,
    h.frame.streamAnswers⟩

/-- The events of PROGRAM's steps 1 and 2: the open when the handle was closed, the idle direction, the
identifier (43_workflow.md R143). -/
def openEvents (s : State) : List Event :=
  (if s.handle = .closed then [.openCall s.params.vid s.params.pid (.ok ())] else [])
    ++ [.setDir (idleDirection s.params) s.params.bitbangMode (.ok ())]

/-- PROGRAM's steps 1 and 2 with Ok answers (43_workflow.md R136). -/
theorem openAndId_went (s : State) (openPins idPins : List Byte) (rest : List TxAnswer)
    (ho : openPins.length = if s.handle = .closed then 2 else 1) (hi : idPins.length = 99)
    (h : s.env.answers = yes (openPins ++ idPins) ++ rest) :
    ∃ t bytes, programOpenAndId s = .ok () t ∧
      Went s t (openEvents s ++ readEvents s.params 0x9F 4 idPins ++ [.diag (identifier bytes)])
        rest ∧ bytes.length = 4 ∧ Sampled s.params idPins 1 bytes ∧
      t.wireDir = some (idleDirection s.params) ∧ t.handle = .opened ∧ t.lastPage = none ∧
      t.flow = { s.flow with id := identifier bytes } ∧ t.env.stream = s.env.stream ∧
      t.env.streamAnswers = s.env.streamAnswers ∧
      t.view = ⟨some (idleByte s.params), s.pollOwed⟩ := by
  have w0 := Went.lastPage s none
  obtain ⟨t1, hx1, w1, d1, h1, l1, f1, st1, sa1, v1⟩ := openSub_went (s.setLastPage none) openPins
    (yes idPins ++ rest) ho (by rw [w0.answers, h]; simp)
  have hp1 : t1.params = s.params := w1.frame.params
  obtain ⟨t2, bytes, hx2, q2, b2, -, o2, -, hb, hsam⟩ := readId_passed t1 idPins rest hi w1.answers
  have w3 := diag_went t2 (identifier bytes)
  have k2 := q2.kept
  refine ⟨(t2.setFlow { t2.flow with id := identifier bytes }).called (.diag (identifier bytes)),
    bytes, by simp only [programOpenAndId, hx1, Res.raise, Res.andThen, hx2], ?_, hb, hp1 ▸ hsam,
    k2.wireDir.trans d1, k2.handle.trans h1, k2.lastPage.trans l1, ?_, k2.stream.trans st1, k2.streamAnswers.trans sa1, ?_⟩
  · rw [← q2.answers]
    have := ((w0.trans w1).trans q2.went).trans w3
    cases hh : s.handle <;> simpa [openEvents, hp1, hh] using this
  · show { t2.flow with id := identifier bytes } = _
    rw [k2.flow, f1]; rfl
  · show (⟨t2.wireOut, t2.pollOwed⟩ : BusView) = _
    rw [b2, o2, hp1, show t1.pollOwed = s.pollOwed from congrArg BusView.owed v1]

/-- PROGRAM's step 3 up to the erase, with an Ok answer (43_workflow.md R137). -/
theorem programErase_split (s : State) (p : Byte) (rest : List TxAnswer)
    (h : s.env.answers = .ok none p :: rest) :
    ∃ t, programErase s = eraseAll s.params.eraseTimeout t ∧
      Went s t [.setDir (programDirection s.params) s.params.bitbangMode (.ok ())] rest ∧
      t.wireDir = some (programDirection s.params) ∧ t.handle = s.handle ∧
      t.lastPage = s.lastPage ∧ t.flow = s.flow ∧ t.env.stream = s.env.stream ∧
      t.env.streamAnswers = s.env.streamAnswers ∧ t.view = s.view := by
  obtain ⟨t, hx, w, r⟩ := txSetDir_went (d := programDirection s.params) (.inr rfl) h
  refine ⟨t, ?_, w, r⟩
  simp only [programErase, hx, Res.raise, Res.andThen]
  rw [show t.params = s.params from w.frame.params]

/-- PROGRAM's steps 1 to 3 with Ok answers (43_workflow.md R136, R137). -/
theorem programHead_went (s : State) (openPins idPins dirPins : List Byte)
    (eraseSegs : List (List Byte)) (rest : List TxAnswer)
    (ho : openPins.length = if s.handle = .closed then 2 else 1) (hi : idPins.length = 99)
    (hd : dirPins.length = 1) (hlen : eraseSegs.length = 18)
    (hr : ∀ p ∈ eraseSegs, ReadyAfter s.params 5 s.params.eraseTimeout p)
    (h : s.env.answers = yes (openPins ++ idPins ++ dirPins ++ eraseSegs.flatten) ++ rest) :
    ∃ t bytes, ((programOpenAndId s).andThen fun _ s => programErase s) = .ok () t ∧
      Went s t (programHead s.params (s.handle == .closed) idPins (identifier bytes) eraseSegs)
        rest ∧ bytes.length = 4 ∧ Sampled s.params idPins 1 bytes ∧
      t.wireDir = some (programDirection s.params) ∧ t.handle = .opened ∧ t.lastPage = none ∧
      t.flow = { s.flow with id := identifier bytes } ∧ t.env.stream = s.env.stream ∧
      t.env.streamAnswers = s.env.streamAnswers ∧
      t.view = ⟨some (idleByte s.params), false⟩ := by
  obtain ⟨t1, bytes, hx1, w1, hb, hsam, -, h1, l1, f1, st1, sa1, -⟩ := openAndId_went s openPins idPins
    (yes (dirPins ++ eraseSegs.flatten) ++ rest) ho hi (by rw [h]; simp)
  have hp1 : t1.params = s.params := w1.frame.params
  obtain ⟨a, rfl⟩ := List.length_eq_one_iff.1 hd
  obtain ⟨t2, hx2, w2, d2, h2, l2, f2, st2, sa2, -⟩ := programErase_split t1 a
    (yes eraseSegs.flatten ++ rest) (by rw [w1.answers]; simp)
  have hp2 : t2.params = s.params := w2.frame.params.trans hp1
  obtain ⟨t, hx, q, b, o⟩ := eraseAll_passed t1.params.eraseTimeout t2 eraseSegs rest hlen
    (by rw [hp1, hp2]; exact hr) w2.answers
  have k := q.kept
  refine ⟨t, bytes, by simp only [hx1, Res.andThen, hx2, hx], ?_, hb, hsam, ?_,
    k.handle.trans (h2.trans h1), k.lastPage.trans (l2.trans l1), k.flow.trans (f2.trans f1),
    k.stream.trans (st2.trans st1), k.streamAnswers.trans (sa2.trans sa1), ?_⟩
  · have := (w1.trans w2).trans q.went
    cases hh : s.handle <;> simpa [programHead, openEvents, hp1, hp2, hh] using this
  · rw [k.wireDir, d2, hp1]
  · show (⟨t.wireOut, t.pollOwed⟩ : BusView) = _
    rw [b, o, hp2]

/-- StreamRead with an Ok answer (20_memory.md R46). -/
theorem streamRead_ok {s : State} {n : Nat} {rest : List StreamAnswer}
    (h : s.env.streamAnswers = .ok :: rest) :
    streamRead n s = .ok (s.env.stream.take n)
      ((s.setEnv { s.env with streamAnswers := rest, stream := s.env.stream.drop n }).called
        (.streamRead n (.ok (s.env.stream.take n)))) := by
  simp [streamRead, nextStreamAnswer, h]

theorem streamRead_went {s : State} {rest : List StreamAnswer}
    (h : s.env.streamAnswers = .ok :: rest) :
    ∃ t, streamRead Config.pageSize s = .ok (s.env.stream.take 264) t ∧
      Went s t [.streamRead 264 (.ok (s.env.stream.take 264))] s.env.answers ∧
      t.env.stream = s.env.stream.drop 264 ∧ t.env.streamAnswers = rest ∧
      t.wireDir = s.wireDir ∧ t.handle = s.handle ∧ t.lastPage = s.lastPage ∧ t.flow = s.flow ∧
      t.view = s.view := by
  refine ⟨_, streamRead_ok h, ⟨?_, ?_, rfl⟩, rfl, rfl, rfl, rfl, rfl, rfl, rfl⟩
  · refine FlowFrame.call (e := { s.env with
      streamAnswers := rest, stream := s.env.stream.drop Config.pageSize }) rfl (fun x => x)
      (fun x => ?_) (ev := .streamRead Config.pageSize _) rfl (by simp)
    simp only [Env.returns, h, Bool.and_eq_true, List.all_cons] at x ⊢
    exact ⟨x.1, x.2.2⟩
  · simp [State.trace, Config.pageSize]

/-- A page of the workflow with Ok answers (43_workflow.md R138). -/
theorem programPage_went (data : List Byte) (hd : data.length = 264) (page : Page) (s : State)
    (pins : List Byte) (rest : List TxAnswer)
    (hr : ReadyAfter s.params 274 s.params.writeTimeout pins)
    (h : s.env.answers = yes pins ++ rest) :
    ∃ t, programPage data page s = .ok () t ∧
      Went s t (pageEvents s.params data page pins) rest ∧ t.lastPage = some page ∧
      t.wireDir = s.wireDir ∧ t.handle = s.handle ∧ t.flow = s.flow ∧
      t.env.stream = s.env.stream ∧ t.env.streamAnswers = s.env.streamAnswers ∧
      t.view = ⟨some (idleByte s.params), false⟩ := by
  obtain ⟨u, hx, q, b, o⟩ := writePage_passed data hd page s pins rest hr h
  have k := q.kept
  refine ⟨u.setLastPage (some page), by simp only [programPage, hx, Res.andThen], ?_, rfl,
    k.wireDir, k.handle, k.flow, k.stream, k.streamAnswers, congrArg₂ BusView.mk b o⟩
  have := q.went.trans (Went.lastPage u (some page))
  rw [q.answers] at this
  simpa using this

/-- The page loop over whole pages (43_workflow.md R138). -/
theorem pageLoop_pages (segs : List (List Byte)) (n : Nat) (hn : segs.length ≤ n)
    (h8 : n ≤ 8192) (s : State)
    (rest : List TxAnswer) (srest : List StreamAnswer)
    (hb : s.flow.pagebuf.length = 264) (hst : 264 * segs.length ≤ s.env.stream.length)
    (hr : ∀ p ∈ segs, ReadyAfter s.params 274 s.params.writeTimeout p)
    (h : s.env.answers = yes segs.flatten ++ rest)
    (hs : s.env.streamAnswers = List.replicate segs.length .ok ++ srest) :
    ∃ t, pageLoop n s = pageLoop (n - segs.length) t ∧
      Went s t (fullPageEvents s.params s.env.stream (8192 - n) segs) rest ∧
      t.env.stream = s.env.stream.drop (264 * segs.length) ∧ t.env.streamAnswers = srest ∧
      t.wireDir = s.wireDir ∧ t.handle = s.handle ∧ t.flow.pStop = s.flow.pStop ∧
      t.flow.pagebuf.length = 264 ∧
      t.lastPage = (if segs = [] then s.lastPage
        else some (BitVec.ofNat 13 (8192 - n + segs.length - 1))) ∧
      t.view = (if segs = [] then s.view else ⟨some (idleByte s.params), false⟩) := by
  induction segs generalizing n s with
  | nil =>
    refine ⟨s, by simp, ⟨.refl s, by simp [fullPageEvents], by simpa using h⟩, by simp,
      by simpa using hs, rfl, rfl, rfl, hb, by simp, by simp⟩
  | cons pins segs ih =>
    obtain ⟨n, rfl⟩ : ∃ m, n = m + 1 := ⟨n - 1, by simp at hn; omega⟩
    simp only [List.length_cons] at hst hs hn
    have w0 := Went.flow s { s.flow with p := BitVec.ofNat 13 (Config.capacityPages - (n + 1)) }
    generalize ht0 : s.setFlow
      { s.flow with p := BitVec.ofNat 13 (Config.capacityPages - (n + 1)) } = t0 at w0
    have hp0 : t0.params = s.params := w0.frame.params
    have he0 : t0.env = s.env := by rw [← ht0]; rfl
    obtain ⟨t1, hx1, w1, st1, sa1, d1, h1, l1, f1, -⟩ := streamRead_went (s := t0)
      (rest := List.replicate segs.length .ok ++ srest) (by rw [he0, hs]; rfl)
    rw [he0] at hx1 w1 st1
    have hp1 : t1.params = s.params := w1.frame.params.trans hp0
    have hl : (s.env.stream.take 264).length = 264 := by simp; omega
    generalize hpage : s.env.stream.take 264 = page at *
    have hbuf : memWrite t1.flow.pagebuf 0 page = page := by
      have : t1.flow.pagebuf.length = 264 := by rw [f1, ← ht0]; exact hb
      simp [memWrite, hl, List.drop_eq_nil_of_le (Nat.le_of_eq this)]
    have w2 := Went.flow t1 { t1.flow with k := BitVec.ofNat 9 page.length, pagebuf := page }
    generalize ht2 : t1.setFlow { t1.flow with k := BitVec.ofNat 9 page.length, pagebuf := page } =
      t2 at w2
    have hp2 : t2.params = s.params := w2.frame.params.trans hp1
    have hfp : t2.flow.p = BitVec.ofNat 13 (8192 - (n + 1)) := by
      rw [← ht2, State.setFlow_flow, f1, ← ht0]; rfl
    have hfb : t2.flow.pagebuf = page := by rw [← ht2]; rfl
    obtain ⟨t3, hx3, w3, l3, d3, h3, f3, st3, sa3, v3⟩ := programPage_went page hl t2.flow.p t2 pins
      (yes segs.flatten ++ rest) (by rw [hp2]; exact hr pins (by simp))
      (by rw [w2.answers, w1.answers, h]; simp)
    have hp3 : t3.params = s.params := w3.frame.params.trans hp2
    have e2 : t2.env = t1.env := by rw [← ht2]; rfl
    obtain ⟨t, hx, w, st, sa, d, hh, ps, pb, lp, v⟩ := ih n (by omega) (by omega) t3
      (by rw [f3, hfb]; exact hl) (by rw [st3, e2, st1, List.length_drop]; omega)
      (fun p hp => hp3 ▸ hr p (by simp [hp])) w3.answers (by rw [sa3, e2, sa1])
    refine ⟨t, ?_, ?_, ?_, sa, ?_, ?_, ?_, pb, ?_, ?_⟩
    · rw [show n + 1 - (pins :: segs).length = n - segs.length by simp, ← hx]
      conv => lhs; unfold pageLoop
      have hsh : shortRead 264 = false := by decide
      rw [hl] at ht2
      simp only [ht0, hx1, Res.raiseStream, Res.andThen, hbuf, hl, ht2, hsh, hfb, hx3]
      rfl
    · have := (((w0.trans w1).trans w2).trans w3).trans w
      have he8 : 8192 - (n + 1) + 1 = 8192 - n := by omega
      rw [st3, e2, st1, hp3, hp2, hfp] at this
      rw [fullPageEvents, hpage, he8]
      simpa using this
    · rw [st, st3, e2, st1, List.drop_drop, List.length_cons]
      congr 1; omega
    · rw [d, d3, ← ht2]; exact d1.trans (by rw [← ht0]; rfl)
    · rw [hh, h3, ← ht2]; exact h1.trans (by rw [← ht0]; rfl)
    · rw [ps, f3, ← ht2, State.setFlow_flow, f1, ← ht0]; rfl
    · rw [lp]
      by_cases hn : segs = []
      · simp [hn, l3, hfp]
      · have hpos : 0 < segs.length := List.length_pos_iff.2 hn
        simp only [hn, if_false, List.length_cons, reduceCtorEq]
        congr 2; omega
    · rw [v, v3, hp3, hp2]; simp

/-- The page loop's short read (43_workflow.md R138). -/
theorem pageLoop_short (n : Nat) (s : State) (rest : List StreamAnswer)
    (hst : s.env.stream.length < 264) (hs : s.env.streamAnswers = .ok :: rest) :
    ∃ t, pageLoop (n + 1) s = .ok () t ∧
      Went s t [.streamRead 264 (.ok s.env.stream)] s.env.answers ∧
      t.env.stream = [] ∧ t.env.streamAnswers = rest ∧ t.wireDir = s.wireDir ∧
      t.handle = s.handle ∧ t.lastPage = s.lastPage ∧
      t.flow.pStop = some (BitVec.ofNat 13 (8192 - (n + 1))) ∧
      t.flow.k = BitVec.ofNat 9 s.env.stream.length ∧
      t.flow.pagebuf = memWrite s.flow.pagebuf 0 s.env.stream ∧ t.view = s.view := by
  have w0 := Went.flow s { s.flow with p := BitVec.ofNat 13 (Config.capacityPages - (n + 1)) }
  generalize ht0 : s.setFlow
    { s.flow with p := BitVec.ofNat 13 (Config.capacityPages - (n + 1)) } = t0 at w0
  have he0 : t0.env = s.env := by rw [← ht0]; rfl
  obtain ⟨t1, hx1, w1, st1, sa1, d1, h1, l1, f1, v1⟩ := streamRead_went (s := t0) (rest := rest)
    (by rw [he0, hs])
  rw [he0, List.take_of_length_le (by omega)] at hx1 w1
  rw [he0, List.drop_eq_nil_of_le (by omega)] at st1
  have hsh : shortRead s.env.stream.length = true := decide_eq_true hst
  have w2 := Went.flow t1 { t1.flow with
    k := BitVec.ofNat 9 s.env.stream.length, pagebuf := memWrite t1.flow.pagebuf 0 s.env.stream }
  have w3 := Went.flow (t1.setFlow { t1.flow with
    k := BitVec.ofNat 9 s.env.stream.length, pagebuf := memWrite t1.flow.pagebuf 0 s.env.stream })
    { t1.flow with
      k := BitVec.ofNat 9 s.env.stream.length
      pagebuf := memWrite t1.flow.pagebuf 0 s.env.stream
      pStop := some t1.flow.p }
  refine ⟨(t1.setFlow { t1.flow with
    k := BitVec.ofNat 9 s.env.stream.length
    pagebuf := memWrite t1.flow.pagebuf 0 s.env.stream }).setFlow { t1.flow with
      k := BitVec.ofNat 9 s.env.stream.length
      pagebuf := memWrite t1.flow.pagebuf 0 s.env.stream
      pStop := some t1.flow.p }, ?_, ?_, st1, sa1, d1.trans (by rw [← ht0]; rfl),
    h1.trans (by rw [← ht0]; rfl), l1.trans (by rw [← ht0]; rfl), ?_, rfl, ?_,
    v1.trans (by rw [← ht0]; rfl)⟩
  rotate_left
  · have := ((w0.trans w1).trans w2).trans w3
    rw [State.setFlow_env, w1.answers] at this
    simpa using this
  · rw [State.setFlow_flow]
    simp only [f1, ← ht0]; rfl
  · rw [State.setFlow_flow]
    simp only [f1, ← ht0]; rfl
  · unfold pageLoop
    simp only [ht0, hx1, Res.raiseStream, Res.andThen, hsh, if_true]
    rfl

theorem Res.ok_andThen {ε α β : Type} (a : α) (t : State) (k : α → State → Res ε β) :
    (Res.ok a t).andThen k = k a t := rfl

theorem Res.err_andThen {ε α β : Type} (e : ε) (t : State) (k : α → State → Res ε β) :
    (Res.err e t).andThen k = .err e t := rfl

theorem Res.andThen_assoc {ε α β γ : Type} (x : Res ε α) (k : α → State → Res ε β)
    (l : β → State → Res ε γ) :
    (x.andThen k).andThen l = x.andThen fun a s => (k a s).andThen l := by
  cases x <;> rfl

/-- PROGRAM is its head, steps 1 to 3 (`programHead_went`), then its pages and its end. Cite this
rather than unfold: the page loop counts 8192 pages. -/
theorem programBody_split (s : State) :
    programBody s = ((programOpenAndId s).andThen fun _ s => programErase s).andThen fun _ s =>
      (pageLoop 8192 (s.setFlow { s.flow with pStop := none, k := 0 })).andThen fun _ s =>
        (programFinish s).andThen fun _ s =>
          (txSetDir (idleDirection s.params) s).raise.andThen fun _ s =>
            .ok (okResult (pagesWritten s.lastPage) []) s := by
  rw [Res.andThen_assoc]
  rfl

end Sys2Proof.Machine
end

