-- ==== Sys2Proof/Laws/Fails.lean ====
section
/-! SUPPORT. The bus operations when a listed answer is an error: what is called up to the error, the
recovery, and the error that is returned (41_spi_bitbanger.md R97, R103; 60_exceptions.md R149 to
R151). -/

namespace Sys2Proof.Machine

/-- An operation from `s` failed at `t`: the events it added, the answers that are left. What else it
leaves alone is the frame of every bus operation (Laws/Bus.lean). -/
structure Failed (s t : State) (new : List Event) (rest : List TxAnswer) : Prop where
  trace : t.trace = s.trace ++ new
  answers : t.env.answers = rest
  params : t.params = s.params
  owed : t.pollOwed = s.pollOwed

theorem Failed.trans {s t u : State} {new new' : List Event} {rest rest' : List TxAnswer}
    (h : Failed s t new rest) (k : Failed t u new' rest') : Failed s u (new ++ new') rest' :=
  ⟨by rw [k.trace, h.trace, List.append_assoc], k.answers, k.params.trans h.params,
    k.owed.trans h.owed⟩

/-- Successful calls first. -/
theorem Passed.failed {s t u : State} {new new' : List Event} {rest rest' : List TxAnswer}
    (h : Passed s t new rest) (ho : t.pollOwed = s.pollOwed) (k : Failed t u new' rest') :
    Failed s u (new ++ new') rest' :=
  ⟨by rw [k.trace, h.trace, List.append_assoc], k.answers, k.params.trans h.frame.params,
    k.owed.trans ho⟩

theorem txWrite_failed {s : State} {bs : List Byte} {e : Payload} {rest : List TxAnswer}
    (h : s.env.answers = .err e :: rest) :
    ∃ t, txWrite bs s = .err e t ∧ Failed s t [.write bs (.err e)] rest ∧ t.wireOut = none ∧
      t.spi = s.spi :=
  ⟨_, txWrite_err h, ⟨by simp [State.trace], rfl, rfl, rfl⟩, rfl, rfl⟩

/-- The best-effort write of IDLE, Ok or failing (60_exceptions.md R150). -/
theorem idle_answered {s : State} {a : TxAnswer} {o : Reply Unit} {w : Option Byte}
    {rest : List TxAnswer} (hi : IdleAnswer s.params a o w) (h : s.env.answers = a :: rest) :
    ∃ t, (txWrite [idleByte s.params] s = .ok () t ∨
        ∃ e, txWrite [idleByte s.params] s = .err e t) ∧
      Failed s t [.write [idleByte s.params] o] rest ∧ t.wireOut = w ∧ t.spi = s.spi := by
  cases hi with
  | ok p => exact ⟨_, .inl (txWrite_ok h), ⟨by simp [State.trace], rfl, rfl, rfl⟩, rfl, rfl⟩
  | err e => exact ⟨_, .inr ⟨e, txWrite_err h⟩, ⟨by simp [State.trace], rfl, rfl, rfl⟩, rfl, rfl⟩

/-- Recover() after an error (60_exceptions.md R150). -/
theorem recover_failed {α : Type} {s t : State} {r : Res Payload α} {e : Payload}
    {new : List Event} {a : TxAnswer} {o : Reply Unit} {w : Option Byte} {rest : List TxAnswer}
    (hr : r = .err e t) (hf : Failed s t new (a :: rest)) (hi : IdleAnswer s.params a o w) :
    ∃ u, r.recover = .err (.transport e) u ∧
      Failed s u (new ++ [.write [idleByte s.params] o]) rest ∧ u.wireOut = w := by
  obtain ⟨u, hx, f, hw, -⟩ := idle_answered (s := t) (hf.params ▸ hi) hf.answers
  refine ⟨u, ?_, hf.params ▸ hf.trans f, hw⟩
  subst hr
  simp only [Res.recover]
  rcases hx with hx | ⟨e', hx⟩ <;> rw [hx]

/-! ### SpiOut -/

/-- SpiOut's loop over bytes that all go out, then more. -/
theorem spiOutLoop_append (d : Device) (sent more : List Byte) (s : State) :
    spiOutLoop d (sent ++ more) s =
      (spiOutLoop d sent s).andThen fun _ t => spiOutLoop d more t := by
  induction sent generalizing s with
  | nil => rfl
  | cons b bs ih =>
    simp only [List.cons_append, spiOutLoop, Res.andThen_assoc]
    congr 1
    funext _ t
    exact ih t

/-- SpiOut whose write of byte `b` fails (41_spi_bitbanger.md R97). -/
theorem spiOut_failed (d : Device) (sent : List Byte) (b : Byte) (more : List Byte) (s : State)
    (pins : List Byte) (e : Payload) (rest : List TxAnswer) (hp : pins.length = sent.length)
    (h : s.env.answers = yes pins ++ (.err e :: rest)) :
    ∃ t, spiOut (sent ++ b :: more) d s = .err e t ∧
      Failed s t (spiOutEvents s.params d sent ++ [.write (spiWord s.params d b) (.err e)]) rest ∧
      t.wireOut = none := by
  obtain ⟨t1, hx1, q, -, -, ho, -⟩ := spiOutLoop_passed d sent s pins _ hp h
  have hp1 : t1.params = s.params := q.frame.params
  obtain ⟨t, hx, f, hw, -⟩ := txWrite_failed
    (s := t1.setSpi { t1.spi with w := spiWord t1.params d b }) (bs := spiWord t1.params d b)
    q.answers
  refine ⟨t, ?_, ?_, hw⟩
  · have hb : spiOutLoop d (b :: more) t1 = .err e t := by
      simp only [spiOutLoop, State.setSpi_spi, hx, Res.andThen]
    simp only [spiOut, spiOutLoop_append, hx1, Res.ok_andThen, hb, Res.err_andThen]
  · have := q.failed ho ⟨f.trace, f.answers, f.params, f.owed⟩
    rwa [hp1] at this

/-! ### SpiIn -/

/-- The calls of SpiIn answered Ok with the pin bytes `pins`. -/
def spiInCalls (P : Params) (d : Device) (pins : List Byte) : List Event :=
  (List.range pins.length).map fun k => spiInCall P d k (pins.getD k 0)

theorem spiInCalls_cons (P : Params) (d : Device) (p x y : Byte) (ps : List Byte) :
    spiInCalls P d (p :: x :: y :: ps) = sampleEvents P d [p, x, y] ++ spiInCalls P d ps := by
  unfold spiInCalls
  have : (p :: x :: y :: ps).length = ps.length + 1 + 1 + 1 := rfl
  rw [this, List.range_succ_eq_map, List.range_succ_eq_map, List.range_succ_eq_map]
  simp only [List.map_cons, List.map_map, sampleEvents, List.append_nil, List.cons_append,
    List.nil_append, List.getD_cons_zero]
  refine List.cons_eq_cons.2 ⟨rfl, List.cons_eq_cons.2 ⟨rfl, List.cons_eq_cons.2 ⟨rfl, ?_⟩⟩⟩
  apply List.map_congr_left
  intro k hk
  have h3 : (k + 1 + 1 + 1) % 3 = k % 3 := by omega
  simp [Function.comp, spiInCall, h3]

theorem spiInCalls_append (P : Params) (d : Device) (k : Nat) (ps qs : List Byte)
    (h : ps.length = 3 * k) :
    spiInCalls P d (ps ++ qs) = sampleEvents P d ps ++ spiInCalls P d qs := by
  induction k generalizing ps with
  | zero =>
    obtain rfl : ps = [] := List.eq_nil_of_length_eq_zero (by simpa using h)
    simp [sampleEvents]
  | succ k ih =>
    match ps, h with
    | p :: x :: y :: ps, h =>
      simp only [List.length_cons] at h
      simp only [List.cons_append]
      rw [spiInCalls_cons, ih ps (by omega)]
      simp [sampleEvents]
    | [], h => simp at h
    | [_], h => simp at h; omega
    | [_, _], h => simp at h; omega

theorem spiInFail_mod (P : Params) (d : Device) (e : Payload) (n m : Nat) (h : n % 3 = m % 3) :
    spiInFail P d n e = spiInFail P d m e := by simp [spiInFail, h]

/-- One bit of SpiIn whose call number `pins.length` fails. -/
theorem sampleBit_failed (d : Device) (i : Nat) (s : State) (pins : List Byte)
    (hl : pins.length < 3) (e : Payload) (rest : List TxAnswer)
    (h : s.env.answers = yes pins ++ (.err e :: rest)) :
    ∃ t, sampleBit d i s = .err e t ∧
      Failed s t (spiInCalls s.params d pins ++ [spiInFail s.params d pins.length e]) rest := by
  match pins, hl with
  | [], _ =>
    have := txReadPins_err (s := s) (by simpa using h)
    refine ⟨(s.setEnv { s.env with answers := rest }).called (.readPins (.err e)), ?_, ?_, rfl, rfl,
      rfl⟩
    · unfold sampleBit; rw [this]; rfl
    · simp [State.trace, spiInCalls, spiInFail]
  | p :: more, hl =>
    obtain ⟨t1, hx1, q1, w1, e1, o1, k1⟩ := txReadPins_passed (s := s) (p := p)
      (rest := yes more ++ (.err e :: rest)) (by simpa using h)
    generalize hs : (if dataInLevel t1.params p
      then t1.setSpi { t1.spi with acc := t1.spi.acc ||| ((1#8) <<< i) } else t1) = t2
    have q2 : Passed t1 t2 [] t1.env.answers := by
      rw [← hs]; split
      · exact Passed.spi t1 _ (.inl rfl)
      · exact Passed.here t1
    have hp2 : t2.params = s.params := q2.frame.params.trans q1.frame.params
    have ho : t2.pollOwed = s.pollOwed := by rw [← hs]; split <;> simp [k1]
    match more, hl with
    | [], _ =>
      obtain ⟨t, hx, f, -⟩ := txWrite_failed (s := t2)
        (bs := [selpat t2.params d ||| pinBit t2.params .clk]) (e := e) (rest := rest)
        (by rw [q2.answers, q1.answers]; rfl)
      refine ⟨t, by simp only [sampleBit, hx1, Res.andThen, hs, hx], ?_⟩
      have := (q1.trans q2).failed ho f
      simpa [spiInCalls, spiInFail, spiInCall, List.range_succ, hp2] using this
    | [x], _ =>
      obtain ⟨t3, hx3, q3, w3, e3, o3, k3⟩ := txWrite_passed (s := t2)
        (bs := [selpat t2.params d ||| pinBit t2.params .clk]) (p := x) (rest := .err e :: rest)
        (by simp) (by simpa using selpat_clk_form t2.params d) (by rw [q2.answers, q1.answers]; rfl)
      have hp3 : t3.params = s.params := q3.frame.params.trans hp2
      obtain ⟨t, hx, f, -⟩ := txWrite_failed (s := t3) (bs := [selpat t3.params d]) (e := e)
        (rest := rest) q3.answers
      refine ⟨t, by simp only [sampleBit, hx1, Res.andThen, hs, hx3, hx], ?_⟩
      have := ((q1.trans q2).trans q3).failed (k3.trans ho) f
      simpa [spiInCalls, spiInFail, spiInCall, List.range_succ, hp2, hp3] using this

theorem bitLoop_failed (d : Device) (n : Nat) (s : State) (hn : n ≤ 8) (pins : List Byte)
    (hl : pins.length < 3 * n) (e : Payload) (rest : List TxAnswer)
    (h : s.env.answers = yes pins ++ (.err e :: rest)) :
    ∃ t, bitLoop d n s = .err e t ∧
      Failed s t (spiInCalls s.params d pins ++ [spiInFail s.params d pins.length e]) rest := by
  induction n generalizing s pins with
  | zero => omega
  | succ n ih =>
    by_cases h3 : pins.length < 3
    · obtain ⟨t, hx, f⟩ := sampleBit_failed d n s pins h3 e rest h
      exact ⟨t, by simp only [bitLoop, hx, Res.andThen], f⟩
    · obtain ⟨p, x, y, ps, rfl⟩ : ∃ p x y ps, pins = p :: x :: y :: ps := by
        match pins, h3 with
        | p :: x :: y :: ps, _ => exact ⟨p, x, y, ps, rfl⟩
        | [], hp => simp at hp
        | [_], hp => simp at hp
        | [_, _], hp => simp at hp
      obtain ⟨t1, hx1, q1, w1, o1, k1, e1⟩ := sampleBit_passed d n s p x y
        (yes ps ++ (.err e :: rest)) (by simpa using h)
      obtain ⟨t, hx, f⟩ := ih t1 (by omega) ps (by simp at hl; omega) q1.answers
      refine ⟨t, by simp only [bitLoop, hx1, Res.andThen, hx], ?_⟩
      have := q1.failed k1 f
      rw [spiInCalls_cons, spiInFail_mod _ _ _ (p :: x :: y :: ps).length ps.length
        (by simp; omega)]
      rw [q1.frame.params] at this
      simpa using this

theorem byteLoop_failed (d : Device) (n j : Nat) (s : State) (pins : List Byte)
    (hl : pins.length < 24 * n) (e : Payload) (rest : List TxAnswer)
    (h : s.env.answers = yes pins ++ (.err e :: rest)) :
    ∃ t, byteLoop d n j s = .err e t ∧
      Failed s t (spiInCalls s.params d pins ++ [spiInFail s.params d pins.length e]) rest := by
  induction n generalizing s pins j with
  | zero => omega
  | succ n ih =>
    generalize hz : s.setSpi { s.spi with acc := 0x00 } = s1
    have q1 : Passed s s1 [] s.env.answers := hz ▸ Passed.spi s _ (.inl rfl)
    have ho1 : s1.pollOwed = s.pollOwed := by rw [← hz]; rfl
    have hp1 : s1.params = s.params := q1.frame.params
    by_cases h24 : pins.length < 24
    · obtain ⟨t, hx, f⟩ := bitLoop_failed d 8 s1 (by omega) pins h24 e rest (q1.answers.trans h)
      refine ⟨t, by simp only [byteLoop, hz, hx, Res.andThen], ?_⟩
      have := q1.failed ho1 f
      rw [hp1] at this
      simpa using this
    · have hl24 : (pins.take 24).length = 24 := by simp; omega
      obtain ⟨t1, hx1, q2, w2, o2, k2, sw2, sr2, se2, acc2⟩ := bitLoop_passed d 8 (by omega) s1
        (pins.take 24) (yes (pins.drop 24) ++ (.err e :: rest)) hl24
        (by rw [q1.answers, h, ← List.append_assoc, ← yes_split])
      have hpt1 : t1.params = s.params := q2.frame.params.trans hp1
      generalize hm : t1.setSpi { t1.spi with rxbuf := memWrite t1.spi.rxbuf j [t1.spi.acc] } = t2
      have q3 : Passed t1 t2 [] t1.env.answers := hm ▸ Passed.spi t1 _ (.inl rfl)
      have hpt2 : t2.params = s.params := q3.frame.params.trans hpt1
      have ho2 : t2.pollOwed = s.pollOwed := by rw [← hm]; exact k2.trans ho1
      obtain ⟨t, hx, f⟩ := ih (j + 1) t2 (pins.drop 24) (by simp; omega)
        (by rw [q3.answers, q2.answers])
      refine ⟨t, by simp only [byteLoop, hz, hx1, Res.andThen, hm, hx], ?_⟩
      have := ((q1.trans q2).trans q3).failed ho2 f
      have hsp := spiInCalls_append s.params d 8 (pins.take 24) (pins.drop 24) hl24
      rw [List.take_append_drop] at hsp
      rw [hsp, spiInFail_mod _ _ _ pins.length (pins.drop 24).length (by simp; omega)]
      rw [hpt2, hp1] at this
      simpa using this

/-- SpiIn whose call number `pins.length` fails: its own write of IDLE, then the first error
(41_spi_bitbanger.md R103). -/
theorem spiIn_failed (n : Nat) (d : Device) (s : State) (pins : List Byte) (e : Payload)
    (a : TxAnswer) (rest : List TxAnswer) (o : Reply Unit) (w : Option Byte)
    (hl : pins.length < 24 * n) (hi : IdleAnswer s.params a o w)
    (h : s.env.answers = yes pins ++ (.err e :: a :: rest)) :
    ∃ t, spiIn n d s = .err e t ∧
      Failed s t (spiInCalls s.params d pins ++
        [spiInFail s.params d pins.length e, .write [idleByte s.params] o]) rest ∧
      t.wireOut = w ∧ t.spi.err = some e := by
  generalize hz : s.setSpi { s.spi with err := none, rxbuf := [] } = s1
  have q1 : Passed s s1 [] s.env.answers := hz ▸ Passed.spi s _ (.inl rfl)
  have ho1 : s1.pollOwed = s.pollOwed := by rw [← hz]; rfl
  have hp1 : s1.params = s.params := q1.frame.params
  obtain ⟨t1, hx1, f1⟩ := byteLoop_failed d n 0 s1 pins hl e (a :: rest) (q1.answers.trans h)
  have hpt : t1.params = s.params := f1.params.trans hp1
  have f2 : Failed t1 (t1.setSpi { t1.spi with err := some e }) [] (a :: rest) :=
    ⟨by simp [State.trace], f1.answers, rfl, rfl⟩
  obtain ⟨t, hx, f3, w3, s3⟩ := idle_answered (s := t1.setSpi { t1.spi with err := some e })
    (a := a) (o := o) (w := w) (by simpa [hpt] using hi) f2.answers
  refine ⟨t, ?_, ?_, w3, by rw [s3]; rfl⟩
  · simp only [spiIn, hz, hx1, closeSpiIn]
    simp only [State.setSpi_params] at hx
    rcases hx with hx | ⟨e', hx⟩ <;> rw [hx]
  · have := q1.failed ho1 ((f1.trans f2).trans f3)
    simpa [hpt, hp1] using this

/-- SpiIn whose closing write of IDLE fails (41_spi_bitbanger.md R103). -/
theorem spiIn_closeFailed (n : Nat) (d : Device) (s : State) (pins : List Byte) (e : Payload)
    (rest : List TxAnswer) (hl : pins.length = 24 * n)
    (h : s.env.answers = yes pins ++ (.err e :: rest)) :
    ∃ t, spiIn n d s = .err e t ∧
      Failed s t (sampleEvents s.params d pins ++ [.write [idleByte s.params] (.err e)]) rest ∧
      t.wireOut = none := by
  generalize hz : s.setSpi { s.spi with err := none, rxbuf := [] } = s1
  have q1 : Passed s s1 [] s.env.answers := hz ▸ Passed.spi s _ (.inl rfl)
  have ho1 : s1.pollOwed = s.pollOwed := by rw [← hz]; rfl
  have hp1 : s1.params = s.params := q1.frame.params
  obtain ⟨t1, bytes, hx1, q2, w2, o2, k2, -⟩ := byteLoop_passed d n 0 s1 pins (.err e :: rest) hl
    (by simp [← hz]) (q1.answers.trans h)
  have hpt1 : t1.params = s.params := q2.frame.params.trans hp1
  obtain ⟨t, hx, f, hw, -⟩ := txWrite_failed (s := t1) (bs := [idleByte t1.params]) q2.answers
  refine ⟨t.setSpi { t.spi with err := some e }, ?_, ?_, hw⟩
  · simp only [spiIn, hz, hx1, closeSpiIn, hx]
  · have g := (q1.trans q2).failed (k2.trans ho1) f
    refine ⟨?_, g.answers, g.params, g.owed⟩
    simpa [State.trace, hp1, hpt1] using g.trace

/-- A deselect that fails: no recovery (60_exceptions.md R151 (a)). -/
theorem deselect_failed {s : State} {e : Payload} {rest : List TxAnswer}
    (h : s.env.answers = .err e :: rest) :
    ∃ t, deselect s = .err (.transport e) t ∧
      Failed s t [.write [idleByte s.params] (.err e)] rest ∧ t.wireOut = none := by
  obtain ⟨t, hx, f, w, -⟩ := txWrite_failed (bs := [idleByte s.params]) h
  have hx' : select .idle s = .err e t := hx
  exact ⟨t, by simp only [deselect, hx']; rfl, f, w⟩

end Sys2Proof.Machine
end

