-- ==== Sys2Proof/Laws/Narrow.lean ====
section
/-! SUPPORT. The narrow frames: what SELECT, SPI_OUT, SPI_IN and READ_ID leave alone beyond what every
bus operation does: the poll registers, and of the SPI registers those the operation does not name
(40_device_selector.md R90; 41_spi_bitbanger.md R96, R102). -/

namespace Sys2Proof.Machine

/-- A bus frame that keeps the poll registers, and the SPI registers up to `K`. -/
structure NarrowFrame (K : SpiRegs → SpiRegs → Prop) (s t : State) : Prop extends BusFrame s t where
  poll : t.poll = s.poll
  pollOwed : t.pollOwed = s.pollOwed
  spi : K s.spi t.spi

/-- The SPI registers are unchanged. -/
def SameSpi (a b : SpiRegs) : Prop := b = a

/-- Only S.W may change: what SPI_OUT writes (10_state.md R27). -/
def OutSpi (a b : SpiRegs) : Prop := b.acc = a.acc ∧ b.rxbuf = a.rxbuf ∧ b.err = a.err

/-- S.W is unchanged: SPI_IN writes the others (10_state.md R28). -/
def InSpi (a b : SpiRegs) : Prop := b.w = a.w

/-- Any SPI register may change. -/
def AnySpi (_ _ : SpiRegs) : Prop := True

/-- A preorder. -/
structure SpiOrder (K : SpiRegs → SpiRegs → Prop) : Prop where
  refl : ∀ r, K r r
  trans : ∀ {a b c}, K a b → K b c → K a c

theorem sameSpi_order : SpiOrder SameSpi := ⟨fun _ => rfl, fun h k => k.trans h⟩

theorem outSpi_order : SpiOrder OutSpi :=
  ⟨fun _ => ⟨rfl, rfl, rfl⟩, fun h k => ⟨k.1.trans h.1, k.2.1.trans h.2.1, k.2.2.trans h.2.2⟩⟩

theorem inSpi_order : SpiOrder InSpi := ⟨fun _ => rfl, fun h k => Eq.trans k h⟩

theorem anySpi_order : SpiOrder AnySpi := ⟨fun _ => trivial, fun _ _ => trivial⟩

variable {K : SpiRegs → SpiRegs → Prop}

theorem narrow_chains (hK : SpiOrder K) : Chains (NarrowFrame K) where
  refl s := ⟨.refl s, rfl, rfl, hK.refl _⟩
  trans h k := ⟨h.toBusFrame.trans k.toBusFrame, k.poll.trans h.poll, k.pollOwed.trans h.pollOwed,
    hK.trans h.spi k.spi⟩
  honest h := h.honest
  returns h := h.returns

theorem narrow_spi (s : State) (r : SpiRegs) (hw : r.w = s.spi.w ∨ r.w.length = 17)
    (hk : K s.spi r) : NarrowFrame K s (s.setSpi r) :=
  ⟨busFrame_closed.spi s r hw, rfl, rfl, hk⟩

theorem txWrite_narrow (hK : SpiOrder K) {bs : List Byte} {s : State} (hne : bs ≠ [])
    (hf : ∀ b ∈ bs, ControlByteForm s.params b) : (txWrite bs s).Ends (NarrowFrame K) s :=
  txWrite_ends bs s
    (fun _ hd => ⟨(BusFrame.call hd (.write hne hf)).trans (.wire _ _), rfl, rfl, hK.refl _⟩)
    (fun _ _ hd => ⟨(BusFrame.call hd (.write hne hf)).trans (.wire _ _), rfl, rfl, hK.refl _⟩)
    (fun _ hd => ⟨(BusFrame.draw hd).trans (.wire _ _), rfl, rfl, hK.refl _⟩)

theorem txReadPins_narrow (hK : SpiOrder K) (s : State) : (txReadPins s).Ends (NarrowFrame K) s :=
  txReadPins_ends s (fun _ _ hd => ⟨BusFrame.call hd .readPins, rfl, rfl, hK.refl _⟩)
    fun _ hd => ⟨BusFrame.draw hd, rfl, rfl, hK.refl _⟩

theorem select_narrow (hK : SpiOrder K) (d : Device) (s : State) :
    (select d s).Ends (NarrowFrame K) s :=
  txWrite_narrow hK (by simp) (by simpa using selpat_form s.params d)

theorem spiOut_narrow (hK : SpiOrder K) (hw : ∀ r w, K r { r with w := w }) (data : List Byte)
    (d : Device) (s : State) : (spiOut data d s).Ends (NarrowFrame K) s := by
  have hc := narrow_chains hK
  refine Res.Ends.andThen hc ?_ fun _ t _ => hc.refl t
  induction data generalizing s with
  | nil => exact hc.refl s
  | cons b bs ih =>
    refine Res.Ends.from hc (narrow_spi s { s.spi with w := spiWord s.params d b }
      (.inr (spiWord_length ..)) (hw _ _)) ?_
    exact Res.Ends.andThen hc (txWrite_narrow hK (spiWord_ne_nil s.params d b)
      (spiWord_form s.params d b)) fun _ t _ => ih t

theorem sampleBit_narrow (hK : SpiOrder K) (ha : ∀ r a, K r { r with acc := a }) (d : Device)
    (i : Nat) (t : State) : (sampleBit d i t).Ends (NarrowFrame K) t := by
  have hc := narrow_chains hK
  refine Res.Ends.andThen hc (txReadPins_narrow hK t) fun pins u _ => ?_
  have hpulse : ∀ v : State, ((txWrite [selpat v.params d ||| pinBit v.params .clk] v).andThen
      fun _ x => txWrite [selpat x.params d] x).Ends (NarrowFrame K) v := fun v =>
    Res.Ends.andThen hc (txWrite_narrow hK (by simp) (by simpa using selpat_clk_form v.params d))
      fun _ x _ => select_narrow hK d x
  by_cases hd : dataInLevel u.params pins = true
  · simp only [hd, if_true]
    exact (hpulse _).from hc (narrow_spi u _ (by simp) (ha _ _))
  · simp only [hd]
    exact hpulse u

theorem bitLoop_narrow (hK : SpiOrder K) (ha : ∀ r a, K r { r with acc := a }) (d : Device)
    (m : Nat) (t : State) : (bitLoop d m t).Ends (NarrowFrame K) t := by
  induction m generalizing t with
  | zero => exact (narrow_chains hK).refl t
  | succ m ih =>
    exact Res.Ends.andThen (narrow_chains hK) (sampleBit_narrow hK ha d m t) fun _ u _ => ih u

theorem spiIn_narrow (hK : SpiOrder K)
    (ha : ∀ r a, K r { r with acc := a }) (hx : ∀ r x, K r { r with rxbuf := x })
    (he : ∀ r e, K r { r with err := e }) (n : Nat) (d : Device) (s : State) :
    (spiIn n d s).Ends (NarrowFrame K) s := by
  have hc := narrow_chains hK
  have hidle : ∀ t : State, (txWrite [idleByte t.params] t).Ends (NarrowFrame K) t :=
    fun t => select_narrow hK .idle t
  have hbytes : ∀ m j t, (byteLoop d m j t).Ends (NarrowFrame K) t := by
    intro m
    induction m with
    | zero => exact fun _ t => hc.refl t
    | succ m ih =>
      intro j t
      refine Res.Ends.andThen hc ((bitLoop_narrow hK ha d 8 _).from hc (narrow_spi t _ (by simp) (ha _ _)))
        fun _ u _ => ?_
      exact (ih (j + 1) _).from hc (narrow_spi u _ (by simp) (hx _ _))
  have hs : NarrowFrame K s (s.setSpi { s.spi with err := none, rxbuf := [] }) :=
    narrow_spi s _ (by simp) (hK.trans (he s.spi none) (hx _ _))
  have hb := (hbytes n 0 _).from hc hs
  unfold spiIn
  cases hr : byteLoop d n 0 (s.setSpi { s.spi with err := none, rxbuf := [] }) with
  | ok a t =>
    rw [hr] at hb
    have hw := (hidle t).from hc hb
    unfold closeSpiIn
    dsimp only
    cases hx : txWrite [idleByte t.params] t <;> rw [hx] at hw
    · exact hw
    · exact hc.trans hw (narrow_spi _ _ (by simp) (he _ _))
    · exact hw
    · exact hw
  | err e t =>
    rw [hr] at hb
    have hw := (hidle (t.setSpi { t.spi with err := some e })).from hc
      (hc.trans hb (narrow_spi t _ (by simp) (he _ _)))
    unfold closeSpiIn
    dsimp only
    simp only [State.setSpi_params] at hw
    cases hx : txWrite [idleByte t.params] (t.setSpi { t.spi with err := some e }) <;>
      rw [hx] at hw <;> exact hw
  | stuck t => rw [hr] at hb; exact hb
  | fault f => rw [hr] at hb; exact hb

/-- S.RXBUF, S.W and S.ERR are unchanged. -/
def AccSpi (a b : SpiRegs) : Prop := b.rxbuf = a.rxbuf ∧ b.w = a.w ∧ b.err = a.err

theorem accSpi_order : SpiOrder AccSpi :=
  ⟨fun _ => ⟨rfl, rfl, rfl⟩, fun h k => ⟨k.1.trans h.1, k.2.1.trans h.2.1, k.2.2.trans h.2.2⟩⟩

theorem byteLoop_rxbuf (d : Device) (n j : Nat) (s t : State) (hj : s.spi.rxbuf.length = j)
    (h : byteLoop d n j s = .ok () t) : t.spi.rxbuf.length = j + n := by
  induction n generalizing s j with
  | zero => cases h; exact hj
  | succ n ih =>
    obtain ⟨_, u, hu, h⟩ := Res.andThen_ok h
    have hb := bitLoop_narrow accSpi_order (fun _ _ => ⟨rfl, rfl, rfl⟩) d 8
      (s.setSpi { s.spi with acc := 0x00 })
    rw [hu] at hb
    have hr : u.spi.rxbuf = s.spi.rxbuf := hb.spi.1
    have := ih (j + 1) _ (by simp [memWrite, hr, ← hj]) h
    omega

/-- The bytes SpiIn returns are those in S.RXBUF, and there are `n` of them
(41_spi_bitbanger.md R102). -/
theorem spiIn_rxbuf {n : Nat} {d : Device} {s t : State} {bytes : List Byte}
    (h : spiIn n d s = .ok bytes t) : t.spi.rxbuf = bytes ∧ bytes.length = n := by
  unfold spiIn at h
  cases hb : byteLoop d n 0 (s.setSpi { s.spi with err := none, rxbuf := [] }) with
  | ok a u =>
    rw [hb] at h
    have hl := byteLoop_rxbuf d n 0 _ u rfl hb
    have hw := select_narrow sameSpi_order .idle u
    simp only [closeSpiIn] at h
    change (txWrite [idleByte u.params] u).Ends _ _ at hw
    cases hx : txWrite [idleByte u.params] u with
    | ok a v =>
      rw [hx] at h hw
      cases h
      have hs : t.spi = u.spi := hw.spi
      exact ⟨rfl, by rw [hs, hl]; omega⟩
    | err e v => rw [hx] at h; cases h
    | stuck v => rw [hx] at h; cases h
    | fault f => rw [hx] at h; cases h
  | err e u =>
    rw [hb] at h
    simp only [closeSpiIn] at h
    cases hx : txWrite [idleByte u.params] (u.setSpi { u.spi with err := some e }) <;>
      rw [hx] at h <;> cases h
  | stuck u => rw [hb] at h; cases h
  | fault f => rw [hb] at h; cases h

theorem readTransaction_narrow (opcode : List Byte) (n : Nat) (s : State) :
    (readTransaction opcode n s).Ends (NarrowFrame AnySpi) s := by
  have hc := narrow_chains anySpi_order
  have hidle : ∀ s t : State, NarrowFrame AnySpi s t →
      (txWrite [idleByte t.params] t).Ends (NarrowFrame AnySpi) t :=
    fun _ t _ => select_narrow anySpi_order .idle t
  exact ((spiOut_narrow anySpi_order (fun _ _ => trivial) opcode .flash s).recover hc
      (hidle s)).andThen hc fun _ t _ =>
    ((spiIn_narrow anySpi_order (fun _ _ => trivial) (fun _ _ => trivial) (fun _ _ => trivial) n
      .flash t).recover hc (hidle t)).andThen hc fun _ u _ =>
      (select_narrow anySpi_order .idle u).raise.andThen hc fun _ v _ => hc.refl v

end Sys2Proof.Machine
end

