-- ==== Sys2Proof/Laws/PerInstr.lean ====
section
/-! SUPPORT. Facts about the instruction as syntax, one lemma per constructor: its encoding holds the
match and mask of its row of the opcode table (30_encoding.md R72, R78). -/

namespace Sys2Proof.Laws

open Sys2Proof Sys2Proof.Machine

/-- HDR of a request that uses SEL and LEN: under the row's mask only OP is left. -/
theorem mkHdr_masked (op : BitVec 4) (d : Device) (l : BitVec 16) :
    mkHdr op (selOfDevice d) l &&& 0x0000FFCF#32 = op.setWidth 32 := by
  have hmask : mkHdr op (selOfDevice d) l &&& 0x0000FFCF#32 =
      (mkHdr op (selOfDevice d) l &&& 0x0000FFFF#32) &&& 0x0000FFCF#32 := by
    rw [BitVec.and_assoc]; rfl
  have hlow : mkHdr op (selOfDevice d) l &&& 0x0000FFFF#32 = mkHdr op (selOfDevice d) 0 := by
    apply BitVec.eq_of_toNat_eq
    have e : (mkHdr op (selOfDevice d) l).toNat &&& (2 ^ 16 - 1) =
        (mkHdr op (selOfDevice d) l).toNat % 2 ^ 16 := Nat.and_two_pow_sub_one_eq_mod _ 16
    have l1 := op.isLt
    have l2 := (selOfDevice d).isLt
    rw [BitVec.toNat_and]
    simp at e ⊢
    rw [e, mkHdr_toNat, mkHdr_toNat]
    simp; omega
  rw [hmask, hlow]
  clear hmask hlow
  revert op; cases d <;> decide

end Sys2Proof.Laws

namespace Sys2Proof.Laws.RowMatch

open Sys2Proof Sys2Proof.Machine

/-- The encoding of a well-formed instruction holds its row's match and mask. -/
def Statement (i : Instr) : Prop := i.wellFormed = true → i.op.row.matches (encode i) = true

theorem select (d : Device) : Statement (.select d) := by
  intro _; cases d <;> decide

theorem spiOut (d : Device) (data : List Byte) : Statement (.spiOut d data) :=
  fun _ => decide_eq_true (mkHdr_masked 2 d _)

theorem spiIn (d : Device) (n : BitVec 16) : Statement (.spiIn d n) :=
  fun _ => decide_eq_true (mkHdr_masked 3 d n)

theorem readId : Statement .readId := fun _ => by decide

theorem writePage (page : Page) (data : List Byte) : Statement (.writePage page data) :=
  fun _ => (by decide : (mkHdr 5 0 264 &&& Op.writePage.row.mask == Op.writePage.row.fixed) = true)

theorem eraseSector (c0 c1 c2 c3 : Byte) (t : Word) : Statement (.eraseSector c0 c1 c2 c3 t) :=
  fun _ => (by decide : (mkHdr 6 0 4 &&& Op.eraseSector.row.mask == Op.eraseSector.row.fixed) = true)

theorem eraseAll (t : Word) : Statement (.eraseAll t) :=
  fun _ => (by decide : (mkHdr 7 0 0 &&& Op.eraseAll.row.mask == Op.eraseAll.row.fixed) = true)

theorem flashPoll (t : Word) : Statement (.flashPoll t) :=
  fun _ => (by decide : (mkHdr 8 0 0 &&& Op.flashPoll.row.mask == Op.flashPoll.row.fixed) = true)

theorem openAdapter : Statement .openAdapter := fun _ => by decide

theorem program : Statement .program := fun _ => by decide

theorem readIdCmd : Statement .readIdCmd := fun _ => by decide

theorem bufLoadCmd (data : List Byte) : Statement (.bufLoadCmd data) :=
  fun _ => (by decide : ((0x84 : Byte).setWidth 32 &&& Op.bufLoadCmd.row.mask == Op.bufLoadCmd.row.fixed) = true)

theorem commitCmd (page : BitVec 10) : Statement (.commitCmd page) :=
  fun _ => (by decide : ((0x88 : Byte).setWidth 32 &&& Op.commitCmd.row.mask == Op.commitCmd.row.fixed) = true)

theorem sectorEraseCmd (a2 a1 a0 : Byte) : Statement (.sectorEraseCmd a2 a1 a0) :=
  fun _ => (by decide : ((0x7C : Byte).setWidth 32 &&& Op.sectorEraseCmd.row.mask == Op.sectorEraseCmd.row.fixed) = true)

theorem statusReadCmd : Statement .statusReadCmd := fun _ => by decide

end Sys2Proof.Laws.RowMatch
end

