-- ==== Sys2Proof/Laws/Scripts.lean ====
section
/-! SUPPORT. The Flash Command Engine step by step (30_encoding.md R86; 42_flash_engine.md): every
operation passes through its script when all answers are Ok (`Passes`), and stops where a step of the
script fails (`Stops`). Both are closed under sequencing, so that each operation is a line. -/

namespace Sys2Proof.Machine

/-! ### Scripts in sequence -/

/-- A run into two scripts in sequence stops in the first, or passes it and is in the second. -/
theorem reaches_append {P : Params} {l l' m : List EngineStep} {v w : BusView}
    {pins : List Byte} {es : List Event} (h : Reaches P (l ++ l') v pins es m w) :
    (∃ x m0 m', m = x :: m0 ∧ Reaches P l v pins es (x :: m') w) ∨
      ∃ p1 e1 u p2 e2, Reaches P l v p1 e1 [] u ∧ Reaches P l' u p2 e2 m w ∧
        pins = p1 ++ p2 ∧ es = e1 ++ e2 := by
  have start : ∀ {L m : List EngineStep} {v w : BusView} {pins : List Byte} {es : List Event},
      [] ++ l' = L → Reaches P L v pins es m w →
      ∃ p1 e1 u p2 e2, Reaches P [] v p1 e1 [] u ∧ Reaches P l' u p2 e2 m w ∧
        pins = p1 ++ p2 ∧ es = e1 ++ e2 :=
    fun hL h => ⟨[], [], _, _, _, .here _ _, by rw [← hL] at h; exact h, rfl, rfl⟩
  generalize hL : l ++ l' = L at h
  induction h generalizing l with
  | here L v =>
    cases l with
    | nil => exact .inr (start hL (.here _ _))
    | cons y l1 => exact .inl ⟨y, l1 ++ l', l1, hL.symm, .here _ _⟩
  | send hn h ih =>
    cases l with
    | nil => exact .inr (start hL (.send hn h))
    | cons y l1 =>
      obtain ⟨rfl, hr⟩ := List.cons.inj hL
      rcases ih hr with ⟨x, m0, m', hm, h'⟩ | ⟨p1, e1, u, p2, e2, h1, h2, rfl, rfl⟩
      · exact .inl ⟨x, m0, m', hm, .send hn h'⟩
      · exact .inr ⟨_, _, u, p2, e2, .send hn h1, h2, by simp, by simp⟩
  | receive hn h ih =>
    cases l with
    | nil => exact .inr (start hL (.receive hn h))
    | cons y l1 =>
      obtain ⟨rfl, hr⟩ := List.cons.inj hL
      rcases ih hr with ⟨x, m0, m', hm, h'⟩ | ⟨p1, e1, u, p2, e2, h1, h2, rfl, rfl⟩
      · exact .inl ⟨x, m0, m', hm, .receive hn h'⟩
      · exact .inr ⟨_, _, u, p2, e2, .receive hn h1, h2, by simp, by simp⟩
  | deselect pin h ih =>
    cases l with
    | nil => exact .inr (start hL (.deselect pin h))
    | cons y l1 =>
      obtain ⟨rfl, hr⟩ := List.cons.inj hL
      rcases ih hr with ⟨x, m0, m', hm, h'⟩ | ⟨p1, e1, u, p2, e2, h1, h2, rfl, rfl⟩
      · exact .inl ⟨x, m0, m', hm, .deselect pin h'⟩
      · exact .inr ⟨_, _, u, p2, e2, .deselect pin h1, h2, by simp, by simp⟩
  | ready hn hr' h ih =>
    cases l with
    | nil => exact .inr (start hL (.ready hn hr' h))
    | cons y l1 =>
      obtain ⟨rfl, hr⟩ := List.cons.inj hL
      rcases ih hr with ⟨x, m0, m', hm, h'⟩ | ⟨p1, e1, u, p2, e2, h1, h2, rfl, rfl⟩
      · exact .inl ⟨x, m0, m', hm, .ready hn hr' h'⟩
      · exact .inr ⟨_, _, u, p2, e2, .ready hn hr' h1, h2, by simp, by simp⟩
  | @busy left now pins r m v w es hn hr' h ih =>
    cases l with
    | nil => exact .inr (start hL (.busy hn hr' h))
    | cons y l1 =>
      obtain ⟨rfl, hr⟩ := List.cons.inj hL
      rcases ih (l := .poll left :: l1) (congrArg (EngineStep.poll left :: ·) hr) with
        ⟨x, m0, m', hm, h'⟩ | ⟨p1, e1, u, p2, e2, h1, h2, rfl, rfl⟩
      · exact .inl ⟨x, m0, m', hm, .busy hn hr' h'⟩
      · exact .inr ⟨_, _, u, p2, e2, .busy hn hr' h1, h2, by simp, by simp⟩
  | inside h ih =>
    cases l with
    | nil => exact .inr (start hL (.inside h))
    | cons y l1 =>
      obtain ⟨rfl, -⟩ := List.cons.inj hL
      exact .inl ⟨_, _, _, rfl, .inside h⟩

theorem reaches_nil {P : Params} {v w : BusView} {pins : List Byte} {es : List Event}
    {m : List EngineStep} (h : Reaches P [] v pins es m w) :
    pins = [] ∧ es = [] ∧ m = [] ∧ w = v := by
  cases h
  exact ⟨rfl, rfl, rfl, rfl⟩

/-! ### Operations and their scripts -/

variable {ε α β : Type}

/-- With Ok answers along the script `l`, `f` succeeds. -/
def Passes (f : State → Res ε α) (l : Params → List EngineStep) : Prop :=
  ∀ (s : State) (pins : List Byte) (es : List Event) (v : BusView) (rest : List TxAnswer),
    Reaches s.params (l s.params) s.view pins es [] v → s.env.answers = yes pins ++ rest →
    ∃ a t, f s = .ok a t ∧ Passed s t es rest ∧ t.view = v

/-- Where a step of the script `l` fails, `f` fails. -/
def Stops (f : State → Res Failure α) (l : Params → List EngineStep) : Prop :=
  ∀ (s : State) (pins : List Byte) (es es' : List Event) (x : EngineStep) (m : List EngineStep)
    (v w : BusView) (as rest : List TxAnswer) (g : Failure),
    Reaches s.params (l s.params) s.view pins es (x :: m) v → StepFails s.params x v as es' g w →
    s.env.answers = yes pins ++ (as ++ rest) →
    ∃ t, f s = .err g t ∧ t.trace = s.trace ++ (es ++ es') ∧ t.env.answers = rest ∧ t.view = w

theorem passes_ret (v : State → α) : Passes (fun s => (Res.ok (v s) s : Res ε α)) fun _ => [] := by
  intro s pins es w rest h ha
  obtain ⟨rfl, rfl, -, rfl⟩ := reaches_nil h
  exact ⟨_, s, rfl, by simpa [ha] using Passed.here s, rfl⟩

theorem stops_nil (f : State → Res Failure α) : Stops f fun _ => [] := by
  intro s pins es es' x m v w as rest g h
  cases h

theorem Passes.andThen {f : State → Res ε α} {k : α → State → Res ε β}
    {l l' : Params → List EngineStep} (hf : Passes f l) (hk : ∀ a, Passes (k a) l') :
    Passes (fun s => (f s).andThen k) fun P => l P ++ l' P := by
  intro s pins es v rest h ha
  rcases reaches_append h with ⟨_, _, _, hm, -⟩ | ⟨p1, e1, u, p2, e2, h1, h2, rfl, rfl⟩
  · cases hm
  obtain ⟨a, t, hx, q, hv⟩ := hf s p1 e1 u (yes p2 ++ rest) h1 (by simpa using ha)
  have hp : t.params = s.params := q.frame.params
  obtain ⟨b, t', hx', q', hv'⟩ := hk a t p2 e2 v rest (by rw [hp, hv]; exact h2) q.answers
  exact ⟨b, t', by simp only [hx, Res.ok_andThen, hx'], q.trans q', hv'⟩

theorem Stops.andThen {f : State → Res Failure α} {k : α → State → Res Failure β}
    {l l' : Params → List EngineStep} (hf : Passes f l) (hs : Stops f l)
    (hk : ∀ a, Stops (k a) l') : Stops (fun s => (f s).andThen k) fun P => l P ++ l' P := by
  intro s pins es es' x m v w as rest g h hx ha
  rcases reaches_append h with ⟨_, _, m', hm, h'⟩ | ⟨p1, e1, u, p2, e2, h1, h2, rfl, rfl⟩
  · cases hm
    obtain ⟨t, hx', r⟩ := hs s pins es es' x m' v w as rest g h' hx ha
    exact ⟨t, by simp only [hx', Res.err_andThen], r⟩
  · obtain ⟨a, t, hf', q, hv⟩ := hf s p1 e1 u (yes p2 ++ (as ++ rest)) h1 (by simpa using ha)
    have hp : t.params = s.params := q.frame.params
    obtain ⟨t', hk', tr, an, vw⟩ := hk a t p2 e2 es' x m v w as rest g
      (by rw [hp, hv]; exact h2) (by rwa [hp]) q.answers
    refine ⟨t', by simp only [hf', Res.ok_andThen, hk'], ?_, an, vw⟩
    rw [tr, q.trace]
    simp

/-- An operation whose script stops where its first part's does. -/
theorem Stops.first {f : State → Res Failure α} {k : α → State → Res Failure β}
    {l : Params → List EngineStep} (hs : Stops f l) (hf : Passes f l) :
    Stops (fun s => (f s).andThen k) l := by
  have h := Stops.andThen (k := k) hf hs fun a => stops_nil (k a)
  intro s pins es es' x m v w as rest g hr
  exact h s pins es es' x m v w as rest g (by simpa using hr)

theorem Passes.last {f : State → Res ε α} {k : α → State → Res ε β}
    {l : Params → List EngineStep} (hf : Passes f l) (hk : ∀ a, Passes (k a) fun _ => []) :
    Passes (fun s => (f s).andThen k) l := by
  have h := hf.andThen hk
  intro s pins es v rest hr
  exact h s pins es v rest (by simpa using hr)

/-- A register of the poll is written first. -/
theorem Passes.setPoll {f : State → Res ε α} {l : Params → List EngineStep} (hf : Passes f l)
    (g : State → PollRegs) : Passes (fun s => f (s.setPoll (g s))) l := by
  intro s pins es v rest h ha
  obtain ⟨a, t, hx, q, hv⟩ := hf (s.setPoll (g s)) pins es v rest h ha
  exact ⟨a, t, hx, by simpa using (Passed.poll s (g s)).trans q, hv⟩

theorem Stops.setPoll {f : State → Res Failure α} {l : Params → List EngineStep} (hf : Stops f l)
    (g : State → PollRegs) : Stops (fun s => f (s.setPoll (g s))) l :=
  fun s pins es es' x m v w as rest fl h hx ha =>
    hf (s.setPoll (g s)) pins es es' x m v w as rest fl h hx ha

/-! ### The steps -/

theorem sendFlash_passes (bytes : List Byte) :
    Passes (sendFlash bytes) fun _ => [.send bytes] := by
  intro s pins es v rest h ha
  cases h with
  | send hn h =>
    obtain ⟨rfl, rfl, -, rfl⟩ := reaches_nil h
    obtain ⟨t, hx, q, hw, -, ho, -⟩ := sendFlash_passed bytes s _ rest hn (by simpa using ha)
    exact ⟨_, t, hx, by simpa using q, by simp [State.view, hw, ho]⟩

theorem sendFlash_stops (bytes : List Byte) :
    Stops (sendFlash bytes) fun _ => [.send bytes] := by
  intro s pins es es' x m v w as rest g h hx ha
  cases h with
  | here =>
    cases hx with
    | phase hp =>
      cases hp with
      | @send sent more ps b e a o w hn hi =>
        obtain ⟨t, ht, f, -⟩ := spiOut_failed .flash sent b more s ps _ (a :: rest) hn
          (by simpa using ha)
        obtain ⟨u, hu, f', hw⟩ := recover_failed ht f hi
        exact ⟨u, hu, by simpa using f'.trace, f'.answers, 
          congrArg₂ BusView.mk hw f'.owed⟩
  | send hn h => cases h

theorem spiInFlash_passes (n : Nat) :
    Passes (fun s => (spiIn n .flash s).recover) fun _ => [.receive n] := by
  intro s pins es v rest h ha
  cases h with
  | receive hn h =>
    obtain ⟨rfl, rfl, -, rfl⟩ := reaches_nil h
    obtain ⟨t, bytes, hx, q, hw, -, ho, -⟩ := spiIn_passed n .flash s _ rest hn (by simpa using ha)
    exact ⟨bytes, t, by simp only [hx, Res.recover], by simpa [spiInEvents] using q, by simp [State.view, hw, ho]⟩

theorem spiInFlash_stops (n : Nat) :
    Stops (fun s => (spiIn n .flash s).recover) fun _ => [.receive n] := by
  intro s pins es es' x m v w as rest g h hx ha
  cases h with
  | here =>
    cases hx with
    | phase hp =>
      cases hp with
      | @receive n ps e a1 a2 o1 o2 w1 w2 hn h1 h2 =>
        obtain ⟨t, ht, f, -⟩ := spiIn_failed n .flash s ps _ a1 (a2 :: rest) o1 w1 hn h1
          (by simpa using ha)
        obtain ⟨u, hu, f', hw⟩ := recover_failed ht f h2
        exact ⟨u, hu, by simpa [spiInCalls] using f'.trace, f'.answers, 
          congrArg₂ BusView.mk hw f'.owed⟩
      | @close n ps e a o w hn hi =>
        obtain ⟨t, ht, f, -⟩ := spiIn_closeFailed n .flash s ps _ (a :: rest) hn
          (by simpa using ha)
        obtain ⟨u, hu, f', hw⟩ := recover_failed ht f hi
        exact ⟨u, hu, by simpa using f'.trace, f'.answers, 
          congrArg₂ BusView.mk hw f'.owed⟩
  | receive hn h => cases h

theorem deselect_passes : Passes deselect fun _ => [.deselect false] := by
  intro s pins es v rest h ha
  cases h with
  | deselect pin h =>
    obtain ⟨rfl, rfl, -, rfl⟩ := reaches_nil h
    obtain ⟨t, hx, q, hw, -, -, ho⟩ := deselect_passed (s := s) (p := pin) (rest := rest)
      (by simpa using ha)
    exact ⟨(), t, hx, q, by simp [State.view, hw, ho]⟩

theorem deselect_stops : Stops deselect fun _ => [.deselect false] := by
  intro s pins es es' x m v w as rest g h hx ha
  cases h with
  | here =>
    cases hx with
    | phase hp => cases hp
    | deselect _ _ e =>
      obtain ⟨t, ht, f, hw⟩ := deselect_failed (s := s) (e := e) (rest := rest) (by simpa using ha)
      exact ⟨t, ht, by simpa using f.trace, f.answers, by simp [State.view, hw, f.owed]⟩
  | deselect pin h => cases h

/-- The deselect that starts a program or an erase. -/
theorem startDeselect_passes :
    Passes (fun s => deselect (s.setPollOwed true)) fun _ => [.deselect true] := by
  intro s pins es v rest h ha
  cases h with
  | deselect pin h =>
    obtain ⟨rfl, rfl, -, rfl⟩ := reaches_nil h
    obtain ⟨t, hx, q, hw, -, -, ho⟩ := deselect_passed (s := s.setPollOwed true) (p := pin)
      (rest := rest) (by simpa using ha)
    refine ⟨(), t, hx, ?_, by simp [State.view, hw, ho]⟩
    simpa using (Passed.owed s true).trans q

theorem startDeselect_stops :
    Stops (fun s => deselect (s.setPollOwed true)) fun _ => [.deselect true] := by
  intro s pins es es' x m v w as rest g h hx ha
  cases h with
  | here =>
    cases hx with
    | phase hp => cases hp
    | deselect _ _ e =>
      obtain ⟨t, ht, f, hw⟩ := deselect_failed (s := s.setPollOwed true) (e := e) (rest := rest)
        (by simpa using ha)
      exact ⟨t, ht, by simpa [State.trace] using f.trace, f.answers, by
        simp [State.view, hw, f.owed]⟩
  | deselect pin h => cases h

/-! ### The operations -/

theorem bufLoad_passes (data : List Byte) : Passes (bufLoadTransaction data)
    fun _ => [.send [0x84, 0x00, 0x00, 0x00], .send data, .deselect false] :=
  (sendFlash_passes bufLoadBytes).andThen fun _ =>
    (sendFlash_passes data).andThen fun _ => deselect_passes

theorem bufLoad_stops (data : List Byte) : Stops (bufLoadTransaction data)
    fun _ => [.send [0x84, 0x00, 0x00, 0x00], .send data, .deselect false] :=
  Stops.andThen (sendFlash_passes bufLoadBytes) (sendFlash_stops _) fun _ =>
    Stops.andThen (sendFlash_passes data) (sendFlash_stops _) fun _ => deselect_stops

theorem start_passes (bytes : List Byte) : Passes (startTransaction bytes)
    fun _ => [.send bytes, .deselect true] :=
  (sendFlash_passes bytes).andThen fun _ => startDeselect_passes

theorem start_stops (bytes : List Byte) : Stops (startTransaction bytes)
    fun _ => [.send bytes, .deselect true] :=
  Stops.andThen (sendFlash_passes bytes) (sendFlash_stops _) fun _ => startDeselect_stops

theorem read_passes (opcode : List Byte) (n : Nat) : Passes (readTransaction opcode n)
    fun _ => [.send opcode, .receive n, .deselect false] :=
  (sendFlash_passes opcode).andThen fun _ => (spiInFlash_passes n).andThen fun bytes =>
    deselect_passes.last fun _ => passes_ret fun _ => bytes

theorem read_stops (opcode : List Byte) (n : Nat) : Stops (readTransaction opcode n)
    fun _ => [.send opcode, .receive n, .deselect false] :=
  Stops.andThen (sendFlash_passes opcode) (sendFlash_stops _) fun _ =>
    Stops.andThen (spiInFlash_passes n) (spiInFlash_stops n) fun _ =>
      deselect_stops.first deselect_passes

theorem status_stops : Stops statusTransaction fun _ => pollScript :=
  Stops.andThen (sendFlash_passes statusReadBytes) (sendFlash_stops _) fun _ =>
    Stops.andThen (spiInFlash_passes 1) (spiInFlash_stops 1) fun bytes =>
      Stops.first (f := fun s => deselect (s.setPoll { s.poll with status := bytes.getD 0 0 }))
        (deselect_stops.setPoll _) (deselect_passes.setPoll _)

/-- One status read with Ok answers. -/
theorem status_read (s : State) (now pins : List Byte) (rest : List TxAnswer)
    (hn : now.length = 27) (ha : s.env.answers = yes (now ++ pins) ++ rest) :
    ∃ t, statusTransaction s = .ok () t ∧
      Passed s t (readEvents s.params 0xD7 1 now) (yes pins ++ rest) ∧
      t.view = ⟨some (idleByte s.params), if levelAt s.params now 1 then false else s.pollOwed⟩ ∧
      statusReady t.poll.status = levelAt s.params now 1 := by
  obtain ⟨t, hx, q, hw, -, -, hr, ho⟩ := statusTransaction_passed s now (yes pins ++ rest) hn
    (by simpa using ha)
  exact ⟨t, hx, q, by simp [State.view, hw, ho], hr⟩

theorem pollLoop_err {n : Nat} {s t : State} {g : Failure}
    (h : statusTransaction (s.setPoll { s.poll with it := s.poll.it + 1 }) = .err g t) :
    pollLoop (n + 1) s = .err g t := by
  show Res.andThen _ _ = _
  rw [h]
  rfl

theorem pollLoop_passes (n : Nat) : Passes (pollLoop n) fun _ => [.poll n] := by
  induction n with
  | zero =>
    intro s pins es v rest h ha
    cases h
  | succ n ih =>
    intro s pins es v rest h ha
    cases h with
    | ready hn hr h =>
      obtain ⟨rfl, rfl, -, rfl⟩ := reaches_nil h
      obtain ⟨t, hx, q, hv, hst⟩ := status_read
        (s.setPoll { s.poll with it := s.poll.it + 1 }) _ [] rest hn ha
      rw [State.setPoll_params, hr] at hv hst
      refine ⟨(), t, by rw [pollLoop_of hx, hst]; rfl, ?_, hv⟩
      simpa using (Passed.poll s { s.poll with it := s.poll.it + 1 }).trans q
    | busy hn hr h =>
      obtain ⟨t1, hx, q, hv, hst⟩ := status_read
        (s.setPoll { s.poll with it := s.poll.it + 1 }) _ _ rest hn ha
      rw [State.setPoll_params, hr] at hv hst
      have hp : t1.params = s.params := q.frame.params
      obtain ⟨a, t, hx', q', hv'⟩ := ih t1 _ _ v rest (by rw [hp, hv]; exact h) q.answers
      refine ⟨a, t, by rw [pollLoop_of hx, hst]; exact hx', ?_, hv'⟩
      simpa using ((Passed.poll s { s.poll with it := s.poll.it + 1 }).trans q).trans q'

theorem pollLoop_stops (n : Nat) : Stops (pollLoop n) fun _ => [.poll n] := by
  induction n with
  | zero =>
    intro s pins es es' x m v w as rest g h hx ha
    cases h
    cases hx with
    | phase hp => cases hp
    | timeout => exact ⟨s, rfl, by simp, by simpa using ha, rfl⟩
  | succ n ih =>
    intro s pins es es' x m v w as rest g h hx ha
    cases h with
    | here =>
      cases hx with
      | phase hp => cases hp
    | ready hn hr h => cases h
    | busy hn hr h =>
      obtain ⟨t1, hx1, q, hv, hst⟩ := status_read
        (s.setPoll { s.poll with it := s.poll.it + 1 }) _ _ (as ++ rest) hn ha
      rw [State.setPoll_params, hr] at hv hst
      have hp : t1.params = s.params := q.frame.params
      obtain ⟨t, hx', tr, an, vw⟩ := ih t1 _ _ es' x m v w as rest g (by rw [hp, hv]; exact h)
        (by rwa [hp]) q.answers
      refine ⟨t, by rw [pollLoop_of hx1, hst]; exact hx', ?_, an, vw⟩
      have htr := q.trace
      rw [State.setPoll_params] at htr
      rw [tr, htr]
      simp [State.trace]
    | inside h =>
      obtain ⟨t, hx', r⟩ := status_stops (s.setPoll { s.poll with it := s.poll.it + 1 }) _ _ es' x _
        v w as rest g h hx ha
      exact ⟨t, pollLoop_err hx', r⟩

theorem flashPoll_passes (t : Word) : Passes (flashPoll t) fun _ => [.poll t.toNat] :=
  (pollLoop_passes t.toNat).setPoll fun s => { s.poll with it := 0 }

theorem flashPoll_stops (t : Word) : Stops (flashPoll t) fun _ => [.poll t.toNat] :=
  (pollLoop_stops t.toNat).setPoll fun s => { s.poll with it := 0 }

/-- The script of WritePage(data, page) (42_flash_engine.md R112). -/
def pageScript (P : Params) (data : List Byte) (page : Page) : List EngineStep :=
  [.send [0x84, 0x00, 0x00, 0x00], .send data, .deselect false, .send (commitBytes page),
    .deselect true, .poll P.writeTimeout.toNat]

theorem writePage_passes (data : List Byte) (page : Page) :
    Passes (writePage data page) fun P => pageScript P data page :=
  (bufLoad_passes data).andThen fun _ => (start_passes (commitBytes page)).andThen fun _ =>
    fun s => flashPoll_passes s.params.writeTimeout s

theorem writePage_stops (data : List Byte) (page : Page) :
    Stops (writePage data page) fun P => pageScript P data page :=
  Stops.andThen (bufLoad_passes data) (bufLoad_stops data) fun _ =>
    Stops.andThen (start_passes (commitBytes page)) (start_stops _) fun _ =>
      fun s => flashPoll_stops s.params.writeTimeout s

theorem eraseSector_passes (cmd : List Byte) (t : Word) :
    Passes (eraseSector cmd t) fun _ => eraseScript t cmd :=
  (start_passes cmd).andThen fun _ => flashPoll_passes t

theorem eraseSector_stops (cmd : List Byte) (t : Word) :
    Stops (eraseSector cmd t) fun _ => eraseScript t cmd :=
  Stops.andThen (start_passes cmd) (start_stops cmd) fun _ => flashPoll_stops t

theorem eraseAll_stops (t : Word) :
    Stops (eraseAll t) fun _ => eraseList.flatMap (eraseScript t) := by
  show Stops (eraseLoop t eraseList) _
  generalize eraseList = cmds
  induction cmds with
  | nil => exact stops_nil _
  | cons cmd rest ih =>
    exact Stops.andThen (eraseSector_passes cmd t) (eraseSector_stops cmd t) fun _ => ih

theorem readId_stops :
    Stops readId fun _ => [.send [0x9F], .receive 4, .deselect false] :=
  Stops.first (read_stops _ _) (read_passes _ _)

end Sys2Proof.Machine
end

