-- ==== Sys2Proof/Laws/Program.lean ====
section
/-! SUPPORT. PROGRAM step by step where it fails (43_workflow.md R135 to R141): the open, the identifier,
the direction, the erase, the stream, the pages, and its end up to the closing direction. -/

namespace Sys2Proof.Machine

/-- A failing run of the workflow from `s`: the events it added, the answers left, and what it leaves of
the handle, the direction and S.LAST_PAGE. -/
structure Broke (s t : State) (new : List Event) (rest : List TxAnswer) (handle : Handle)
    (dir : Option Byte) (last : Option Page) : Prop where
  trace : t.trace = s.trace ++ new
  answers : t.env.answers = rest
  handle : t.handle = handle
  wireDir : t.wireDir = dir
  lastPage : t.lastPage = last

/-- Successful calls first. -/
theorem Went.broke {s t u : State} {new new' : List Event} {rest rest' : List TxAnswer}
    {handle : Handle} {dir : Option Byte} {last : Option Page} (h : Went s t new rest)
    (k : Broke t u new' rest' handle dir last) : Broke s u (new ++ new') rest' handle dir last :=
  ⟨by rw [k.trace, h.trace, List.append_assoc], k.answers, k.handle, k.wireDir, k.lastPage⟩

/-- An engine operation that stops leaves the workflow's state as it was. -/
theorem Stops.broke {α : Type} {f : State → Res Failure α} {l : Params → List EngineStep}
    (hs : Stops f l) (hf : ∀ s, (f s).Ends BusFrame s) {s : State} {pins : List Byte}
    {es es' : List Event} {x : EngineStep} {m : List EngineStep} {v w : BusView}
    {as rest : List TxAnswer} {g : Failure}
    (h : Reaches s.params (l s.params) s.view pins es (x :: m) v)
    (hx : StepFails s.params x v as es' g w) (ha : s.env.answers = yes pins ++ (as ++ rest)) :
    ∃ t, f s = .err g t ∧ Broke s t (es ++ es') rest s.handle s.wireDir s.lastPage := by
  obtain ⟨t, he, tr, an, -⟩ := hs s pins es es' x m v w as rest g h hx ha
  have fr := hf s
  rw [he] at fr
  exact ⟨t, he, tr, an, BusFrame.handle fr, BusFrame.wireDir fr, BusFrame.lastPage fr⟩

theorem txSetDir_broke {s : State} {d : Byte} {e : Payload} {rest : List TxAnswer}
    (h : s.env.answers = .err e :: rest) :
    ∃ t, txSetDir d s = .err e t ∧
      Broke s t [.setDir d s.params.bitbangMode (.err e)] rest s.handle none s.lastPage :=
  ⟨_, txSetDir_err h, by simp [State.trace], rfl, rfl, rfl, rfl⟩

/-- Open() whose TxOpen fails (43_workflow.md R133). -/
theorem openSub_closed {s : State} {e : Payload} {rest : List TxAnswer} (hc : s.handle = .closed)
    (h : s.env.answers = .err e :: rest) :
    ∃ t, openSub s = .err e t ∧
      Broke s t [.openCall s.params.vid s.params.pid (.err e)] rest .closed s.wireDir
        s.lastPage := by
  refine ⟨_, by simp only [openSub, openHandle, hc, if_true, txOpen_err h, Res.andThen]; rfl, ?_⟩
  exact ⟨by simp [State.trace], rfl, hc, rfl, rfl⟩

/-- Open() whose TxSetDir fails (43_workflow.md R133). -/
theorem openSub_broke {s : State} {pins : List Byte} {e : Payload} {rest : List TxAnswer}
    (hp : pins.length = if s.handle = .closed then 1 else 0)
    (h : s.env.answers = yes pins ++ (.err e :: rest)) :
    ∃ t, openSub s = .err e t ∧
      Broke s t ((if s.handle = .closed then [.openCall s.params.vid s.params.pid (.ok ())] else [])
        ++ [.setDir (idleDirection s.params) s.params.bitbangMode (.err e)]) rest .opened none
        s.lastPage := by
  by_cases hc : s.handle = .closed
  · simp only [hc, if_true] at hp ⊢
    obtain ⟨a, rfl⟩ := List.length_eq_one_iff.1 hp
    have h1 : s.env.answers = .ok none a :: .err e :: rest := h
    generalize hu : ((s.setEnv { s.env with answers := .err e :: rest }).called
      (.openCall s.params.vid s.params.pid (.ok ()))).setHandle .opened = u
    have ho : openHandle s = .ok () u := by
      simp only [openHandle, hc, if_true, txOpen_ok h1, Res.andThen, hu]
    obtain ⟨t, hx, b⟩ := txSetDir_broke (s := u) (d := idleDirection u.params) (e := e)
      (rest := rest) (by rw [← hu]; rfl)
    refine ⟨t, by simp only [openSub, ho, Res.andThen, hx], ?_, b.answers, ?_, b.wireDir, ?_⟩
    · rw [b.trace, ← hu]; simp [State.trace]
    · rw [b.handle, ← hu]; rfl
    · rw [b.lastPage, ← hu]; rfl
  · have hop : s.handle = .opened := by cases hs : s.handle <;> simp_all
    simp only [hop] at hp ⊢
    obtain rfl : pins = [] := List.eq_nil_of_length_eq_zero (by simpa using hp)
    have ho : openHandle s = .ok () s := by simp [openHandle, hop]
    obtain ⟨t, hx, b⟩ := txSetDir_broke (s := s) (d := idleDirection s.params) (e := e)
      (rest := rest) (by simpa using h)
    exact ⟨t, by simp only [openSub, ho, Res.andThen, hx], by simpa using b.trace, b.answers,
      b.handle.trans hop, b.wireDir, b.lastPage⟩

/-- PROGRAM's steps 1 and 2 where reading the identifier fails (43_workflow.md R136). -/
theorem openAndId_broke {s : State} {openPins pins : List Byte} {es es' : List Event}
    {x : EngineStep} {m : List EngineStep} {v w : BusView} {as rest : List TxAnswer} {g : Failure}
    (ho : openPins.length = if s.handle = .closed then 2 else 1)
    (h : Reaches s.params (engineScript s.params .readId) s.view pins es (x :: m) v)
    (hx : StepFails s.params x v as es' g w)
    (ha : s.env.answers = yes (openPins ++ pins) ++ (as ++ rest)) :
    ∃ t, programOpenAndId s = .err g t ∧
      Broke s t (openEvents s ++ (es ++ es')) rest .opened (some (idleDirection s.params)) none := by
  have w0 := Went.lastPage s none
  obtain ⟨t1, hx1, w1, d1, h1, l1, -, -, -, v1⟩ := openSub_went (s.setLastPage none) openPins
    (yes pins ++ (as ++ rest)) ho (by rw [w0.answers, ha]; simp)
  have hp1 : t1.params = s.params := w1.frame.params
  obtain ⟨t, he, b⟩ := readId_stops.broke busFrame_closed.readIdEnds (s := t1)
    (by rw [hp1, v1]; exact h) (by rw [hp1]; exact hx) w1.answers
  refine ⟨t, by simp only [programOpenAndId, hx1, Res.raise, Res.andThen, he], ?_⟩
  have := (w0.trans w1).broke b
  rw [h1, d1, l1] at this
  cases hh : s.handle <;> simpa [openEvents, hh] using this

/-- PROGRAM's step 3 where the erase fails (43_workflow.md R137). -/
theorem programErase_broke {s : State} {p : Byte} {pins : List Byte} {es es' : List Event}
    {x : EngineStep} {m : List EngineStep} {v w : BusView} {as rest : List TxAnswer} {g : Failure}
    (h : Reaches s.params (engineScript s.params (.eraseAll s.params.eraseTimeout)) s.view pins es
      (x :: m) v)
    (hx : StepFails s.params x v as es' g w)
    (ha : s.env.answers = yes (p :: pins) ++ (as ++ rest)) :
    ∃ t, programErase s = .err g t ∧
      Broke s t (.setDir (programDirection s.params) s.params.bitbangMode (.ok ()) :: (es ++ es'))
        rest s.handle (some (programDirection s.params)) s.lastPage := by
  obtain ⟨t1, he1, w1, d1, h1, l1, -, -, -, v1⟩ := programErase_split s p
    (yes pins ++ (as ++ rest)) ha
  have hp1 : t1.params = s.params := w1.frame.params
  obtain ⟨t, he, b⟩ := (eraseAll_stops s.params.eraseTimeout).broke
    (busFrame_closed.eraseAllEnds _) (s := t1) (by rw [hp1, v1]; exact h) (by rw [hp1]; exact hx)
    w1.answers
  refine ⟨t, he1.trans he, ?_⟩
  have := w1.broke b
  rw [h1, d1, l1] at this
  simpa using this

/-- PROGRAM's step 3 where its direction fails (43_workflow.md R137). -/
theorem programErase_dirBroke {s : State} {e : Payload} {rest : List TxAnswer}
    (h : s.env.answers = .err e :: rest) :
    ∃ t, programErase s = .err (.transport e) t ∧
      Broke s t [.setDir (programDirection s.params) s.params.bitbangMode (.err e)] rest s.handle
        none s.lastPage := by
  obtain ⟨t, he, b⟩ := txSetDir_broke (d := programDirection s.params) h
  exact ⟨t, by simp only [programErase, he, Res.raise, Res.andThen], b⟩

/-! ### The pages -/

/-- A page that fails leaves S.LAST_PAGE as it was (43_workflow.md R138). -/
theorem programPage_broke {s : State} {data : List Byte} {page : Page} {pins : List Byte}
    {es es' : List Event} {x : EngineStep} {m : List EngineStep} {v w : BusView}
    {as rest : List TxAnswer} {g : Failure}
    (h : Reaches s.params (engineScript s.params (.writePage page data)) s.view pins es (x :: m) v)
    (hx : StepFails s.params x v as es' g w) (ha : s.env.answers = yes pins ++ (as ++ rest)) :
    ∃ t, programPage data page s = .err g t ∧
      Broke s t (es ++ es') rest s.handle s.wireDir s.lastPage := by
  obtain ⟨t, he, b⟩ := (writePage_stops data page).broke (busFrame_closed.writePageEnds data page)
    h hx ha
  exact ⟨t, by simp only [programPage, he, Res.andThen], b⟩

/-- The page loop whose read fails (43_workflow.md R141). -/
theorem pageLoop_streamBroke (n : Nat) (s : State) (e : Payload) (lost : Nat)
    (rest : List StreamAnswer) (h : s.env.streamAnswers = .err e lost :: rest) :
    ∃ t, pageLoop (n + 1) s = .err (.stream e) t ∧
      Broke s t [.streamRead 264 (.err e)] s.env.answers s.handle s.wireDir s.lastPage := by
  generalize ht : s.setFlow
    { s.flow with p := BitVec.ofNat 13 (Config.capacityPages - (n + 1)) } = u
  have hu : u.env = s.env := by rw [← ht]; rfl
  have hx := streamRead_err (s := u) (n := Config.pageSize) (by rw [hu]; exact h)
  refine ⟨_, by simp only [pageLoop, ht, hx, Res.raiseStream, Res.andThen]; rfl, ?_, ?_, ?_, ?_, ?_⟩
  · simp [State.trace, Config.pageSize, ← ht]
  all_goals rw [← ht]; rfl

/-- The page loop whose page write fails (43_workflow.md R141). -/
theorem pageLoop_pageBroke (n : Nat) (s : State) {pins : List Byte} {es es' : List Event}
    {x : EngineStep} {m : List EngineStep} {v w : BusView} {as rest : List TxAnswer} {g : Failure}
    {srest : List StreamAnswer} (hb : s.flow.pagebuf.length = 264)
    (hl : 264 ≤ s.env.stream.length) (hs : s.env.streamAnswers = .ok :: srest)
    (h : Reaches s.params (engineScript s.params
      (.writePage (BitVec.ofNat 13 (8192 - (n + 1))) (s.env.stream.take 264))) s.view pins es
      (x :: m) v)
    (hx : StepFails s.params x v as es' g w) (ha : s.env.answers = yes pins ++ (as ++ rest)) :
    ∃ t, pageLoop (n + 1) s = .err g t ∧
      Broke s t (.streamRead 264 (.ok (s.env.stream.take 264)) :: (es ++ es')) rest s.handle
        s.wireDir s.lastPage := by
  have w0 := Went.flow s { s.flow with p := BitVec.ofNat 13 (Config.capacityPages - (n + 1)) }
  generalize ht0 : s.setFlow
    { s.flow with p := BitVec.ofNat 13 (Config.capacityPages - (n + 1)) } = t0 at w0
  have he0 : t0.env = s.env := by rw [← ht0]; rfl
  obtain ⟨t1, hx1, w1, st1, sa1, d1, h1, l1, f1, v1⟩ := streamRead_went (s := t0) (rest := srest)
    (by rw [he0, hs])
  rw [he0] at hx1 w1
  have hlen : (s.env.stream.take 264).length = 264 := by simp; omega
  generalize hpage : s.env.stream.take 264 = page at *
  have hbuf : memWrite t1.flow.pagebuf 0 page = page := by
    have : t1.flow.pagebuf.length = 264 := by rw [f1, ← ht0]; exact hb
    simp [memWrite, hlen, List.drop_eq_nil_of_le (Nat.le_of_eq this)]
  have w2 := Went.flow t1 { t1.flow with k := BitVec.ofNat 9 page.length, pagebuf := page }
  generalize ht2 : t1.setFlow { t1.flow with k := BitVec.ofNat 9 page.length, pagebuf := page } =
    t2 at w2
  have hp2 : t2.params = s.params := ((w0.trans w1).trans w2).frame.params
  have hv : t2.view = s.view := by rw [← ht2]; exact v1.trans (by rw [← ht0]; rfl)
  have hfp : t2.flow.p = BitVec.ofNat 13 (8192 - (n + 1)) := by
    rw [← ht2, State.setFlow_flow, f1, ← ht0]; rfl
  have hfb : t2.flow.pagebuf = page := by rw [← ht2]; rfl
  obtain ⟨t, he, b⟩ := programPage_broke (s := t2) (data := page) (page := t2.flow.p)
    (by rw [hp2, hv, hfp]; exact h) (by rw [hp2]; exact hx)
    (by rw [w2.answers, w1.answers]; exact ha)
  refine ⟨t, ?_, ?_⟩
  · have hsh : shortRead 264 = false := by decide
    rw [hlen] at ht2
    unfold pageLoop
    simp only [ht0, hx1, Res.raiseStream, Res.andThen, hbuf, hlen, ht2, hsh, hfb, he]
    rfl
  · have := ((w0.trans w1).trans w2).broke b
    have k2 : t2.handle = s.handle := by rw [← ht2]; exact h1.trans (by rw [← ht0]; rfl)
    have k3 : t2.wireDir = s.wireDir := by rw [← ht2]; exact d1.trans (by rw [← ht0]; rfl)
    have k4 : t2.lastPage = s.lastPage := by rw [← ht2]; exact l1.trans (by rw [← ht0]; rfl)
    rw [k2, k3, k4] at this
    simpa using this

/-! ### The end -/

/-- The buffer of a short read of `bytes`, padded (43_workflow.md R139). -/
theorem paddedPage_short (P : Params) (buf bytes : List Byte) :
    paddedPage P (memWrite buf 0 bytes) bytes.length =
      bytes ++ List.replicate (264 - bytes.length) P.padByte := by
  simp [paddedPage, memRead, memWrite, Config.pageSize]

/-- The further read fails (43_workflow.md R141). -/
theorem programFinish_streamBroke (s : State) (e : Payload) (lost : Nat) (rest : List StreamAnswer)
    (h : s.env.streamAnswers = .err e lost :: rest) :
    ∃ t, programFinish s = .err (.stream e) t ∧
      Broke s t [.streamRead 264 (.err e)] s.env.answers s.handle s.wireDir s.lastPage := by
  have hx := streamRead_err (n := Config.pageSize) h
  exact ⟨(s.setEnv { s.env with streamAnswers := rest, stream := s.env.stream.drop lost }).called
    (.streamRead Config.pageSize (.err e)),
    by simp only [programFinish, hx, Res.raiseStream, Res.andThen], by simp [State.trace, Config.pageSize], rfl, rfl, rfl, rfl⟩

/-- The end of the pages after a short read of some bytes: the further read finds none, and the padded
page is what is left to write (43_workflow.md R139). -/
theorem programFinish_padded (s : State) (bytes buf : List Byte) (page : Page)
    (rest : List StreamAnswer) (hb : bytes ≠ []) (hl : bytes.length < 264)
    (hs : s.env.stream = []) (h : s.env.streamAnswers = .ok :: rest)
    (hp : s.flow.pStop = some page) (hk : s.flow.k = BitVec.ofNat 9 bytes.length)
    (hf : s.flow.pagebuf = memWrite buf 0 bytes) :
    ∃ t, programFinish s =
        programPage (bytes ++ List.replicate (264 - bytes.length) s.params.padByte) page t ∧
      Went s t [.streamRead 264 (.ok [])] s.env.answers ∧ t.env.stream = [] ∧
      t.env.streamAnswers = rest ∧ t.wireDir = s.wireDir ∧ t.handle = s.handle ∧
      t.lastPage = s.lastPage ∧ t.view = s.view := by
  obtain ⟨t, hx, w, st, sa, d, hh, l, f, v⟩ := streamRead_went h
  rw [hs] at hx w st
  refine ⟨t, ?_, w, st, sa, d, hh, l, v⟩
  have hpos : 0 < bytes.length := List.length_pos_iff.2 hb
  have hn : s.flow.k.toNat = bytes.length := by rw [hk, BitVec.toNat_ofNat]; omega
  have h0 : ¬ s.flow.k = 0 := by intro hz; rw [hz] at hn; simp at hn; omega
  simp only [programFinish, hx, Res.raiseStream, Res.andThen, finalPage, f, hp, h0, hn, hf,
    paddedPage_short, show t.params = s.params from w.frame.params]
  simp

/-- The end of the pages after a read of no byte, or after the last page of the device
(43_workflow.md R139). -/
theorem programFinish_plain (s : State) (rest : List StreamAnswer) (hs : s.env.stream = [])
    (h : s.env.streamAnswers = .ok :: rest) (hp : s.flow.pStop = none ∨ s.flow.k = 0) :
    ∃ t, programFinish s = .ok () t ∧
      Went s t [.streamRead 264 (.ok [])] s.env.answers ∧ t.env.stream = [] ∧
      t.env.streamAnswers = rest ∧ t.wireDir = s.wireDir ∧ t.handle = s.handle ∧
      t.lastPage = s.lastPage := by
  obtain ⟨t, hx, w, st, sa, d, hh, l, f, -⟩ := streamRead_went h
  rw [hs] at hx w st
  refine ⟨t, ?_, w, st, sa, d, hh, l⟩
  simp only [programFinish, hx, Res.raiseStream, Res.andThen, finalPage, f]
  rcases hp with hp | hp
  · simp [hp]
  · cases hq : s.flow.pStop <;> simp [hp]

end Sys2Proof.Machine
end

