-- ==== Sys2Proof/Laws/Progress.lean ====
section
/-! SUPPORT. S.PHASE counts the calls (10_state.md R21): across every operation the trace grows by
calls only, and a request in progress is that many steps further. -/

namespace Sys2Proof.Machine

/-- The trace grows by calls, S.PHASE counts them, and the result port stays. -/
structure Progress (s t : State) : Prop where
  resultReady : t.resultReady = s.resultReady
  honest : s.env.honest = true → t.env.honest = true
  returns : s.env.returns = true → t.env.returns = true
  calls : ∃ new, t.log = new ++ s.log ∧ (∀ e ∈ new, e.isCall = true) ∧
    ∀ op n, s.phase = .busy op n → t.phase = .busy op (n + new.length)

/-- An update that makes no call. -/
theorem Progress.quiet {s t : State} (hr : t.resultReady = s.resultReady) (hl : t.log = s.log)
    (hp : t.phase = s.phase) (hh : s.env.honest = true → t.env.honest = true)
    (ht : s.env.returns = true → t.env.returns = true) : Progress s t :=
  ⟨hr, hh, ht, [], by simp [hl], by simp, fun _ _ h => by simpa [hp] using h⟩

theorem Progress.trans {s t u : State} (h : Progress s t) (k : Progress t u) : Progress s u := by
  obtain ⟨n1, h1, c1, p1⟩ := h.calls
  obtain ⟨n2, h2, c2, p2⟩ := k.calls
  refine ⟨k.resultReady.trans h.resultReady, fun x => k.honest (h.honest x),
    fun x => k.returns (h.returns x), n2 ++ n1, by simp [h2, h1], ?_, fun op n hp => ?_⟩
  · intro e he
    rcases List.mem_append.1 he with he | he
    · exact c2 e he
    · exact c1 e he
  · rw [p2 op _ (p1 op n hp)]
    simp only [List.length_append]
    congr 1
    omega

/-- A call made and answered is one step. -/
theorem Progress.call {s : State} {e : Env} {ev : Event} (hev : ev.isCall = true)
    (hh : s.env.honest = true → e.honest = true) (hr : s.env.returns = true → e.returns = true) :
    Progress s ((s.setEnv e).called ev) :=
  ⟨rfl, hh, hr, [ev], rfl, by simpa using hev, fun _ _ h => by simp [h, Phase.tick]⟩

theorem progress_chains : Chains Progress where
  refl _ := .quiet rfl rfl rfl id id
  trans := Progress.trans
  honest := Progress.honest
  returns := Progress.returns

theorem txWrite_progress (bs : List Byte) (s : State) : (txWrite bs s).Ends Progress s :=
  txWrite_ends bs s
    (fun _ hd => (Progress.call rfl hd.honest hd.returns).trans (.quiet rfl rfl rfl id id))
    (fun _ _ hd => (Progress.call rfl hd.honest hd.returns).trans (.quiet rfl rfl rfl id id))
    (fun _ hd => .quiet rfl rfl rfl hd.honest hd.returns)

theorem progress_closed : FlowClosed Progress where
  chains := progress_chains
  spi _ _ _ := .quiet rfl rfl rfl id id
  poll _ _ := .quiet rfl rfl rfl id id
  owed _ _ := .quiet rfl rfl rfl id id
  read s := txReadPins_ends s (fun _ _ hd => .call rfl hd.honest hd.returns)
    fun _ hd => .quiet rfl rfl rfl hd.honest hd.returns
  write s bs _ _ _ _ := txWrite_progress bs s
  pulse s _ := (txWrite_progress _ s).andThen progress_chains fun _ t _ => txWrite_progress _ t
  lastPage _ _ := .quiet rfl rfl rfl id id
  flow _ _ _ _ := .quiet rfl rfl rfl id id
  diag s _ := .call (e := s.env) rfl id id
  setDir s d _ := txSetDir_ends d s
    (fun _ h => (Progress.call rfl h.honest h.returns).trans (.quiet rfl rfl rfl id id))
    (fun _ _ h => (Progress.call rfl h.honest h.returns).trans (.quiet rfl rfl rfl id id))
    (fun _ h => .quiet rfl rfl rfl h.honest h.returns)
  openIt s := by
    unfold openHandle
    split
    · rcases txOpen_cases s with ⟨e, h, hx⟩ | ⟨e, p, h, hx⟩ | ⟨e, h, hr, hx⟩ <;> rw [hx]
      · exact (Progress.call rfl h.honest h.returns).trans (.quiet rfl rfl rfl id id)
      · exact Progress.call rfl h.honest h.returns
      · exact ⟨.quiet rfl rfl rfl h.honest h.returns, hr⟩
    · exact progress_chains.refl s
  stream s := streamRead_ends _ s (fun _ _ _ h => .call rfl h.honest h.returns)
    fun _ _ h => .quiet rfl rfl rfl h.honest h.returns

end Sys2Proof.Machine
end

