-- ==== Sys2Proof/Tests/Slice0.lean ====
section
/-! SUPPORT. Tests: ill-formed terms the checks refuse; words written out from the spec's encodings;
one step of each instruction against 95_test_vectors.md; and, for every statement with hypotheses, a
witness that meets them together. Expected values are the spec's, not the model's. -/

namespace Sys2Proof.Tests

open Sys2Proof Sys2Proof.Machine

/-! ### A small state and scripted answers (95_test_vectors.md section 1) -/

def params : Params :=
  { Params.reset with
    bitbangMode := 0x01, vid := 0x0403, pid := 0x6010, eraseTimeout := 1000, writeTimeout := 1000 }

/-- Handle open, these answers to come. -/
def opened (answers : List TxAnswer) : State :=
  { State.reset with
    params := params, handle := .opened, env := ⟨[], answers, [], [], 0⟩ }

/-- As after reset, these answers and this stream to come, every stream read answered. -/
def atStart (P : Params) (answers : List TxAnswer) (stream : List Byte)
    (reads : List StreamAnswer) : State :=
  { State.reset with params := P, env := ⟨[], answers, reads, stream, 0⟩ }

def oks (n : Nat) : List TxAnswer := yes (List.replicate n 0x00)

/-- The answers of SpiIn's bits: ReadPins returns `b << 4`, the pulse is Ok. -/
def diOf (bytes : List Byte) : List TxAnswer :=
  (bytes.flatMap bitsMsbFirst).flatMap fun b =>
    [.ok none (if b then 0x10 else 0x00), .ok none 0x00, .ok none 0x00]

/-- The 27 answers of a poll iteration that reads this status. -/
def status (b : Byte) : List TxAnswer := oks 1 ++ diOf [b] ++ oks 2

/-- The 99 answers of READ_ID. -/
def ident (bytes : List Byte) : List TxAnswer := oks 1 ++ diOf bytes ++ oks 2

/-- A field of the next state. -/
def after {α : Type} (o : Host.Outcome State Fault Refusal) (f : State → α) : Option α :=
  match o with
  | .next t => some (f t)
  | .fault _ => none
  | .refused _ => none

/-- What the vectors list: the result, the transport calls, the shadow of the output byte. -/
def shown (t : State) : Result × Nat × Option Byte := (t.result, txCalls t.trace, t.wireOut)

def sent (t : State) : List (List Byte) :=
  t.trace.filterMap fun e => match e with
    | .write bs (.ok ()) => some bs
    | .write _ (.err _) => none
    | .openCall _ _ _ => none
    | .setDir _ _ _ => none
    | .readPins _ => none
    | .streamRead _ _ => none
    | .diag _ => none
    | .result _ _ _ => none

/-- D[j] = j mod 256 (95_test_vectors.md 3.6). -/
def pageD : List Byte := (List.range 264).map (BitVec.ofNat 8)

/-! ### Ill-formed terms (30_encoding.md R80) -/

theorem test_spiOut_too_long :
    (Instr.spiOut .flash (List.replicate 65536 0x00)).wellFormed = false := by
  simp only [Instr.wellFormed, List.length_replicate]; decide

theorem test_writePage_short : (Instr.writePage 5 (List.replicate 263 0x00)).wellFormed = false := by
  decide +kernel

theorem test_bufLoadCmd_long : (Instr.bufLoadCmd (List.replicate 265 0x00)).wellFormed = false := by
  decide +kernel

/-! ### Words of the spec decode (30_encoding.md R72, R73, R82; 95_test_vectors.md 3.1) -/

theorem test_decode_select : decodeTableWord 32 0x00000011 = some (.select .fpga) := by decide
theorem test_decode_spiOut :
    decode (.request ⟨0x00020012, 0, [0xAA, 0x55]⟩) = .ok (.spiOut .fpga [0xAA, 0x55]) := by decide
theorem test_decode_spiIn : decodeTableWord 32 0x00040023 = some (.spiIn .flash 4) := by decide
theorem test_decode_readId : decodeTableWord 32 0x00000004 = some .readId := by decide
theorem test_decode_writePage :
    decode (.request ⟨0x01080005, 8191, List.replicate 264 0x00⟩) =
      .ok (.writePage 8191 (List.replicate 264 0x00)) := by decide +kernel
theorem test_decode_writePage_table :
    decodeTableWord 64 0x0000000501080005 = some (.writePage 5 (List.replicate 264 0x00)) := by
  decide +kernel
theorem test_decode_eraseSector :
    decode (.request ⟨0x00040006, 1000, [0x7C, 0x00, 0x10, 0x00]⟩) =
      .ok (.eraseSector 0x7C 0x00 0x10 0x00 1000) := by decide
theorem test_decode_eraseAll :
    decodeTableWord 64 0xFFFFFFFF00000007 = some (.eraseAll 0xFFFFFFFF) := by decide
theorem test_decode_flashPoll : decodeTableWord 32 0x00000008 = some (.flashPoll 0) := by decide
theorem test_decode_open : decodeTableWord 32 0x00000009 = some .openAdapter := by decide
theorem test_decode_program : decodeTableWord 32 0x0000000A = some .program := by decide
theorem test_decode_readIdCmd : decodeTableWord 8 0x9F = some .readIdCmd := by decide
theorem test_decode_bufLoadCmd :
    decodeTableWord 8 0x84 = some (.bufLoadCmd (List.replicate 264 0x00)) := by decide +kernel
theorem test_decode_commitCmd :
    decode (.command [0x88, 0x07, 0xD0, 0x00]) = .ok (.commitCmd 1000) := by decide
theorem test_decode_commitCmd_table : decodeTableWord 8 0x88 = some (.commitCmd 0) := by decide
theorem test_decode_sectorEraseCmd :
    decode (.command [0x7C, 0x20, 0x00, 0x00]) = .ok (.sectorEraseCmd 0x20 0x00 0x00) := by decide
theorem test_decode_statusReadCmd : decodeTableWord 8 0xD7 = some .statusReadCmd := by decide

/-- The illegal rows of 95_test_vectors.md 3.1. -/
theorem test_illegal_rows :
    [0x00000031, 0x00000000, 0x0000000B, 0x0000000F, 0x00000041, 0x00008001, 0x00000024,
      0x01070005, 0x00030006].map (decodeTableWord 32) = List.replicate 9 none ∧
    decode (.request ⟨0x00010001, 0, [0x00]⟩) = .error .badLen ∧
    decode (.request ⟨0x00000001, 1, []⟩) = .error .badOpnd ∧
    decode (.request ⟨0x01080005, 8192, List.replicate 264 0x00⟩) = .error .badOpnd ∧
    decode (.request ⟨0x0000000A, 1, []⟩) = .error .badOpnd := by decide +kernel

/-- Assembly of 30_encoding.md R85 (the programs of 95_test_vectors.md section 4). -/
theorem test_assemble :
    assemble (fun _ => none) "spi_out flash, [0x9F]" = some (.spiOut .flash [0x9F]) ∧
    assemble (fun _ => none) "spi_in  flash, 4" = some (.spiIn .flash 4) ∧
    assemble (fun _ => none) "select idle" = some (.select .idle) ∧
    assemble (fun _ => none) "flash_poll 3" = some (.flashPoll 3) ∧
    assemble (fun _ => none) "erase_sector [0x7C, 0x00, 0x10, 0x00], 1000" =
      some (.eraseSector 0x7C 0x00 0x10 0x00 1000) ∧
    assemble (fun n => if n = ['D'] then some pageD else none) "write_page 5, D" =
      some (.writePage 5 pageD) ∧
    assemble (fun _ => none) "select both" = none := by decide +kernel

/-! ### Steps (70_reset_and_hazards.md R164; 60_exceptions.md R147) -/

theorem test_reset_waits : step State.reset = .next State.reset := rfl

/-- `select flash` before any open (P5 of 95_test_vectors.md). -/
theorem test_not_open : after (step (State.reset.withFetchWord 32 0x00000021)) shown =
    some (⟨0x06, 0, []⟩, 0, none) := by decide

/-- SEL = 3: ILLEGAL comes before the handle check (95_test_vectors.md 3.1). -/
theorem test_illegal_first : after (step (State.reset.withFetchWord 32 0x00000031)) shown =
    some (⟨0x05, 0, []⟩, 0, none) := by decide

/-! ### Instructions (95_test_vectors.md 3.2 to 3.10) -/

theorem test_select : after (exec (.select .fpga) (opened (oks 1))) (fun t => (shown t, sent t)) =
    some ((⟨0, 0, []⟩, 1, some 0x02), [[0x02]]) := by decide

theorem test_select_fails : after (exec (.select .flash) (opened [.err [0xEE]])) shown =
    some (⟨0x01, 0, [0xEE]⟩, 1, none) := by decide

theorem test_spiOut : after (exec (.spiOut .fpga [0xA5]) (opened (oks 1)))
      (fun t => (shown t, sent t)) =
    some ((⟨0, 1, []⟩, 1, some 0x02), [[0x0A, 0x0E, 0x02, 0x06, 0x0A, 0x0E, 0x02, 0x06, 0x02,
      0x06, 0x0A, 0x0E, 0x02, 0x06, 0x0A, 0x0E, 0x02]]) := by decide +kernel

theorem test_spiOut_fails :
    after (exec (.spiOut .flash [0x01, 0x02, 0x10]) (opened (oks 1 ++ [.err [0xEE]]))) shown =
      some (⟨0x01, 0, [0xEE]⟩, 2, none) := by decide

theorem test_spiIn : after (exec (.spiIn .flash 2) (opened (diOf [0x5A, 0x01] ++ oks 1))) shown =
    some (⟨0, 2, [0x5A, 0x01]⟩, 49, some 0x03) := by decide +kernel

/-- Call 5 and the IDLE write fail: the first error. -/
theorem test_spiIn_fails :
    after (exec (.spiIn .flash 1) (opened (oks 4 ++ [.err [0xE1], .err [0xE2]]))) shown =
      some (⟨0x01, 0, [0xE1]⟩, 6, none) := by decide

/-- X5: the identifier is little-endian. -/
theorem test_readId :
    after (exec .readId (opened (ident [0x1F, 0x26, 0x01, 0x00]))) shown =
      some (⟨0, 0x0001261F, []⟩, 99, some 0x03) := by decide +kernel

/-- Call 98, SpiIn's IDLE write, fails: one recovery write. -/
theorem test_readId_fails :
    after (exec .readId (opened (oks 97 ++ [.err [0xEE]] ++ oks 1))) shown =
      some (⟨0x01, 0, [0xEE]⟩, 99, some 0x03) := by decide +kernel

/-- X7. -/
theorem test_writePage :
    after (exec (.writePage 5 pageD) (opened (oks 274 ++ status 0x00 ++ status 0x80)))
      (fun t => (shown t, (sent t)[268]?, (sent t)[271]?, (sent t)[273]?)) =
    some ((⟨0, 0, []⟩, 328, some 0x03), some [0x03], some (spiWord params .flash 0x0A),
      some [0x03]) := by decide +kernel

/-- ERASE_SECTOR with no budget: the command and its deselect only. -/
theorem test_eraseSector_no_budget :
    after (exec (.eraseSector 0x7C 0x00 0x10 0x00 0) (opened (oks 5))) shown =
      some (⟨0x02, 0, []⟩, 5, some 0x03) := by decide

/-- Sector 1 ready at once, sector 2 never within 2 iterations: 91 calls. -/
theorem test_eraseAll_timeout :
    after (exec (.eraseAll 2) (opened (oks 5 ++ status 0x80 ++ oks 5 ++ status 0x00 ++
      status 0x00))) shown = some (⟨0x02, 0, []⟩, 91, some 0x03) := by decide +kernel

/-- X6. -/
theorem test_flashPoll_timeout :
    after (exec (.flashPoll 3) (opened (status 0x7F ++ status 0x7F ++ status 0x7F))) shown =
      some (⟨0x02, 0, []⟩, 81, some 0x03) := by decide +kernel

theorem test_flashPoll_ready :
    after (exec (.flashPoll 3) (opened (status 0x00 ++ status 0x80))) shown =
      some (⟨0, 0, []⟩, 54, some 0x03) := by decide +kernel

theorem test_open :
    after (exec .openAdapter (atStart params (oks 2) [] []))
      (fun t => (shown t, t.handle, t.wireDir)) =
    some ((⟨0, 0, []⟩, 2, none), .opened, some 0x0F) := by decide

theorem test_open_fails :
    after (exec .openAdapter (atStart params [.err [0xEE]] [] [])) (fun t => (shown t, t.handle)) =
      some ((⟨0x01, 0, [0xEE]⟩, 1, none), .closed) := by decide

/-- P5's PROGRAM: ERASE_TIMEOUT = 1 and the first erase poll reads 0x00. -/
theorem test_program_timeout :
    after (exec .program (atStart { params with eraseTimeout := 1 }
        (oks 2 ++ ident [0x1F, 0x25, 0x00, 0x00] ++ oks 6 ++ status 0x00) [] []))
      (fun t => (shown t, t.wireDir, t.lastPage, t.handle, t.log.contains (.diag 0x0000251F))) =
    some ((⟨0x02, 0, []⟩, 134, some 0x03), some 0x2F, none, .opened, true) := by decide +kernel

theorem test_readIdCmd :
    after (exec .readIdCmd (opened (ident [0x1F, 0x25, 0x00, 0x00])))
      (fun t => (t.cmdOutcome, t.spi.rxbuf, txCalls t.trace)) =
    some (none, [0x1F, 0x25, 0x00, 0x00], 99) := by decide +kernel

theorem test_bufLoadCmd :
    after (exec (.bufLoadCmd pageD) (opened (oks 269))) (fun t => (txCalls t.trace, (sent t)[0]?)) =
      some (269, some (spiWord params .flash 0x84)) := by decide +kernel

theorem test_commitCmd :
    after (exec (.commitCmd 5) (opened (oks 5))) sent =
      some (([0x88, 0x00, 0x0A, 0x00] : List Byte).map (spiWord params .flash) ++ [[0x03]]) := by
  decide

theorem test_sectorEraseCmd :
    after (exec (.sectorEraseCmd 0x00 0x10 0x00) (opened (oks 5))) sent =
      some (([0x7C, 0x00, 0x10, 0x00] : List Byte).map (spiWord params .flash) ++ [[0x03]]) := by
  decide

theorem test_statusReadCmd :
    after (exec .statusReadCmd (opened (status 0x80))) (fun t => (t.poll.status, t.wireOut)) =
      some (0x80, some 0x03) := by decide

/-! ### Host duties (70_reset_and_hazards.md R168, R170) -/

/-- The Flash selection open, SPI_OUT having sent a commit there. -/
def committing : State :=
  { opened (oks 1) with
    wireOut := some 0x01, driven := .byte 0x01, duty := ⟨[], some 0x88⟩ }

/-- SPI_IN of no byte is the close R168 asks for. -/
theorem test_duty_empty_spiIn :
    after (step (committing.withFetchWord 32 0x00000013)) (fun t => t.duty.broken) = some [] := by
  decide

/-- A commit built with SPI_OUT: from its deselect on the device may be busy. -/
theorem test_duty_host_commit :
    after (step (committing.withFetchWord 32 0x00000001)) (fun t => (t.pollOwed, t.duty)) =
      some (true, ⟨[], none⟩) := by decide

/-- 0x9F sent to a busy device by SPI_OUT. -/
theorem test_duty_busy_spiOut :
    after (step (({ opened (oks 1) with driven := .byte 0x03, pollOwed := true } : State).place
      (.request ⟨0x00010022, 0, [0x9F]⟩))) (fun t => t.duty) =
      some ⟨[.deviceBusy], some 0x9F⟩ := by decide

/-- After a reset with every selection closed, a PROGRAM breaks no duty (R165, R168). -/
theorem test_duty_reset_idle :
    let s := { opened [] with wireOut := some 0x03, driven := .byte 0x03 }
    dutyBreaks .program s.applyReset = [] := by decide

/-- A first SPI_OUT that hangs, a reset, OPEN, READ_ID: a selection may be open (R168 (b)). -/
theorem test_duty_reset_lost :
    after (exec (.spiOut .flash [0x9F]) (opened [.never]))
      (fun t => dutyBreaks .readId { t.applyReset with handle := .opened }) =
      some [.selectionUnknown] := by decide

/-- Bytes under Idle while the Flash selection is open: the close, by log entry 10. -/
theorem test_duty_idle_bytes :
    dutyBreaks (.spiOut .idle [0x00]) { opened [] with driven := .byte 0x01 } = [] := by decide

/-! ### Witnesses: the hypotheses of each statement, met together -/

theorem inv_of_reset {s : State} (hl : s.log = []) (hw : s.wireOut = none) (hd : s.wireDir = none)
    (hu : s.driven = .untouched) (h1 : s.spi = State.reset.spi) (h2 : s.flow = State.reset.flow)
    (h3 : s.result = State.reset.result) : s.Inv where
  events := by simp [hl]
  wire b := ⟨fun hb => by simp [hw] at hb, fun hb => by simp [hu] at hb⟩
  dir := by intro d hb; simp [hd] at hb
  shapes := ⟨by rw [h1]; rfl, by rw [h2]; exact List.length_replicate, by rw [h2]; decide,
    by rw [h3]; decide⟩

theorem opened_inv (answers : List TxAnswer) : (opened answers).Inv :=
  inv_of_reset rfl rfl rfl rfl rfl rfl rfl

theorem start_inv (P : Params) (answers : List TxAnswer) (stream : List Byte)
    (reads : List StreamAnswer) : (atStart P answers stream reads).Inv :=
  inv_of_reset rfl rfl rfl rfl rfl rfl rfl

/-- A segment of `lead` answers and one poll iteration that reads ready, and one that does not. -/
def readySeg (lead : Nat) : List Byte :=
  List.replicate (lead + 1) 0x00 ++ [0x10] ++ List.replicate 25 0x00

theorem readySeg_erase (t : Word) (ht : 1 ≤ t.toNat) : ReadyAfter params 5 t (readySeg 5) :=
  ⟨1, ht, by decide, by decide, by decide, by decide⟩

theorem readySeg_page (t : Word) (ht : 1 ≤ t.toNat) : ReadyAfter params 274 t (readySeg 274) :=
  ⟨1, ht, by decide +kernel, by decide, by decide +kernel, by decide +kernel⟩

theorem all_replicate {p : List Byte → Prop} {a : List Byte} (n : Nat) (h : p a) :
    ∀ q ∈ List.replicate n a, p q := fun _ hq => (List.eq_of_mem_replicate hq).symm ▸ h

theorem witness_DecodeOfEncode : (Instr.spiOut .flash [0x9F]).wellFormed = true ∧
    (Instr.spiOut .flash (List.replicate 65535 0x00)).wellFormed = true := by
  refine ⟨by decide, ?_⟩
  simp only [Instr.wellFormed, List.length_replicate]; decide

theorem witness_EncodeOfDecode :
    decode (.request ⟨0x00000021, 0, []⟩) = .ok (.select .flash) ∧
    decode (.command [0x88, 0x07, 0xFE, 0x00]) = .ok (.commitCmd 1023) := by decide

theorem witness_DecodedHoldsItsRowOnly :
    decode (.request ⟨0x00000021, 0, []⟩) = .ok (.select .flash) ∧
      Op.spiOut ≠ (Instr.select .flash).op ∧
      Op.spiOut.isRequest = (Instr.select .flash).op.isRequest := by decide

theorem witness_RequestWords : ([] : List Byte).length < 65536 := by decide

theorem witness_SelectionPattern : Params.reset.wf = true ∧
    2 ≠ Params.reset.posCsFpga.val ∧ 2 ≠ Params.reset.posCsFlash.val := by decide

theorem witness_DirectionBytes : Params.reset.wf = true ∧ 7 < 8 := by decide

theorem witness_WrittenBytes : ∃ s t : State, s.Inv ∧ s.params.wf = true ∧ step s = .next t ∧
    ∃ bs o b, Event.write bs o ∈ t.log ∧ b ∈ bs :=
  ⟨(opened (oks 1)).withFetchWord 32 0x00000021, _, inv_of_reset rfl rfl rfl rfl rfl rfl rfl,
    by decide, rfl, [0x01], .ok (), 0x01, by decide, by decide⟩

theorem witness_ProgramEnableLevel :
    (∃ s : State, s.params.wf = true ∧ s.wireDir = some (programDirection s.params) ∧
      s.wireOut = some (selpat s.params .flash) ∧ s.Inv) ∧
    (∃ s : State, s.params.wf = true ∧ s.wireDir = some (idleDirection s.params)) :=
  ⟨⟨{ opened [] with wireDir := some 0x2F, wireOut := some 0x01, driven := .byte 0x01 }, by decide, by decide, by decide,
    { events := fun e he => (by cases he)
      wire := fun b => ⟨fun hb => by cases hb; rfl, fun hb => ⟨.flash, by cases hb; decide⟩⟩
      dir := fun d hd => .inr (by cases hd; decide)
      shapes := ⟨rfl, List.length_replicate, by decide, by decide⟩ }⟩,
    ⟨{ opened [] with wireDir := some 0x0F }, by decide, by decide⟩⟩

theorem witness_ClockLowAtRest : ∃ s : State, s.Inv ∧ s.params.wf = true ∧ s.wireOut ≠ none :=
  ⟨{ opened [] with wireOut := some 0x01, driven := .byte 0x01 },
    { events := fun e he => (by cases he)
      wire := fun b => ⟨fun hb => by cases hb; rfl, fun hb => ⟨.flash, by cases hb; decide⟩⟩
      dir := (opened_inv []).dir
      shapes := ⟨rfl, List.length_replicate, by decide, by decide⟩ }, by decide, by decide⟩

theorem witness_StepRunsDecoded :
    (∃ (s : State) (r : Request) (i : Instr), s.phase = .await ∧ s.cmdSlot = none ∧
      s.env.inputs = [.request r] ∧ decode (.request r) = .ok i) ∧
    (∃ (s : State) (bytes : List Byte) (i : Instr), s.phase = .await ∧ s.cmdSlot = some bytes ∧
      decode (.command bytes) = .ok i) :=
  ⟨⟨(opened []).place (.request ⟨0x00000021, 0, []⟩), ⟨0x00000021, 0, []⟩, .select .flash, rfl, rfl,
    rfl, by decide⟩, ⟨(opened []).place (.command [0xD7]), [0xD7], .statusReadCmd, rfl, rfl,
    by decide⟩⟩

theorem witness_IllegalRequest : ∃ (s : State) (r : Request), s.phase = .await ∧
    s.cmdSlot = none ∧ s.env.inputs = [.request r] ∧ ¬ r.Legal :=
  ⟨(opened []).place (.request ⟨0x00000031, 0, []⟩), ⟨0x00000031, 0, []⟩, rfl, rfl, rfl, by
    simp [Request.Legal]⟩

/-- A SELECT whose write never returns stays BUSY. -/
def hung (inputs : List HostInput) : State :=
  { opened [] with phase := .busy .select 0, env := ⟨inputs, [], [], [], 0⟩ }

theorem witness_StepsThatWait :
    ((opened []).phase = .await ∧ (opened []).cmdSlot = none ∧ (opened []).env.inputs = []) ∧
    (hung [.request ⟨0x00000021, 0, []⟩]).phase = .busy .select 0 ∧
    (hung [.request ⟨0x00000021, 0, []⟩]).env.inputs.head? ≠ some .reset ∧
    (hung []).env.inputs.head? ≠ some .reset := by decide

theorem witness_ResetInput :
    (∃ s : State, s.phase = .await ∧ s.cmdSlot = none ∧ s.env.inputs = [.reset]) ∧
    ((hung [.reset]).phase = .busy .select 0 ∧ (hung [.reset]).env.inputs = [.reset]) :=
  ⟨⟨{ opened [] with env := ⟨[.reset], [], [], [], 0⟩ }, rfl, rfl, rfl⟩, by decide⟩

theorem witness_SelectResult : (opened (oks 1)).handle = .opened ∧
    (opened (oks 1)).env.answers = [.ok none 0x00] ∧ (opened (oks 1)).params.wf = true := by decide

theorem witness_SelectError : (opened [.err [0xEE]]).handle = .opened ∧
    (opened [.err [0xEE]]).env.answers = [.err [0xEE]] := by decide

theorem witness_SpiOutResult :
    (∃ pins : List Byte, ([] : List Byte).length < 65536 ∧ (opened []).handle = .opened ∧
      pins.length = ([] : List Byte).length ∧ (opened []).env.answers = yes pins ++ []) ∧
    (∃ data pins : List Byte, data.length = 65535 ∧ (opened (yes pins)).handle = .opened ∧
      pins.length = data.length ∧ (opened (yes pins)).env.answers = yes pins ++ []) :=
  ⟨⟨[], by decide, rfl, rfl, rfl⟩, ⟨List.replicate 65535 0x00, List.replicate 65535 0x00,
    List.length_replicate, rfl, rfl, (List.append_nil _).symm⟩⟩

theorem witness_SpiOutError : ∃ sent pins : List Byte, pins.length = sent.length ∧
    (opened (oks 1 ++ [.err [0xEE]])).handle = .opened ∧
    (opened (oks 1 ++ [.err [0xEE]])).env.answers = yes pins ++ [.err [0xEE]] :=
  ⟨[0x01], [0x00], rfl, rfl, rfl⟩

theorem witness_SpiInResult :
    (∃ pins : List Byte, pins.length = 24 * (0 : BitVec 16).toNat + 1 ∧
      (opened (yes pins)).handle = .opened ∧ (opened (yes pins)).env.answers = yes pins ++ []) ∧
    (∃ pins : List Byte, pins.length = 24 * (65535 : BitVec 16).toNat + 1 ∧
      (opened (yes pins)).handle = .opened ∧ (opened (yes pins)).params.wf = true ∧
      (opened (yes pins)).env.answers = yes pins ++ []) :=
  ⟨⟨[0x00], rfl, rfl, rfl⟩, ⟨List.replicate 1572841 0x00, List.length_replicate, rfl, by rfl,
    (List.append_nil _).symm⟩⟩

theorem witness_SpiInError :
    (∃ pins : List Byte, ∃ a o w, pins.length < 24 * (1 : BitVec 16).toNat ∧
      IdleAnswer params a o w ∧
      (opened (yes pins ++ [.err [0xEE], a])).env.answers = yes pins ++ [.err [0xEE], a]) ∧
    (∃ pins : List Byte, ∃ a o w, pins.length < 24 * (1 : BitVec 16).toNat ∧
      IdleAnswer params a o w ∧
      (opened (yes pins ++ [.err [0xE1], a])).env.answers = yes pins ++ [.err [0xE1], a]) ∧
    (∃ pins : List Byte, pins.length = 24 * (1 : BitVec 16).toNat ∧
      (opened (yes pins ++ [.err [0xEE]])).env.answers = yes pins ++ [.err [0xEE]]) :=
  ⟨⟨[], _, _, _, by decide, .ok 0x00, rfl⟩,
    ⟨List.replicate 23 0x00, _, _, _, by decide, .err [0xE2], rfl⟩,
    ⟨List.replicate 24 0x00, by decide, rfl⟩⟩

/-- DI bits 1 0 1 0 0 1 0 1 (X4). -/
theorem witness_Loopback : ∃ pins : List Byte, pins.length = 25 ∧
    (opened (yes pins)).handle = .opened ∧ (opened (yes pins)).env.answers = yes pins ++ [] ∧
    ∀ k : Nat, k < 8 → levelAt params pins (3 * k) = (0xA5 : Byte).getLsbD (7 - k) :=
  ⟨[0x10, 0, 0, 0x00, 0, 0, 0x10, 0, 0, 0x00, 0, 0, 0x00, 0, 0, 0x10, 0, 0, 0x00, 0, 0, 0x10, 0, 0,
    0], rfl, rfl, (List.append_nil _).symm, by decide⟩

theorem witness_ReadIdResult : ∃ pins : List Byte, pins.length = 99 ∧
    (opened (yes pins)).handle = .opened ∧ (opened (yes pins)).env.answers = yes pins ++ [] :=
  ⟨List.replicate 99 0x00, List.length_replicate, rfl, (List.append_nil _).symm⟩

theorem witness_ReadIdIsItsExpansion : ∃ pins : List Byte, pins.length = 99 ∧
    (opened (yes pins)).handle = .opened ∧ (opened (yes pins)).env.answers = yes pins ++ [] :=
  witness_ReadIdResult

/-- Ready in the last iteration of the budget; never ready; no budget. -/
theorem witness_FlashPollResult :
    (∃ pins : List Byte, PollReady params 2 pins ∧ 2 ≤ (2 : Word).toNat ∧
      (opened (yes pins)).handle = .opened ∧ (opened (yes pins)).env.answers = yes pins ++ []) ∧
    (∃ pins : List Byte, PollBusy params (3 : Word).toNat pins ∧
      (opened (yes pins)).env.answers = yes pins ++ []) ∧
    PollBusy params (0 : Word).toNat [] :=
  ⟨⟨List.replicate 27 0x00 ++ readySeg 0, ⟨by decide, by decide, by decide +kernel⟩, by decide, rfl,
    (List.append_nil _).symm⟩,
    ⟨List.replicate 81 0x00, ⟨by decide, by decide +kernel⟩, (List.append_nil _).symm⟩,
    ⟨rfl, by decide⟩⟩

theorem witness_WritePageResult : pageD.length = 264 ∧
    ReadyAfter (opened (yes (readySeg 274))).params 274
      (opened (yes (readySeg 274))).params.writeTimeout (readySeg 274) ∧
    (opened (yes (readySeg 274))).handle = .opened ∧
    (opened (yes (readySeg 274))).env.answers = yes (readySeg 274) ++ [] :=
  ⟨by simp [pageD], readySeg_page 1000 (by decide), rfl, (List.append_nil _).symm⟩

/-- A state in which instruction `i` comes to step `x` of its script, `rest` then answered. -/
def Comes (P : Params) (i : Instr) (x : EngineStep) (rest : List TxAnswer) : Prop :=
  ∃ (s : State) (pins : List Byte) (es : List Event) (more : List EngineStep) (v : BusView),
    s.params = P ∧ s.handle = .opened ∧
      Reaches s.params (engineScript s.params i) ⟨s.wireOut, s.pollOwed⟩ pins es (x :: more) v ∧
      s.env.answers = yes pins ++ rest

theorem comes {P : Params} {i : Instr} {x : EngineStep} {rest : List TxAnswer} {pins : List Byte}
    {es : List Event} {more : List EngineStep} {v : BusView}
    (h : Reaches P (engineScript P i) ⟨none, false⟩ pins es (x :: more) v) : Comes P i x rest :=
  ⟨{ opened (yes pins ++ rest) with params := P }, pins, es, more, v, rfl, rfl, h, rfl⟩

def zeros (n : Nat) : List Byte := List.replicate n 0x00

theorem zeros_length (n : Nat) : (zeros n).length = n := List.length_replicate

/-- READ_ID's, a status read's inside a poll, the one after the buffer load, the one after the commit,
and a command's of the slot. -/
theorem witness_DeselectErrors :
    Comes params .readId (.deselect false) [.err [0xEE]] ∧
    Comes params (.flashPoll 1) (.deselect false) [.err [0xEE]] ∧
    Comes params (.writePage 5 pageD) (.deselect false) [.err [0xEE]] ∧
    Comes params (.writePage 5 pageD) (.deselect true) [.err [0xEE]] ∧
    Comes params (.sectorEraseCmd 0 0 0) (.deselect true) [.err [0xEE]] :=
  ⟨comes (.send (now := zeros 1) rfl (.receive (now := zeros 97) rfl (.here _ _))),
    comes (.inside (.send (now := zeros 1) rfl (.receive (now := zeros 25) rfl (.here _ _)))),
    comes (.send (now := zeros 4) rfl (.send (now := zeros 264) (by simp [zeros_length, pageD])
      (.here _ _))),
    comes (.send (now := zeros 4) rfl (.send (now := zeros 264) (by simp [zeros_length, pageD])
      (.deselect 0x00 (.send (now := zeros 4) rfl (.here _ _))))),
    comes (.send (now := zeros 4) rfl (.here _ _))⟩

theorem witness_EraseSectorResult : ReadyAfter params 5 1 (readySeg 5) ∧
    (opened (yes (readySeg 5))).handle = .opened ∧
    (opened (yes (readySeg 5))).env.answers = yes (readySeg 5) ++ [] :=
  ⟨readySeg_erase 1 (by decide), rfl, (List.append_nil _).symm⟩

theorem witness_EraseAllResult : ∃ segs : List (List Byte), segs.length = 18 ∧
    (∀ p ∈ segs, ReadyAfter params 5 1000 p) ∧
    (opened (yes segs.flatten)).env.answers = yes segs.flatten ++ [] :=
  ⟨List.replicate 18 (readySeg 5), List.length_replicate,
    all_replicate 18 (readySeg_erase 1000 (by decide)), (List.append_nil _).symm⟩

/-- A budget of 0 in WRITE_PAGE; a budget used up in ERASE_SECTOR, in FLASH_POLL, and in the second
sector of ERASE_ALL. -/
theorem witness_EngineTimeouts :
    Comes { params with writeTimeout := 0 } (.writePage 5 pageD) (.poll 0) [] ∧
    Comes params (.eraseSector 0x7C 0 0 0 1) (.poll 0) [] ∧
    Comes params (.flashPoll 1) (.poll 0) [] ∧ Comes params (.flashPoll 0) (.poll 0) [] ∧
    Comes params (.eraseAll 1) (.poll 0) [] :=
  ⟨comes (.send (now := zeros 4) rfl (.send (now := zeros 264) (by simp [zeros_length, pageD])
      (.deselect 0x00 (.send (now := zeros 4) rfl (.deselect 0x00 (.here _ _)))))),
    comes (.send (now := zeros 4) rfl (.deselect 0x00
      (.busy (now := zeros 27) rfl (by decide) (.here _ _)))),
    comes (.busy (now := zeros 27) rfl (by decide) (.here _ _)), comes (.here _ _),
    comes (.send (now := zeros 4) rfl (.deselect 0x00
      (.ready (now := [0x00, 0x10] ++ zeros 25) rfl (by decide)
        (.send (now := zeros 4) rfl (.deselect 0x00
          (.busy (now := zeros 27) rfl (by decide) (.here _ _)))))))⟩

/-- The last byte of the buffer load; READ_ID's first call and its 96th; a status read's closing IDLE;
the recovery Ok or failing. -/
theorem witness_SendAndReceiveErrors :
    (∃ as es' e w, PhaseFails params (.send (zeros 263 ++ [0xA5])) as es' e w ∧
      Comes params (.writePage 5 (zeros 263 ++ [0xA5])) (.send (zeros 263 ++ [0xA5])) (as ++ [])) ∧
    (∃ as es' e w, PhaseFails params (.send [0x9F]) as es' e w ∧
      Comes params .readId (.send [0x9F]) (as ++ [])) ∧
    (∃ as es' e w, PhaseFails params (.receive 4) as es' e w ∧
      Comes params .readId (.receive 4) (as ++ [])) ∧
    (∃ as es' e w, PhaseFails params (.receive 1) as es' e w ∧
      Comes params (.flashPoll 1) (.receive 1) (as ++ [])) :=
  ⟨⟨_, _, _, _, .send (pins := zeros 263) (e := [0xEE]) rfl (.ok 0x00),
      comes (.send (now := zeros 4) rfl (.here _ _))⟩,
    ⟨_, _, _, _, .send (sent := []) (pins := []) (e := [0xEE]) rfl (.ok 0x00),
      comes (.here _ _)⟩,
    ⟨_, _, _, _, .receive (pins := zeros 95) (e := [0xEE]) (by decide) (.err [0xE1]) (.err [0xE2]),
      comes (.send (now := zeros 1) rfl (.here _ _))⟩,
    ⟨_, _, _, _, .close (pins := zeros 24) (e := [0xEE]) rfl (.err [0xE1]),
      comes (.inside (.send (now := zeros 1) rfl (.here _ _)))⟩⟩

theorem witness_ReadCommands : ∀ n : Nat, ∃ pins : List Byte, pins.length = n ∧
    (opened (yes pins)).handle = .opened ∧ (opened (yes pins)).env.answers = yes pins ++ [] :=
  fun n => ⟨List.replicate n 0x00, List.length_replicate, rfl, (List.append_nil _).symm⟩

theorem witness_SendCommands : pageD.length = 264 ∧ ∀ bytes : List Byte, ∃ pins : List Byte,
    pins.length = bytes.length + 1 ∧ (opened (yes pins)).handle = .opened ∧
    (opened (yes pins)).env.answers = yes pins ++ [] :=
  ⟨by simp [pageD], fun bytes => ⟨List.replicate (bytes.length + 1) 0x00, List.length_replicate,
    rfl, (List.append_nil _).symm⟩⟩

theorem witness_OpenResult :
    ((atStart params (oks 2) [] []).handle = .closed ∧
      (atStart params (oks 2) [] []).env.answers = [.ok none 0x00, .ok none 0x00]) ∧
    ((opened (oks 1)).handle = .opened ∧ (opened (oks 1)).env.answers = [.ok none 0x00]) ∧
    ((atStart params [.err [0xEE]] [] []).handle = .closed ∧
      (atStart params [.err [0xEE]] [] []).env.answers = [.err [0xEE]]) ∧
    ((atStart params [.ok none 0x00, .err [0xEE]] [] []).handle = .closed ∧
      (atStart params [.ok none 0x00, .err [0xEE]] [] []).env.answers =
        [.ok none 0x00, .err [0xEE]]) ∧
    ((opened [.err [0xEE]]).handle = .opened ∧
      (opened [.err [0xEE]]).env.answers = [.err [0xEE]]) := by decide

/-- The answers of a PROGRAM run that writes these page segments. -/
def programAnswers (pageSegs finalSegs : List (List Byte)) (ends : List Byte) : List TxAnswer :=
  yes (List.replicate 2 0x00 ++ List.replicate 99 0x00 ++ [0x00] ++
    (List.replicate 18 (readySeg 5)).flatten ++ pageSegs.flatten ++ finalSegs.flatten ++ ends) ++ []

/-- The premises of a complete PROGRAM run, for a stream of 264·q + r bytes. -/
def ProgramPremises (s : State) (q r : Nat) (pageSegs finalSegs : List (List Byte)) : Prop :=
  s.Shapes ∧ s.env.stream.length = 264 * q + r ∧ r < 264 ∧ q + finalSegs.length ≤ 8192 ∧
    finalSegs.length = (if r = 0 then 0 else 1) ∧ s.handle = .closed ∧
    (∀ p ∈ List.replicate 18 (readySeg 5), ReadyAfter s.params 5 s.params.eraseTimeout p) ∧
    pageSegs.length = q ∧
    (∀ p ∈ pageSegs ++ finalSegs, ReadyAfter s.params 274 s.params.writeTimeout p) ∧
    s.env.answers = programAnswers pageSegs finalSegs [0x00] ∧
    s.env.streamAnswers = List.replicate ((if q < 8192 then q + 1 else q) + 1) .ok ++ []

theorem program_premises (q r : Nat) (hr : r < 264) (hc : q + (if r = 0 then 0 else 1) ≤ 8192) :
    ProgramPremises (atStart params
        (programAnswers (List.replicate q (readySeg 274))
          (List.replicate (if r = 0 then 0 else 1) (readySeg 274)) [0x00])
        (List.replicate (264 * q + r) 0x00)
        (List.replicate ((if q < 8192 then q + 1 else q) + 1) .ok ++ []))
      q r (List.replicate q (readySeg 274))
      (List.replicate (if r = 0 then 0 else 1) (readySeg 274)) := by
  refine ⟨(start_inv _ _ _ _).shapes, List.length_replicate, hr, ?_, List.length_replicate, rfl,
    all_replicate 18 (readySeg_erase 1000 (by decide)), List.length_replicate, ?_, rfl, rfl⟩
  · rw [List.length_replicate]; exact hc
  · intro p hp
    have h := readySeg_page 1000 (by decide)
    rcases List.mem_append.1 hp with hp | hp
    · exact (List.eq_of_mem_replicate hp).symm ▸ h
    · exact (List.eq_of_mem_replicate hp).symm ▸ h

/-- An empty stream, ten bytes, one page, and the two largest streams that fit. -/
theorem witness_ProgramCompletes :
    (∃ s p f, ProgramPremises s 0 0 p f) ∧ (∃ s p f, ProgramPremises s 0 10 p f) ∧
    (∃ s p f, ProgramPremises s 1 0 p f) ∧ (∃ s p f, ProgramPremises s 8192 0 p f) ∧
    (∃ s p f, ProgramPremises s 8191 263 p f) :=
  ⟨⟨_, _, _, program_premises 0 0 (by decide) (by decide)⟩,
    ⟨_, _, _, program_premises 0 10 (by decide) (by decide)⟩,
    ⟨_, _, _, program_premises 1 0 (by decide) (by decide)⟩,
    ⟨_, _, _, program_premises 8192 0 (by decide) (by decide)⟩,
    ⟨_, _, _, program_premises 8191 263 (by decide) (by decide)⟩⟩

/-- One byte too many. -/
theorem witness_ProgramOversize : ∃ (s : State) (pageSegs : List (List Byte)), s.Shapes ∧
    264 * 8192 < s.env.stream.length ∧ s.handle = .closed ∧
    (∀ p ∈ List.replicate 18 (readySeg 5), ReadyAfter s.params 5 s.params.eraseTimeout p) ∧
    pageSegs.length = 8192 ∧ (∀ p ∈ pageSegs, ReadyAfter s.params 274 s.params.writeTimeout p) ∧
    s.env.answers = yes (List.replicate 2 0x00 ++ List.replicate 99 0x00 ++ [0x00] ++
      (List.replicate 18 (readySeg 5)).flatten ++ pageSegs.flatten) ++ [] ∧
    s.env.streamAnswers = List.replicate 8193 .ok ++ [] :=
  ⟨atStart params (yes (List.replicate 2 0x00 ++ List.replicate 99 0x00 ++ [0x00] ++
      (List.replicate 18 (readySeg 5)).flatten ++
      (List.replicate 8192 (readySeg 274)).flatten) ++ [])
    (List.replicate (264 * 8192 + 1) 0x00) (List.replicate 8193 .ok ++ []),
    List.replicate 8192 (readySeg 274), (start_inv _ _ _ _).shapes,
    Nat.lt_of_lt_of_eq (Nat.lt_succ_self _) List.length_replicate.symm, rfl,
    all_replicate 18 (readySeg_erase 1000 (by decide)), List.length_replicate,
    all_replicate 8192 (readySeg_page 1000 (by decide)), rfl, rfl⟩

/-- TxOpen; the idle direction with the handle closed and open; READ_ID's first byte; the program
direction; the first erase command, and its poll with a budget of 0. -/
theorem witness_ProgramHeadErrors :
    ((atStart params [.err [0xEE]] [] []).handle = .closed ∧
      (atStart params [.err [0xEE]] [] []).env.answers = [.err [0xEE]]) ∧
    (atStart params (yes (zeros 1) ++ [.err [0xEE]]) [] []).env.answers =
      yes (zeros 1) ++ [.err [0xEE]] ∧
    ((opened (yes [] ++ [.err [0xEE]])).handle = .opened ∧
      (opened (yes [] ++ [.err [0xEE]])).env.answers = yes [] ++ [.err [0xEE]]) ∧
    (∃ (s : State) (pins : List Byte) (es es' : List Event) (x : EngineStep) (more : List EngineStep)
        (v : BusView) (as : List TxAnswer) (f : Failure) (w : BusView), s.handle = .closed ∧
      Reaches s.params (engineScript s.params .readId) ⟨s.wireOut, s.pollOwed⟩ pins es (x :: more) v ∧
      StepFails s.params x v as es' f w ∧ s.env.answers = yes (zeros 2 ++ pins) ++ (as ++ [])) ∧
    (atStart params (yes (zeros 2 ++ zeros 99) ++ [.err [0xEE]]) [] []).env.answers =
      yes (zeros 2 ++ zeros 99) ++ [.err [0xEE]] ∧
    (∃ (s : State) (pins : List Byte) (es es' : List Event) (x : EngineStep) (more : List EngineStep)
        (v : BusView) (as : List TxAnswer) (w : BusView), s.handle = .closed ∧
      Reaches s.params (engineScript s.params (.eraseAll s.params.eraseTimeout))
        ⟨some (idleByte s.params), s.pollOwed⟩ pins es (x :: more) v ∧
      StepFails s.params x v as es' .timeout w ∧
      s.env.answers = yes (zeros 2 ++ zeros 99 ++ [0x00] ++ pins) ++ (as ++ [])) := by
  refine ⟨by decide, rfl, by decide, ?_, rfl, ?_⟩
  · exact ⟨atStart params (yes (zeros 2 ++ []) ++ ([.err [0xEE], .ok none 0x00] ++ [])) [] [], [], _,
      _, _, _, _, _, _, _, rfl, .here _ _, .phase (.send (sent := []) (pins := []) rfl (.ok 0x00)), rfl⟩
  · exact ⟨atStart { params with eraseTimeout := 0 }
      (yes (zeros 2 ++ zeros 99 ++ [0x00] ++ (zeros 4 ++ [0x00])) ++ ([] ++ [])) [] [], _, _, _, _, _, _,
      _, _, rfl, .send (now := zeros 4) rfl (.deselect 0x00 (.here _ _)), .timeout _, rfl⟩

/-- The common premises of ProgramPageErrors: a run that reaches its page `q`, on a stream of `n` zero
bytes; `more` is answered after the pages, `reads` on the stream port. -/
def PagePremises (s : State) (q n : Nat) (more : List TxAnswer) (reads : List StreamAnswer) : Prop :=
  s.Shapes ∧ s.handle = .closed ∧ s.params = params ∧ s.env.stream = zeros n ∧
    (∀ p ∈ List.replicate 18 (readySeg 5), ReadyAfter s.params 5 s.params.eraseTimeout p) ∧
    q ≤ 8192 ∧ 264 * q ≤ s.env.stream.length ∧
    (∀ p ∈ List.replicate q (readySeg 274), ReadyAfter s.params 274 s.params.writeTimeout p) ∧
    s.env.answers = yes (zeros 2 ++ zeros 99 ++ [0x00] ++ (List.replicate 18 (readySeg 5)).flatten ++
      (List.replicate q (readySeg 274)).flatten) ++ more ∧
    s.env.streamAnswers = reads

theorem page_premises (q n : Nat) (more : List TxAnswer) (reads : List StreamAnswer) (hq : q ≤ 8192)
    (hn : 264 * q ≤ n) : ∃ s, PagePremises s q n more reads :=
  ⟨atStart params (yes (zeros 2 ++ zeros 99 ++ [0x00] ++ (List.replicate 18 (readySeg 5)).flatten ++
      (List.replicate q (readySeg 274)).flatten) ++ more) (zeros n) reads,
    (start_inv _ _ _ _).shapes, rfl, rfl, rfl, all_replicate 18 (readySeg_erase 1000 (by decide)), hq,
    hn.trans_eq List.length_replicate.symm,
    all_replicate q (readySeg_page 1000 (by decide)), rfl, rfl⟩

/-- The answers to a page whose first byte fails, its recovery Ok. -/
def firstFails : List TxAnswer := [.err [0xEE], .ok none 0x00]

/-- `s` is at page `q` of a stream of `n` bytes, and the write of `data` to `page` fails there. -/
def PageFails (s : State) (q n : Nat) (page : Page) (data : List Byte) (reads : List StreamAnswer) :
    Prop :=
  PagePremises s q n (firstFails ++ []) reads ∧ ∃ x more v es' f w,
    Reaches s.params (engineScript s.params (.writePage page data)) ⟨some (idleByte s.params), false⟩
      [] [] (x :: more) v ∧ StepFails s.params x v firstFails es' f w

theorem page_fails (q n : Nat) (page : Page) (data : List Byte) (reads : List StreamAnswer)
    (hq : q ≤ 8192) (hn : 264 * q ≤ n) : ∃ s, PageFails s q n page data reads := by
  obtain ⟨s, h⟩ := page_premises q n (firstFails ++ []) reads hq hn
  exact ⟨s, h, _, _, _, _, _, _, .here _ _,
    .phase (.send (sent := []) (pins := []) (e := [0xEE]) rfl (.ok 0x00))⟩

/-- A failing StreamRead at page 0, at the last page and after it; a page write at page 0 and at the last
page; the further read after no byte and after 263; the padded page of one byte and of 263; the closing
direction on an empty stream, on 8191 pages and 263 bytes, and on 8192 pages. -/
theorem witness_ProgramPageErrors :
    (∀ q ∈ [0, 8191, 8192], ∃ s, PagePremises s q (264 * q) []
      (List.replicate q .ok ++ [.err [0xEE] 3])) ∧
    (∀ q ∈ [0, 8191], ∃ s, PageFails s q (264 * (q + 1)) (BitVec.ofNat 13 q)
      (((zeros (264 * (q + 1))).drop (264 * q)).take 264) (List.replicate (q + 1) .ok ++ [])) ∧
    (∀ r ∈ [0, 263], ∃ s, PagePremises s 8191 (264 * 8191 + r) []
      (List.replicate (8191 + 1) .ok ++ [.err [0xEE] 3])) ∧
    (∀ r ∈ [1, 263], ∃ s, PageFails s 8191 (264 * 8191 + r) 8191
      ((zeros (264 * 8191 + r)).drop (264 * 8191) ++ List.replicate (264 - r) 0x00)
      (List.replicate (8191 + 2) .ok ++ [])) ∧
    (∃ s, PagePremises s 0 0 (yes [] ++ [.err [0xEE]]) (List.replicate 2 .ok ++ [])) ∧
    (∃ s, PagePremises s 8191 (264 * 8191 + 263) (yes (readySeg 274) ++ [.err [0xEE]])
      (List.replicate (8191 + 2) .ok ++ [])) ∧
    (∃ s, PagePremises s 8192 (264 * 8192) (yes [] ++ [.err [0xEE]])
      (List.replicate (8192 + 1) .ok ++ [])) := by
  refine ⟨fun q hq => page_premises _ _ _ _ ?_ (Nat.le_refl _),
    fun q hq => page_fails _ _ _ _ _ ?_ (by omega),
    fun r _ => page_premises _ _ _ _ (by decide) (by omega),
    fun r _ => page_fails _ _ _ _ _ (by decide) (by omega),
    page_premises _ _ _ _ (by decide) (by decide), page_premises _ _ _ _ (by decide) (by decide),
    page_premises _ _ _ _ (by decide) (by decide)⟩
  all_goals
    simp only [List.mem_cons, List.not_mem_nil, or_false] at hq
    omega

theorem witness_NotOpen :
    ((Instr.select .flash).op.isRequest = true ∧ (Instr.select .flash).op.needsHandle = true ∧
      State.reset.handle = .closed) ∧
    (∃ t, exec .openAdapter (atStart params (oks 2) [] []) = .next t) :=
  ⟨by decide, ⟨_, rfl⟩⟩

theorem witness_CommandNotOpen : (Instr.commitCmd 5).op.isRequest = false ∧
    State.reset.handle = .closed := by decide

/-- Instruction `i` meets a wrong count among these answers. -/
def Faulted (i : Instr) (answers : List TxAnswer) : Prop :=
  exec i (opened answers) = .fault .transportContract ∧
    ∃ t, exec i (opened answers).uncounted = .next t ∧ (opened answers).Miscounted t

theorem faulted {i : Instr} {answers : List TxAnswer} {t : State} {n c : Nat} {p : Byte}
    {bs : List Byte} {o : Reply Unit} (h : exec i (opened answers) = .fault .transportContract)
    (hn : exec i (opened answers).uncounted = .next t)
    (hb : (t.trace.filter Event.isTxCall)[n]? = some (.write bs o))
    (ha : answers[n]? = some (.ok (some c) p)) (hc : c ≠ bs.length) : Faulted i answers :=
  ⟨h, t, hn, t.trace, n, c, p, bs, o, rfl, hb, ha, hc⟩

/-- A wrong count to SPI_OUT's second write, to SPI_IN's closing IDLE, to Recover's write, to a write of
an engine command; and none: a right count, and a count that answers no write. -/
theorem witness_TransportContract :
    Faulted (.spiOut .flash [0x01, 0x02]) [.ok (some 17) 0x00, .ok (some 16) 0x00] ∧
    Faulted (.spiIn .flash 0) [.ok (some 0) 0x00] ∧
    Faulted .readId [.err [0xEE], .ok (some 2) 0x00] ∧
    Faulted (.sectorEraseCmd 0 0 0) (oks 4 ++ [.ok (some 17) 0x00]) ∧
    (opened [.ok (some 0) 0x00]).handle = .opened ∧
    (opened [.ok (some 1) 0x00]).env.answers = [.ok (some 1) 0x00] ∧
    after (exec .openAdapter (atStart params [.ok (some 9) 0x00, .ok (some 9) 0x00] [] [])) shown =
      some (⟨0, 0, []⟩, 2, none) :=
  ⟨faulted (n := 1) rfl rfl rfl rfl (by decide), faulted (n := 0) rfl rfl rfl rfl (by decide),
    faulted (n := 1) rfl rfl rfl rfl (by decide), faulted (n := 4) rfl rfl rfl rfl (by decide), rfl,
    rfl, by decide⟩

/-- An erase that succeeds, then a StreamRead that fails: STREAM, its payload as DATA (R83, R84). -/
theorem test_program_stream :
    after (exec .program (atStart params (yes (List.replicate 102 0x00 ++
        (List.replicate 18 (readySeg 5)).flatten)) [] [.err [0xEE] 0]))
      (fun t => (t.result, t.lastPage, t.phase)) = some (⟨0x04, 0, [0xEE]⟩, none, .await) := by
  decide +kernel

theorem after_some {α : Type} {o : Host.Outcome State Fault Refusal} {f : State → α} {a : α}
    (h : after o f = some a) : ∃ t, o = .next t ∧ f t = a := by
  cases o with
  | next t => exact ⟨t, rfl, Option.some.inj h⟩
  | fault f => cases h
  | refused r => cases h

/-- Next states in AWAIT of a request, and of a command of the slot. -/
theorem witness_ResultForms :
    (∃ t, exec (.spiOut .flash [0x9F]) (opened (oks 1)) = .next t ∧ t.phase = .await ∧
      t.result.code = 0) ∧
    (∃ t, exec (.spiIn .flash 0) (opened (oks 1)) = .next t ∧ t.phase = .await ∧
      t.result.code = 0) ∧
    (∃ t, exec (.flashPoll 0) (opened []) = .next t ∧ t.phase = .await ∧ t.result.code = 0x02) ∧
    (∃ t, exec (.select .flash) (opened [.err [0xEE]]) = .next t ∧ t.phase = .await ∧
      t.result.code = 0x01) ∧
    (∃ t, exec .openAdapter (atStart params [.err [0xEE]] [] []) = .next t ∧ t.phase = .await ∧
      t.result.code = 0x01) ∧
    (∃ t, exec .readId (atStart params [] [] []) = .next t ∧ t.phase = .await ∧
      t.result.code = 0x06) ∧
    (∃ s t, exec .program s = .next t ∧ t.phase = .await ∧ t.result.code = 0x04) ∧
    (Instr.spiOut .flash [0x9F]).wellFormed = true :=
  ⟨⟨_, rfl, rfl, rfl⟩, ⟨_, rfl, rfl, rfl⟩, ⟨_, rfl, rfl, rfl⟩, ⟨_, rfl, rfl, rfl⟩, ⟨_, rfl, rfl, rfl⟩,
    ⟨_, rfl, rfl, rfl⟩,
    (after_some test_program_stream).elim fun t h =>
      ⟨_, t, h.1, by simpa using congrArg (·.2.2) h.2, by simpa using congrArg (·.1.code) h.2⟩,
    by decide⟩

theorem witness_EveryInstructionEnds : (opened (oks 1)).env.returns = true ∧
    (opened (oks 1)).env.honest = true ∧ State.reset.env.returns = true := by decide

theorem witness_TraceGrows :
    (∃ t, exec (.select .flash) (opened (oks 1)) = .next t ∧ t.phase = .await) ∧
    (∃ t, exec (.commitCmd 5) (opened (oks 5)) = .next t ∧ t.phase = .await) ∧
    (∃ t, exec (.select .flash) (opened [.never]) = .next t ∧ t.phase = .busy .select 0) ∧
    (∃ t, exec (.commitCmd 5) (opened (oks 2 ++ [.never])) = .next t ∧
      t.phase = .busy .commitCmd 2) :=
  ⟨⟨_, rfl, rfl⟩, ⟨_, rfl, rfl⟩, ⟨_, rfl, rfl⟩, ⟨_, rfl, rfl⟩⟩

theorem witness_PersistentRegisters :
    (∃ t, exec (.select .flash) (opened (oks 1)) = .next t) ∧
    Instr.select .flash ≠ .openAdapter ∧ Instr.select .flash ≠ .program :=
  ⟨⟨_, rfl⟩, by decide, by decide⟩

theorem witness_RequestCopied : ∃ (s t : State) (r : Request), s.phase = .await ∧
    s.cmdSlot = none ∧ s.env.inputs = [.request r] ∧ step s = .next t :=
  ⟨(opened (oks 1)).place (.request ⟨0x00000021, 0, []⟩), _, ⟨0x00000021, 0, []⟩, rfl, rfl, rfl, rfl⟩

/-- A state whose wire holds `wire`, which its latest write left there. -/
def wired (wire : Option Byte) : State :=
  { opened [] with wireOut := wire, driven := .ofWire wire }

theorem witness_DutiesRecorded :
    (∃ (s t : State) (r : Request), s.phase = .await ∧ s.cmdSlot = none ∧
      s.env.inputs = [.request r] ∧ decode (.request r) = .ok (.select .flash) ∧
      step s = .next t) ∧
    (∃ (s : State) (r : Request) (f : Fault), s.phase = .await ∧ s.cmdSlot = none ∧
      s.env.inputs = [.request r] ∧ decode (.request r) = .ok (.select .flash) ∧
      step s = .fault f) ∧
    (∃ t, exec (.select .flash) (opened (oks 1)) = .next t) ∧
    (∃ t, exec (.select .flash) (opened [.err [0xEE]]) = .next t) ∧
    (∃ t, exec (.select .flash) (opened [.never]) = .next t) ∧
    (∀ d n, Instr.readId ≠ .spiIn d n) ∧ (wired none).driven = .lost ∧
    (wired (some 0x01)).driven ≠ .lost ∧
    (wired (some 0x01)).drivenSelection = some .flash ∧
    (wired (some 0x02)).drivenSelection = some .fpga ∧
    (wired (some 0x03)).drivenSelection = some .idle ∧ (wired (some 0x03)).pollOwed = false ∧
    (wired none).wireOut = none ∧
    ({ wired (some 0x01) with pollOwed := true } : State).pollOwed = true ∧
    (wired (some 0x01)).duty.opcode = none ∧
    ({ wired (some 0x01) with duty := ⟨[], some 0x88⟩ } : State).duty.opcode = some 0x88 :=
  ⟨⟨(opened (oks 1)).place (.request ⟨0x00000021, 0, []⟩), _, ⟨0x00000021, 0, []⟩, rfl, rfl, rfl,
      by decide, rfl⟩,
    ⟨(opened [.ok (some 0) 0x00]).place (.request ⟨0x00000021, 0, []⟩), ⟨0x00000021, 0, []⟩, _, rfl,
      rfl, rfl, by decide, rfl⟩,
    ⟨_, rfl⟩, ⟨_, rfl⟩, ⟨_, rfl⟩, by simp, rfl, by decide, by decide, by decide, by decide,
    rfl, rfl, rfl, rfl, rfl⟩

theorem witness_FrameSelectSpiOut :
    (∃ t, exec (.select .flash) (opened (oks 1)) = .next t) ∧
    (∃ t, exec (.spiOut .flash [0x9F]) (opened (oks 1)) = .next t) ∧
    (∃ t, exec (.spiOut .flash []) (opened []) = .next t) :=
  ⟨⟨_, rfl⟩, ⟨_, rfl⟩, ⟨_, rfl⟩⟩

theorem witness_FrameSpiInReadId :
    (∃ t, exec (.spiIn .flash 0) (opened (oks 1)) = .next t) ∧
    (∃ t, exec .readId (opened [.err [0xEE], .ok none 0x00]) = .next t) :=
  ⟨⟨_, rfl⟩, ⟨_, rfl⟩⟩

theorem witness_FrameEngine :
    (∃ t, exec (.writePage 5 pageD) (opened [.err [0xEE], .ok none 0x00]) = .next t) ∧
    (∃ t, exec (.eraseSector 0x7C 0 0 0 0) (opened (oks 5)) = .next t) ∧
    (∃ t, exec (.eraseAll 0) (opened (oks 5)) = .next t) ∧
    (∃ t, exec (.flashPoll 0) (opened []) = .next t) :=
  ⟨⟨_, rfl⟩, ⟨_, rfl⟩, ⟨_, rfl⟩, ⟨_, rfl⟩⟩

theorem witness_FrameOpenProgram :
    (∃ t, exec .openAdapter (atStart params (oks 2) [] []) = .next t) ∧
    (∃ t, exec .program (atStart params [.err [0xEE]] [] []) = .next t) :=
  ⟨⟨_, rfl⟩, ⟨_, rfl⟩⟩

theorem witness_FrameCommands :
    (∃ t, exec (.commitCmd 5) (opened (oks 5)) = .next t) ∧
    (∃ t, exec .statusReadCmd (opened [.err [0xEE], .ok none 0x00]) = .next t) ∧
    (Instr.commitCmd 5).op.isRequest = false ∧ Instr.commitCmd 5 ≠ .statusReadCmd ∧
    Instr.commitCmd 5 ≠ .readIdCmd :=
  ⟨⟨_, rfl⟩, ⟨_, rfl⟩, by decide, by decide, by decide⟩

theorem witness_StepKeepsInv : ∃ s t : State, s.Inv ∧ step s = .next t :=
  ⟨(opened (oks 1)).withFetchWord 32 0x00000021, _, inv_of_reset rfl rfl rfl rfl rfl rfl rfl, rfl⟩

/-- OPEN as the first request; and a request turned away. -/
theorem witness_FirstCallIsOpen :
    (∃ s t : State, s.OpenedFirst ∧ step s = .next t ∧ t.handle = .opened) ∧
    (∃ t, exec (.select .flash) State.reset = .next t ∧ State.reset.handle = .closed) :=
  ⟨⟨(atStart params (oks 2) [] []).withFetchWord 32 0x00000009, _,
    ⟨fun e he => (by cases he), fun h => (by cases h)⟩, rfl, rfl⟩, ⟨_, rfl, rfl⟩⟩

end Sys2Proof.Tests
end

section
/-! SUPPORT. What is kept around an instruction and across it: its beginning and its end write only the
phase, the ports and the trace (`State.SameInside`); a request or flash command of the engine keeps any
relation closed under the bus primitives (`exec_bus_ends`); and OPEN keeps its own frame
(`OpenFrame`). -/

namespace Sys2Proof.Machine

/-! ### The beginning and the end of an instruction -/

/-- What the beginning and the end of an instruction leave alone: all but the phase, the result port,
the outcome of the command slot and the trace. -/
structure State.SameInside (s t : State) : Prop where
  params : t.params = s.params
  handle : t.handle = s.handle
  lastPage : t.lastPage = s.lastPage
  req : t.req = s.req
  spi : t.spi = s.spi
  poll : t.poll = s.poll
  flow : t.flow = s.flow
  wireOut : t.wireOut = s.wireOut
  wireDir : t.wireDir = s.wireDir
  cmdSlot : t.cmdSlot = s.cmdSlot
  env : t.env = s.env
  duty : t.duty = s.duty
  pollOwed : t.pollOwed = s.pollOwed
  driven : t.driven = s.driven

theorem State.SameInside.refl (s : State) : s.SameInside s := by constructor <;> rfl

theorem State.started_inside (s : State) (op : Op) : s.SameInside (s.started op) := by
  unfold State.started
  split <;> constructor <;> rfl

theorem State.finish_inside (s : State) (r : Result) : s.SameInside (s.finish r) := by
  constructor <;> rfl

theorem State.finishCommand_inside (s : State) (o : Option Failure) :
    s.SameInside (s.finishCommand o) := by
  constructor <;> rfl

/-- A next state is reached from the started instruction through the relation, and then ended. -/
theorem ExecEnds.next {R : State → State → Prop} {i : Instr} {s t : State} (h : ExecEnds R i s)
    (ht : exec i s = .next t) : ∃ u, R (s.started i.op) u ∧ u.SameInside t := by
  cases h with
  | result hi r u hR hr he =>
    cases he.symm.trans ht
    exact ⟨u, State.started_request hi ▸ hR, u.finish_inside r⟩
  | command hi o u hR he =>
    cases he.symm.trans ht
    exact ⟨u, State.started_command hi ▸ hR, u.finishCommand_inside o⟩
  | stuck u hR hr he =>
    cases he.symm.trans ht
    exact ⟨t, hR, .refl t⟩
  | fault f hh he => cases he.symm.trans ht

/-! ### The instructions other than OPEN and PROGRAM -/

/-- A request that needs the handle ends as its operation does. -/
theorem handled_ends {R : State → State → Prop} (hR : Chains R) {α : Type} {i : Instr} {s : State}
    {x : State → Res Failure α} (f : α → Word × List Byte) (hi : i.op.isRequest = true)
    (hx : exec i s = runRequest i.op (requireHandle fun s =>
      (x s).andThen fun a s => .ok (okResult (f a).1 (f a).2) s) s)
    (h : ∀ s, (x s).Ends R s) : ExecEnds R i s :=
  request_ends hi hx
    (requireHandle_ends hR fun _ => (h _).andThen hR fun _ t _ => hR.refl t)
    fun _ _ => handled_okResult (f := f) fun _ _ => rfl

/-- Everything an instruction other than OPEN and PROGRAM can do, for a relation closed under the bus
primitives. -/
theorem exec_bus_ends {R : State → State → Prop} (h : BusClosed R) {i : Instr}
    (hopen : i ≠ .openAdapter) (hprogram : i ≠ .program) (s : State) : ExecEnds R i s := by
  have hc := h.chains
  cases i with
  | select d => exact handled_ends hc (fun _ => (0, [])) rfl rfl fun s => (h.selectEnds d s).raise
  | spiOut d data =>
    exact handled_ends hc (fun n => (BitVec.ofNat 32 n, [])) rfl rfl
      fun s => (h.spiOutEnds data d s).raise
  | spiIn d n =>
    exact handled_ends hc (fun b => (n.setWidth 32, b)) rfl rfl
      fun s => (h.spiInEnds n.toNat d s).raise
  | readId => exact handled_ends hc (fun id => (id, [])) rfl rfl h.readIdEnds
  | writePage page data =>
    exact handled_ends hc (fun _ => (0, [])) rfl rfl (h.writePageEnds data page)
  | eraseSector c0 c1 c2 c3 t =>
    exact handled_ends hc (fun _ => (0, [])) rfl rfl (h.eraseSectorEnds [c0, c1, c2, c3] t)
  | eraseAll t => exact handled_ends hc (fun _ => (0, [])) rfl rfl (h.eraseAllEnds t)
  | flashPoll t => exact handled_ends hc (fun _ => (0, [])) rfl rfl (h.flashPollEnds t)
  | openAdapter => exact absurd rfl hopen
  | program => exact absurd rfl hprogram
  | readIdCmd =>
    exact command_ends rfl rfl (requireHandle_ends hc fun _ =>
      (h.readTransactionEnds _ _ _).andThen hc fun _ t _ => hc.refl t)
  | bufLoadCmd data =>
    exact command_ends rfl rfl (requireHandle_ends hc fun _ => h.bufLoadEnds data _)
  | commitCmd page =>
    exact command_ends rfl rfl (requireHandle_ends hc fun _ => h.startEnds _ _)
  | sectorEraseCmd a2 a1 a0 =>
    exact command_ends rfl rfl (requireHandle_ends hc fun _ => h.startEnds _ _)
  | statusReadCmd =>
    exact command_ends rfl rfl (requireHandle_ends hc fun _ => h.statusEnds _)

/-! ### OPEN -/

/-- What Open() leaves alone: beside what the workflow does, S.LAST_PAGE, the registers of the engine
and the workflow, the bytes on the wire and the stream (43_workflow.md R133). -/
structure OpenFrame (s t : State) : Prop extends FlowFrame s t where
  lastPage : t.lastPage = s.lastPage
  spi : t.spi = s.spi
  poll : t.poll = s.poll
  flow : t.flow = s.flow
  wireOut : t.wireOut = s.wireOut
  driven : t.driven = s.driven
  pollOwed : t.pollOwed = s.pollOwed
  streamAnswers : t.env.streamAnswers = s.env.streamAnswers
  stream : t.env.stream = s.env.stream

theorem OpenFrame.refl (s : State) : OpenFrame s s where
  toFlowFrame := .refl s
  lastPage := rfl
  spi := rfl
  poll := rfl
  flow := rfl
  wireOut := rfl
  driven := rfl
  pollOwed := rfl
  streamAnswers := rfl
  stream := rfl

theorem OpenFrame.trans {s t u : State} (h : OpenFrame s t) (k : OpenFrame t u) :
    OpenFrame s u where
  toFlowFrame := h.toFlowFrame.trans k.toFlowFrame
  lastPage := k.lastPage.trans h.lastPage
  spi := k.spi.trans h.spi
  poll := k.poll.trans h.poll
  flow := k.flow.trans h.flow
  wireOut := k.wireOut.trans h.wireOut
  driven := k.driven.trans h.driven
  pollOwed := k.pollOwed.trans h.pollOwed
  streamAnswers := k.streamAnswers.trans h.streamAnswers
  stream := k.stream.trans h.stream

theorem openFrame_chains : Chains OpenFrame where
  refl := OpenFrame.refl
  trans := OpenFrame.trans
  honest h := h.honest
  returns h := h.returns

/-- A call of Open() adds its event. -/
theorem OpenFrame.call {s : State} {e : Env} (hd : s.env.Drawn e) {ev : Event}
    (hev : ev.Formed s.params) (hne : ∀ c v d, ev ≠ .result c v d) :
    OpenFrame s ((s.setEnv e).called ev) :=
  ⟨.call hd.inputs hd.honest hd.returns hev hne, rfl, rfl, rfl, rfl, rfl, rfl, rfl,
    hd.streamAnswers, hd.stream⟩

theorem OpenFrame.draw {s : State} {e : Env} (hd : s.env.Drawn e) : OpenFrame s (s.setEnv e) :=
  ⟨.draw hd.inputs hd.honest hd.returns, rfl, rfl, rfl, rfl, rfl, rfl, rfl, hd.streamAnswers,
    hd.stream⟩

theorem OpenFrame.dir (s : State) (b : Option Byte) : OpenFrame s (s.setWireDir b) :=
  ⟨.dir s b, rfl, rfl, rfl, rfl, rfl, rfl, rfl, rfl, rfl⟩

theorem OpenFrame.opened (s : State) : OpenFrame s (s.setHandle .opened) :=
  ⟨.opened s, rfl, rfl, rfl, rfl, rfl, rfl, rfl, rfl, rfl⟩

theorem openHandle_openFrame (s : State) : (openHandle s).Ends OpenFrame s := by
  unfold openHandle
  split
  · rcases txOpen_cases s with ⟨e, hd, hx⟩ | ⟨e, p, hd, hx⟩ | ⟨e, hd, hr, hx⟩ <;> rw [hx]
    · exact (OpenFrame.call hd (ev := .openCall _ _ _) ⟨rfl, rfl⟩ (by simp)).trans (.opened _)
    · exact OpenFrame.call hd (ev := .openCall _ _ _) ⟨rfl, rfl⟩ (by simp)
    · exact ⟨.draw hd, hr⟩
  · exact .refl s

theorem txSetDir_openFrame {d : Byte} {s : State}
    (hd : d = idleDirection s.params ∨ d = programDirection s.params) :
    (txSetDir d s).Ends OpenFrame s := by
  have hcall : ∀ (e : Env) (o : Reply Unit), s.env.Drawn e →
      OpenFrame s ((s.setEnv e).called (.setDir d s.params.bitbangMode o)) :=
    fun _ _ he => .call he ⟨hd, rfl⟩ (by simp)
  exact txSetDir_ends d s (fun e he => (hcall e _ he).trans (.dir _ _))
    (fun e _ he => (hcall e _ he).trans (.dir _ _)) fun _ he => (OpenFrame.draw he).trans (.dir _ _)

/-- OPEN ends in its frame. -/
theorem openAdapter_ends (s : State) : ExecEnds OpenFrame .openAdapter s :=
  request_ends (body := fun s => (openSub s).raise.andThen fun _ s => .ok (okResult 0 []) s) rfl rfl
    (((openHandle_openFrame _).andThen openFrame_chains fun _ t _ =>
        txSetDir_openFrame (.inl rfl)).raise.andThen openFrame_chains fun _ t _ => .refl t)
    fun _ _ hb => by
      obtain ⟨-, u, -, hb⟩ := Res.andThen_ok hb
      cases hb
      exact ⟨_, _, rfl⟩

/-! ### Every instruction, for its next state -/

/-- What every instruction leaves alone, PROGRAM too: an open handle stays open (10_state.md R23, R25,
R26). -/
structure State.KeptByExec (s t : State) : Prop where
  params : t.params = s.params
  req : t.req = s.req
  inputs : t.env.inputs = s.env.inputs
  opened : s.handle = .opened → t.handle = .opened

theorem exec_keeps {i : Instr} {s t : State} (h : exec i s = .next t) : s.KeptByExec t := by
  obtain ⟨u, hu, ht⟩ := (exec_cases flowFrame_closed i s).next h
  have hs := s.started_inside i.op
  exact ⟨ht.params.trans (hu.params.trans hs.params), ht.req.trans (hu.req.trans hs.req),
    (congrArg Env.inputs ht.env).trans (hu.inputs.trans (congrArg Env.inputs hs.env)),
    fun ho => ht.handle.trans (hu.handle (hs.handle.trans ho))⟩

/-- The bus operations write neither the handle nor S.LAST_PAGE (10_state.md R23, R24). -/
theorem exec_bus_keeps {i : Instr} {s t : State} (h : exec i s = .next t)
    (hopen : i ≠ .openAdapter) (hprogram : i ≠ .program) :
    t.handle = s.handle ∧ t.lastPage = s.lastPage := by
  obtain ⟨u, hu, ht⟩ := (exec_bus_ends busFrame_closed hopen hprogram s).next h
  have hs := s.started_inside i.op
  exact ⟨ht.handle.trans (hu.handle.trans hs.handle),
    ht.lastPage.trans (hu.lastPage.trans hs.lastPage)⟩

theorem openAdapter_keeps_lastPage {s t : State} (h : exec .openAdapter s = .next t) :
    t.lastPage = s.lastPage := by
  obtain ⟨u, hu, ht⟩ := (openAdapter_ends s).next h
  exact ht.lastPage.trans (hu.lastPage.trans (s.started_inside _).lastPage)

/-! ### The step, from what is fetched -/

theorem fetch_request {s : State} {r : Request} {rest : List HostInput} (hp : s.phase = .await)
    (hc : s.cmdSlot = none) (hin : s.env.inputs = .request r :: rest) :
    fetch s = .code (.request r) (s.accept r) := by
  simp [fetch, hp, hc, hin]

theorem fetch_command {s : State} {bytes : List Byte} (hp : s.phase = .await)
    (hc : s.cmdSlot = some bytes) : fetch s = .code (.command bytes) s.takeCommand := by
  simp [fetch, hp, hc]

theorem step_decoded {s t : State} {c : Encoding} {i : Instr} (hf : fetch s = .code c t)
    (hd : decode c = .ok i) : step s = exec i (noteDuties i t) := by
  simp [step, hf, hd]

theorem step_rejected {s t : State} {c : Encoding} {e : DecodeError} (hf : fetch s = .code c t)
    (hd : decode c = .error e) : step s = rejected c t := by
  simp [step, hf, hd]

theorem State.accept_inputs {s : State} {r : Request} {rest : List HostInput}
    (hin : s.env.inputs = .request r :: rest) : (s.accept r).env.inputs = rest := by
  simp [hin]

/-! ### The obligations -/

/-- Settles O17: what is fetched is the accepted request or the taken command, and it decodes. -/
theorem stepRunsDecoded : Obligations.StepRunsDecoded := by
  unfold Obligations.StepRunsDecoded
  constructor
  · intro s r rest i hp hc hin hd
    exact ⟨step_decoded (fetch_request hp hc hin) hd, rfl, State.accept_inputs hin⟩
  · intro s bytes i hp hc hd
    exact ⟨step_decoded (fetch_command hp hc) hd, rfl⟩

/-- Settles O51: acceptance writes the request registers, and neither the instruction nor the ILLEGAL
result writes them again. -/
theorem requestCopied : Obligations.RequestCopied := by
  unfold Obligations.RequestCopied
  intro s t r rest hp hc hin h
  have hf := fetch_request hp hc hin
  cases hd : decode (.request r) with
  | ok i =>
    rw [step_decoded hf hd] at h
    have hk := exec_keeps h
    exact ⟨hk.req, hk.inputs.trans (State.accept_inputs hin)⟩
  | error e =>
    rw [step_rejected hf hd] at h
    cases h
    exact ⟨rfl, State.accept_inputs hin⟩

/-- Settles O50: by the workflow's frame for every instruction, the bus frame for all but OPEN and
PROGRAM, and OPEN's own frame for S.LAST_PAGE. -/
theorem persistentRegisters : Obligations.PersistentRegisters := by
  unfold Obligations.PersistentRegisters
  intro i s t h
  have hk := exec_keeps h
  refine ⟨hk.params, hk.opened, fun ho hp => (exec_bus_keeps h ho hp).1, fun hp => ?_⟩
  by_cases ho : i = .openAdapter
  · subst ho
    exact openAdapter_keeps_lastPage h
  · exact (exec_bus_keeps h ho hp).2

end Sys2Proof.Machine
end

section
/-! SUPPORT. The write contract for every instruction (`exec_counted`, 20_memory.md R42), what the
trace gains while an instruction runs (`Progress.counted`, R48), and the identifier as a number of its
bytes (`or_byte_toNat`, R52). -/

namespace Sys2Proof.Machine

/-! ### The write contract -/

/-- A request that needs the handle compares as its operation does. -/
theorem counted_handled {α : Type} {i : Instr} {x : State → Res Failure α} {result : α → Result}
    (hsim : Sim x) (hx : ∀ s, exec i s = runRequest i.op (requireHandle fun s =>
      (x s).andThen fun a s => .ok (result a) s) s) (s : State) : CountedExec i s :=
  counted_request (hsim.andThen fun a => .ret (fun _ => result a) fun _ => rfl).handled hx s

/-- Every instruction is the fault exactly where its uncounted run meets a wrong count. -/
theorem exec_counted (i : Instr) (s : State) : CountedExec i s := by
  cases i with
  | select d =>
    exact counted_handled (sim_select d).raise (result := fun _ => okResult 0 []) (fun _ => rfl) s
  | spiOut d data =>
    exact counted_handled (sim_spiOut data d).raise
      (result := fun n => okResult (BitVec.ofNat 32 n) []) (fun _ => rfl) s
  | spiIn d n =>
    exact counted_handled (sim_spiIn n.toNat d).raise
      (result := fun bytes => okResult (n.setWidth 32) bytes) (fun _ => rfl) s
  | readId => exact counted_handled sim_readId (result := fun id => okResult id []) (fun _ => rfl) s
  | writePage page data =>
    exact counted_handled (sim_writePage data page) (result := fun _ => okResult 0 [])
      (fun _ => rfl) s
  | eraseSector c0 c1 c2 c3 t =>
    exact counted_handled (sim_eraseSector [c0, c1, c2, c3] t) (result := fun _ => okResult 0 [])
      (fun _ => rfl) s
  | eraseAll t =>
    exact counted_handled (sim_eraseAll t) (result := fun _ => okResult 0 []) (fun _ => rfl) s
  | flashPoll t =>
    exact counted_handled (sim_flashPoll t) (result := fun _ => okResult 0 []) (fun _ => rfl) s
  | openAdapter =>
    exact counted_request (sim_openSub.raise.andThen fun _ =>
      .ret (fun _ => okResult 0 []) fun _ => rfl) (fun _ => rfl) s
  | program => exact counted_request sim_programBody (fun _ => rfl) s
  | readIdCmd =>
    exact counted_command ((sim_readTransaction readIdBytes Config.idLen).andThen fun _ =>
      .ret (fun _ => ()) fun _ => rfl).handled (fun _ => rfl) s
  | bufLoadCmd data => exact counted_command (sim_bufLoad data).handled (fun _ => rfl) s
  | commitCmd page =>
    exact counted_command (sim_start (commitBytes (page.setWidth 13))).handled (fun _ => rfl) s
  | sectorEraseCmd a2 a1 a0 =>
    exact counted_command (sim_start (sectorEraseBytes a2 a1 a0)).handled (fun _ => rfl) s
  | statusReadCmd => exact counted_command sim_status.handled (fun _ => rfl) s

theorem select_right_count {s : State} {d : Device} {p : Byte} {rest : List TxAnswer}
    (h : s.env.answers = .ok (some 1) p :: rest) :
    select d s = .ok () (((s.setEnv { s.env with answers := rest }).called
      (.write [selpat s.params d] (.ok ()))).setWireOut (some (selpat s.params d))) := by
  simp [select, txWrite, nextAnswer_cons _ _ _ h]

theorem select_wrong_count {s : State} {d : Device} {c : Nat} {p : Byte} {rest : List TxAnswer}
    (h : s.env.answers = .ok (some c) p :: rest) (hc : c ≠ 1) :
    select d s = .fault .transportContract := by
  simp [select, txWrite, nextAnswer_cons _ _ _ h, hc]

/-- SELECT with the handle open ends as Select(d) does (40_device_selector.md R89). -/
theorem exec_select_opened {s : State} {d : Device} (ho : s.handle = .opened) :
    exec (.select d) s = (select d (s.begin .select)).raise.outcome
      (fun _ t => t.finish (okResult 0 [])) fun f t => t.finish f.toResult := by
  have hends := flowFrame_closed.selectEnds d (s.begin .select)
  have hrun : exec (.select d) s = _ := settle_eq (start := s) (fun r t => t.finish r)
    (fun f t => t.finish f.toResult) (requireHandle_ends (α := Result) flowFrame_chains fun _ =>
      hends.raise.andThen (k := fun _ s => .ok (okResult 0 []) s) flowFrame_chains
        fun _ t _ => .refl t) id
  rw [hrun, requireHandle_opened (s := s.begin .select) ho]
  cases select d (s.begin .select) <;> rfl

/-- Settles O46: every instruction by comparison with its uncounted run, SELECT by its one write. -/
theorem transportContract : Obligations.TransportContract := by
  unfold Obligations.TransportContract
  refine ⟨exec_counted, fun s d c p rest ho ha => ?_⟩
  rw [exec_select_opened ho]
  constructor
  · intro hc
    rw [select_wrong_count (s := s.begin .select) ha hc]
    rfl
  · rintro rfl
    rw [select_right_count (s := s.begin .select) ha]
    exact ⟨_, rfl, rfl, rfl⟩

/-! ### The trace -/

@[simp] theorem State.started_phase (s : State) (op : Op) : (s.started op).phase = .busy op 0 := by
  unfold State.started
  split <;> rfl

@[simp] theorem State.started_log (s : State) (op : Op) : (s.started op).log = s.log := by
  unfold State.started
  split <;> rfl

@[simp] theorem State.started_resultReady (s : State) (op : Op) :
    (s.started op).resultReady = if op.isRequest then false else s.resultReady := by
  unfold State.started
  split <;> rfl

@[simp] theorem State.trace_finishCommand (s : State) (o : Option Failure) :
    (s.finishCommand o).trace = s.trace := rfl

/-- An instruction under way has added calls only, and its step is their number. -/
theorem Progress.counted {s t : State} {op : Op} (h : Progress (s.started op) t) :
    ∃ calls, (∀ e ∈ calls, e.isCall = true) ∧ t.trace = s.trace ++ calls ∧
      t.phase = .busy op calls.length := by
  obtain ⟨new, hlog, hcalls, hphase⟩ := h.calls
  refine ⟨new.reverse, by simpa using hcalls, State.trace_of_log _ (by simpa using hlog), ?_⟩
  simpa using hphase op 0 (State.started_phase s op)

/-- Settles O49: an instruction ends with a result, ends as a flash command, or is stuck, each after
calls only (`exec_cases` at `Progress`). -/
theorem traceGrows : Obligations.TraceGrows := by
  unfold Obligations.TraceGrows
  intro i s t h
  cases exec_cases progress_closed i s with
  | result hi r u hR hr he =>
    cases he.symm.trans h
    obtain ⟨calls, hcalls, htrace, -⟩ := (State.started_request hi ▸ hR : Progress _ u).counted
    exact ⟨calls, hcalls, fun _ => by simp [hi, htrace], fun hp => absurd rfl hp⟩
  | command hi o u hR he =>
    cases he.symm.trans h
    obtain ⟨calls, hcalls, htrace, -⟩ := (State.started_command hi ▸ hR : Progress _ u).counted
    exact ⟨calls, hcalls, fun _ => by simp [hi, htrace], fun hp => absurd rfl hp⟩
  | stuck u hR hreturns he =>
    cases he.symm.trans h
    obtain ⟨calls, hcalls, htrace, hphase⟩ := hR.counted
    refine ⟨calls, hcalls, fun hp => ?_, fun _ => ⟨htrace, hphase, ?_, hreturns⟩⟩
    · cases hphase.symm.trans hp
    · rw [hR.resultReady, State.started_resultReady]
  | fault f hh he => cases he.symm.trans h

/-! ### The identifier -/

/-- A byte or-ed in above a number that fits below it is added at its weight. -/
theorem or_byte_toNat {low : Word} {k : Nat} (b : Byte) (hlow : low.toNat < 2 ^ k)
    (hk : k + 8 ≤ 32) :
    (low ||| (b.setWidth 32 <<< k)).toNat = low.toNat + 2 ^ k * b.toNat := by
  have hshift : (b.setWidth 32 <<< k).toNat = b.toNat <<< k := by
    have hb : b.toNat <<< k < 2 ^ 32 := by
      calc b.toNat <<< k < 2 ^ (8 + k) := Nat.shiftLeft_lt b.isLt
        _ ≤ 2 ^ 32 := Nat.pow_le_pow_right (by decide) (by omega)
    rw [BitVec.toNat_shiftLeft, BitVec.toNat_setWidth_of_le (by decide), Nat.mod_eq_of_lt hb]
  rw [BitVec.toNat_or, hshift, Nat.or_comm, ← Nat.shiftLeft_add_eq_or_of_lt hlow, Nat.shiftLeft_eq]
  ring

/-- Settles O9: each byte is added at its weight, from the least significant up. -/
theorem identifierLittleEndian : Obligations.IdentifierLittleEndian := by
  unfold Obligations.IdentifierLittleEndian
  refine ⟨fun b0 b1 b2 b3 => ?_, by decide⟩
  have h0 : (b0.setWidth 32).toNat = b0.toNat := BitVec.toNat_setWidth_of_le (by decide)
  have h1 := or_byte_toNat (low := b0.setWidth 32) (k := 8) b1 (by omega) (by decide)
  have h2 := or_byte_toNat (low := b0.setWidth 32 ||| (b1.setWidth 32 <<< 8)) (k := 16) b2
    (by omega) (by decide)
  have h3 := or_byte_toNat (k := 24) (low := b0.setWidth 32 ||| (b1.setWidth 32 <<< 8) |||
    (b2.setWidth 32 <<< 16)) b3 (by omega) (by decide)
  calc (identifier [b0, b1, b2, b3]).toNat = _ := h3
    _ = _ := by omega

end Sys2Proof.Machine
end

section
/-! SUPPORT. Decoding and encoding agree: the decoder on a header made of its fields, what a decoded
flash command held (`CommandHeld`), and that a legal request holds a row and so is the encoding of an
instruction (30_encoding.md R71 to R74, R77 to R82). -/

namespace Sys2Proof

/-! ### The decoder on an encoded header -/

@[simp] theorem deviceOfSel_selOfDevice (d : Device) : deviceOfSel (selOfDevice d) = some d := by
  cases d <;> rfl

@[simp] theorem withDevice_mkHdr (op : BitVec 4) (d : Device) (len : BitVec 16) (opnd : Word)
    (data : List Byte) (k : Device → Except DecodeError Instr) :
    withDevice ⟨mkHdr op (selOfDevice d) len, opnd, data⟩ k = k d := by
  simp [withDevice]

@[simp] theorem withSelZero_mkHdr (op : BitVec 4) (len : BitVec 16) (opnd : Word)
    (data : List Byte) (k : Except DecodeError Instr) :
    withSelZero ⟨mkHdr op 0#2 len, opnd, data⟩ k = k := by
  simp [withSelZero]

@[simp] theorem dataIsLen_mkHdr (op : BitVec 4) (sel : BitVec 2) (len : BitVec 16) (opnd : Word)
    (data : List Byte) :
    Request.dataIsLen ⟨mkHdr op sel len, opnd, data⟩ = (data.length == len.toNat) := by
  simp [Request.dataIsLen]

theorem checkRow_true (i : Instr) : checkRow true true true i = .ok i := rfl

/-- A page operand fills the low 13 bits of OPND, and bits 31..13 are 0 (30_encoding.md R80). -/
theorem page_opnd (page : Page) :
    (page.setWidth 32).extractLsb' 0 13 = page ∧ (page.setWidth 32).extractLsb' 13 19 = 0 := by
  have hlt := page.isLt
  constructor <;> apply BitVec.eq_of_toNat_eq <;>
    simp [BitVec.extractLsb'_toNat, Nat.shiftRight_eq_div_pow] <;> omega

/-! ### The address fields of COMMIT_CMD (30_encoding.md R73) -/

theorem and_F8_eq_zero (a2 : Byte) : a2 &&& 0xF8#8 = 0#8 ↔ a2.toNat < 8 := by
  revert a2; decide

theorem and_01_eq_zero (a1 : Byte) : a1 &&& 0x01#8 = 0#8 ↔ a1.toNat % 2 = 0 := by
  revert a1; decide

/-- A ten-bit page index is read back from the address it is sent in. -/
theorem pageOfAddress_page (page : BitVec 10) :
    pageOfAddress (pageA2 (page.setWidth 13)) (pageA1 (page.setWidth 13)) = page := by
  apply BitVec.eq_of_toNat_eq
  have hlt := page.isLt
  have hp : (page.setWidth 13).toNat = page.toNat := BitVec.toNat_setWidth_of_le (by decide)
  rw [pageOfAddress_toNat, pageA2_toNat, pageA1_toNat, hp]
  omega

/-- An address field with its fixed bits at 0 is the one of the page index read from it. -/
theorem commitBytes_pageOfAddress {a2 a1 : Byte} (h2 : a2 &&& 0xF8 = 0) (h1 : a1 &&& 0x01 = 0) :
    commitBytes ((pageOfAddress a2 a1).setWidth 13) = [0x88, a2, a1, 0x00] := by
  have hlow := (and_F8_eq_zero a2).1 h2
  have heven := (and_01_eq_zero a1).1 h1
  have hlt := a1.isLt
  have hp : ((pageOfAddress a2 a1).setWidth 13).toNat = a2.toNat * 128 + a1.toNat / 2 := by
    rw [BitVec.toNat_setWidth_of_le (by decide), pageOfAddress_toNat, Nat.mod_eq_of_lt hlow]
  have e2 : pageA2 ((pageOfAddress a2 a1).setWidth 13) = a2 := by
    apply BitVec.eq_of_toNat_eq
    rw [pageA2_toNat, hp]
    omega
  have e1 : pageA1 ((pageOfAddress a2 a1).setWidth 13) = a1 := by
    apply BitVec.eq_of_toNat_eq
    rw [pageA1_toNat, hp]
    omega
  rw [commitBytes, e2, e1]

/-! ### Decoding an encoding -/

theorem decodeCommand_bufLoad {data : List Byte} (h : data.length = 264) :
    decodeCommand (0x84 :: 0x00 :: 0x00 :: 0x00 :: data) = .ok (.bufLoadCmd data) := by
  simp [decodeCommand, Config.pageSize, h]

theorem decodeCommand_commit (page : BitVec 10) :
    decodeCommand (commitBytes (page.setWidth 13)) = .ok (.commitCmd page) := by
  have hp : (page.setWidth 13).toNat = page.toNat := BitVec.toNat_setWidth_of_le (by decide)
  have h2 : pageA2 (page.setWidth 13) &&& 0xF8#8 = 0#8 := by
    rw [and_F8_eq_zero, pageA2_toNat]
    omega
  have h1 : pageA1 (page.setWidth 13) &&& 0x01#8 = 0#8 := by
    rw [and_01_eq_zero, pageA1_toNat]
    omega
  simp [commitBytes, decodeCommand, h2, h1, pageOfAddress_page]

/-- Settles O1: the decoder meets the row its header names, and the row's checks hold of what the
encoder wrote. -/
theorem decodeOfEncode : Obligations.DecodeOfEncode := by
  unfold Obligations.DecodeOfEncode
  intro i hwf
  cases i with
  | select d => simp [encode, decode, decodeRequest, checkRow_true]
  | spiOut d data =>
    have hlen : data.length % 65536 = data.length := Nat.mod_eq_of_lt (of_decide_eq_true hwf)
    simp [encode, decode, decodeRequest, checkRow_true, hlen]
  | spiIn d n => simp [encode, decode, decodeRequest, checkRow_true]
  | readId => rfl
  | writePage page data =>
    have hlen : data.length = 264 := eq_of_beq hwf
    obtain ⟨hpage, hhigh⟩ := page_opnd page
    simp [encode, decode, decodeRequest, hlen, hpage, hhigh, checkRow_true]
  | eraseSector c0 c1 c2 c3 t => simp [encode, decode, decodeRequest, checkRow_true]
  | eraseAll t => simp [encode, decode, decodeRequest, checkRow_true]
  | flashPoll t => simp [encode, decode, decodeRequest, checkRow_true]
  | openAdapter => rfl
  | program => rfl
  | readIdCmd => rfl
  | bufLoadCmd data => exact decodeCommand_bufLoad (eq_of_beq hwf)
  | commitCmd page => exact decodeCommand_commit page
  | sectorEraseCmd a2 a1 a0 => rfl
  | statusReadCmd => rfl

/-! ### What a decoded encoding held -/

/-- What the bytes of a flash command that decodes have held (30_encoding.md R72, R73). -/
inductive CommandHeld : List Byte → Instr → Prop
  | readIdCmd : CommandHeld [0x9F] .readIdCmd
  | statusReadCmd : CommandHeld [0xD7] .statusReadCmd
  | bufLoadCmd (data : List Byte) (hd : data.length = 264) :
      CommandHeld (0x84 :: 0x00 :: 0x00 :: 0x00 :: data) (.bufLoadCmd data)
  | commitCmd (a2 a1 : Byte) (h2 : a2 &&& 0xF8 = 0) (h1 : a1 &&& 0x01 = 0) :
      CommandHeld [0x88, a2, a1, 0x00] (.commitCmd (pageOfAddress a2 a1))
  | sectorEraseCmd (a2 a1 a0 : Byte) : CommandHeld [0x7C, a2, a1, a0] (.sectorEraseCmd a2 a1 a0)

theorem decodeCommand_held {bytes : List Byte} {i : Instr} (h : decodeCommand bytes = .ok i) :
    CommandHeld bytes i := by
  cases bytes with
  | nil => cases h
  | cons opcode rest =>
    rcases ite_cases h with ⟨ho, h⟩ | ⟨-, h⟩
    · rcases ite_cases h with ⟨hr, h⟩ | ⟨-, h⟩ <;> cases h
      rw [ho, List.isEmpty_iff.1 hr]
      exact .readIdCmd
    rcases ite_cases h with ⟨ho, h⟩ | ⟨-, h⟩
    · rcases ite_cases h with ⟨hr, h⟩ | ⟨-, h⟩ <;> cases h
      rw [ho, List.isEmpty_iff.1 hr]
      exact .statusReadCmd
    rcases ite_cases h with ⟨ho, h⟩ | ⟨-, h⟩
    · match rest, h with
      | a2 :: a1 :: a0 :: data, h =>
        rcases ite_cases h with ⟨-, h⟩ | ⟨ha, h⟩
        · cases h
        rcases ite_cases h with ⟨-, h⟩ | ⟨hd, h⟩ <;> cases h
        simp only [not_or, not_not] at ha hd
        rw [ho, ha.1, ha.2.1, ha.2.2]
        exact .bufLoadCmd data hd
    rcases ite_cases h with ⟨ho, h⟩ | ⟨-, h⟩
    · match rest, h with
      | [a2, a1, a0], h =>
        rcases ite_cases h with ⟨-, h⟩ | ⟨ha, h⟩ <;> cases h
        simp only [not_or, not_not] at ha
        obtain ⟨h2, h1, h0⟩ := ha
        rw [ho, h0]
        exact .commitCmd a2 a1 h2 h1
    rcases ite_cases h with ⟨ho, h⟩ | ⟨-, h⟩
    · match rest, h with
      | [a2, a1, a0], h =>
        cases h
        rw [ho]
        exact .sectorEraseCmd a2 a1 a0
    · cases h

theorem CommandHeld.encode_eq {bytes : List Byte} {i : Instr} (h : CommandHeld bytes i) :
    encode i = .command bytes := by
  cases h with
  | readIdCmd => rfl
  | statusReadCmd => rfl
  | bufLoadCmd data hd => rfl
  | commitCmd a2 a1 h2 h1 => exact congrArg Encoding.command (commitBytes_pageOfAddress h2 h1)
  | sectorEraseCmd a2 a1 a0 => rfl

theorem CommandHeld.wellFormed {bytes : List Byte} {i : Instr} (h : CommandHeld bytes i) :
    i.wellFormed = true := by
  cases h with
  | bufLoadCmd data hd => exact beq_iff_eq.2 hd
  | _ => rfl

/-- A request is its fields (30_encoding.md R77). -/
theorem request_of_fields {r : Request} {op : BitVec 4} {sel : BitVec 2} {len : BitVec 16}
    {opnd : Word} {data : List Byte} (hr : hdrRsvd r.hdr = 0) (ho : hdrOp r.hdr = op)
    (hs : hdrSel r.hdr = sel) (hl : hdrLen r.hdr = len) (hp : r.opnd = opnd) (hd : r.data = data) :
    Encoding.request ⟨mkHdr op sel len, opnd, data⟩ = .request r := by
  subst ho hs hl hp hd
  rw [mkHdr_fields _ hr]

/-- An OPND with bits 31..13 at 0 is the page in its low 13 bits. -/
theorem opnd_of_page {opnd : Word} (h : opnd.extractLsb' 13 19 = 0) :
    opnd = (opnd.extractLsb' 0 13).setWidth 32 := by
  have hhigh := congrArg BitVec.toNat h
  have hlt := opnd.isLt
  apply BitVec.eq_of_toNat_eq
  simp [BitVec.extractLsb'_toNat, Nat.shiftRight_eq_div_pow] at hhigh ⊢
  omega

theorem RowHeld.encode_eq {r : Request} {i : Instr} (hr : hdrRsvd r.hdr = 0) (h : RowHeld r i) :
    encode i = .request r := by
  cases h with
  | select d ho hs hl hp hd => exact request_of_fields hr ho hs hl hp hd
  | spiOut d ho hs hp hd =>
    exact request_of_fields hr ho hs (by rw [hd, BitVec.ofNat_toNat, BitVec.setWidth_eq]) hp rfl
  | spiIn d ho hs hp hd => exact request_of_fields hr ho hs rfl hp hd
  | readId ho hs hl hp hd => exact request_of_fields hr ho hs hl hp hd
  | writePage ho hs hl hp hd => exact request_of_fields hr ho hs hl (opnd_of_page hp) rfl
  | eraseSector c0 c1 c2 c3 ho hs hl hd => exact request_of_fields hr ho hs hl rfl hd
  | eraseAll ho hs hl hd => exact request_of_fields hr ho hs hl rfl hd
  | flashPoll ho hs hl hd => exact request_of_fields hr ho hs hl rfl hd
  | openAdapter ho hs hl hp hd => exact request_of_fields hr ho hs hl hp hd
  | program ho hs hl hp hd => exact request_of_fields hr ho hs hl hp hd

theorem RowHeld.wellFormed {r : Request} {i : Instr} (h : RowHeld r i) : i.wellFormed = true := by
  cases h with
  | spiOut d ho hs hp hd => exact decide_eq_true (hd ▸ (hdrLen r.hdr).isLt)
  | writePage ho hs hl hp hd => exact beq_iff_eq.2 hd
  | _ => rfl

/-- Settles O2: the row, or the command, that was held fixes every bit of the encoding. -/
theorem encodeOfDecode : Obligations.EncodeOfDecode := by
  unfold Obligations.EncodeOfDecode
  intro c i h
  cases c with
  | request r =>
    obtain ⟨hr, hrow⟩ := decodeRequest_row h
    exact hrow.encode_eq hr
  | command bytes => exact (decodeCommand_held h).encode_eq

theorem decode_wellFormed {c : Encoding} {i : Instr} (h : decode c = .ok i) :
    i.wellFormed = true := by
  cases c with
  | request r => exact (decodeRequest_row h).2.wellFormed
  | command bytes => exact (decodeCommand_held h).wellFormed

/-! ### The rows of the opcode table -/

/-- The encoding of a well-formed instruction holds its row, by its constructor's lemma. -/
theorem encode_matches (i : Instr) (h : i.wellFormed = true) :
    i.op.row.matches (encode i) = true := by
  cases i with
  | select d => exact Laws.RowMatch.select d h
  | spiOut d data => exact Laws.RowMatch.spiOut d data h
  | spiIn d n => exact Laws.RowMatch.spiIn d n h
  | readId => exact Laws.RowMatch.readId h
  | writePage page data => exact Laws.RowMatch.writePage page data h
  | eraseSector c0 c1 c2 c3 t => exact Laws.RowMatch.eraseSector c0 c1 c2 c3 t h
  | eraseAll t => exact Laws.RowMatch.eraseAll t h
  | flashPoll t => exact Laws.RowMatch.flashPoll t h
  | openAdapter => exact Laws.RowMatch.openAdapter h
  | program => exact Laws.RowMatch.program h
  | readIdCmd => exact Laws.RowMatch.readIdCmd h
  | bufLoadCmd data => exact Laws.RowMatch.bufLoadCmd data h
  | commitCmd page => exact Laws.RowMatch.commitCmd page h
  | sectorEraseCmd a2 a1 a0 => exact Laws.RowMatch.sectorEraseCmd a2 a1 a0 h
  | statusReadCmd => exact Laws.RowMatch.statusReadCmd h

/-- Two rows that hold on one encoding agree where both masks look. -/
theorem Row.matches_agree {row row' : Row} {c : Encoding} (h : row.matches c = true)
    (h' : row'.matches c = true) : row.fixed &&& row'.mask = row'.fixed &&& row.mask := by
  rw [← eq_of_beq h, ← eq_of_beq h', BitVec.and_assoc, BitVec.and_assoc,
    BitVec.and_comm row.mask]

/-- The rows of any two requests differ in a bit that both masks look at, and so do those of any two
commands. -/
theorem Op.row_agree {o p : Op} (hk : o.isRequest = p.isRequest)
    (h : o.row.fixed &&& p.row.mask = p.row.fixed &&& o.row.mask) : o = p := by
  revert hk h
  cases o <;> cases p <;> decide

/-- Settles O3: a decoded encoding is that of a well-formed instruction, whose row it holds; another
row of its kind differs in a bit of both masks. -/
theorem decodedHoldsItsRowOnly : Obligations.DecodedHoldsItsRowOnly := by
  unfold Obligations.DecodedHoldsItsRowOnly
  intro c i h
  have hwf := decode_wellFormed h
  have hmatch : i.op.row.matches c = true := encodeOfDecode c i h ▸ encode_matches i hwf
  refine ⟨hwf, hmatch, fun o hne hk => Bool.eq_false_iff.2 fun ho => hne ?_⟩
  exact Op.row_agree hk (Row.matches_agree ho hmatch)

/-! ### Legal requests (30_encoding.md R80) -/

theorem hdrOp_iff (h : Word) (op : BitVec 4) : hdrOp h = op ↔ h.toNat % 16 = op.toNat := by
  rw [← hdrOp_toNat, BitVec.toNat_inj]

theorem hdrSel_iff (h : Word) (sel : BitVec 2) : hdrSel h = sel ↔ h.toNat / 16 % 4 = sel.toNat := by
  rw [← hdrSel_toNat, BitVec.toNat_inj]

theorem hdrRsvd_iff (h : Word) : hdrRsvd h = 0 ↔ h.toNat / 64 % 1024 = 0 := by
  rw [← hdrRsvd_toNat, ← BitVec.toNat_inj]
  rfl

theorem hdrLen_iff (h : Word) (len : BitVec 16) : hdrLen h = len ↔ h.toNat / 65536 = len.toNat := by
  rw [← hdrLen_toNat, BitVec.toNat_inj]

theorem opnd_zero_iff (opnd : Word) : opnd = 0 ↔ opnd.toNat = 0 := by
  rw [← BitVec.toNat_inj]
  rfl

theorem opnd_page_iff (opnd : Word) : opnd.extractLsb' 13 19 = 0 ↔ opnd.toNat < 8192 := by
  have hlt := opnd.isLt
  rw [← BitVec.toNat_inj, BitVec.extractLsb'_toNat, Nat.shiftRight_eq_div_pow]
  simp
  omega

theorem selOfDevice_toNat_le (d : Device) : (selOfDevice d).toNat ≤ 2 := by
  cases d <;> decide

/-- SEL 0 to 2 are the codes of the three devices (30_encoding.md R79). -/
theorem hdrSel_device {h : Word} (hs : h.toNat / 16 % 4 ≤ 2) : ∃ d, hdrSel h = selOfDevice d := by
  obtain h0 | h1 | h2 : h.toNat / 16 % 4 = 0 ∨ h.toNat / 16 % 4 = 1 ∨ h.toNat / 16 % 4 = 2 := by
    omega
  · exact ⟨.idle, (hdrSel_iff h 0).2 h0⟩
  · exact ⟨.fpga, (hdrSel_iff h 1).2 h1⟩
  · exact ⟨.flash, (hdrSel_iff h 2).2 h2⟩

theorem Request.Legal.row {r : Request} (h : r.Legal) :
    hdrRsvd r.hdr = 0 ∧ ∃ i, RowHeld r i := by
  obtain ⟨hr, h⟩ := h
  refine ⟨(hdrRsvd_iff _).2 hr, ?_⟩
  rcases h with ⟨ho, hs, hl, hp, hd⟩ | ⟨ho, hs, hp, hd⟩ | ⟨ho, hs, hp, hd⟩ | ⟨ho, hs, hl, hp, hd⟩ |
    ⟨ho, hs, hl, hp, hd⟩ | ⟨ho, hs, hl, hd⟩ | ⟨ho, hs, hl, hd⟩ | ⟨ho, hs, hl, hd⟩ |
    ⟨ho, hs, hl, hp, hd⟩ | ⟨ho, hs, hl, hp, hd⟩
  · obtain ⟨d, hs⟩ := hdrSel_device hs
    exact ⟨_, .select d ((hdrOp_iff _ 1).2 ho) hs ((hdrLen_iff _ 0).2 hl)
      ((opnd_zero_iff _).2 hp) hd⟩
  · obtain ⟨d, hs⟩ := hdrSel_device hs
    exact ⟨_, .spiOut d ((hdrOp_iff _ 2).2 ho) hs ((opnd_zero_iff _).2 hp)
      (hd.trans (hdrLen_toNat _).symm)⟩
  · obtain ⟨d, hs⟩ := hdrSel_device hs
    exact ⟨_, .spiIn d ((hdrOp_iff _ 3).2 ho) hs ((opnd_zero_iff _).2 hp) hd⟩
  all_goals replace hs := (hdrSel_iff r.hdr 0).2 hs
  · exact ⟨_, .readId ((hdrOp_iff _ 4).2 ho) hs ((hdrLen_iff _ 0).2 hl)
      ((opnd_zero_iff _).2 hp) hd⟩
  · exact ⟨_, .writePage ((hdrOp_iff _ 5).2 ho) hs ((hdrLen_iff _ 264).2 hl)
      ((opnd_page_iff _).2 hp) hd⟩
  · match hdata : r.data, hd with
    | [c0, c1, c2, c3], _ =>
      exact ⟨_, .eraseSector c0 c1 c2 c3 ((hdrOp_iff _ 6).2 ho) hs ((hdrLen_iff _ 4).2 hl) hdata⟩
  · exact ⟨_, .eraseAll ((hdrOp_iff _ 7).2 ho) hs ((hdrLen_iff _ 0).2 hl) hd⟩
  · exact ⟨_, .flashPoll ((hdrOp_iff _ 8).2 ho) hs ((hdrLen_iff _ 0).2 hl) hd⟩
  · exact ⟨_, .openAdapter ((hdrOp_iff _ 9).2 ho) hs ((hdrLen_iff _ 0).2 hl)
      ((opnd_zero_iff _).2 hp) hd⟩
  · exact ⟨_, .program ((hdrOp_iff _ 10).2 ho) hs ((hdrLen_iff _ 0).2 hl)
      ((opnd_zero_iff _).2 hp) hd⟩

/-- The numbers R80 speaks of are the header's fields, which the row fixes. -/
theorem RowHeld.legal {r : Request} {i : Instr} (hr : hdrRsvd r.hdr = 0) (h : RowHeld r i) :
    r.Legal := by
  simp only [Request.Legal, ← hdrOp_toNat, ← hdrSel_toNat, ← hdrRsvd_toNat, ← hdrLen_toNat, hr]
  cases h with
  | select d ho hs hl hp hd => simp [ho, hs, hl, hp, hd, selOfDevice_toNat_le d]
  | spiOut d ho hs hp hd => simp [ho, hs, hp, hd, selOfDevice_toNat_le d]
  | spiIn d ho hs hp hd => simp [ho, hs, hp, hd, selOfDevice_toNat_le d]
  | readId ho hs hl hp hd => simp [ho, hs, hl, hp, hd]
  | writePage ho hs hl hp hd => simp [ho, hs, hl, (opnd_page_iff _).1 hp, hd]
  | eraseSector c0 c1 c2 c3 ho hs hl hd => simp [ho, hs, hl, hd]
  | eraseAll ho hs hl hd => simp [ho, hs, hl, hd]
  | flashPoll ho hs hl hd => simp [ho, hs, hl, hd]
  | openAdapter ho hs hl hp hd => simp [ho, hs, hl, hp, hd]
  | program ho hs hl hp hd => simp [ho, hs, hl, hp, hd]

/-- Settles O4: a legal request holds a row, so it is the encoding of that row's instruction and
decodes by O1; a request that decodes held its row. -/
theorem legalIffDecodes : Obligations.LegalIffDecodes := by
  unfold Obligations.LegalIffDecodes
  intro r
  constructor
  · intro h
    obtain ⟨hr, i, hrow⟩ := h.row
    exact ⟨i, hrow.encode_eq hr ▸ decodeOfEncode i hrow.wellFormed⟩
  · rintro ⟨i, h⟩
    obtain ⟨hr, hrow⟩ := decodeRequest_row h
    exact hrow.legal hr

/-! ### Words and addresses written out -/

/-- A header is the word of its fields' number (30_encoding.md R77). -/
theorem mkHdr_eq_ofNat (op : BitVec 4) (sel : BitVec 2) (len : BitVec 16) :
    mkHdr op sel len = BitVec.ofNat 32 (len.toNat * 65536 + (sel.toNat * 16 + op.toNat)) := by
  rw [← Nat.add_assoc, ← mkHdr_toNat, BitVec.ofNat_toNat, BitVec.setWidth_eq]

/-- Settles O5: a header with operands is the word of its fields' number; the others are closed
words. -/
theorem requestWords : Obligations.RequestWords := by
  unfold Obligations.RequestWords
  refine ⟨rfl, rfl, rfl, fun data hlen => ?_, fun n => ?_, rfl, fun p data => ?_,
    fun _ _ _ _ _ => rfl, fun _ => rfl, fun _ => rfl, rfl, rfl⟩
  · have hl : (BitVec.ofNat 16 data.length).toNat = data.length := Nat.mod_eq_of_lt hlen
    simp only [encode, mkHdr_eq_ofNat, hl]
    rfl
  · simp only [encode, mkHdr_eq_ofNat]
    rfl
  · simp only [encode, ← BitVec.ofNat_toNat]
    rfl

/-- Settles O6: every word is decoded. -/
theorem sampleWordsDecode : Obligations.SampleWordsDecode := by
  unfold Obligations.SampleWordsDecode
  decide

theorem commitBytes_inj_iff (p q : Page) :
    commitBytes p = commitBytes q ↔ p.toNat % 1024 = q.toNat % 1024 := by
  have hbytes : commitBytes p = commitBytes q ↔ pageA2 p = pageA2 q ∧ pageA1 p = pageA1 q := by
    simp [commitBytes]
  rw [hbytes, ← BitVec.toNat_inj, ← BitVec.toNat_inj, pageA2_toNat, pageA2_toNat, pageA1_toNat,
    pageA1_toNat]
  omega

/-- Settles O7: A2 and A1 as numbers, which are those of the page modulo 1024. -/
theorem commitAddress : Obligations.CommitAddress := by
  unfold Obligations.CommitAddress
  exact ⟨fun page => ⟨_, _, rfl, pageA2_toNat page, pageA1_toNat page⟩, commitBytes_inj_iff,
    rfl, rfl, rfl⟩

/-- Settles O8: the list is closed, and so is each index into it. -/
theorem eraseCommands : Obligations.EraseCommands := by
  unfold Obligations.EraseCommands
  have hsectors : ∀ i < 17, 1 ≤ i →
      Machine.eraseList[1 + i]? = some [0x7C, BitVec.ofNat 8 (2 * i), 0x00, 0x00] := by decide
  have hpages : ∀ i < 4,
      commitBytes (BitVec.ofNat 13 (256 * i)) = [0x88, BitVec.ofNat 8 (2 * i), 0x00, 0x00] := by
    decide
  exact ⟨rfl, rfl, rfl, fun i h1 h16 => hsectors i (by omega) h1, rfl,
    fun i h3 => hpages i (by omega)⟩

end Sys2Proof
end

section
/-! SUPPORT. The invariant across a step (30_encoding.md R65, R83; 20_memory.md R44;
70_reset_and_hazards.md R169), and the Pin Model's bytes pin by pin (30_encoding.md R64 to R69). -/

namespace Sys2Proof.Machine

/-! ### The invariant across an instruction and a step -/

theorem State.Inv.begin {s : State} (h : s.Inv) (op : Op) : (s.begin op).Inv :=
  ⟨h.events, h.wire, h.dir, ⟨h.shapes.w, h.shapes.pagebuf, h.shapes.k, h.shapes.code⟩⟩

theorem State.Inv.beginCommand {s : State} (h : s.Inv) (op : Op) : (s.beginCommand op).Inv :=
  ⟨h.events, h.wire, h.dir, ⟨h.shapes.w, h.shapes.pagebuf, h.shapes.k, h.shapes.code⟩⟩

theorem State.Inv.started {s : State} (h : s.Inv) (op : Op) : (s.started op).Inv := by
  unfold State.started
  split
  · exact h.begin op
  · exact h.beginCommand op

theorem State.Inv.finish {s : State} (h : s.Inv) {r : Result} (hr : r.Formed) :
    (s.finish r).Inv where
  events e he := (List.mem_cons.1 he).elim (fun heq => heq ▸ hr.code) (h.events e)
  wire := h.wire
  dir := h.dir
  shapes := ⟨h.shapes.w, h.shapes.pagebuf, h.shapes.k, hr.code⟩

theorem State.Inv.finishCommand {s : State} (h : s.Inv) (o : Option Failure) :
    (s.finishCommand o).Inv :=
  ⟨h.events, h.wire, h.dir, ⟨h.shapes.w, h.shapes.pagebuf, h.shapes.k, h.shapes.code⟩⟩

theorem State.Inv.accept {s : State} (h : s.Inv) (r : Request) : (s.accept r).Inv :=
  ⟨h.events, h.wire, h.dir, ⟨h.shapes.w, h.shapes.pagebuf, h.shapes.k, h.shapes.code⟩⟩

theorem State.Inv.takeCommand {s : State} (h : s.Inv) : s.takeCommand.Inv :=
  ⟨h.events, h.wire, h.dir, ⟨h.shapes.w, h.shapes.pagebuf, h.shapes.k, h.shapes.code⟩⟩

theorem State.Inv.noteDuties {s : State} (h : s.Inv) (i : Instr) : (noteDuties i s).Inv :=
  ⟨h.events, h.wire, h.dir, ⟨h.shapes.w, h.shapes.pagebuf, h.shapes.k, h.shapes.code⟩⟩

/-- A reset keeps the trace and what the writes left, makes the shadow UNKNOWN, and gives the
buffers their lengths again (70_reset_and_hazards.md R163, R165; log entries 4 and 11). -/
theorem State.Inv.applyReset {s : State} (h : s.Inv) : s.applyReset.Inv where
  events := h.events
  wire b := ⟨nofun, (h.wire b).2⟩
  dir := nofun
  shapes := ⟨List.length_replicate, List.length_replicate, Nat.zero_le 264, Nat.zero_le 6⟩

theorem exec_keeps_inv {i : Instr} {s t : State} (h : s.Inv) (ht : exec i s = .next t) :
    t.Inv := by
  cases exec_cases invKept_closed i s with
  | result hi r u hR hr he =>
    cases he.symm.trans ht
    exact (hR.inv (h.begin i.op)).finish hr
  | command hi o u hR he =>
    cases he.symm.trans ht
    exact (hR.inv (h.beginCommand i.op)).finishCommand o
  | stuck u hR hr he =>
    cases he.symm.trans ht
    exact hR.inv (h.started i.op)
  | fault f hh he => cases he.symm.trans ht

/-- Settles O59: waiting changes nothing, a reset and an illegal request are covered by their own
lemmas, and an instruction runs through operations that keep the invariant. -/
theorem stepKeepsInv : Obligations.StepKeepsInv := by
  unfold Obligations.StepKeepsInv
  intro s t h ht
  cases step_cases s with
  | idle he => cases he.symm.trans ht; exact h
  | reset rest hin he => cases he.symm.trans ht; exact (h.draw _).applyReset
  | illegal r rest hin hp he => cases he.symm.trans ht; exact (h.accept r).finish (.inr ⟨_, rfl⟩)
  | request r rest i hin hp hd he =>
    exact exec_keeps_inv ((h.accept r).noteDuties i) (he.symm.trans ht)
  | command bytes i hc hp hd he =>
    exact exec_keeps_inv (h.takeCommand.noteDuties i) (he.symm.trans ht)
  | refused he => cases he.symm.trans ht

/-- No step changes a parameter (10_state.md R25). -/
theorem step_keeps_params {s t : State} (ht : step s = .next t) : t.params = s.params := by
  cases step_cases s with
  | idle he => cases he.symm.trans ht; rfl
  | reset rest hin he => cases he.symm.trans ht; rfl
  | illegal r rest hin hp he => cases he.symm.trans ht; rfl
  | request r rest i hin hp hd he => exact (exec_keeps (he.symm.trans ht)).params
  | command bytes i hc hp hd he => exact (exec_keeps (he.symm.trans ht)).params
  | refused he => cases he.symm.trans ht

/-! ### The bytes, pin by pin -/

/-- With the pins apart, a control byte asserts exactly the chip-select of its device
(30_encoding.md R64, R65). -/
theorem controlByte_asserts {P : Params} (h : Apart P) (d : Device) (c o : Bool) :
    asserts P .csFpga (controlByte P d c o) = (d == .fpga) ∧
      asserts P .csFlash (controlByte P d c o) = (d == .flash) := by
  constructor
  · rw [asserts, Params.pinPos, controlByte_bit]
    simp [beq_false_of_ne h.ab, beq_false_of_ne h.ac, beq_false_of_ne h.ad]
  · rw [asserts, Params.pinPos, controlByte_bit]
    simp [beq_false_of_ne h.ab.symm, beq_false_of_ne h.bc, beq_false_of_ne h.bd]

theorem selpat_eq_controlByte (P : Params) (d : Device) :
    selpat P d = controlByte P d false false := by
  simp [controlByte, onBit]

theorem selpat_other_bit {P : Params} {n : Nat} (d : Device) (ha : n ≠ P.posCsFpga.val)
    (hb : n ≠ P.posCsFlash.val) : (selpat P d).getLsbD n = false := by
  simp [selpat_bit, ha, hb]

/-- Settles O10: a selection pattern is the control byte with CLK and DO at 0. -/
theorem selectionPattern : Obligations.SelectionPattern := by
  unfold Obligations.SelectionPattern
  refine ⟨fun P d hP => ?_, fun d => by cases d <;> rfl, fun d => by cases d <;> rfl⟩
  obtain ⟨hfpga, hflash⟩ := controlByte_asserts (apart hP) d false false
  rw [← selpat_eq_controlByte] at hfpga hflash
  exact ⟨hfpga, hflash, fun n => selpat_other_bit d, rfl⟩

theorem idleDirection_bit (P : Params) (n : Nat) : (idleDirection P).getLsbD n = true ↔
    n = P.posClk.val ∨ n = P.posDataOut.val ∨ n = P.posCsFpga.val ∨ n = P.posCsFlash.val := by
  simp [idleDirection, pinBit_bit, Params.pinPos, or_assoc]

theorem programDirection_bit (P : Params) (n : Nat) : (programDirection P).getLsbD n = true ↔
    (idleDirection P).getLsbD n = true ∨ n = P.posProgEnable.val := by
  simp [programDirection, pinBit_bit, Params.pinPos]

/-- IDLE_DIRECTION drives neither DI nor PE, and PROGRAM_DIRECTION no DI (30_encoding.md R66). -/
theorem direction_inputs {P : Params} (h : Apart P) :
    (idleDirection P).getLsbD P.posDataIn.val = false ∧
      (programDirection P).getLsbD P.posDataIn.val = false ∧
      (idleDirection P).getLsbD P.posProgEnable.val = false := by
  simp only [← Bool.not_eq_true, programDirection_bit, idleDirection_bit, h.ae.symm, h.be.symm,
    h.ce.symm, h.de.symm, h.ef, h.af.symm, h.bf.symm, h.cf.symm, h.df.symm, or_self,
    not_false_eq_true, and_self]

/-- Settles O11: each direction byte is an or of pins, and the pins are apart. -/
theorem directionBytes : Obligations.DirectionBytes := by
  unfold Obligations.DirectionBytes
  exact ⟨fun P n _ => ⟨idleDirection_bit P n, programDirection_bit P n⟩,
    fun P hP => direction_inputs (apart hP), rfl, rfl⟩

/-- Entries 2i and 2i + 1 of a run of bit pairs are the pair of bit i. -/
theorem bitPairs_getElem? (P : Params) (d : Device) (bits : List Bool) (i : Nat) {bit : Bool}
    (h : bits[i]? = some bit) :
    (bits.flatMap (bitPair P d))[2 * i]? = some (selpat P d ||| onBit P .dataOut bit) ∧
      (bits.flatMap (bitPair P d))[2 * i + 1]? =
        some ((selpat P d ||| onBit P .dataOut bit) ||| pinBit P .clk) := by
  induction bits generalizing i with
  | nil => cases h
  | cons b bs ih =>
    cases i with
    | zero => cases h; exact ⟨rfl, rfl⟩
    | succ i => exact ih i h

theorem bitPairs_length (P : Params) (d : Device) (bits : List Bool) :
    (bits.flatMap (bitPair P d)).length = 2 * bits.length := by
  simp [bitPair, mul_comm]

theorem bitsMsbFirst_getElem? (b : Byte) {i : Nat} (h : i < 8) :
    (bitsMsbFirst b)[i]? = some (b.getLsbD (7 - i)) := by
  interval_cases i <;> rfl

/-- Settles O12: the eight bit pairs of the byte, then the selection pattern. -/
theorem spiWordEntries : Obligations.SpiWordEntries := by
  unfold Obligations.SpiWordEntries
  refine ⟨fun P d b => ⟨spiWord_length P d b, fun i hi => ?_, ?_⟩, by decide⟩
  · have hlen : ((bitsMsbFirst b).flatMap (bitPair P d)).length = 16 := bitPairs_length P d _
    obtain ⟨hsetup, hsample⟩ := bitPairs_getElem? P d _ i (bitsMsbFirst_getElem? b hi)
    rw [spiWord, List.getElem?_append_left (by omega), List.getElem?_append_left (by omega)]
    exact ⟨hsetup, hsample⟩
  · rfl

/-- A control byte sets no bit but the chip-selects, CLK and DO (30_encoding.md R65). -/
theorem ControlByteForm.other_bit {P : Params} {b : Byte} (h : ControlByteForm P b) {n : Nat}
    (h1 : n ≠ P.posCsFpga.val) (h2 : n ≠ P.posCsFlash.val) (h3 : n ≠ P.posClk.val)
    (h4 : n ≠ P.posDataOut.val) : b.getLsbD n = false := by
  obtain ⟨d, c, o, rfl⟩ := h
  simp [controlByte_bit, h1, h2, h3, h4]

/-- A control byte asserts at most one chip-select (30_encoding.md R68). -/
theorem ControlByteForm.one_select {P : Params} {b : Byte} (hP : Apart P)
    (h : ControlByteForm P b) : (asserts P .csFpga b && asserts P .csFlash b) = false := by
  obtain ⟨d, c, o, rfl⟩ := h
  obtain ⟨hfpga, hflash⟩ := controlByte_asserts hP d c o
  rw [hfpga, hflash]
  cases d <;> rfl

/-- Settles O13: the trace after the step is formed (O59), so every byte written has the form of a
control byte, whose bits are known. -/
theorem writtenBytes : Obligations.WrittenBytes := by
  unfold Obligations.WrittenBytes
  intro s t h hP ht bs o b hev hb
  obtain ⟨-, hform⟩ := (stepKeepsInv s t h ht).events _ hev
  have hb := hform b hb
  have hP : Apart t.params := step_keeps_params ht ▸ apart hP
  exact ⟨hb, hb.one_select hP, fun n h1 h2 h3 h4 => hb.other_bit h1 h2 h3 h4⟩

/-- Settles O14: PROGRAM_DIRECTION drives PE and IDLE_DIRECTION does not; a byte at rest is a
selection pattern, in which PE is low. -/
theorem programEnableLevel : Obligations.ProgramEnableLevel := by
  unfold Obligations.ProgramEnableLevel
  intro s hP
  have hP := apart hP
  refine ⟨fun b hdir hout => ?_, fun hdir => ?_⟩
  · have hdriven : (programDirection s.params).getLsbD s.params.posProgEnable.val = true :=
      (programDirection_bit _ _).2 (.inr rfl)
    have hlevel : progEnableLevel s = some (b.getLsbD s.params.posProgEnable.val) := by
      simp [progEnableLevel, hdir, hout, Params.pinPos, hdriven]
    refine ⟨hlevel, fun hinv => hlevel.trans ?_⟩
    obtain ⟨d, rfl⟩ := (hinv.wire b).2 ((hinv.wire b).1 hout)
    rw [selpat_other_bit d hP.af.symm hP.bf.symm]
  · obtain ⟨-, -, hinput⟩ := direction_inputs hP
    unfold progEnableLevel
    rw [hdir]
    cases s.wireOut with
    | none => rfl
    | some b => exact if_neg (Bool.not_eq_true _ ▸ hinput)

/-- Settles O18: a request that is not legal does not decode (O4), so the step rejects it. -/
theorem illegalRequest : Obligations.IllegalRequest := by
  unfold Obligations.IllegalRequest
  intro s r rest hp hc hin hlegal
  cases hd : decode (.request r) with
  | ok i => exact absurd ((legalIffDecodes r).2 ⟨i, hd⟩) hlegal
  | error e =>
    rw [step_rejected (fetch_request hp hc hin) hd]
    simp [rejected, State.accept, State.dropInput, State.finish, State.setEnv, hin, hp,
      Failure.toResult, Failure.code, Failure.payload]

end Sys2Proof.Machine
end

section
/-! SUPPORT. A request or a flash command whose calls all succeed (`handled_next`, `command_next`),
the expansion of READ_ID and the commands of the slot (30_encoding.md R72, R86), and the frame of the
slot's commands. -/

namespace Sys2Proof.Machine

/-! ### A run whose body succeeds -/

theorem runRequest_ok {op : Op} {body : State → Res Failure Result} {s t : State} {r : Result}
    (h : body (s.begin op) = .ok r t) : runRequest op body s = .next (t.finish r) := by
  simp [runRequest, Res.settle, h, Res.final, Res.outcome]

theorem runCommand_ok {op : Op} {body : State → Res Failure Unit} {s t : State}
    (h : body (s.beginCommand op) = .ok () t) :
    runCommand op body s = .next (t.finishCommand none) := by
  simp [runCommand, Res.settle, h, Res.final, Res.outcome]

/-- A request that needs the handle, when its operation succeeds. -/
theorem handled_next {α : Type} {op : Op} {x : State → Res Failure α} {result : α → Result}
    {s t : State} {a : α} (ho : s.handle = .opened) (hx : x (s.begin op) = .ok a t) :
    runRequest op (requireHandle fun s => (x s).andThen fun a s => .ok (result a) s) s =
      .next (t.finish (result a)) := by
  refine runRequest_ok ((requireHandle_opened (s := s.begin op) ho).trans ?_)
  rw [hx]
  rfl

/-- A flash command of the slot, when its transaction succeeds. -/
theorem command_next {op : Op} {x : State → Res Failure Unit} {s t : State}
    (ho : s.handle = .opened) (hx : x (s.beginCommand op) = .ok () t) :
    runCommand op (requireHandle x) s = .next (t.finishCommand none) :=
  runCommand_ok ((requireHandle_opened (s := s.beginCommand op) ho).trans hx)

/-! ### The expansion of READ_ID (30_encoding.md R86) -/

theorem readEvents_expansion (P : Params) (opcode : Byte) (n : Nat) (pins : List Byte) :
    readEvents P opcode n pins =
      spiOutEvents P .flash [opcode] ++ spiInEvents P .flash n (pins.drop 1) ++ [idleEvent P] := rfl

theorem spiInEvents_take (P : Params) (d : Device) (n : Nat) (pins : List Byte) :
    spiInEvents P d n (pins.take (24 * n + 1)) = spiInEvents P d n pins := by
  simp [spiInEvents, List.take_take]

@[simp] theorem Event.isCall_result (code : Byte) (value : Word) (data : List Byte) :
    (Event.result code value data).isCall = false := rfl

/-- Successful bus calls leave the environment but for the answers used. -/
theorem Passed.env {s t : State} {new : List Event} {rest : List TxAnswer}
    (h : Passed s t new rest) : t.env = { s.env with answers := rest } := by
  have hinputs := h.frame.inputs
  have hreads := h.frame.streamAnswers
  have hstream := h.frame.stream
  have hanswers := h.answers
  have hdrawn := h.drawn
  cases ht : t.env
  simp_all

/-- The samples fix the bytes. -/
theorem Sampled.unique {P : Params} {pins : List Byte} {base : Nat} {bytes bytes' : List Byte}
    (h : Sampled P pins base bytes) (h' : Sampled P pins base bytes')
    (hlen : bytes.length = bytes'.length) : bytes = bytes' := by
  refine List.ext_getElem hlen fun j hj hj' => BitVec.eq_of_getLsbD_eq fun i hi => ?_
  have hbit := (h j hj i hi).trans (h' j hj' i hi).symm
  rwa [List.getD_eq_getElem _ _ hj, List.getD_eq_getElem _ _ hj'] at hbit

/-- A request from `s` whose calls `calls` all succeeded ended in `t` with result `r`. -/
structure Served (s t : State) (calls : List Event) (rest : List TxAnswer) (r : Result) : Prop where
  params : t.params = s.params
  handle : t.handle = s.handle
  result : t.result = r
  env : t.env = { s.env with answers := rest }
  trace : t.trace = s.trace ++ calls ++ [.result r.code r.value r.data]

theorem Passed.served {s u : State} {op : Op} {calls : List Event} {rest : List TxAnswer}
    (h : Passed (s.begin op) u calls rest) (r : Result) : Served s (u.finish r) calls rest r where
  params := h.frame.params
  handle := h.frame.handle
  result := rfl
  env := h.env
  trace := by rw [State.trace_finish, h.trace]; rfl

/-- The calls of a request that was served, the results of the trace left out. -/
theorem Served.calls {s t : State} {calls : List Event} {rest : List TxAnswer} {r : Result}
    (h : Served s t calls rest r) : t.trace.filter Event.isCall =
      s.trace.filter Event.isCall ++ calls.filter Event.isCall := by
  simp [h.trace]

/-- READ_ID with Ok answers. -/
theorem exec_readId_served {s : State} {pins : List Byte} {rest : List TxAnswer}
    (ho : s.handle = .opened) (hp : pins.length = 99) (ha : s.env.answers = yes pins ++ rest) :
    ∃ t bytes, exec .readId s = .next t ∧
      Served s t (readEvents s.params 0x9F 4 pins) rest (okResult (identifier bytes) []) ∧
      t.wireOut = some (idleByte s.params) ∧ bytes.length = 4 ∧ Sampled s.params pins 1 bytes := by
  obtain ⟨u, bytes, hx, hu, hw, -, -, -, hlen, hsam⟩ :=
    readId_passed (s.begin .readId) pins rest hp ha
  exact ⟨_, bytes, handled_next (result := fun id => okResult id []) ho hx, hu.served _, hw, hlen,
    hsam⟩

/-- SPI_OUT with Ok answers. -/
theorem exec_spiOut_served {s : State} {d : Device} {data pins : List Byte} {rest : List TxAnswer}
    (ho : s.handle = .opened) (hp : pins.length = data.length)
    (ha : s.env.answers = yes pins ++ rest) :
    ∃ t, exec (.spiOut d data) s = .next t ∧
      Served s t (spiOutEvents s.params d data) rest
        (okResult (BitVec.ofNat 32 data.length) []) := by
  obtain ⟨u, hx, hu, -⟩ := spiOut_passed d data (s.begin .spiOut) pins rest hp ha
  exact ⟨_, handled_next (x := fun s => (spiOut data d s).raise)
    (result := fun n => okResult (BitVec.ofNat 32 n) []) ho (congrArg Res.raise hx), hu.served _⟩

/-- SPI_IN with Ok answers. -/
theorem exec_spiIn_served {s : State} {d : Device} {n : BitVec 16} {pins : List Byte}
    {rest : List TxAnswer} (ho : s.handle = .opened) (hp : pins.length = 24 * n.toNat + 1)
    (ha : s.env.answers = yes pins ++ rest) :
    ∃ t bytes, exec (.spiIn d n) s = .next t ∧
      Served s t (spiInEvents s.params d n.toNat pins) rest (okResult (n.setWidth 32) bytes) ∧
      bytes.length = n.toNat ∧ Sampled s.params pins 0 bytes := by
  obtain ⟨u, bytes, hx, hu, -, -, -, -, -, -, hlen, hsam⟩ :=
    spiIn_passed n.toNat d (s.begin .spiIn) pins rest hp ha
  exact ⟨_, bytes, handled_next (x := fun s => (spiIn n.toNat d s).raise)
    (result := fun bytes => okResult (n.setWidth 32) bytes) ho (congrArg Res.raise hx),
    hu.served _, hlen, hsam⟩

/-- SELECT with an Ok answer. -/
theorem exec_select_served {s : State} {d : Device} {p : Byte} {rest : List TxAnswer}
    (ho : s.handle = .opened) (ha : s.env.answers = .ok none p :: rest) :
    ∃ t, exec (.select d) s = .next t ∧
      Served s t [.write [selpat s.params d] (.ok ())] rest (okResult 0 []) ∧
      t.wireOut = some (selpat s.params d) := by
  obtain ⟨u, hx, hu, hw, -⟩ := select_passed (s := s.begin .select) (d := d) ha
  exact ⟨_, handled_next (x := fun s => (select d s).raise) (result := fun _ => okResult 0 []) ho
    (congrArg Res.raise hx), hu.served _, hw⟩

/-- Settles O29: each of the three requests takes its part of the answers and makes its part of the
calls; the samples are the same, and so are the bytes. -/
theorem readIdIsItsExpansion : Obligations.ReadIdIsItsExpansion := by
  unfold Obligations.ReadIdIsItsExpansion
  intro s pins rest ho hp ha
  obtain ⟨t, bytes, hxt, ht, htw, hlen, hsam⟩ := exec_readId_served ho hp ha
  obtain ⟨u, hxu, hu⟩ := exec_spiOut_served (d := .flash) (data := [0x9F]) ho
    (pins := pins.take 1) (by simp [hp]) (answers_split 1 ha)
  have huo := hu.handle.trans ho
  have hua : u.env.answers = yes (pins.drop 1) ++ rest := congrArg Env.answers hu.env
  obtain ⟨v, bytes', hxv, hv, hlen', hsam'⟩ := exec_spiIn_served (d := .flash) (n := 4) huo
    (pins := (pins.drop 1).take 97) (by simp [hp]) (answers_split 97 hua)
  have hvo := hv.handle.trans huo
  have hva : v.env.answers = yes ((pins.drop 1).drop 97) ++ rest := congrArg Env.answers hv.env
  obtain ⟨p, hlast⟩ : ∃ p, (pins.drop 1).drop 97 = [p] := List.length_eq_one_iff.1 (by simp [hp])
  rw [hlast] at hva
  obtain ⟨w, hxw, hw, hww⟩ := exec_select_served (d := .idle) (rest := rest) hvo hva
  have hvp : v.params = s.params := hv.params.trans hu.params
  have hbytes : bytes = bytes' := by
    have htaken : Sampled s.params (pins.drop 1) 0 bytes' :=
      Sampled.take (n := 97) (hu.params ▸ hsam') (by rw [hlen']; decide)
    exact hsam.unique htaken.drop (hlen.trans hlen'.symm)
  have hcalls : spiInEvents u.params .flash (4 : BitVec 16).toNat ((pins.drop 1).take 97) =
      spiInEvents s.params .flash 4 (pins.drop 1) :=
    hu.params ▸ spiInEvents_take s.params .flash 4 (pins.drop 1)
  refine ⟨t, u, v, w, hxt, hxu, hxv, hxw, ?_, ?_, ?_, ?_⟩
  · rw [hw.calls, hv.calls, hu.calls, ht.calls, hcalls, readEvents_expansion, hvp]
    simp only [List.filter_append, List.append_assoc]
    rfl
  · rw [ht.result, hv.result, hbytes]
    rfl
  · rw [htw, hww, hvp]
    rfl
  · rw [ht.env, hw.env, hv.env, hu.env]

/-! ### The commands of the slot (30_encoding.md R72) -/

/-- A flash command of the slot whose calls all succeeded: its outcome is Ok, and the result port is
untouched (log entry 2). -/
structure Sent (s t : State) (calls : List Event) (rest : List TxAnswer) : Prop where
  phase : t.phase = .await
  outcome : t.cmdOutcome = none
  trace : t.trace = s.trace ++ calls
  result : t.result = s.result
  answers : t.env.answers = rest

theorem Passed.sent {s u : State} {op : Op} {calls : List Event} {rest : List TxAnswer}
    (h : Passed (s.beginCommand op) u calls rest) : Sent s (u.finishCommand none) calls rest where
  phase := rfl
  outcome := rfl
  trace := h.trace
  result := h.frame.result
  answers := h.answers

/-- Settles O37: the transactions of the two commands succeed (Laws/Runs.lean), and the slot's
command ends with their state. -/
theorem readCommands : Obligations.ReadCommands := by
  unfold Obligations.ReadCommands
  constructor
  · intro s pins rest ho hp ha
    obtain ⟨u, bytes, hx, hu, hw, -, -, hrx, hlen, hsam⟩ :=
      readTransaction_passed 0x9F 4 (s.beginCommand .readIdCmd) pins rest hp ha
    have hbody : (readIdTransaction (s.beginCommand .readIdCmd)).andThen (fun _ s => .ok () s) =
        .ok () u := congrArg (Res.andThen · fun _ s => .ok () s) hx
    have hs := hu.sent
    exact ⟨_, command_next (x := fun s => (readIdTransaction s).andThen fun _ s => .ok () s) ho
      hbody, hs.phase, hs.outcome, hs.trace, hrx.symm ▸ hlen, hrx.symm ▸ hsam, hw, hs.result,
      hs.answers⟩
  · intro s pins rest ho hp ha
    obtain ⟨u, hx, hu, hw, -, hsam, hready, howed⟩ :=
      statusTransaction_passed (s.beginCommand .statusReadCmd) pins rest hp ha
    have hs := hu.sent
    exact ⟨_, command_next (x := statusTransaction) ho hx, hs.phase, hs.outcome, hs.trace, hsam,
      hready, howed, hw, hs.result, hs.answers⟩

/-- A command that starts a program or an erase, from the slot with Ok answers. -/
theorem startCommand_sent {s : State} {pins bytes : List Byte} {rest : List TxAnswer} (op : Op)
    (ho : s.handle = .opened) (hp : pins.length = bytes.length + 1)
    (ha : s.env.answers = yes pins ++ rest) :
    ∃ t, runCommand op (requireHandle fun s => startTransaction bytes s) s = .next t ∧
      Sent s t (commandEvents s.params bytes) rest ∧ t.wireOut = some (idleByte s.params) ∧
      t.pollOwed = true := by
  obtain ⟨u, hx, hu, hw, -, howed⟩ :=
    startTransaction_passed bytes (s.beginCommand op) pins rest hp ha
  exact ⟨_, command_next (x := startTransaction bytes) ho hx, hu.sent, hw, howed⟩

/-- Settles O38: a buffer load owes what was owed; a commit and an erase are one start transaction
with their own bytes. -/
theorem sendCommands : Obligations.SendCommands := by
  unfold Obligations.SendCommands
  rintro s pins rest i bytes owed ho
    (⟨data, -, rfl, rfl, rfl⟩ | ⟨page, rfl, rfl, rfl⟩ | ⟨a2, a1, a0, rfl, rfl, rfl⟩) hp ha
  · obtain ⟨u, hx, hu, hw, -, howed, -⟩ :=
      bufLoad_passed data (s.beginCommand .bufLoadCmd) pins rest (by simpa using hp) ha
    have hs := hu.sent
    exact ⟨_, command_next (x := bufLoadTransaction data) ho hx, hs.phase, hs.outcome, hs.trace, hw,
      howed, hs.result, hs.answers⟩
  · obtain ⟨t, hx, hs, hw, howed⟩ := startCommand_sent .commitCmd ho hp ha
    exact ⟨t, hx, hs.phase, hs.outcome, hs.trace, hw, howed, hs.result, hs.answers⟩
  · obtain ⟨t, hx, hs, hw, howed⟩ := startCommand_sent .sectorEraseCmd ho hp ha
    exact ⟨t, hx, hs.phase, hs.outcome, hs.trace, hw, howed, hs.result, hs.answers⟩

/-! ### The frame of the slot's commands -/

/-- A bus frame that keeps the poll registers, and the SPI registers up to `K`; whether a poll is
owed may change. -/
structure SlotFrame (K : SpiRegs → SpiRegs → Prop) (s t : State) : Prop extends BusFrame s t where
  poll : t.poll = s.poll
  spi : K s.spi t.spi

section

variable {K : SpiRegs → SpiRegs → Prop}

theorem slot_chains (hK : SpiOrder K) : Chains (SlotFrame K) where
  refl s := ⟨.refl s, rfl, hK.refl _⟩
  trans h k := ⟨h.toBusFrame.trans k.toBusFrame, k.poll.trans h.poll, hK.trans h.spi k.spi⟩
  honest h := h.honest
  returns h := h.returns

theorem NarrowFrame.slot {s t : State} (h : NarrowFrame K s t) : SlotFrame K s t :=
  ⟨h.toBusFrame, h.poll, h.spi⟩

theorem SlotFrame.owed (hK : SpiOrder K) (s : State) (b : Bool) :
    SlotFrame K s (s.setPollOwed b) :=
  ⟨busFrame_closed.owed s b, rfl, hK.refl _⟩

end

theorem sendFlash_slot (bytes : List Byte) (s : State) :
    (sendFlash bytes s).Ends (SlotFrame OutSpi) s :=
  ((spiOut_narrow outSpi_order (fun _ _ => ⟨rfl, rfl, rfl⟩) bytes .flash s).recover
    (narrow_chains outSpi_order) fun t _ => select_narrow outSpi_order .idle t).mono
      fun _ h => h.slot

theorem deselect_slot (s : State) : (deselect s).Ends (SlotFrame OutSpi) s :=
  (select_narrow outSpi_order .idle s).raise.mono fun _ h => h.slot

theorem bufLoad_slot (data : List Byte) (s : State) :
    (bufLoadTransaction data s).Ends (SlotFrame OutSpi) s :=
  have hc := slot_chains outSpi_order
  (sendFlash_slot _ s).andThen hc fun _ t _ =>
    (sendFlash_slot data t).andThen hc fun _ u _ => deselect_slot u

theorem start_slot (bytes : List Byte) (s : State) :
    (startTransaction bytes s).Ends (SlotFrame OutSpi) s :=
  have hc := slot_chains outSpi_order
  (sendFlash_slot bytes s).andThen hc fun _ t _ =>
    (deselect_slot _).from hc (.owed outSpi_order t true)

theorem readIdCmd_slot (s : State) :
    ((readIdTransaction s).andThen fun _ s => .ok () s).Ends (SlotFrame AnySpi) s :=
  have hc := slot_chains anySpi_order
  ((readTransaction_narrow readIdBytes Config.idLen s).mono fun _ h => h.slot).andThen hc
    fun _ u _ => hc.refl u

/-- A flash command of the slot leaves the state its transaction reaches, ended or stuck. -/
theorem ExecEnds.command_next {R : State → State → Prop} {i : Instr} {s t : State}
    (h : ExecEnds R i s) (hi : i.op.isRequest = false) (ht : exec i s = .next t) :
    ∃ u, R (s.beginCommand i.op) u ∧ u.SameInside t ∧ t.result = u.result ∧
      t.resultReady = u.resultReady := by
  cases h with
  | result hreq r u hR hr he => cases hreq.symm.trans hi
  | command _ o u hR he =>
    cases he.symm.trans ht
    exact ⟨u, hR, u.finishCommand_inside o, rfl, rfl⟩
  | stuck u hR hr he =>
    cases he.symm.trans ht
    exact ⟨t, State.started_command hi ▸ hR, .refl t, rfl, rfl⟩
  | fault f hh he => cases he.symm.trans ht

/-- What every flash command of the slot leaves alone. -/
theorem command_keeps {i : Instr} {s t : State} (hi : i.op.isRequest = false)
    (ht : exec i s = .next t) :
    s.KeptByBus t ∧ t.result = s.result ∧ t.resultReady = s.resultReady := by
  have hopen : i ≠ .openAdapter := fun h => by cases h; cases hi
  have hprogram : i ≠ .program := fun h => by cases h; cases hi
  obtain ⟨u, hu, hin, hr, hrr⟩ :=
    (exec_bus_ends busFrame_closed hopen hprogram s).command_next hi ht
  refine ⟨⟨hin.params.trans hu.params, hin.handle.trans hu.handle, hin.lastPage.trans hu.lastPage,
    hin.req.trans hu.req, hin.flow.trans hu.flow, hin.wireDir.trans hu.wireDir,
    hin.cmdSlot.trans hu.cmdSlot, hin.duty.trans hu.duty, ?_, ?_, ?_⟩, hr.trans hu.result,
    hrr.trans hu.resultReady⟩ <;> rw [hin.env]
  · exact hu.inputs
  · exact hu.streamAnswers
  · exact hu.stream

/-- The poll and SPI registers across a flash command that runs in a slot frame. -/
theorem slot_keeps {K : SpiRegs → SpiRegs → Prop} (hK : SpiOrder K) {i : Instr} {s t : State}
    {x : State → Res Failure Unit} (hi : i.op.isRequest = false)
    (hx : exec i s = runCommand i.op (requireHandle x) s) (h : ∀ s, (x s).Ends (SlotFrame K) s)
    (ht : exec i s = .next t) : t.poll = s.poll ∧ K s.spi t.spi := by
  obtain ⟨u, hu, hin, -⟩ :=
    (command_ends hi hx (requireHandle_ends (slot_chains hK) fun _ => h _)).command_next hi ht
  exact ⟨hin.poll.trans hu.poll, hin.spi ▸ hu.spi⟩

/-- Settles O57: the bus frame for all five; the slot frame for the commands that only send, with
S.W alone of the SPI registers, and for READ_ID_CMD, with any of them. -/
theorem frameCommands : Obligations.FrameCommands := by
  unfold Obligations.FrameCommands
  intro s t i hi ht
  obtain ⟨hkept, hresult, hready⟩ := command_keeps hi ht
  refine ⟨hkept, hresult, hready, ?_⟩
  cases i with
  | readIdCmd =>
    obtain ⟨hpoll, -⟩ := slot_keeps anySpi_order hi rfl readIdCmd_slot ht
    exact ⟨fun _ => hpoll, fun _ h => absurd rfl h⟩
  | bufLoadCmd data =>
    obtain ⟨hpoll, hspi⟩ := slot_keeps outSpi_order hi rfl (bufLoad_slot data) ht
    exact ⟨fun _ => hpoll, fun _ _ => hspi⟩
  | commitCmd page =>
    obtain ⟨hpoll, hspi⟩ := slot_keeps outSpi_order hi rfl (start_slot _) ht
    exact ⟨fun _ => hpoll, fun _ _ => hspi⟩
  | sectorEraseCmd a2 a1 a0 =>
    obtain ⟨hpoll, hspi⟩ := slot_keeps outSpi_order hi rfl (start_slot _) ht
    exact ⟨fun _ => hpoll, fun _ _ => hspi⟩
  | statusReadCmd => exact ⟨fun h => absurd rfl h, fun h => absurd rfl h⟩
  | _ => cases hi

end Sys2Proof.Machine
end

section
/-! SUPPORT. What a request's result holds (30_encoding.md R83, R84; 60_exceptions.md R145, R146):
the VALUE and DATA of an OK result by instruction (`OkValue`), and the CODE, VALUE and DATA of an
error. -/

namespace Sys2Proof.Machine

/-! ### Operations that succeeded -/

theorem Res.raise_ok {α : Type} {r : Res Payload α} {a : α} {t : State} (h : r.raise = .ok a t) :
    r = .ok a t := by
  cases r <;> cases h
  rfl

theorem Res.recover_ok {α : Type} {r : Res Payload α} {a : α} {t : State}
    (h : r.recover = .ok a t) : r = .ok a t := by
  cases r with
  | ok b u =>
    cases h
    rfl
  | err e u =>
    unfold Res.recover at h
    dsimp only at h
    cases hx : txWrite [idleByte u.params] u <;> rw [hx] at h <;> cases h
  | stuck u => cases h
  | fault f => cases h

theorem spiOut_ok {data : List Byte} {d : Device} {s t : State} {n : Nat}
    (h : spiOut data d s = .ok n t) : n = data.length := by
  obtain ⟨-, u, -, h⟩ := Res.andThen_ok h
  cases h
  rfl

theorem deselect_ok_spi {s t : State} (h : deselect s = .ok () t) : t.spi = s.spi := by
  have hends : (deselect s).Ends (NarrowFrame SameSpi) s :=
    (select_narrow sameSpi_order .idle s).raise
  rw [h] at hends
  exact hends.spi

/-- ReadId() returns the identifier of the bytes in S.RXBUF (42_flash_engine.md R107). -/
theorem readId_ok {s t : State} {id : Word} (h : readId s = .ok id t) :
    id = identifier t.spi.rxbuf := by
  obtain ⟨bytes, u, hread, h⟩ := Res.andThen_ok h
  cases h
  obtain ⟨-, v, -, hread⟩ := Res.andThen_ok hread
  obtain ⟨bytes', w, hin, hread⟩ := Res.andThen_ok hread
  obtain ⟨_, x, hdes, hread⟩ := Res.andThen_ok hread
  cases hread
  rw [deselect_ok_spi hdes, (spiIn_rxbuf (Res.recover_ok hin)).1]

theorem programBody_ok_value {s t : State} {r : Result} (h : programBody s = .ok r t) :
    r = okResult (pagesWritten t.lastPage) [] := by
  obtain ⟨-, u1, -, h⟩ := Res.andThen_ok h
  obtain ⟨-, u2, -, h⟩ := Res.andThen_ok h
  obtain ⟨-, u3, -, h⟩ := Res.andThen_ok h
  obtain ⟨-, u4, -, h⟩ := Res.andThen_ok h
  obtain ⟨-, u5, -, h⟩ := Res.andThen_ok h
  cases h
  rfl

/-! ### The result of a request that ended with OK -/

theorem Failure.code_ne_ok (f : Failure) : f.code ≠ 0 := by
  cases f <;> simp [Failure.code]

/-- A request whose result is OK ran its body to success. -/
theorem request_ok {i : Instr} {s t : State} {body : State → Res Failure Result}
    (hx : exec i s = runRequest i.op body s)
    (hE : (body (s.begin i.op)).Ends FlowFrame (s.begin i.op)) (h : exec i s = .next t)
    (hp : t.phase = .await) (hc : t.result.code = 0) :
    ∃ r u, body (s.begin i.op) = .ok r u ∧ t = u.finish r := by
  rcases runRequest_cases hE with ⟨r, u, hb, -, he⟩ | ⟨f, u, -, -, he⟩ | ⟨u, -, hR, -, he⟩ |
    ⟨f, -, -, he⟩ <;> rw [hx, he] at h <;> cases h
  · exact ⟨r, u, hb, rfl⟩
  · exact absurd hc f.code_ne_ok
  · obtain ⟨m, hm⟩ := hR.phase i.op 0 rfl
    cases hm.symm.trans hp

/-- A request that needs the handle and whose result is OK: its operation succeeded, and the result
is made of what it returned. -/
theorem handled_ok {α : Type} {i : Instr} {s t : State} {x : State → Res Failure α}
    {result : α → Result}
    (hx : exec i s = runRequest i.op (requireHandle fun s =>
      (x s).andThen fun a s => .ok (result a) s) s)
    (hE : ∀ s, (x s).Ends FlowFrame s) (h : exec i s = .next t) (hp : t.phase = .await)
    (hc : t.result.code = 0) : ∃ a u, x (s.begin i.op) = .ok a u ∧ t = u.finish (result a) := by
  obtain ⟨r, u, hb, rfl⟩ := request_ok hx (requireHandle_ends flowFrame_chains fun _ =>
    (hE _).andThen flowFrame_chains fun _ u _ => .refl u) h hp hc
  obtain ⟨a, v, ha, hr⟩ := Res.andThen_ok (requireHandle_ok hb).2
  cases hr
  exact ⟨a, u, ha, rfl⟩

/-- The requests that need the handle and return nothing. -/
theorem handled_zero {i : Instr} {s t : State} {x : State → Res Failure Unit}
    (hx : exec i s = runRequest i.op (requireHandle fun s =>
      (x s).andThen fun _ s => .ok (okResult 0 []) s) s)
    (hE : ∀ s, (x s).Ends FlowFrame s) (h : exec i s = .next t) (hp : t.phase = .await)
    (hc : t.result.code = 0) : t.result.value = 0 ∧ t.result.data = [] := by
  obtain ⟨-, u, -, rfl⟩ := handled_ok (result := fun _ => okResult 0 []) hx hE h hp hc
  exact ⟨rfl, rfl⟩

/-- The VALUE and DATA of an OK result of instruction `i`, in the state `t` the request ends in
(30_encoding.md R84). -/
def OkValue (t : State) : Instr → Prop
  | .spiOut _ data => t.result.value.toNat = data.length ∧ t.result.data = []
  | .spiIn _ n => t.result.value.toNat = n.toNat ∧ t.result.data = t.spi.rxbuf ∧
      t.result.data.length = n.toNat
  | .readId => t.result.value = identifier t.spi.rxbuf ∧ t.result.data = []
  | .program => t.result.value = pagesWritten t.lastPage ∧ t.result.data = []
  | _ => t.result.value = 0 ∧ t.result.data = []

theorem exec_okValue {i : Instr} {s t : State} (hi : i.op.isRequest = true)
    (hwf : i.wellFormed = true) (h : exec i s = .next t) (hp : t.phase = .await)
    (hc : t.result.code = 0) : OkValue t i := by
  have hF := flowFrame_closed
  cases i with
  | select d => exact handled_zero rfl (fun s => (hF.selectEnds d s).raise) h hp hc
  | spiOut d data =>
    obtain ⟨n, u, hx, rfl⟩ := handled_ok (result := fun n => okResult (BitVec.ofNat 32 n) []) rfl
      (fun s => (hF.spiOutEnds data d s).raise) h hp hc
    have hlen : data.length < 65536 := of_decide_eq_true hwf
    obtain rfl := spiOut_ok (Res.raise_ok hx)
    exact ⟨Nat.mod_eq_of_lt (by omega), rfl⟩
  | spiIn d n =>
    obtain ⟨bytes, u, hx, rfl⟩ := handled_ok (result := fun b => okResult (n.setWidth 32) b) rfl
      (fun s => (hF.spiInEnds n.toNat d s).raise) h hp hc
    obtain ⟨hrx, hlen⟩ := spiIn_rxbuf (Res.raise_ok hx)
    exact ⟨BitVec.toNat_setWidth_of_le (by decide), hrx.symm, hlen⟩
  | readId =>
    obtain ⟨id, u, hx, rfl⟩ := handled_ok (result := fun id => okResult id []) rfl hF.readIdEnds
      h hp hc
    have hid : id = identifier u.spi.rxbuf := readId_ok hx
    exact ⟨hid, rfl⟩
  | writePage page data => exact handled_zero rfl (hF.writePageEnds data page) h hp hc
  | eraseSector c0 c1 c2 c3 t =>
    exact handled_zero rfl (hF.eraseSectorEnds [c0, c1, c2, c3] t) h hp hc
  | eraseAll t => exact handled_zero rfl (hF.eraseAllEnds t) h hp hc
  | flashPoll t => exact handled_zero rfl (hF.flashPollEnds t) h hp hc
  | openAdapter =>
    obtain ⟨r, u, hb, rfl⟩ := request_ok
      (body := fun s => (openSub s).raise.andThen fun _ s => .ok (okResult 0 []) s) rfl
      ((hF.openSubEnds _).raise.andThen flowFrame_chains fun _ u _ => .refl u) h hp hc
    obtain ⟨-, v, -, hr⟩ := Res.andThen_ok hb
    cases hr
    exact ⟨rfl, rfl⟩
  | program =>
    obtain ⟨r, u, hb, rfl⟩ := request_ok rfl (hF.programBodyEnds _) h hp hc
    obtain rfl := programBody_ok_value hb
    exact ⟨rfl, rfl⟩
  | _ => cases hi

/-- The same, said by what the instruction is. -/
theorem OkValue.clauses {i : Instr} {t : State} (h : OkValue t i) :
    (∀ d data, i = .spiOut d data → t.result.value.toNat = data.length ∧ t.result.data = []) ∧
    (∀ d n, i = .spiIn d n → t.result.value.toNat = n.toNat ∧ t.result.data = t.spi.rxbuf ∧
      t.result.data.length = n.toNat) ∧
    (i = .readId → t.result.value = identifier t.spi.rxbuf ∧ t.result.data = []) ∧
    (i = .program → t.result.value = pagesWritten t.lastPage ∧ t.result.data = []) ∧
    (i.op ≠ .spiOut → i.op ≠ .spiIn → i.op ≠ .readId → i.op ≠ .program →
      t.result.value = 0 ∧ t.result.data = []) := by
  refine ⟨?_, ?_, ?_, ?_, fun h1 h2 h3 h4 => ?_⟩
  · rintro d data rfl
    exact h
  · rintro d n rfl
    exact h
  · rintro rfl
    exact h
  · rintro rfl
    exact h
  · cases i with
    | spiOut d data => exact absurd rfl h1
    | spiIn d n => exact absurd rfl h2
    | readId => exact absurd rfl h3
    | program => exact absurd rfl h4
    | _ => exact h

/-! ### The result of a request that ended with an error -/

theorem Failure.formed (f : Failure) : f.toResult.Formed := .inr ⟨f, rfl⟩

/-- The DATA of an error whose CODE carries no payload. -/
theorem Failure.payload_nil {f : Failure} (h : f.code = 0x02 ∨ f.code = 0x03 ∨ f.code = 0x05 ∨
    f.code = 0x06) : f.payload = [] := by
  cases f with
  | transport e => simp [Failure.code] at h
  | stream e => simp [Failure.code] at h
  | _ => rfl

/-- The call an error was met in, by its CODE. -/
theorem Failure.ofCall_code (f : Failure) :
    (f.code = 0x01 → f.ofCall = some (.transport f.payload)) ∧
    (f.code = 0x04 → f.ofCall = some (.stream f.payload)) ∧
    (f.code ≠ 0x01 → f.code ≠ 0x04 → f.ofCall = none) := by
  cases f <;> simp [Failure.code, Failure.ofCall, Failure.payload]

theorem op_eq_program {i : Instr} (h : i.op = .program) : i = .program := by
  cases i with
  | program => rfl
  | _ => cases h

/-- Which request may end with which CODE (60_exceptions.md R145 to R147). -/
theorem MayFail.codes {i : Instr} {s : State} {f : Failure} (h : MayFail i s f) :
    (f.code = 0x02 → i.op = .writePage ∨ i.op = .eraseSector ∨ i.op = .eraseAll ∨
      i.op = .flashPoll ∨ i.op = .program) ∧
    (f.code = 0x03 ∨ f.code = 0x04 → i = .program) ∧ f.code ≠ 0x05 ∧
    (f.code = 0x06 → i.op.needsHandle = true ∧ s.handle = .closed) := by
  rcases h with ⟨rfl, hneeds, hclosed⟩ | ⟨e, rfl⟩ | ⟨rfl, hop⟩ | ⟨hop, rfl | ⟨e, rfl⟩⟩
  · simp [Failure.code, hneeds, hclosed]
  · simp [Failure.code]
  · simp [Failure.code, hop]
  · simp [Failure.code, op_eq_program hop]
  · simp [Failure.code, op_eq_program hop]

theorem trace_of_told {s t : State} {new : List Event} {e : Event}
    (h : t.log = e :: (new ++ s.log)) : t.trace = s.trace ++ new.reverse ++ [e] := by
  simp [State.trace, h]

/-- Settles O47: a request ends OK, with the value of its instruction and no failed call, or with an
error the instruction may meet, first met in the call that carries it (Laws/Errors.lean). -/
theorem resultForms : Obligations.ResultForms := by
  unfold Obligations.ResultForms
  intro i s t hi hwf h hp
  rcases request_tells hi h hp with ⟨v, d, new, hr, hl, hf⟩ | ⟨f, new, hr, hmay, hl, hf⟩
  · have hc : t.result.code = 0 := congrArg Result.code hr
    have htrace := trace_of_told hl
    refine ⟨by simp [hc], by simp [hc], by simp [hc], ⟨new.reverse, htrace, by simp [hc],
      by simp [hc], fun _ _ => hf⟩, by simp [hc], by simp [hc], by simp [hc], by simp [hc],
      fun hc => (exec_okValue hi hwf h hp hc).clauses⟩
  · have htrace := trace_of_told hl
    obtain ⟨htransport, hstream, hother⟩ := f.ofCall_code
    obtain ⟨htimeout, hworkflow, hillegal, hclosed⟩ := hmay.codes
    rw [hr] at htrace ⊢
    exact ⟨f.formed.code, fun _ => rfl, Failure.payload_nil, ⟨new.reverse, htrace,
      fun hc => hf.trans (htransport hc), fun hc => hf.trans (hstream hc),
      fun h1 h4 => hf.trans (hother h1 h4)⟩, htimeout, hworkflow, hillegal, hclosed,
      fun hc => absurd hc f.code_ne_ok⟩

end Sys2Proof.Machine
end

section
/-! SUPPORT. SELECT and SPI_OUT as requests (40_device_selector.md R90, R91; 41_spi_bitbanger.md R96,
R97): the device a control byte selects (`selectedDevice_controlByte`), SELECT's next state by its one
write, and the frame of a request that runs in a narrow frame (`ExecEnds.narrow_keeps`). -/

namespace Sys2Proof.Machine

/-! ### The selection on the wire (20_memory.md R58) -/

theorem chipSelectBits_bit (P : Params) (b : Byte) (n : Nat) : (chipSelectBits P b).getLsbD n =
    (b.getLsbD n && (n == P.posCsFpga.val || n == P.posCsFlash.val)) := by
  simp only [chipSelectBits, BitVec.getLsbD_and, BitVec.getLsbD_or, pinBit_bit, Params.pinPos]

/-- Two bytes select alike when they assert the same chip-selects. -/
theorem chipSelectBits_eq_iff (P : Params) (a b : Byte) : chipSelectBits P a = chipSelectBits P b ↔
    asserts P .csFpga a = asserts P .csFpga b ∧ asserts P .csFlash a = asserts P .csFlash b := by
  simp only [asserts, Params.pinPos, Bool.xor_left_inj]
  constructor
  · intro h
    have hbit := fun n => congrArg (BitVec.getLsbD · n) h
    simp only [chipSelectBits_bit] at hbit
    exact ⟨by simpa using hbit P.posCsFpga.val, by simpa using hbit P.posCsFlash.val⟩
  · rintro ⟨hfpga, hflash⟩
    refine BitVec.eq_of_getLsbD_eq fun n _ => ?_
    rw [chipSelectBits_bit, chipSelectBits_bit]
    by_cases hn : n = P.posCsFpga.val
    · rw [hn, hfpga]
    · by_cases hm : n = P.posCsFlash.val
      · rw [hm, hflash]
      · simp [beq_false_of_ne hn, beq_false_of_ne hm]

/-- With the pins apart, a control byte selects exactly its device. -/
theorem selectedDevice_controlByte {P : Params} (h : Apart P) (d : Device) (c o : Bool) :
    selectedDevice P (controlByte P d c o) = some d := by
  have hdevice : ∀ d e : Device,
      ((d == .fpga) = (e == .fpga) ∧ (d == .flash) = (e == .flash)) ↔ (d == e) = true := by
    intro d e
    cases d <;> cases e <;> decide
  have hmatch : ∀ e, (chipSelectBits P (controlByte P d c o) == chipSelectBits P (selpat P e)) =
      (d == e) := by
    intro e
    obtain ⟨hfpga, hflash⟩ := controlByte_asserts h d c o
    obtain ⟨hfpga', hflash'⟩ := controlByte_asserts h e false false
    rw [Bool.eq_iff_iff, beq_iff_eq, chipSelectBits_eq_iff, selpat_eq_controlByte, hfpga, hflash,
      hfpga', hflash', hdevice]
  unfold selectedDevice
  simp only [hmatch]
  cases d <;> rfl

/-- A wire left at a selection pattern addresses its device (40_device_selector.md R90). -/
theorem State.selection_selpat {s : State} {d : Device} (hP : s.params.wf = true)
    (hw : s.wireOut = some (selpat s.params d)) : s.selection = some d := by
  rw [State.selection, hw, selpat_eq_controlByte]
  exact selectedDevice_controlByte (apart hP) d false false

/-! ### SELECT by its one write -/

/-- Settles O21: the one write succeeds, and it leaves the device's selection pattern on the wire. -/
theorem selectResult : Obligations.SelectResult := by
  unfold Obligations.SelectResult
  intro s d p rest ho ha
  rw [exec_select_opened ho, select, txWrite_ok (s := s.begin .select) ha]
  exact ⟨_, rfl, rfl, fun hP => State.selection_selpat hP rfl⟩

/-- Settles O22: the one write fails, and its error is the result. -/
theorem selectError : Obligations.SelectError := by
  unfold Obligations.SelectError
  intro s d e rest ho ha
  rw [exec_select_opened ho, select, txWrite_err (s := s.begin .select) ha]
  rfl

/-! ### The frames -/

/-- A bus frame around a request, whose beginning and end are outside it. -/
theorem BusFrame.keptByBus {s u t : State} {op : Op} (h : BusFrame (s.begin op) u)
    (hin : u.SameInside t) : s.KeptByBus t where
  params := hin.params.trans h.params
  handle := hin.handle.trans h.handle
  lastPage := hin.lastPage.trans h.lastPage
  req := hin.req.trans h.req
  flow := hin.flow.trans h.flow
  wireDir := hin.wireDir.trans h.wireDir
  cmdSlot := hin.cmdSlot.trans h.cmdSlot
  duty := hin.duty.trans h.duty
  inputs := (congrArg Env.inputs hin.env).trans h.inputs
  streamAnswers := (congrArg Env.streamAnswers hin.env).trans h.streamAnswers
  stream := (congrArg Env.stream hin.env).trans h.stream

/-- A request leaves the state its operation reaches, with a result or stuck; the outcome of the
command slot is not its to write. -/
theorem ExecEnds.request_next {R : State → State → Prop} {i : Instr} {s t : State}
    (h : ExecEnds R i s) (hi : i.op.isRequest = true) (ht : exec i s = .next t) :
    ∃ u, R (s.begin i.op) u ∧ u.SameInside t ∧ t.cmdOutcome = u.cmdOutcome := by
  cases h with
  | result _ r u hR hr he =>
    cases he.symm.trans ht
    exact ⟨u, hR, u.finish_inside r, rfl⟩
  | command hcmd => cases hi.symm.trans hcmd
  | stuck u hR hr he =>
    cases he.symm.trans ht
    exact ⟨t, State.started_request hi ▸ hR, .refl t, rfl⟩
  | fault f hh he => cases he.symm.trans ht

/-- What a request that runs in a narrow frame leaves alone, however it ends. -/
theorem ExecEnds.narrow_keeps {K : SpiRegs → SpiRegs → Prop} {i : Instr} {s t : State}
    (h : ExecEnds (NarrowFrame K) i s) (hi : i.op.isRequest = true) (ht : exec i s = .next t) :
    s.KeptByBus t ∧ K s.spi t.spi ∧ t.poll = s.poll ∧ t.cmdOutcome = s.cmdOutcome ∧
      t.pollOwed = s.pollOwed := by
  obtain ⟨u, hu, hin, hc⟩ := h.request_next hi ht
  exact ⟨hu.keptByBus hin, hin.spi ▸ hu.spi, hin.poll.trans hu.poll, hc.trans hu.cmdOutcome,
    hin.pollOwed.trans hu.pollOwed⟩

theorem exec_select_narrow (d : Device) (s : State) :
    ExecEnds (NarrowFrame SameSpi) (.select d) s :=
  handled_ends (narrow_chains sameSpi_order) (fun _ => (0, [])) rfl rfl
    fun s => (select_narrow sameSpi_order d s).raise

/-- SPI_OUT runs in the narrow frame its bytes run in. -/
theorem exec_spiOut_ends {K : SpiRegs → SpiRegs → Prop} (hK : SpiOrder K) {d : Device}
    {data : List Byte} (h : ∀ s, (spiOut data d s).Ends (NarrowFrame K) s) (s : State) :
    ExecEnds (NarrowFrame K) (.spiOut d data) s :=
  handled_ends (narrow_chains hK) (fun n => (BitVec.ofNat 32 n, [])) rfl rfl fun s => (h s).raise

/-- Settles O53: SELECT keeps every SPI register, SPI_OUT all but S.W, and with no byte it makes no
call, so S.W too. -/
theorem frameSelectSpiOut : Obligations.FrameSelectSpiOut := by
  unfold Obligations.FrameSelectSpiOut
  constructor
  · intro s t d ht
    exact (exec_select_narrow d s).narrow_keeps rfl ht
  · intro s t d data ht
    obtain ⟨hkept, ⟨hacc, hrxbuf, herr⟩, hrest⟩ := (exec_spiOut_ends outSpi_order
      (spiOut_narrow outSpi_order (fun _ _ => ⟨rfl, rfl, rfl⟩) data d) s).narrow_keeps rfl ht
    refine ⟨hkept, hacc, hrxbuf, herr, ?_, hrest⟩
    rintro rfl
    have hnone : ∀ s, (spiOut [] d s).Ends (NarrowFrame SameSpi) s :=
      (narrow_chains sameSpi_order).refl
    obtain ⟨-, hspi, -⟩ := (exec_spiOut_ends sameSpi_order hnone s).narrow_keeps rfl ht
    exact hspi

end Sys2Proof.Machine
end

section
/-! SUPPORT. SPI_OUT and SPI_IN as requests (41_spi_bitbanger.md R96, R97, R102, R103, R105): how the
request ends when its operation succeeds or fails (`raising_ok`, `raising_err`), what the samples of
SPI_IN and the data-out levels of a SpiWord say of the byte, and the frames of SPI_IN and READ_ID. -/

namespace Sys2Proof.Machine

/-! ### A request that raises its operation's error -/

theorem runRequest_err {op : Op} {body : State → Res Failure Result} {s t : State} {f : Failure}
    (h : body (s.begin op) = .err f t) : runRequest op body s = .next (t.finish f.toResult) := by
  simp [runRequest, Res.settle, h, Res.final, Res.outcome]

section

variable {α : Type} {op : Op} {x : State → Res Payload α} {result : α → Result} {s u : State}

/-- A request that needs the handle and raises the errors of `x`, when `x` succeeds. -/
theorem raising_ok {a : α} (ho : s.handle = .opened) (hx : x (s.begin op) = .ok a u) :
    runRequest op (requireHandle fun s => (x s).raise.andThen fun a s => .ok (result a) s) s =
      .next (u.finish (result a)) :=
  handled_next (x := fun s => (x s).raise) ho (congrArg Res.raise hx)

/-- A request that needs the handle and raises the errors of `x`, when `x` fails. -/
theorem raising_err {e : Payload} (ho : s.handle = .opened) (hx : x (s.begin op) = .err e u) :
    runRequest op (requireHandle fun s => (x s).raise.andThen fun a s => .ok (result a) s) s =
      .next (u.finish (Failure.transport e).toResult) := by
  refine runRequest_err ((requireHandle_opened (s := s.begin op) ho).trans ?_)
  rw [hx]
  rfl

end

/-- The trace of a request that ends with a transport error: the calls of its operation, then the
result. -/
theorem Failed.trace_finish {s u : State} {op : Op} {calls : List Event} {rest : List TxAnswer}
    (h : Failed (s.begin op) u calls rest) (e : Payload) :
    (u.finish (Failure.transport e).toResult).trace = s.trace ++ calls ++ [.result 0x01 0 e] := by
  rw [State.trace_finish, h.trace]
  rfl

/-! ### SPI_OUT -/

/-- Settles O23: the writes succeed one after the other, and the request ends with their count. -/
theorem spiOutResult : Obligations.SpiOutResult := by
  unfold Obligations.SpiOutResult
  intro s d data pins rest _ ho hp ha
  obtain ⟨u, hx, hu, hw, -⟩ := spiOut_passed d data (s.begin .spiOut) pins rest hp ha
  exact ⟨_, raising_ok ho hx, rfl, rfl, rfl, (hu.served _).trace, hw, hu.frame.handle,
    hu.frame.lastPage, hu.answers⟩

/-- Settles O24: the loop stops at the failed write, and its error is the result. -/
theorem spiOutError : Obligations.SpiOutError := by
  unfold Obligations.SpiOutError
  intro s d sent more pins b e rest ho hp ha
  obtain ⟨u, hx, hf, hw⟩ := spiOut_failed d sent b more (s.begin .spiOut) pins e rest hp ha
  have hnext : exec (.spiOut d (sent ++ b :: more)) s = _ := raising_err ho hx
  refine ⟨_, hnext, rfl, rfl, ?_, hw, hf.answers, ((exec_keeps hnext).opened ho).trans ho.symm⟩
  rw [hf.trace_finish]
  simp

/-! ### SPI_IN -/

/-- A wire left at a selection pattern has its clock low (70_reset_and_hazards.md R169). -/
theorem State.clockLow_selpat {s : State} {d : Device} (hP : s.params.wf = true)
    (hw : s.wireOut = some (selpat s.params d)) : s.ClockLow :=
  ⟨_, hw, selpat_other_bit d (apart hP).ac.symm (apart hP).bc.symm⟩

/-- Settles O25: the samples succeed bit by bit, and the closing write leaves IDLE on the wire. -/
theorem spiInResult : Obligations.SpiInResult := by
  unfold Obligations.SpiInResult
  intro s d n pins rest ho hp ha
  obtain ⟨u, bytes, hx, hu, hw, -, -, -, -, hrxbuf, hlen, hsam⟩ :=
    spiIn_passed n.toNat d (s.begin .spiIn) pins rest hp ha
  have hidle : u.wireOut = some (selpat u.params .idle) := hu.frame.params ▸ hw
  exact ⟨_, bytes, raising_ok ho hx, rfl, hlen, hsam, hrxbuf, rfl, rfl, (hu.served _).trace, hw,
    fun hP => have hP : u.params.wf = true := hu.frame.params ▸ hP
      ⟨State.selection_selpat hP hidle, State.clockLow_selpat hP hidle⟩,
    hu.frame.handle, hu.frame.lastPage, hu.answers⟩

/-- Settles O26: a call of the bits fails and SpiIn writes IDLE, or that write alone fails; either way
the first error is the result. -/
theorem spiInError : Obligations.SpiInError := by
  unfold Obligations.SpiInError
  constructor
  · intro s d n pins e a rest o w ho hl hi ha
    obtain ⟨u, hx, hf, hw, herr⟩ :=
      spiIn_failed n.toNat d (s.begin .spiIn) pins e a rest o w hl hi ha
    refine ⟨_, raising_err ho hx, rfl, rfl, ?_, hw, hf.answers, herr⟩
    rw [hf.trace_finish]
    simp [spiInCalls]
  · intro s d n pins e rest ho hl ha
    obtain ⟨u, hx, hf, hw⟩ := spiIn_closeFailed n.toNat d (s.begin .spiIn) pins e rest hl ha
    refine ⟨_, raising_err ho hx, rfl, ?_, hw, hf.answers⟩
    rw [hf.trace_finish]
    simp

/-! ### The loopback (41_spi_bitbanger.md R105) -/

/-- Eight samples that carry the bits of `b`, most significant first, are the samples of `b`. -/
theorem sampled_singleton {P : Params} {pins : List Byte} {b : Byte}
    (h : ∀ k : Nat, k < 8 → levelAt P pins (3 * k) = b.getLsbD (7 - k)) : Sampled P pins 0 [b] := by
  intro j hj i hi
  obtain rfl : j = 0 := Nat.lt_one_iff.1 hj
  have hsample := h (7 - i) (by omega)
  rw [Nat.sub_sub_self (by omega)] at hsample
  simpa using hsample.symm

/-- The data-out level of a SpiWord at the sampling edge of bit `7 - k` is that bit: no other pin of
the entry is DO (30_encoding.md R69). -/
theorem spiWord_dataOut {P : Params} (hP : Apart P) (d : Device) (b : Byte) {k : Nat} (hk : k < 8) :
    ((spiWord P d b).getD (2 * k + 1) 0).getLsbD P.posDataOut.val = b.getLsbD (7 - k) := by
  obtain ⟨hwords, -⟩ := spiWordEntries
  obtain ⟨-, hpairs, -⟩ := hwords P d b
  obtain ⟨-, hsample⟩ := hpairs k hk
  have hselect := selpat_other_bit d hP.ad.symm hP.bd.symm
  have hclock : (pinBit P .clk).getLsbD P.posDataOut.val = false := by
    rw [pinBit_bit]
    exact beq_false_of_ne hP.cd.symm
  have hdata : (onBit P .dataOut (b.getLsbD (7 - k))).getLsbD P.posDataOut.val =
      b.getLsbD (7 - k) := by
    rw [onBit_bit, Params.pinPos, BEq.rfl, Bool.true_and]
  rw [List.getD_eq_getElem?_getD, hsample, Option.getD_some, BitVec.getLsbD_or, BitVec.getLsbD_or,
    hselect, hclock, Bool.false_or, Bool.or_false]
  exact hdata

/-- Settles O27: the samples fix the byte received, and the SpiWord drives the same bits. -/
theorem loopback : Obligations.Loopback := by
  unfold Obligations.Loopback
  refine ⟨fun s d b pins rest ho hp ha hbits => ?_,
    fun P d b hP k hk => spiWord_dataOut (apart hP) d b hk⟩
  obtain ⟨t, bytes, hx, ht, hlen, hsam⟩ := exec_spiIn_served (d := d) (n := 1) ho hp ha
  obtain rfl : bytes = [b] := hsam.unique (sampled_singleton hbits) hlen
  exact ⟨t, hx, ht.result⟩

/-! ### The frames of SPI_IN and READ_ID -/

theorem exec_spiIn_narrow (d : Device) (n : BitVec 16) (s : State) :
    ExecEnds (NarrowFrame InSpi) (.spiIn d n) s :=
  handled_ends (narrow_chains inSpi_order) (fun bytes => (n.setWidth 32, bytes)) rfl rfl fun s =>
    (spiIn_narrow inSpi_order (fun _ _ => rfl) (fun _ _ => rfl) (fun _ _ => rfl) n.toNat d s).raise

theorem exec_readId_narrow (s : State) : ExecEnds (NarrowFrame AnySpi) .readId s :=
  have hc := narrow_chains anySpi_order
  handled_ends hc (fun id => (id, [])) rfl rfl fun s =>
    (readTransaction_narrow readIdBytes Config.idLen s).andThen hc fun _ t _ => hc.refl t

/-- Settles O54: both run in a narrow frame, SPI_IN in the one that keeps S.W. -/
theorem frameSpiInReadId : Obligations.FrameSpiInReadId := by
  unfold Obligations.FrameSpiInReadId
  rintro s t i ht (⟨d, n, rfl⟩ | rfl)
  · obtain ⟨hkept, hw, hrest⟩ := (exec_spiIn_narrow d n s).narrow_keeps rfl ht
    exact ⟨hkept, fun _ => hw, hrest⟩
  · obtain ⟨hkept, -, hrest⟩ := (exec_readId_narrow s).narrow_keeps rfl ht
    exact ⟨hkept, fun h => absurd rfl h, hrest⟩

end Sys2Proof.Machine
end

section
/-! SUPPORT. The requests of the Flash Command Engine whose calls all succeed, or whose poll finds
its budget used up (42_flash_engine.md R108, R114, R119, R123, R127, R128): the calls their events
count, the two writes of IDLE of a page, and the engine's frame. -/

namespace Sys2Proof.Machine

/-! ### The calls counted -/

theorem txCalls_append (es es' : List Event) :
    txCalls (es ++ es') = txCalls es + txCalls es' := List.countP_append

/-- Three calls a bit. -/
theorem txCalls_sampleEvents (P : Params) (d : Device) {k : Nat} {pins : List Byte}
    (hp : pins.length = 3 * k) : txCalls (sampleEvents P d pins) = 3 * k := by
  induction k generalizing pins with
  | zero =>
    obtain rfl : pins = [] := List.eq_nil_of_length_eq_zero hp
    rfl
  | succ k ih =>
    match pins, hp with
    | p :: x :: y :: rest, hp =>
      have hrest : rest.length = 3 * k := by
        simp only [List.length_cons] at hp
        omega
      have hbit : txCalls [.readPins (.ok p), .write [selpat P d ||| pinBit P .clk] (.ok ()),
        .write [selpat P d] (.ok ())] = 3 := rfl
      rw [sampleEvents, txCalls_append, hbit, ih hrest, Nat.mul_succ, Nat.add_comm]
    | [], hp | [_], hp | [_, _], hp =>
      simp only [List.length_cons, List.length_nil] at hp
      omega

/-- A flash command with an answer of `n` bytes makes 24n + 3 calls (42_flash_engine.md R108,
R127). -/
theorem txCalls_readEvents (P : Params) (opcode : Byte) {n : Nat} {pins : List Byte}
    (hp : 24 * n < pins.length) : txCalls (readEvents P opcode n pins) = 24 * n + 3 := by
  have hsamples : txCalls (sampleEvents P .flash ((pins.drop 1).take (24 * n))) = 3 * (8 * n) :=
    txCalls_sampleEvents P .flash (by rw [List.length_take, List.length_drop]; omega)
  have hends : txCalls [spiWordEvent P .flash opcode] = 1 ∧ txCalls [idleEvent P] = 1 := ⟨rfl, rfl⟩
  simp only [readEvents, spiInEvents, txCalls_append, hsamples, hends]
  omega

/-- An iteration of a poll makes 27 calls (42_flash_engine.md R127). -/
theorem txCalls_pollEvents (P : Params) {k : Nat} {pins : List Byte}
    (hp : pins.length = 27 * k) : txCalls (pollEvents P k pins) = 27 * k := by
  induction k generalizing pins with
  | zero => rfl
  | succ k ih =>
    have hrest : (pins.drop 27).length = 27 * k := by rw [List.length_drop]; omega
    rw [pollEvents, txCalls_append, txCalls_readEvents P 0xD7 (by omega), ih hrest]
    omega

/-! ### The writes of IDLE of a command -/

theorem length_commandEvents (P : Params) (bytes : List Byte) :
    (commandEvents P bytes).length = bytes.length + 1 := by
  simp [commandEvents, spiOutEvents]

/-- A SpiWord is 17 bytes, so none of a command's words is a write of IDLE alone. -/
theorem spiWordEvent_ne_idleEvent (P : Params) (d : Device) (b : Byte) :
    spiWordEvent P d b ≠ idleEvent P := by
  intro h
  have hlen := spiWord_length P d b
  rw [(Event.write.inj h).1] at hlen
  cases hlen

theorem count_idleEvent_commandEvents (P : Params) (bytes : List Byte) :
    (commandEvents P bytes).count (idleEvent P) = 1 := by
  have hwords : (spiOutEvents P .flash bytes).count (idleEvent P) = 0 := by
    refine List.count_eq_zero.2 fun hmem => ?_
    obtain ⟨b, -, hb⟩ := List.mem_map.1 hmem
    exact spiWordEvent_ne_idleEvent P .flash b hb
  rw [commandEvents, List.count_append, hwords, List.count_singleton_self]

/-! ### A request whose operation fails -/

/-- A request that needs the handle, when its operation fails. -/
theorem handled_err {α : Type} {op : Op} {x : State → Res Failure α} {result : α → Result}
    {s t : State} {f : Failure} (ho : s.handle = .opened) (hx : x (s.begin op) = .err f t) :
    runRequest op (requireHandle fun s => (x s).andThen fun a s => .ok (result a) s) s =
      .next (t.finish f.toResult) := by
  refine runRequest_err ((requireHandle_opened (s := s.begin op) ho).trans ?_)
  rw [hx]
  rfl

/-! ### The requests on success -/

/-- Settles O28: the identifier is read in one transaction of 99 calls (Laws/Engine.lean), and the
request ends with it. -/
theorem readIdResult : Obligations.ReadIdResult := by
  unfold Obligations.ReadIdResult
  intro s pins rest ho hp ha
  obtain ⟨u, bytes, hx, hu, hw, -, -, -, hlen, hsam⟩ :=
    readId_passed (s.begin .readId) pins rest hp ha
  exact ⟨_, bytes, handled_next (result := fun id => okResult id []) ho hx, rfl, hlen, hsam, rfl,
    rfl, (hu.served _).trace, txCalls_readEvents s.params 0x9F (by omega), hw, hu.frame.handle,
    hu.frame.lastPage, hu.answers⟩

/-- Settles O30: the poll reads ready in iteration `k`, or uses its budget up. -/
theorem flashPollResult : Obligations.FlashPollResult := by
  unfold Obligations.FlashPollResult
  intro s t pins rest ho ha
  constructor
  · intro k hk hr
    obtain ⟨u, hx, hu, hw, howed, -⟩ :=
      flashPoll_ready k t hk (s.begin .flashPoll) pins rest hr ha
    exact ⟨_, handled_next (x := flashPoll t) (result := fun _ => okResult 0 []) ho hx, rfl, rfl,
      (hu.served _).trace, txCalls_pollEvents s.params hr.2.1, hw, hu.answers, howed⟩
  · intro hr
    obtain ⟨u, hx, hu, hw, howed⟩ := flashPoll_busy t (s.begin .flashPoll) pins rest hr ha
    exact ⟨_, handled_err (x := flashPoll t) (result := fun _ => okResult 0 []) ho hx, rfl, rfl,
      (hu.served _).trace, txCalls_pollEvents s.params hr.1, hw, hu.answers, howed⟩

/-- Settles O31: the buffer load, the commit and the poll succeed; each of the two commands before
the poll writes IDLE once, at its deselect. -/
theorem writePageResult : Obligations.WritePageResult := by
  unfold Obligations.WritePageResult
  intro s page data pins rest ho hd hr ha
  obtain ⟨u, hx, hu, hw, -⟩ := writePage_passed data hd page (s.begin .writePage) pins rest hr ha
  refine ⟨_, handled_next (x := writePage data page) (result := fun _ => okResult 0 []) ho hx, rfl,
    rfl, rfl, (hu.served _).trace, ?_, ?_, hw, hu.frame.handle, hu.frame.lastPage, hu.answers⟩
  · rw [List.length_append, length_commandEvents, length_commandEvents, List.length_append, hd]
    rfl
  · rw [List.count_append, count_idleEvent_commandEvents, count_idleEvent_commandEvents]

/-- Settles O33: the four bytes, the deselect and the poll succeed (Laws/Engine.lean). -/
theorem eraseSectorResult : Obligations.EraseSectorResult := by
  unfold Obligations.EraseSectorResult
  intro s c0 c1 c2 c3 t pins rest ho hr ha
  obtain ⟨u, hx, hu, hw, -⟩ :=
    eraseSector_passed [c0, c1, c2, c3] rfl t (s.begin .eraseSector) pins rest hr ha
  exact ⟨_, handled_next (x := eraseSector [c0, c1, c2, c3] t) (result := fun _ => okResult 0 []) ho
    hx, rfl, rfl, rfl, (hu.served _).trace, hw, hu.frame.handle, hu.frame.lastPage, hu.answers⟩

/-- Settles O34: the 18 sequences succeed one after the other (Laws/Engine.lean). -/
theorem eraseAllResult : Obligations.EraseAllResult := by
  unfold Obligations.EraseAllResult
  intro s t segs rest ho hlen hr ha
  obtain ⟨u, hx, hu, hw, -⟩ := eraseAll_passed t (s.begin .eraseAll) segs rest hlen hr ha
  exact ⟨_, handled_next (x := eraseAll t) (result := fun _ => okResult 0 []) ho hx, rfl, rfl, rfl,
    (hu.served _).trace, hw, hu.frame.handle, hu.frame.lastPage, hu.answers⟩

/-! ### The frame -/

/-- A request other than OPEN and PROGRAM runs in the bus frame, however it ends. -/
theorem request_keeps {i : Instr} {s t : State} (hi : i.op.isRequest = true)
    (hopen : i ≠ .openAdapter) (hprogram : i ≠ .program) (ht : exec i s = .next t) :
    s.KeptByBus t ∧ t.cmdOutcome = s.cmdOutcome := by
  obtain ⟨u, hu, hin, hc⟩ := (exec_bus_ends busFrame_closed hopen hprogram s).request_next hi ht
  exact ⟨hu.keptByBus hin, hc.trans hu.cmdOutcome⟩

/-- Settles O55: the four are requests of the engine, which run in the bus frame. -/
theorem frameEngine : Obligations.FrameEngine := by
  unfold Obligations.FrameEngine
  intro s t i ht hop
  have hi : i.op.isRequest = true := by
    rcases hop with h | h | h | h <;> rw [h] <;> rfl
  have hopen : i ≠ .openAdapter := by
    rintro rfl
    simp [Instr.op] at hop
  have hprogram : i ≠ .program := by
    rintro rfl
    simp [Instr.op] at hop
  exact request_keeps hi hopen hprogram ht

end Sys2Proof.Machine
end

section
/-! SUPPORT. The engine's instructions where a step of their script fails (42_flash_engine.md R109,
R115, R116, R119, R120, R124, R129; 60_exceptions.md R149 to R153): an instruction whose operation
stops there (Laws/Scripts.lean) ends with that failure (`exec_fails`), and after a commit or an erase
every poll of a script is owed (`reaches_owed`). -/

namespace Sys2Proof.Machine

/-! ### An instruction that stops where its script does -/

/-- A flash command of the slot, when its transaction fails. -/
theorem command_err {op : Op} {x : State → Res Failure Unit} {s t : State} {f : Failure}
    (ho : s.handle = .opened) (hx : x (s.beginCommand op) = .err f t) :
    runCommand op (requireHandle x) s = .next (t.finishCommand (some f)) := by
  have hbody := (requireHandle_opened (body := x) (s := s.beginCommand op) ho).trans hx
  simp [runCommand, Res.settle, hbody, Res.final, Res.outcome]

/-- Where a step of its script fails, instruction `i` ends with that failure: the calls so far and
those of the step, and the bus as the step leaves it. -/
def FailsAtStep (i : Instr) : Prop :=
  ∀ (s : State) (pins : List Byte) (es es' : List Event) (x : EngineStep) (m : List EngineStep)
    (v w : BusView) (as rest : List TxAnswer) (g : Failure), s.handle = .opened →
    Reaches s.params (engineScript s.params i) s.view pins es (x :: m) v →
    StepFails s.params x v as es' g w → s.env.answers = yes pins ++ (as ++ rest) →
    ∃ t, exec i s = .next t ∧ t.env.answers = rest ∧
      s.FailsWith t i g g.toResult (es ++ es') w

theorem Stops.request_fails {α : Type} {i : Instr} {x : State → Res Failure α}
    (h : Stops x fun P => engineScript P i) (result : α → Result) (hi : i.op.isRequest = true)
    (hx : ∀ s, exec i s = runRequest i.op (requireHandle fun s =>
      (x s).andThen fun a s => .ok (result a) s) s) : FailsAtStep i := by
  intro s pins es es' y m v w as rest g ho hr hf ha
  obtain ⟨u, hu, htrace, hanswers, hview⟩ :=
    h (s.begin i.op) pins es es' y m v w as rest g hr hf ha
  refine ⟨_, (hx s).trans (handled_err ho hu), hanswers, ?_⟩
  exact {
    phase := rfl
    wire := congrArg BusView.wire hview
    owed := congrArg BusView.owed hview
    request := fun _ => ⟨rfl, rfl, by rw [State.trace_finish, htrace]; rfl⟩
    command := fun hc => absurd (hi.symm.trans hc) (by decide) }

theorem Stops.command_fails {i : Instr} {x : State → Res Failure Unit}
    (h : Stops x fun P => engineScript P i) (hi : i.op.isRequest = false)
    (hx : ∀ s, exec i s = runCommand i.op (requireHandle x) s) : FailsAtStep i := by
  intro s pins es es' y m v w as rest g ho hr hf ha
  obtain ⟨u, hu, htrace, hanswers, hview⟩ :=
    h (s.beginCommand i.op) pins es es' y m v w as rest g hr hf ha
  have hnext := (hx s).trans (command_err ho hu)
  obtain ⟨-, hresult, -⟩ := command_keeps hi hnext
  refine ⟨_, hnext, hanswers, ?_⟩
  exact {
    phase := rfl
    wire := congrArg BusView.wire hview
    owed := congrArg BusView.owed hview
    request := fun hc => absurd (hi.symm.trans hc) (by decide)
    command := fun _ => ⟨rfl, hresult, htrace⟩ }

/-- An instruction without a script has no step to fail at. -/
theorem failsAtStep_of_nil {i : Instr} (h : ∀ P, engineScript P i = []) : FailsAtStep i := by
  intro s pins es es' y m v w as rest g _ hr
  rw [h] at hr
  cases hr

/-- Every instruction ends with the failure of the step of its script that fails. -/
theorem exec_fails (i : Instr) : FailsAtStep i := by
  cases i with
  | readId => exact readId_stops.request_fails (fun id => okResult id []) rfl fun _ => rfl
  | writePage page data =>
    exact (writePage_stops data page).request_fails (fun _ => okResult 0 []) rfl fun _ => rfl
  | eraseSector c0 c1 c2 c3 t =>
    exact (eraseSector_stops [c0, c1, c2, c3] t).request_fails (fun _ => okResult 0 []) rfl
      fun _ => rfl
  | eraseAll t => exact (eraseAll_stops t).request_fails (fun _ => okResult 0 []) rfl fun _ => rfl
  | flashPoll t => exact (flashPoll_stops t).request_fails (fun _ => okResult 0 []) rfl fun _ => rfl
  | readIdCmd =>
    exact ((read_stops readIdBytes Config.idLen).first (read_passes _ _)).command_fails rfl
      fun _ => rfl
  | bufLoadCmd data => exact (bufLoad_stops data).command_fails rfl fun _ => rfl
  | commitCmd page =>
    exact (start_stops (commitBytes (page.setWidth 13))).command_fails rfl fun _ => rfl
  | sectorEraseCmd a2 a1 a0 =>
    exact (start_stops (sectorEraseBytes a2 a1 a0)).command_fails rfl fun _ => rfl
  | statusReadCmd => exact status_stops.command_fails rfl fun _ => rfl
  | select d => exact failsAtStep_of_nil fun _ => rfl
  | spiOut d data => exact failsAtStep_of_nil fun _ => rfl
  | spiIn d n => exact failsAtStep_of_nil fun _ => rfl
  | openAdapter => exact failsAtStep_of_nil fun _ => rfl
  | program => exact failsAtStep_of_nil fun _ => rfl

/-! ### The poll that is owed (70_reset_and_hazards.md R170) -/

/-- In the script, begun with `owed`, every poll comes after a deselect that starts a program or an
erase, with no ready poll since. -/
def PollsOwed : Bool → List EngineStep → Prop
  | _, [] => True
  | owed, .send _ :: r => PollsOwed owed r
  | owed, .receive _ :: r => PollsOwed owed r
  | owed, .deselect starts :: r => PollsOwed (starts || owed) r
  | owed, .poll _ :: r => owed = true ∧ PollsOwed false r

/-- A poll that is reached is owed. -/
theorem reaches_owed {P : Params} {l m : List EngineStep} {v w : BusView} {pins : List Byte}
    {es : List Event} {n : Nat} (h : Reaches P l v pins es (.poll n :: m) w)
    (hl : PollsOwed v.owed l) : w.owed = true := by
  generalize hm : EngineStep.poll n :: m = l' at h
  induction h generalizing m with
  | here l v =>
    subst hm
    exact hl.1
  | send _ _ ih => exact ih hl hm
  | receive _ _ ih => exact ih hl hm
  | deselect _ _ ih => exact ih hl hm
  | ready _ _ _ ih => exact ih hl.2 hm
  | busy _ _ _ ih => exact ih hl hm
  | inside _ ih => exact ih trivial hm

theorem pollsOwed_eraseScripts (owed : Bool) (t : Word) (cmds : List (List Byte)) :
    PollsOwed owed (cmds.flatMap (eraseScript t)) := by
  induction cmds generalizing owed with
  | nil => exact trivial
  | cons cmd cmds ih => exact ⟨rfl, ih false⟩

/-- The polls of WRITE_PAGE, ERASE_SECTOR and ERASE_ALL are owed. -/
theorem pollsOwed_engineScript {i : Instr}
    (h : i.op = .writePage ∨ i.op = .eraseSector ∨ i.op = .eraseAll) (P : Params) (owed : Bool) :
    PollsOwed owed (engineScript P i) := by
  cases i with
  | writePage page data => exact ⟨rfl, trivial⟩
  | eraseSector c0 c1 c2 c3 t => exact ⟨rfl, trivial⟩
  | eraseAll t => exact pollsOwed_eraseScripts owed t eraseList
  | _ => simp [Instr.op] at h

/-! ### The obligations -/

/-- Settles O32: a deselect is not recovered from (`StepFails.deselect`). -/
theorem deselectErrors : Obligations.DeselectErrors := by
  unfold Obligations.DeselectErrors
  intro s i pins es starts more v e rest ho hr ha
  exact exec_fails i s pins es _ _ more v _ [.err e] rest _ ho hr (.deselect starts v e) ha

/-- Settles O35: a poll with no budget left makes no call (`StepFails.timeout`). -/
theorem engineTimeouts : Obligations.EngineTimeouts := by
  unfold Obligations.EngineTimeouts
  intro s i pins es more v rest ho hr ha
  obtain ⟨t, hx, hanswers, hf⟩ :=
    exec_fails i s pins es [] _ more v v [] rest _ ho hr (.timeout v) ha
  rw [List.append_nil] at hf
  exact ⟨t, hx, hanswers, hf, fun hop =>
    hf.owed.trans (reaches_owed hr (pollsOwed_engineScript hop s.params s.pollOwed))⟩

/-- Settles O36: the three places of `PhaseFails` are steps that fail. -/
theorem sendAndReceiveErrors : Obligations.SendAndReceiveErrors := by
  unfold Obligations.SendAndReceiveErrors
  intro s i pins es es' x more v as rest e w ho hr hp ha
  exact exec_fails i s pins es es' x more v _ as rest _ ho hr (.phase hp) ha

end Sys2Proof.Machine
end

section
/-! SUPPORT. OPEN by its one or two calls (43_workflow.md R132, R133), and the frames of OPEN and
PROGRAM. -/

namespace Sys2Proof.Machine

/-! ### Open() after its first half -/

theorem openSub_opened {s : State} (ho : s.handle = .opened) :
    openSub s = txSetDir (idleDirection s.params) s := by
  simp [openSub, openHandle, ho, Res.andThen]

/-- With the handle closed and TxOpen answered Ok, the direction is left to set. -/
theorem openSub_txOpen_ok {s : State} {p : Byte} {rest : List TxAnswer} (hc : s.handle = .closed)
    (h : s.env.answers = .ok none p :: rest) :
    openSub s = txSetDir (idleDirection s.params)
      (((s.setEnv { s.env with answers := rest }).called
        (.openCall s.params.vid s.params.pid (.ok ()))).setHandle .opened) := by
  simp only [openSub, openHandle, hc, if_true, txOpen_ok h, Res.ok_andThen]
  rfl

theorem openSub_txOpen_err {s : State} {e : Payload} {rest : List TxAnswer}
    (hc : s.handle = .closed) (h : s.env.answers = .err e :: rest) :
    openSub s = .err e ((s.setEnv { s.env with answers := rest }).called
      (.openCall s.params.vid s.params.pid (.err e))) := by
  simp only [openSub, openHandle, hc, if_true, txOpen_err h, Res.err_andThen]

/-! ### OPEN as a request -/

theorem exec_openAdapter_ok {s t : State} (h : openSub (s.begin .openAdapter) = .ok () t) :
    exec .openAdapter s = .next (t.finish (okResult 0 [])) :=
  runRequest_ok (body := fun s => (openSub s).raise.andThen fun _ s => .ok (okResult 0 []) s)
    (by rw [h]; rfl)

theorem exec_openAdapter_err {s t : State} {e : Payload}
    (h : openSub (s.begin .openAdapter) = .err e t) :
    exec .openAdapter s = .next (t.finish (Failure.transport e).toResult) :=
  runRequest_err (body := fun s => (openSub s).raise.andThen fun _ s => .ok (okResult 0 []) s)
    (by rw [h]; rfl)

/-- Settles O39: the handle and the answers say which calls Open() makes, and the request ends with
the outcome of the last of them. -/
theorem openResult : Obligations.OpenResult := by
  unfold Obligations.OpenResult
  intro s p q e rest
  refine ⟨fun hc ha => ?_, fun ho ha => ?_, fun hc ha => ?_, fun hc ha => ?_, fun ho ha => ?_⟩
  · exact exec_openAdapter_ok ((openSub_txOpen_ok (s := s.begin .openAdapter) hc ha).trans
      (txSetDir_ok rfl))
  · exact exec_openAdapter_ok ((openSub_opened (s := s.begin .openAdapter) ho).trans
      (txSetDir_ok ha))
  · exact exec_openAdapter_err (openSub_txOpen_err (s := s.begin .openAdapter) hc ha)
  · exact exec_openAdapter_err ((openSub_txOpen_ok (s := s.begin .openAdapter) hc ha).trans
      (txSetDir_err rfl))
  · exact exec_openAdapter_err ((openSub_opened (s := s.begin .openAdapter) ho).trans
      (txSetDir_err ha))

/-! ### The frames -/

/-- Settles O56: OPEN runs in its own frame (`OpenFrame`), PROGRAM in that of the workflow. -/
theorem frameOpenProgram : Obligations.FrameOpenProgram := by
  unfold Obligations.FrameOpenProgram
  refine ⟨fun s t ht => ?_, fun s t ht => ?_⟩
  · obtain ⟨u, hu, hin, hc⟩ := (openAdapter_ends s).request_next rfl ht
    exact ⟨hin.params.trans hu.params, hin.lastPage.trans hu.lastPage, hin.req.trans hu.req,
      hin.spi.trans hu.spi, hin.poll.trans hu.poll, hin.flow.trans hu.flow,
      hin.wireOut.trans hu.wireOut, hin.driven.trans hu.driven, hin.cmdSlot.trans hu.cmdSlot,
      hc.trans hu.cmdOutcome, hin.duty.trans hu.duty, hin.pollOwed.trans hu.pollOwed,
      (congrArg Env.inputs hin.env).trans hu.inputs,
      (congrArg Env.streamAnswers hin.env).trans hu.streamAnswers,
      (congrArg Env.stream hin.env).trans hu.stream⟩
  · obtain ⟨u, hu, hin, hc⟩ := (exec_cases flowFrame_closed .program s).request_next rfl ht
    exact ⟨hin.params.trans hu.params, hin.req.trans hu.req, hin.cmdSlot.trans hu.cmdSlot,
      hc.trans hu.cmdOutcome, hin.duty.trans hu.duty, (congrArg Env.inputs hin.env).trans hu.inputs⟩

end Sys2Proof.Machine
end

section
/-! SUPPORT. PROGRAM as a request (43_workflow.md R135 to R143): how it ends when its body fails
(`Broke.ended`), the body after the full pages (`programBody_pages`), after a short read
(`programBody_short`) and after the last page of the stream (`programBody_written`). -/

namespace Sys2Proof.Machine

/-! ### A run that fails -/

/-- A body that breaks off: the request ends with the error, and the registers stay as the body left
them. -/
theorem Broke.ended {s u : State} {f : Failure} {calls : List Event} {rest : List TxAnswer}
    {handle : Handle} {dir : Option Byte} {last : Option Page}
    (h : Broke (s.begin .program) u calls rest handle dir last)
    (hx : programBody (s.begin .program) = .err f u) :
    exec .program s = .next (u.finish f.toResult) ∧
      (u.finish f.toResult).trace = s.trace ++ calls ++ [.result f.code 0 f.payload] ∧
      (u.finish f.toResult).result = ⟨f.code, 0, f.payload⟩ ∧
      (u.finish f.toResult).lastPage = last ∧ (u.finish f.toResult).handle = handle ∧
      (u.finish f.toResult).wireDir = dir ∧ (u.finish f.toResult).env.answers = rest :=
  ⟨runRequest_err hx, by rw [State.trace_finish, h.trace]; rfl, rfl, h.lastPage, h.handle,
    h.wireDir, h.answers⟩

/-- The same calls, written otherwise. -/
theorem Broke.of_calls {s u : State} {calls calls' : List Event} {rest : List TxAnswer}
    {handle : Handle} {dir : Option Byte} {last : Option Page}
    (h : Broke s u calls rest handle dir last) (e : calls = calls') :
    Broke s u calls' rest handle dir last := e ▸ h

theorem Res.err_of_andThen {ε α β : Type} {x : Res ε α} {y : Res ε β} {k : α → State → Res ε β}
    {e : ε} {t : State} (hy : y = x.andThen k) (hx : x = .err e t) : y = .err e t := by
  rw [hy, hx, Res.err_andThen]

/-! ### Steps 1 to 3 -/

theorem programBody_headErr {s t : State} {f : Failure}
    (h : ((programOpenAndId s).andThen fun _ s => programErase s) = .err f t) :
    programBody s = .err f t :=
  Res.err_of_andThen (programBody_split s) h

theorem programBody_openErr {s t : State} {f : Failure} (h : programOpenAndId s = .err f t) :
    programBody s = .err f t :=
  programBody_headErr (Res.err_of_andThen rfl h)

theorem programOpenAndId_openErr {s t : State} {e : Payload}
    (h : openSub (s.setLastPage none) = .err e t) :
    programOpenAndId s = .err (.transport e) t := by
  rw [programOpenAndId, h]
  rfl

theorem openEvents_begin (s : State) (op : Op) :
    openEvents (s.begin op) = openEvents s := rfl

/-- Settles O42: each of the five places breaks off steps 1 to 3 (Laws/Program.lean), and PROGRAM
ends there. -/
theorem programHeadErrors : Obligations.ProgramHeadErrors := by
  unfold Obligations.ProgramHeadErrors
  intro s openPins idPins dirPins pins es es' x more v w as rest f e
  have w0 := Went.lastPage (s.begin .program) none
  refine ⟨fun hc ha => ?_, fun ho ha => ?_, fun ho => ⟨fun hr hf ha => ?_, fun hi ha => ?_,
    fun hi hd hr hf ha => ?_⟩⟩
  · obtain ⟨u, hx, b⟩ := openSub_closed (s := (s.begin .program).setLastPage none) hc ha
    exact ⟨_, (w0.broke b).ended (programBody_openErr (programOpenAndId_openErr hx))⟩
  · obtain ⟨u, hx, b⟩ := openSub_broke (s := (s.begin .program).setLastPage none) ho ha
    exact ⟨_, (w0.broke b).ended (programBody_openErr (programOpenAndId_openErr hx))⟩
  · obtain ⟨u, hx, b⟩ := openAndId_broke (s := s.begin .program) ho hr hf ha
    exact ⟨_, b.ended (programBody_openErr hx)⟩
  · obtain ⟨t, bytes, hx, ht, hb, hsam, -, hh, hl, -⟩ :=
      openAndId_went (s.begin .program) openPins idPins _ ho hi ha
    obtain ⟨u, hu, b⟩ := programErase_dirBroke ht.answers
    have hP : t.params = s.params := ht.frame.params
    rw [hh, hl, hP] at b
    have hbroke := ht.broke b
    exact ⟨_, bytes, hb, hsam, (hbroke.of_calls (by rw [openEvents_begin]; simp [openEvents])).ended
      (programBody_headErr (by rw [hx, Res.ok_andThen, hu]))⟩
  · obtain ⟨p, rfl⟩ := List.length_eq_one_iff.1 hd
    obtain ⟨t, bytes, hx, ht, hb, hsam, -, hh, hl, -, -, -, hv⟩ :=
      openAndId_went (s.begin .program) openPins idPins (yes (p :: pins) ++ (as ++ rest)) ho hi
        (by simpa using ha)
    have hP : t.params = s.params := ht.frame.params
    obtain ⟨u, hu, b⟩ := programErase_broke (s := t) (by rw [hP, hv]; exact hr)
      (by rw [hP]; exact hf) ht.answers
    rw [hh, hl, hP] at b
    have hbroke := ht.broke b
    exact ⟨_, bytes, hb, hsam, (hbroke.of_calls (by rw [openEvents_begin]; simp [openEvents])).ended
      (programBody_headErr (by rw [hx, Res.ok_andThen, hu]))⟩

/-! ### The pages -/

/-- S.LAST_PAGE after `n` pages (43_workflow.md R138). -/
def lastOf (n : Nat) : Option Page := if n = 0 then none else some (BitVec.ofNat 13 (n - 1))

/-- The number of pages is told by S.LAST_PAGE (43_workflow.md R140). -/
theorem pagesWritten_lastOf {n : Nat} (h : n ≤ 8192) :
    pagesWritten (lastOf n) = BitVec.ofNat 32 n := by
  unfold lastOf
  split
  case isTrue h0 => simp [h0, pagesWritten]
  case isFalse h0 =>
    apply BitVec.eq_of_toNat_eq
    have h1 : (1 : Word).toNat = 1 := rfl
    simp only [pagesWritten, BitVec.toNat_add, BitVec.toNat_setWidth, BitVec.toNat_ofNat, h1]
    omega

/-- The closing direction and the result: what is left of PROGRAM when every page is written
(43_workflow.md R140). -/
def programClose (s : State) : Res Failure Result :=
  (txSetDir (idleDirection s.params) s).raise.andThen fun _ s =>
    .ok (okResult (pagesWritten s.lastPage) []) s

theorem programBody_close (s : State) :
    programBody s = ((programOpenAndId s).andThen fun _ s => programErase s).andThen fun _ s =>
      (pageLoop 8192 (s.setFlow { s.flow with pStop := none, k := 0 })).andThen fun _ s =>
        (programFinish s).andThen fun _ s => programClose s :=
  programBody_split s

theorem programClose_ok {s : State} {p : Byte} {rest : List TxAnswer}
    (h : s.env.answers = .ok none p :: rest) :
    ∃ t, programClose s = .ok (okResult (pagesWritten s.lastPage) []) t ∧
      Went s t [.setDir (idleDirection s.params) s.params.bitbangMode (.ok ())] rest ∧
      t.wireDir = some (idleDirection s.params) ∧ t.handle = s.handle ∧
      t.lastPage = s.lastPage ∧ t.env.stream = s.env.stream ∧
      t.env.streamAnswers = s.env.streamAnswers := by
  obtain ⟨t, hx, w, d, hh, hl, -, st, sa, -⟩ :=
    txSetDir_went (d := idleDirection s.params) (.inl rfl) h
  refine ⟨t, ?_, w, d, hh, hl, st, sa⟩
  rw [programClose, hx, ← hl]
  rfl

theorem programClose_err {s : State} {e : Payload} {rest : List TxAnswer}
    (h : s.env.answers = .err e :: rest) :
    ∃ t, programClose s = .err (.transport e) t ∧
      Broke s t [.setDir (idleDirection s.params) s.params.bitbangMode (.err e)] rest s.handle none
        s.lastPage := by
  obtain ⟨t, hx, b⟩ := txSetDir_broke (d := idleDirection s.params) h
  exact ⟨t, by rw [programClose, hx]; rfl, b⟩

/-- PROGRAM is under way at `t` after the calls `calls`, `n` pages written: the answers left, the
handle open, PROGRAM_DIRECTION on the pins (43_workflow.md R137, R138). -/
structure Underway (s t : State) (calls : List Event) (rest : List TxAnswer)
    (srest : List StreamAnswer) (n : Nat) : Prop where
  went : Went s t calls rest
  streamAnswers : t.env.streamAnswers = srest
  handle : t.handle = .opened
  wireDir : t.wireDir = some (programDirection s.params)
  lastPage : t.lastPage = lastOf n

theorem Underway.params {s t : State} {calls : List Event} {rest : List TxAnswer}
    {srest : List StreamAnswer} {n : Nat} (h : Underway s t calls rest srest n) :
    t.params = s.params := h.went.frame.params

/-- Calls of the stream, which write no page and take no answer of the adapter. -/
theorem Underway.trans {s t u : State} {calls new : List Event} {rest : List TxAnswer}
    {srest srest' : List StreamAnswer} {n : Nat} (h : Underway s t calls rest srest n)
    (w : Went t u new t.env.answers) (sa : u.env.streamAnswers = srest') (hh : u.handle = t.handle)
    (d : u.wireDir = t.wireDir) (l : u.lastPage = t.lastPage) :
    Underway s u (calls ++ new) rest srest' n :=
  ⟨h.went.trans (h.went.answers ▸ w), sa, hh.trans h.handle, d.trans h.wireDir, l.trans h.lastPage⟩

/-- A failure under way that leaves the direction as `dir`. -/
theorem Underway.brokeDir {s t u : State} {calls new : List Event} {rest rest' : List TxAnswer}
    {srest : List StreamAnswer} {n : Nat} {dir : Option Byte}
    (h : Underway s t calls rest srest n) (b : Broke t u new rest' t.handle dir t.lastPage) :
    Broke s u (calls ++ new) rest' .opened dir (lastOf n) := by
  rw [h.handle, h.lastPage] at b
  exact h.went.broke b

/-- A failure under way that leaves PROGRAM_DIRECTION (43_workflow.md R141). -/
theorem Underway.broke {s t u : State} {calls new : List Event} {rest rest' : List TxAnswer}
    {srest : List StreamAnswer} {n : Nat} (h : Underway s t calls rest srest n)
    (b : Broke t u new rest' t.handle t.wireDir t.lastPage) :
    Broke s u (calls ++ new) rest' .opened (some (programDirection s.params)) (lastOf n) :=
  h.wireDir ▸ h.brokeDir b

section

variable {s : State} {openPins idPins dirPins : List Byte} {eraseSegs pageSegs : List (List Byte)}

/-- The premises of a run that writes the pages `pageSegs`: what the answers of each step are, and
that the stream holds the pages. -/
structure PagesGiven (s : State) (openPins idPins dirPins : List Byte)
    (eraseSegs pageSegs : List (List Byte)) : Prop where
  shapes : s.Shapes
  openCalls : openPins.length = if s.handle = .closed then 2 else 1
  idCalls : idPins.length = 99
  dirCalls : dirPins.length = 1
  sectors : eraseSegs.length = 18
  erased : ∀ p ∈ eraseSegs, ReadyAfter s.params 5 s.params.eraseTimeout p
  capacity : pageSegs.length ≤ 8192
  stream : 264 * pageSegs.length ≤ s.env.stream.length
  written : ∀ p ∈ pageSegs, ReadyAfter s.params 274 s.params.writeTimeout p

/-- The beginning of a request writes none of what the premises speak of. -/
theorem PagesGiven.begin (g : PagesGiven s openPins idPins dirPins eraseSegs pageSegs) (op : Op) :
    PagesGiven (s.begin op) openPins idPins dirPins eraseSegs pageSegs :=
  ⟨⟨g.shapes.w, g.shapes.pagebuf, g.shapes.k, g.shapes.code⟩, g.openCalls, g.idCalls, g.dirCalls,
    g.sectors, g.erased, g.capacity, g.stream, g.written⟩

/-- The pin bytes of the answers up to the last full page. -/
def pagesPins (openPins idPins dirPins : List Byte) (eraseSegs pageSegs : List (List Byte)) :
    List Byte :=
  openPins ++ idPins ++ dirPins ++ eraseSegs.flatten ++ pageSegs.flatten

/-- The calls of PROGRAM up to the last full page (43_workflow.md R143). -/
def pagesCalls (s : State) (idPins bytes : List Byte) (eraseSegs pageSegs : List (List Byte)) :
    List Event :=
  programHead s.params (s.handle == .closed) idPins (identifier bytes) eraseSegs
    ++ fullPageEvents s.params s.env.stream 0 pageSegs

/-- PROGRAM after its full pages: the page loop goes on with the page indices that are left. -/
theorem programBody_pages (g : PagesGiven s openPins idPins dirPins eraseSegs pageSegs)
    {rest : List TxAnswer} {srest : List StreamAnswer}
    (ha : s.env.answers = yes (pagesPins openPins idPins dirPins eraseSegs pageSegs) ++ rest)
    (hs : s.env.streamAnswers = List.replicate pageSegs.length .ok ++ srest) :
    ∃ t bytes, bytes.length = 4 ∧ Sampled s.params idPins 1 bytes ∧
      (programBody s = (pageLoop (8192 - pageSegs.length) t).andThen fun _ s =>
        (programFinish s).andThen fun _ s => programClose s) ∧
      Underway s t (pagesCalls s idPins bytes eraseSegs pageSegs) rest srest pageSegs.length ∧
      t.env.stream = s.env.stream.drop (264 * pageSegs.length) ∧ t.flow.pStop = none ∧
      t.flow.pagebuf.length = 264 ∧ t.view = ⟨some (idleByte s.params), false⟩ := by
  obtain ⟨t1, bytes, hx1, w1, hb, hsam, d1, h1, l1, f1, st1, sa1, v1⟩ := programHead_went s openPins
    idPins dirPins eraseSegs (yes pageSegs.flatten ++ rest) g.openCalls g.idCalls g.dirCalls
    g.sectors g.erased (by rw [ha, pagesPins, yes_append _ pageSegs.flatten, List.append_assoc])
  have hp1 : t1.params = s.params := w1.frame.params
  have w2 := Went.flow t1 { t1.flow with pStop := none, k := 0 }
  obtain ⟨t, hx, w, st, sa, d, hh, ps, pb, l, v⟩ := pageLoop_pages pageSegs 8192 g.capacity le_rfl
    (t1.setFlow { t1.flow with pStop := none, k := 0 }) rest srest
    (by rw [State.setFlow_flow, f1]; exact g.shapes.pagebuf)
    (by rw [State.setFlow_env, st1]; exact g.stream)
    (by rw [State.setFlow_params, hp1]; exact g.written) w1.answers
    (by rw [State.setFlow_env, sa1, hs])
  rw [State.setFlow_env, st1, State.setFlow_params, hp1] at w
  refine ⟨t, bytes, hb, hsam, ?_, ⟨?_, sa, hh.trans h1, d.trans d1, ?_⟩, ?_, ps, pb, ?_⟩
  · rw [programBody_close, hx1, Res.ok_andThen, hx]
  · simpa [pagesCalls] using (w1.trans w2).trans w
  · rw [l, State.setFlow_lastPage, l1, lastOf]
    simp
  · rw [st, State.setFlow_env, st1]
  · rw [v]
    split
    · exact v1
    · rw [State.setFlow_params, hp1]

/-! ### The end of the pages -/

/-- PROGRAM after the last page of the device: the page loop has no page index left. -/
theorem programBody_full (g : PagesGiven s openPins idPins dirPins eraseSegs pageSegs)
    (hq : pageSegs.length = 8192) {rest : List TxAnswer} {srest : List StreamAnswer}
    (ha : s.env.answers = yes (pagesPins openPins idPins dirPins eraseSegs pageSegs) ++ rest)
    (hs : s.env.streamAnswers = List.replicate pageSegs.length .ok ++ srest) :
    ∃ t bytes, bytes.length = 4 ∧ Sampled s.params idPins 1 bytes ∧
      (programBody s = (programFinish t).andThen fun _ s => programClose s) ∧
      Underway s t (pagesCalls s idPins bytes eraseSegs pageSegs) rest srest pageSegs.length ∧
      t.env.stream = s.env.stream.drop (264 * pageSegs.length) ∧ t.flow.pStop = none := by
  obtain ⟨t, bytes, hb, hsam, hx, hu, st, ps, -, -⟩ := programBody_pages g ha hs
  refine ⟨t, bytes, hb, hsam, ?_, hu, st, ps⟩
  rw [hx, hq]
  rfl

/-- PROGRAM after a short read (43_workflow.md R138): `tail` is what the full pages left. -/
theorem programBody_short (g : PagesGiven s openPins idPins dirPins eraseSegs pageSegs)
    (hq : pageSegs.length < 8192) {r : Nat} (hr : r < 264)
    (hlen : s.env.stream.length = 264 * pageSegs.length + r)
    {rest : List TxAnswer} {srest : List StreamAnswer} {tail : List Byte}
    (htail : s.env.stream.drop (264 * pageSegs.length) = tail)
    (ha : s.env.answers = yes (pagesPins openPins idPins dirPins eraseSegs pageSegs) ++ rest)
    (hs : s.env.streamAnswers = List.replicate (pageSegs.length + 1) .ok ++ srest) :
    ∃ t bytes, bytes.length = 4 ∧ Sampled s.params idPins 1 bytes ∧
      (programBody s = (programFinish t).andThen fun _ s => programClose s) ∧
      Underway s t (pagesCalls s idPins bytes eraseSegs pageSegs ++ [.streamRead 264 (.ok tail)])
        rest srest pageSegs.length ∧
      t.env.stream = [] ∧ t.flow.pStop = some (BitVec.ofNat 13 pageSegs.length) ∧
      t.flow.k = BitVec.ofNat 9 tail.length ∧
      (∃ buf, t.flow.pagebuf = memWrite buf 0 tail) ∧
      t.view = ⟨some (idleByte s.params), false⟩ := by
  rw [List.replicate_add, List.append_assoc] at hs
  obtain ⟨t1, bytes, hb, hsam, hx1, hu, st1, -, -, v1⟩ := programBody_pages g ha hs
  rw [htail] at st1
  have hshort : t1.env.stream.length < 264 := by
    rw [st1, ← htail, List.length_drop]
    omega
  obtain ⟨n, hn⟩ : ∃ n, 8192 - pageSegs.length = n + 1 := ⟨8191 - pageSegs.length, by omega⟩
  obtain ⟨t, hx, w, st, sa, d, hh, l, ps, hk, hbuf, v⟩ := pageLoop_short n t1 srest hshort
    hu.streamAnswers
  rw [st1] at w hk hbuf
  refine ⟨t, bytes, hb, hsam, ?_, hu.trans w sa hh d l, st, ?_, hk,
    ⟨_, hbuf⟩, v.trans v1⟩
  · rw [hx1, hn, hx, Res.ok_andThen]
  · rw [ps, ← hn, Nat.sub_sub_self hq.le]

/-- PROGRAM after a short read of some bytes and a further read of none: the padded page is left to
write (43_workflow.md R139). -/
theorem programBody_padded (g : PagesGiven s openPins idPins dirPins eraseSegs pageSegs)
    (hq : pageSegs.length < 8192) {r : Nat} (hr : r < 264) (hpos : 0 < r)
    (hlen : s.env.stream.length = 264 * pageSegs.length + r)
    {rest : List TxAnswer} {srest : List StreamAnswer} {tail : List Byte}
    (htail : s.env.stream.drop (264 * pageSegs.length) = tail)
    (ha : s.env.answers = yes (pagesPins openPins idPins dirPins eraseSegs pageSegs) ++ rest)
    (hs : s.env.streamAnswers = List.replicate (pageSegs.length + 2) .ok ++ srest) :
    ∃ t bytes, bytes.length = 4 ∧ Sampled s.params idPins 1 bytes ∧
      (programBody s = (programPage (tail ++ List.replicate (264 - r) s.params.padByte)
        (BitVec.ofNat 13 pageSegs.length) t).andThen fun _ s => programClose s) ∧
      Underway s t (pagesCalls s idPins bytes eraseSegs pageSegs
        ++ [.streamRead 264 (.ok tail), .streamRead 264 (.ok [])]) rest srest pageSegs.length ∧
      t.env.stream = [] ∧ t.view = ⟨some (idleByte s.params), false⟩ := by
  have htlen : tail.length = r := by
    rw [← htail, List.length_drop]
    omega
  rw [List.replicate_succ', List.append_assoc] at hs
  obtain ⟨t1, bytes, hb, hsam, hx1, hu, st1, ps1, hk1, ⟨buf, hbuf⟩, v1⟩ :=
    programBody_short g hq hr hlen htail ha hs
  obtain ⟨t, hx, w, st, sa, d, hh, l, v⟩ := programFinish_padded t1 tail buf _ srest
    (List.ne_nil_of_length_pos (by omega)) (by omega) st1 hu.streamAnswers ps1 hk1 hbuf
  refine ⟨t, bytes, hb, hsam, ?_, ?_, st, v.trans v1⟩
  · rw [hx1, hx, htlen, hu.params]
  · simpa using hu.trans w sa hh d l

/-- The calls from the last full page to the last page: the short read where a page index is left,
the further read, and the padded page (43_workflow.md R139). -/
def finalCalls (s : State) (q r : Nat) (finalSegs : List (List Byte)) : List Event :=
  (if q < 8192 then [.streamRead 264 (.ok (s.env.stream.drop (264 * q)))] else [])
    ++ [.streamRead 264 (.ok [])]
    ++ (finalSegs.map (pageEvents s.params
        (s.env.stream.drop (264 * q) ++ List.replicate (264 - r) s.params.padByte)
        (BitVec.ofNat 13 q))).flatten

/-- PROGRAM when the whole stream is written: the closing direction is left. The stream ends with a
short read, of no byte or of some, or with the last page of the device. -/
theorem programBody_written (g : PagesGiven s openPins idPins dirPins eraseSegs pageSegs) {r : Nat}
    (hr : r < 264) (hlen : s.env.stream.length = 264 * pageSegs.length + r)
    {finalSegs : List (List Byte)} (hf : finalSegs.length = if r = 0 then 0 else 1)
    (hcap : pageSegs.length + finalSegs.length ≤ 8192)
    (hready : ∀ p ∈ finalSegs, ReadyAfter s.params 274 s.params.writeTimeout p)
    {rest : List TxAnswer} {srest : List StreamAnswer}
    (ha : s.env.answers =
      yes (pagesPins openPins idPins dirPins eraseSegs pageSegs ++ finalSegs.flatten) ++ rest)
    (hs : s.env.streamAnswers =
      List.replicate ((if pageSegs.length < 8192 then pageSegs.length + 1 else pageSegs.length) + 1)
        .ok ++ srest) :
    ∃ t bytes, bytes.length = 4 ∧ Sampled s.params idPins 1 bytes ∧
      programBody s = programClose t ∧
      Underway s t (pagesCalls s idPins bytes eraseSegs pageSegs
        ++ finalCalls s pageSegs.length r finalSegs) rest srest
        (pageSegs.length + finalSegs.length) ∧ t.env.stream = [] := by
  rw [yes_append, List.append_assoc] at ha
  rw [List.replicate_succ', List.append_assoc] at hs
  generalize htail : s.env.stream.drop (264 * pageSegs.length) = tail
  have htlen : tail.length = r := by
    rw [← htail, List.length_drop]
    omega
  by_cases hq : pageSegs.length < 8192
  · rw [if_pos hq] at hs
    by_cases h0 : r = 0
    · rw [if_pos h0] at hf
      obtain rfl := List.eq_nil_of_length_eq_zero hf
      obtain ⟨t1, bytes, hb, hsam, hx1, hu, st1, -, hk1, -⟩ :=
        programBody_short g hq hr hlen htail ha hs
      obtain ⟨t, hx, w, st, sa, d, hh, l⟩ := programFinish_plain t1 srest st1 hu.streamAnswers
        (.inr (by rw [hk1, htlen, h0]; rfl))
      refine ⟨t, bytes, hb, hsam, by rw [hx1, hx, Res.ok_andThen], ?_, st⟩
      simpa [finalCalls, hq, htail] using hu.trans w sa hh d l
    · rw [if_neg h0] at hf
      obtain ⟨seg, rfl⟩ := List.length_eq_one_iff.1 hf
      rw [← List.append_assoc, ← List.replicate_succ'] at hs
      obtain ⟨t1, bytes, hb, hsam, hx1, hu, st1, -⟩ :=
        programBody_padded g hq hr (Nat.pos_of_ne_zero h0) hlen htail ha hs
      have hpad : (tail ++ List.replicate (264 - r) s.params.padByte).length = 264 := by
        rw [List.length_append, List.length_replicate]
        omega
      obtain ⟨t, hx, w, l, d, hh, -, st, sa, -⟩ := programPage_went _ hpad
        (BitVec.ofNat 13 pageSegs.length) t1 seg rest
        (by rw [hu.params]; exact hready seg (by simp)) (by rw [hu.went.answers]; simp)
      refine ⟨t, bytes, hb, hsam, by rw [hx1, hx, Res.ok_andThen], ⟨?_, sa.trans hu.streamAnswers,
        hh.trans hu.handle, d.trans hu.wireDir, l⟩, st.trans st1⟩
      have := hu.went.trans w
      rw [hu.params] at this
      simpa [finalCalls, hq, htail] using this
  · rw [if_neg hq] at hs
    have h0 : r = 0 := by
      by_contra h0
      rw [if_neg h0] at hf
      omega
    rw [if_pos h0] at hf
    obtain rfl := List.eq_nil_of_length_eq_zero hf
    obtain ⟨t1, bytes, hb, hsam, hx1, hu, st1, ps1⟩ :=
      programBody_full g (le_antisymm g.capacity (not_lt.1 hq)) ha hs
    obtain ⟨t, hx, w, st, sa, d, hh, l⟩ := programFinish_plain t1 srest
      (by rw [st1, htail]; exact List.eq_nil_of_length_eq_zero (htlen.trans h0)) hu.streamAnswers
      (.inl ps1)
    refine ⟨t, bytes, hb, hsam, by rw [hx1, hx, Res.ok_andThen], ?_, st⟩
    simpa [finalCalls, hq] using hu.trans w sa hh d l

/-- The further read finds bytes (43_workflow.md R139, R141). -/
theorem programFinish_oversize {s : State} {srest : List StreamAnswer} (hs : s.env.stream ≠ [])
    (h : s.env.streamAnswers = .ok :: srest) :
    ∃ t, programFinish s = .err .oversize t ∧
      Broke s t [.streamRead 264 (.ok (s.env.stream.take 264))] s.env.answers s.handle s.wireDir
        s.lastPage := by
  obtain ⟨t, hx, w, -, -, d, hh, l, -⟩ := streamRead_went h
  have hpos : (s.env.stream.take 264).length > 0 := by
    rw [List.length_take]
    have := List.length_pos_iff.2 hs
    omega
  refine ⟨t, ?_, w.trace, w.answers, hh, d, l⟩
  rw [programFinish, hx]
  exact if_pos hpos

/-- The read after the full pages fails, that of the page loop or, after the last page of the
device, the further one (43_workflow.md R141). -/
theorem programBody_streamBroke (g : PagesGiven s openPins idPins dirPins eraseSegs pageSegs)
    {e : Payload} {lost : Nat} {rest : List TxAnswer} {srest : List StreamAnswer}
    (ha : s.env.answers = yes (pagesPins openPins idPins dirPins eraseSegs pageSegs) ++ rest)
    (hs : s.env.streamAnswers = List.replicate pageSegs.length .ok ++ (.err e lost :: srest)) :
    ∃ u bytes, bytes.length = 4 ∧ Sampled s.params idPins 1 bytes ∧
      programBody s = .err (.stream e) u ∧
      Broke s u (pagesCalls s idPins bytes eraseSegs pageSegs ++ [.streamRead 264 (.err e)]) rest
        .opened (some (programDirection s.params)) (lastOf pageSegs.length) := by
  by_cases hq : pageSegs.length < 8192
  · obtain ⟨n, hn⟩ : ∃ n, 8192 - pageSegs.length = n + 1 := ⟨8191 - pageSegs.length, by omega⟩
    obtain ⟨t, bytes, hb, hsam, hx, hu, -⟩ := programBody_pages g ha hs
    obtain ⟨u, hl, b⟩ := pageLoop_streamBroke n t e lost srest hu.streamAnswers
    rw [hu.went.answers] at b
    exact ⟨u, bytes, hb, hsam, Res.err_of_andThen hx (hn ▸ hl), hu.broke b⟩
  · obtain ⟨t, bytes, hb, hsam, hx, hu, -⟩ :=
      programBody_full g (le_antisymm g.capacity (not_lt.1 hq)) ha hs
    obtain ⟨u, hl, b⟩ := programFinish_streamBroke t e lost srest hu.streamAnswers
    rw [hu.went.answers] at b
    exact ⟨u, bytes, hb, hsam, Res.err_of_andThen hx hl, hu.broke b⟩

end

/-! ### The obligations -/

/-- A run that breaks off after the full pages, its calls written one part after the other. -/
theorem Broke.endedPages {s u : State} {f : Failure} {idPins bytes : List Byte}
    {eraseSegs pageSegs : List (List Byte)} {calls : List Event} {rest : List TxAnswer}
    {handle : Handle} {dir : Option Byte} {last : Option Page}
    (h : Broke (s.begin .program) u
      (pagesCalls (s.begin .program) idPins bytes eraseSegs pageSegs ++ calls) rest handle dir last)
    (hx : programBody (s.begin .program) = .err f u) :
    exec .program s = .next (u.finish f.toResult) ∧
      (u.finish f.toResult).trace = s.trace
        ++ programHead s.params (s.handle == .closed) idPins (identifier bytes) eraseSegs
        ++ fullPageEvents s.params s.env.stream 0 pageSegs ++ calls
        ++ [.result f.code 0 f.payload] ∧
      (u.finish f.toResult).result = ⟨f.code, 0, f.payload⟩ ∧
      (u.finish f.toResult).lastPage = last ∧ (u.finish f.toResult).handle = handle ∧
      (u.finish f.toResult).wireDir = dir ∧ (u.finish f.toResult).env.answers = rest := by
  obtain ⟨he, htrace, hregs⟩ := h.ended hx
  refine ⟨he, ?_, hregs⟩
  rw [htrace, pagesCalls]
  simp only [List.append_assoc]
  rfl

/-- Settles O40: the whole stream is written (`programBody_written`), then the direction is set and
the pages are counted by S.LAST_PAGE. -/
theorem programCompletes : Obligations.ProgramCompletes := by
  unfold Obligations.ProgramCompletes
  intro s openPins idPins dirPins endPins eraseSegs pageSegs finalSegs rest srest q r hsh hlen hr
    hcap hf ho hi hd hend hsec her hq hready ha hs
  subst hq
  obtain ⟨p, rfl⟩ := List.length_eq_one_iff.1 hend
  have g : PagesGiven s openPins idPins dirPins eraseSegs pageSegs :=
    ⟨hsh, ho, hi, hd, hsec, her, by omega, by omega,
      fun x hx => hready x (List.mem_append_left _ hx)⟩
  obtain ⟨t, bytes, hb, hsam, hx, hu, st⟩ := programBody_written (g.begin .program) hr hlen hf hcap
    (fun x hx => hready x (List.mem_append_right _ hx)) (rest := .ok none p :: rest)
    (ha.trans (by simp [pagesPins])) hs
  obtain ⟨u, hc, w, d, hh, l, stu, sa⟩ := programClose_ok hu.went.answers
  rw [hu.lastPage, pagesWritten_lastOf hcap] at hc
  have htrace := (hu.went.trans w).trace
  rw [hu.params] at htrace d
  refine ⟨_, bytes, runRequest_ok (hx.trans hc), rfl, hb, hsam, ?_, rfl, rfl, l.trans hu.lastPage,
    hh.trans hu.handle, d, w.answers, sa.trans hu.streamAnswers, stu.trans st⟩
  rw [State.trace_finish, htrace]
  simp only [pagesCalls, finalCalls, List.append_assoc]
  rfl

/-- Settles O41: after the last page of the device the further read finds bytes. -/
theorem programOversize : Obligations.ProgramOversize := by
  unfold Obligations.ProgramOversize
  intro s openPins idPins dirPins eraseSegs pageSegs rest srest hsh hlen ho hi hd hsec her hq hready
    ha hs
  have g : PagesGiven s openPins idPins dirPins eraseSegs pageSegs :=
    ⟨hsh, ho, hi, hd, hsec, her, hq.le, by omega, hready⟩
  rw [List.replicate_succ', List.append_assoc, ← hq] at hs
  obtain ⟨t, bytes, hb, hsam, hx, hu, st, -⟩ := programBody_full (g.begin .program) hq ha hs
  obtain ⟨u, hov, b⟩ := programFinish_oversize (s := t)
    (List.ne_nil_of_length_pos (by rw [st, List.length_drop]; exact Nat.sub_pos_of_lt (hq ▸ hlen)))
    hu.streamAnswers
  rw [st, hq, hu.went.answers] at b
  obtain ⟨he, htrace, hres, hl, hh, hdir, hans⟩ :=
    (hu.broke b).endedPages (Res.err_of_andThen hx hov)
  refine ⟨_, bytes, he, hb, hsam, ?_, hres, hl.trans ?_, hdir, hh, hans⟩
  · rw [htrace, List.append_assoc _ [_] [_]]
    rfl
  · rw [hq]
    rfl

/-- Settles O43: the next read, the page, the further read, the padded page or the closing direction
breaks off the body where the pages before it leave it. -/
theorem programPageErrors : Obligations.ProgramPageErrors := by
  unfold Obligations.ProgramPageErrors
  intro s openPins idPins dirPins eraseSegs pageSegs finalSegs rest srest pins es es' x more v w as
    f e lost q r P tail padded okPins pageOf failed ended hsh ho hi hd hsec her hq hcap hst hready
  subst hq
  have g := PagesGiven.begin (op := .program) ⟨hsh, ho, hi, hd, hsec, her, hcap, hst, hready⟩
  refine ⟨fun ha hs => ?_, fun hlt hmore hs hreach hfail ha => ?_,
    fun hlen hr hlt => ⟨fun ha hs => ?_, fun hr0 hs hreach hfail ha => ?_⟩,
    fun hlen hr hf hfcap hfready ha hs => ?_⟩
  · obtain ⟨u, bytes, hb, hsam, hx, b⟩ := programBody_streamBroke g ha hs
    exact ⟨_, bytes, hb, hsam, b.endedPages hx⟩
  · obtain ⟨n, hn⟩ : ∃ n, 8192 - pageSegs.length = n + 1 := ⟨8191 - pageSegs.length, by omega⟩
    rw [List.replicate_succ', List.append_assoc] at hs
    obtain ⟨t, bytes, hb, hsam, hx, hu, st, -, hbuf, hv⟩ := programBody_pages g
      (ha.trans (by rw [yes_append, List.append_assoc]; rfl)) hs
    have hpage : 8192 - (n + 1) = pageSegs.length := by omega
    have hlong : 264 ≤ t.env.stream.length := by
      rw [st, List.length_drop, State.begin_env]
      omega
    obtain ⟨u, hl, b⟩ := pageLoop_pageBroke n t hbuf hlong hu.streamAnswers
      (by rw [hu.params, hv, st, hpage]; exact hreach) (by rw [hu.params]; exact hfail)
      hu.went.answers
    rw [st] at b
    exact ⟨_, bytes, hb, hsam, (hu.broke b).endedPages (Res.err_of_andThen hx (hn ▸ hl))⟩
  · obtain ⟨t, bytes, hb, hsam, hx, hu, -⟩ := programBody_short g hlt hr hlen rfl ha hs
    obtain ⟨u, hl, b⟩ := programFinish_streamBroke t e lost srest hu.streamAnswers
    rw [hu.went.answers] at b
    exact ⟨_, bytes, hb, hsam, ((hu.broke b).of_calls (List.append_assoc ..)).endedPages
      (Res.err_of_andThen hx hl)⟩
  · obtain ⟨t, bytes, hb, hsam, hx, hu, -, hv⟩ := programBody_padded g hlt hr hr0 hlen rfl
      (ha.trans (by rw [yes_append, List.append_assoc]; rfl)) hs
    obtain ⟨u, hl, b⟩ := programPage_broke (by rw [hu.params, hv]; exact hreach)
      (by rw [hu.params]; exact hfail) hu.went.answers
    exact ⟨_, bytes, hb, hsam, ((hu.broke b).of_calls (List.append_assoc ..)).endedPages
      (Res.err_of_andThen hx hl)⟩
  · obtain ⟨t, bytes, hb, hsam, hx, hu, -⟩ := programBody_written g hr hlen hf hfcap hfready ha hs
    obtain ⟨u, hc, b⟩ := programClose_err hu.went.answers
    rw [hu.params] at b
    exact ⟨_, bytes, hb, hsam, ((hu.brokeDir b).of_calls (List.append_assoc ..)).endedPages
      (hx.trans hc)⟩

end Sys2Proof.Machine
end

section
/-! SUPPORT. The handle check (60_exceptions.md R147): what an instruction does with the handle closed
(`request_closed`, `command_closed`), and how OPEN and PROGRAM go on from a TxOpen that succeeds
(`runRequest_opens`). -/

namespace Sys2Proof.Machine

/-! ### An instruction turned away -/

theorem requireHandle_closed {α : Type} {body : State → Res Failure α} {s : State}
    (h : s.handle = .closed) : requireHandle body s = .err .notOpen s := by
  simp [requireHandle, h]

theorem request_closed {op : Op} {body : State → Res Failure Result} {s : State}
    (h : s.handle = .closed) :
    runRequest op (requireHandle body) s =
      .next ((s.begin op).finish Failure.notOpen.toResult) :=
  runRequest_err (requireHandle_closed (s := s.begin op) h)

theorem command_closed {op : Op} {body : State → Res Failure Unit} {s : State}
    (h : s.handle = .closed) :
    runCommand op (requireHandle body) s =
      .next ((s.beginCommand op).finishCommand (some .notOpen)) := by
  have hbody := requireHandle_closed (body := body) (s := s.beginCommand op) h
  simp [runCommand, Res.settle, hbody, Res.final, Res.outcome]

/-! ### OPEN and PROGRAM from a closed handle -/

/-- The state a TxOpen answered Ok leaves, the answers `rest` to come (43_workflow.md R132). -/
def State.txOpened (s : State) (rest : List TxAnswer) : State :=
  ((s.setEnv { s.env with answers := rest }).called
    (.openCall s.params.vid s.params.pid (.ok ()))).setHandle .opened

theorem State.trace_txOpened (s : State) (rest : List TxAnswer) :
    (s.txOpened rest).trace =
      s.trace ++ [.openCall s.params.vid s.params.pid (.ok ())] :=
  State.trace_called (s.setEnv { s.env with answers := rest }) _

/-- `u` has the handle open, and TxOpen answered Ok is the first event after those of `s`. -/
def State.OpensTo (s u : State) : Prop :=
  u.handle = .opened ∧
    ∃ more, u.trace = s.trace ++ .openCall s.params.vid s.params.pid (.ok ()) :: more

theorem State.OpensTo.finish {s u : State} (h : s.OpensTo u) (r : Result) :
    s.OpensTo (u.finish r) := by
  obtain ⟨ho, more, ht⟩ := h
  exact ⟨ho, more ++ [.result r.code r.value r.data], by simp [ht]⟩

/-- What the workflow does after TxOpen closes no handle and only adds to the trace. -/
theorem FlowFrame.opensTo {s u : State} {rest : List TxAnswer} (h : FlowFrame (s.txOpened rest) u) :
    s.OpensTo u := by
  obtain ⟨new, hlog, -⟩ := h.log
  refine ⟨h.handle rfl, new.reverse, ?_⟩
  rw [State.trace_of_log new.reverse (by simpa using hlog), State.trace_txOpened]
  simp

/-- Open() goes on from TxOpen as it does where the handle is already held. -/
theorem openSub_eq_txOpened {s : State} {p : Byte} {rest : List TxAnswer} (hc : s.handle = .closed)
    (h : s.env.answers = .ok none p :: rest) : openSub s = openSub (s.txOpened rest) :=
  (openSub_txOpen_ok hc h).trans (openSub_opened (s := s.txOpened rest) rfl).symm

theorem programBody_eq_txOpened {s : State} {p : Byte} {rest : List TxAnswer}
    (hc : s.handle = .closed) (h : s.env.answers = .ok none p :: rest) :
    programBody s = programBody (s.txOpened rest) := by
  have hopen : openSub (s.setLastPage none) = openSub ((s.txOpened rest).setLastPage none) :=
    openSub_eq_txOpened (s := s.setLastPage none) hc h
  simp only [programBody, programOpenAndId, hopen]

/-- The ends of an operation are ends from any earlier state whose answers are as good. -/
theorem Res.Ends.earlier {ε α : Type} {P : State → Prop} {r : Res ε α} {s u : State}
    (h : r.Ends (fun _ => P) u) (hh : s.env.honest = true → u.env.honest = true)
    (hr : s.env.returns = true → u.env.returns = true) : r.Ends (fun _ => P) s := by
  cases r with
  | ok a t => exact h
  | err e t => exact h
  | stuck t => exact ⟨h.1, bool_false_of hr h.2⟩
  | fault f => exact bool_false_of hh h

/-- A request of the workflow that begins with a TxOpen answered Ok. -/
theorem runRequest_opens {op : Op} {body : State → Res Failure Result} {s t : State} {p : Byte}
    {rest : List TxAnswer} (ha : s.env.answers = .ok none p :: rest)
    (hbody : body (s.begin op) = body ((s.begin op).txOpened rest))
    (hends : ∀ u, (body u).Ends FlowFrame u) (ht : runRequest op body s = .next t) :
    s.OpensTo t := by
  have hdrawn : s.env.Drawn { s.env with answers := rest } := by
    simpa [nextAnswer_cons _ _ _ ha] using nextAnswer_drawn s.env
  have hopens : (body (s.begin op)).Ends (fun _ => s.OpensTo) (s.begin op) := by
    rw [hbody]
    exact Res.Ends.earlier ((hends _).mono fun u hu => (hu.opensTo : (s.begin op).OpensTo u))
      hdrawn.honest hdrawn.returns
  rcases runRequest_cases hopens with ⟨r, u, -, hu, he⟩ | ⟨f, u, -, hu, he⟩ | ⟨u, -, hu, -, he⟩ |
    ⟨f, -, -, he⟩ <;> cases he.symm.trans ht
  · exact hu.finish r
  · exact hu.finish f.toResult
  · exact hu

theorem openAdapter_opens {s t : State} {p : Byte} {rest : List TxAnswer}
    (hc : s.handle = .closed) (ha : s.env.answers = .ok none p :: rest)
    (ht : exec .openAdapter s = .next t) : s.OpensTo t :=
  runRequest_opens (body := fun s => (openSub s).raise.andThen fun _ s => .ok (okResult 0 []) s) ha
    (by rw [openSub_eq_txOpened (s := s.begin .openAdapter) hc ha])
    (fun u => (flowFrame_closed.openSubEnds u).raise.andThen flowFrame_chains fun _ v _ => .refl v)
    ht

theorem program_opens {s t : State} {p : Byte} {rest : List TxAnswer}
    (hc : s.handle = .closed) (ha : s.env.answers = .ok none p :: rest)
    (ht : exec .program s = .next t) : s.OpensTo t :=
  runRequest_opens ha (programBody_eq_txOpened (s := s.begin .program) hc ha)
    flowFrame_closed.programBodyEnds ht

/-! ### The obligations -/

/-- Settles O44: the eight requests that need a handle stop at the check (`request_closed`); OPEN and
PROGRAM go on from TxOpen. -/
theorem notOpen : Obligations.NotOpen := by
  unfold Obligations.NotOpen
  constructor
  · intro i s hi hneeds hc
    cases i with
    | openAdapter | program => cases hneeds
    | readIdCmd | bufLoadCmd | commitCmd | sectorEraseCmd | statusReadCmd => cases hi
    | _ => exact request_closed hc
  · rintro i s t p rest (rfl | rfl) hc ha ht
    · exact openAdapter_opens hc ha ht
    · exact program_opens hc ha ht

/-- Settles O45: the five flash commands stop at the check (`command_closed`). -/
theorem commandNotOpen : Obligations.CommandNotOpen := by
  unfold Obligations.CommandNotOpen
  intro i s hi hc
  cases i with
  | readIdCmd | bufLoadCmd | commitCmd | sectorEraseCmd | statusReadCmd => exact command_closed hc
  | _ => cases hi

end Sys2Proof.Machine
end

section
/-! SUPPORT. The first transport call (70_reset_and_hazards.md R164): Open() makes TxOpen its first call
where no handle is held (`OpenKept`), and no other instruction makes a call there
(`exec_turned_away`). -/

namespace Sys2Proof.Machine

/-! ### The trace grows -/

theorem Event.isTxCall_of_isOpenCall {e : Event} (h : e.isOpenCall = true) :
    e.isTxCall = true := by
  cases e with
  | openCall vid pid o => rfl
  | _ => cases h

/-- A trace that grows keeps TxOpen first: the first transport call of what is added is TxOpen, or a
handle is held already; and a handle is held only where one was, or where TxOpen is added. -/
theorem State.OpenedFirst.grow {s t : State} {new : List Event} (h : s.OpenedFirst)
    (ht : t.trace = s.trace ++ new)
    (hfirst : ∀ e, new.find? Event.isTxCall = some e → s.handle = .opened ∨ e.isOpenCall = true)
    (hopen : t.handle = .opened → s.handle = .opened ∨ new.any Event.isOpenCall = true) :
    t.OpenedFirst where
  first e he := by
    rw [ht, List.find?_append] at he
    cases hs : s.trace.find? Event.isTxCall with
    | some e0 =>
      rw [hs] at he
      exact h.first e (hs.trans he)
    | none =>
      rw [hs, Option.none_or] at he
      refine (hfirst e he).resolve_left fun ho => ?_
      obtain ⟨e0, hmem, hcall⟩ := List.any_eq_true.1 (h.opened ho)
      exact absurd (Event.isTxCall_of_isOpenCall hcall)
        (List.find?_eq_none.1 hs e0 (List.mem_reverse.2 hmem))
  opened ho := by
    have hlog : t.log.any Event.isOpenCall = t.trace.any Event.isOpenCall :=
      List.any_reverse.symm
    rw [hlog, ht, List.any_append, Bool.or_eq_true]
    refine (hopen ho).imp_left fun hs => ?_
    simpa [State.trace] using h.opened hs

/-- Where a handle is held, TxOpen stays first whatever is called. -/
theorem State.OpenedFirst.held {s t : State} {new : List Event} (h : s.OpenedFirst)
    (ho : s.handle = .opened) (ht : t.trace = s.trace ++ new) : t.OpenedFirst :=
  h.grow ht (fun _ _ => .inl ho) fun _ => .inl ho

/-- What makes no transport call and opens no handle. -/
theorem State.OpenedFirst.quiet {s t : State} {new : List Event} (h : s.OpenedFirst)
    (ht : t.trace = s.trace ++ new) (hnew : ∀ e ∈ new, e.isTxCall = false)
    (hh : t.handle = .opened → s.handle = .opened) : t.OpenedFirst :=
  h.grow ht (fun e he => absurd (List.find?_some he)
    (by simp [hnew e (List.mem_of_find?_eq_some he)])) fun ho => .inl (hh ho)

theorem State.OpenedFirst.of_trace_eq {s t : State} (h : s.OpenedFirst) (ht : t.trace = s.trace)
    (hh : t.handle = .opened → s.handle = .opened) : t.OpenedFirst :=
  h.quiet (new := []) (by simpa using ht) (by simp) hh

theorem State.OpenedFirst.finish {s : State} (h : s.OpenedFirst) (r : Result) :
    (s.finish r).OpenedFirst :=
  h.quiet (State.trace_finish s r) (by simp [Event.isTxCall]) id

/-- TxOpen made and answered, whatever its outcome. -/
theorem State.OpenedFirst.openCall {s t : State} {o : Reply Unit} (h : s.OpenedFirst)
    (ht : t.trace = s.trace ++ [.openCall s.params.vid s.params.pid o]) : t.OpenedFirst :=
  h.grow ht (by simp [Event.isTxCall, Event.isOpenCall]) (by simp [Event.isOpenCall])

/-! ### OPEN and PROGRAM -/

/-- The workflow's frame, TxOpen staying first. -/
structure OpenKept (s t : State) : Prop extends FlowFrame s t where
  openedFirst : s.OpenedFirst → t.OpenedFirst

theorem openKept_chains : Chains OpenKept where
  refl s := ⟨.refl s, id⟩
  trans h k := ⟨h.toFlowFrame.trans k.toFlowFrame, fun x => k.openedFirst (h.openedFirst x)⟩
  honest h := h.honest
  returns h := h.returns

/-- Once a handle is held, the workflow keeps TxOpen first. -/
theorem Res.Ends.openKept {ε α : Type} {s : State} {r : Res ε α} (h : r.Ends FlowFrame s)
    (ho : s.handle = .opened) : r.Ends OpenKept s :=
  h.mono fun _ hf => ⟨hf, fun hs => by
    obtain ⟨new, hlog, -⟩ := hf.log
    exact hs.held ho (State.trace_of_log new.reverse (by simpa using hlog))⟩

theorem openHandle_openKept (s : State) : (openHandle s).Ends OpenKept s := by
  have hf := openHandle_openFrame s
  unfold openHandle at hf ⊢
  split
  · next hc =>
    rw [if_pos hc] at hf
    rcases txOpen_cases s with ⟨e, hd, hx⟩ | ⟨e, p, hd, hx⟩ | ⟨e, hd, hr, hx⟩ <;> rw [hx] at hf ⊢
    · exact ⟨OpenFrame.toFlowFrame hf, fun h => h.openCall (State.trace_called (s.setEnv e) _)⟩
    · exact ⟨OpenFrame.toFlowFrame hf, fun h => h.openCall (State.trace_called (s.setEnv e) _)⟩
    · exact ⟨⟨hf.1.toFlowFrame, fun h => h.of_trace_eq rfl id⟩, hr⟩
  · exact openKept_chains.refl s

theorem openHandle_ok {s t : State} {a : Unit} (h : openHandle s = .ok a t) :
    t.handle = .opened := by
  unfold openHandle at h
  split at h
  · obtain ⟨-, u, -, h⟩ := Res.andThen_ok h
    cases h
    rfl
  · next hc =>
    cases h
    cases ho : s.handle with
    | closed => exact absurd ho hc
    | opened => rfl

theorem openSub_openKept (s : State) : (openSub s).Ends OpenKept s :=
  (openHandle_openKept s).andThen' openKept_chains fun _ t ht _ =>
    (flowFrame_closed.setDir t _ (.inl rfl)).openKept (openHandle_ok ht)

/-- Open() ends well with the handle held (43_workflow.md R133). -/
theorem openSub_ok_opened {s t : State} {a : Unit} (h : openSub s = .ok a t) :
    t.handle = .opened := by
  obtain ⟨_, u, hu, h⟩ := Res.andThen_ok h
  have hf := flowFrame_closed.setDir u _ (.inl rfl)
  rw [h] at hf
  exact FlowFrame.handle hf (openHandle_ok hu)

theorem programOpenAndId_openKept (s : State) : (programOpenAndId s).Ends OpenKept s := by
  have hopen : (openSub (s.setLastPage none)).Ends OpenKept s :=
    (openSub_openKept _).from openKept_chains
      ⟨flowFrame_closed.lastPage s none, fun h => h.of_trace_eq rfl id⟩
  refine hopen.raise.andThen' openKept_chains fun _ t ht _ =>
    Res.Ends.openKept ?_ (openSub_ok_opened (Res.raise_ok ht))
  exact (flowFrame_closed.readIdEnds t).andThen flowFrame_chains fun id u _ =>
    (flowFrame_closed.flow u { u.flow with id := id } (by simp) (by simp)).trans
      (flowFrame_closed.diag _ id)

theorem programOpenAndId_ok_opened {s t : State} {a : Unit} (h : programOpenAndId s = .ok a t) :
    t.handle = .opened := by
  obtain ⟨_, u, hu, h⟩ := Res.andThen_ok h
  obtain ⟨id, v, hv, h⟩ := Res.andThen_ok h
  cases h
  have hf := busFrame_closed.readIdEnds u
  rw [hv] at hf
  exact (BusFrame.handle hf).trans (openSub_ok_opened (Res.raise_ok hu))

theorem programBody_openKept (s : State) : (programBody s).Ends OpenKept s := by
  have hF := flowFrame_closed
  have hc := flowFrame_chains
  refine Res.Ends.andThen' openKept_chains (programOpenAndId_openKept s) fun _ t ht _ =>
    Res.Ends.openKept ?_ (programOpenAndId_ok_opened ht)
  refine Res.Ends.andThen hc ?erase fun _ u _ => Res.Ends.andThen hc ?pages fun _ v _ =>
    (hF.programFinishEnds v).andThen hc fun _ w _ =>
      (hF.setDir w _ (.inl rfl)).raise.andThen hc fun _ x _ => hc.refl x
  case erase =>
    exact (hF.setDir t _ (.inr rfl)).raise.andThen hc fun _ u _ => hF.eraseAllEnds _ u
  case pages =>
    exact (hF.pageLoopEnds _ _).from hc
      (hF.flow u { u.flow with pStop := none, k := 0 } id (by simp))

/-! ### Every instruction and every step -/

/-- A request whose body keeps TxOpen first. -/
theorem runRequest_keeps_openedFirst {op : Op} {body : State → Res Failure Result} {s t : State}
    (hbody : ∀ u, (body u).Ends OpenKept u) (h : s.OpenedFirst)
    (ht : runRequest op body s = .next t) : t.OpenedFirst := by
  have hb : (s.begin op).OpenedFirst := h.of_trace_eq rfl id
  rcases runRequest_cases (hbody (s.begin op)) with ⟨r, u, -, hu, he⟩ | ⟨f, u, -, hu, he⟩ |
    ⟨u, -, hu, -, he⟩ | ⟨f, -, -, he⟩ <;> cases he.symm.trans ht
  · exact (hu.openedFirst hb).finish r
  · exact (hu.openedFirst hb).finish f.toResult
  · exact hu.openedFirst hb

theorem openAdapter_keeps_openedFirst {s t : State} (h : s.OpenedFirst)
    (ht : exec .openAdapter s = .next t) : t.OpenedFirst :=
  runRequest_keeps_openedFirst (body := fun s => (openSub s).raise.andThen fun _ s =>
      .ok (okResult 0 []) s)
    (fun u => (openSub_openKept u).raise.andThen openKept_chains fun _ v _ =>
      openKept_chains.refl v) h ht

theorem program_keeps_openedFirst {s t : State} (h : s.OpenedFirst)
    (ht : exec .program s = .next t) : t.OpenedFirst :=
  runRequest_keeps_openedFirst programBody_openKept h ht

/-- With the handle closed no instruction but OPEN and PROGRAM makes a call: it is turned away, a
request with a result and a flash command with its outcome (60_exceptions.md R147). -/
theorem exec_turned_away {i : Instr} {s t : State} (hc : s.handle = .closed)
    (hopen : i ≠ .openAdapter) (hprogram : i ≠ .program) (ht : exec i s = .next t) :
    t.handle = .closed ∧ ∃ new, t.trace = s.trace ++ new ∧ ∀ e ∈ new, e.isTxCall = false := by
  cases hi : i.op.isRequest with
  | true =>
    have hneeds : i.op.needsHandle = true := by
      cases i with
      | openAdapter => exact absurd rfl hopen
      | program => exact absurd rfl hprogram
      | _ => rfl
    cases (notOpen.1 i s hi hneeds hc).symm.trans ht
    exact ⟨hc, [.result 0x06 0 []], by simp [State.trace], by simp [Event.isTxCall]⟩
  | false =>
    cases (commandNotOpen i s hi hc).symm.trans ht
    exact ⟨hc, [], by simp [State.trace], by simp⟩

theorem exec_keeps_openedFirst {i : Instr} {s t : State} (h : s.OpenedFirst)
    (ht : exec i s = .next t) : t.OpenedFirst := by
  by_cases hopen : i = .openAdapter
  · exact openAdapter_keeps_openedFirst h (hopen ▸ ht)
  by_cases hprogram : i = .program
  · exact program_keeps_openedFirst h (hprogram ▸ ht)
  cases hs : s.handle with
  | closed =>
    obtain ⟨hclosed, new, htrace, hnew⟩ := exec_turned_away hs hopen hprogram ht
    exact h.quiet htrace hnew (by simp [hclosed])
  | opened =>
    obtain ⟨calls, -, hends, hstuck⟩ := traceGrows i s t ht
    by_cases hp : t.phase = .await
    · exact h.held hs ((hends hp).trans (List.append_assoc ..))
    · exact h.held hs (hstuck hp).1

/-- Settles O60: waiting, a reset and an illegal request make no transport call; an instruction makes
TxOpen first or finds a handle held, or is turned away. -/
theorem firstCallIsOpen : Obligations.FirstCallIsOpen := by
  unfold Obligations.FirstCallIsOpen
  refine ⟨⟨nofun, nofun⟩, fun s t h ht => ?_, fun s t i ht hc hopen hprogram => ?_⟩
  · cases step_cases s with
    | idle he => cases he.symm.trans ht; exact h
    | reset rest hin he => cases he.symm.trans ht; exact h.of_trace_eq rfl nofun
    | illegal r rest hin hp he =>
      cases he.symm.trans ht
      exact State.OpenedFirst.finish (s := s.accept r) (h.of_trace_eq rfl id) _
    | request r rest i hin hp hd he =>
      exact exec_keeps_openedFirst (s := noteDuties i (s.accept r)) (h.of_trace_eq rfl id)
        (he.symm.trans ht)
    | command bytes i hc hp hd he =>
      exact exec_keeps_openedFirst (s := noteDuties i s.takeCommand) (h.of_trace_eq rfl id)
        (he.symm.trans ht)
    | refused he => cases he.symm.trans ht
  · obtain ⟨-, new, htrace, hnew⟩ := exec_turned_away hc hopen hprogram ht
    have hzero : txCalls new = 0 := List.countP_eq_zero.2 (by simpa using hnew)
    rw [htrace, txCalls, List.countP_append]
    exact congrArg _ hzero

end Sys2Proof.Machine
end

section
/-! SUPPORT. Reset, waiting and the end of an instruction (70_reset_and_hazards.md R163 to R165, R169,
R176; 10_state.md R21). -/

namespace Sys2Proof.Machine

/-! ### The clock at rest -/

/-- Settles O15: a byte known on the wire is a selection pattern, whose CLK bit is 0. -/
theorem clockLowAtRest : Obligations.ClockLowAtRest := by
  unfold Obligations.ClockLowAtRest
  intro s hinv hP hw
  obtain ⟨b, hb⟩ := Option.ne_none_iff_exists'.1 hw
  obtain ⟨hbyte, hpattern⟩ := hinv.wire b
  obtain ⟨d, rfl⟩ := hpattern (hbyte hb)
  exact ⟨_, hb, selpat_other_bit d (apart hP).ac.symm (apart hP).bc.symm⟩

/-! ### Every instruction ends -/

/-- Settles O48: of the ends of an instruction, being stuck needs an answer that never comes, and the
fault one that breaks the write contract. -/
theorem everyInstructionEnds : Obligations.EveryInstructionEnds := by
  unfold Obligations.EveryInstructionEnds
  intro i s hreturns hhonest
  cases exec_cases flowFrame_closed i s with
  | result hi r t hR hr he => exact ⟨t.finish r, he, rfl, fun _ => ⟨rfl, rfl⟩⟩
  | command hi o t hR he => exact ⟨t.finishCommand o, he, rfl, by simp [hi]⟩
  | stuck t hR hr he => exact absurd hreturns (by simp [hr])
  | fault f hh he => exact absurd hhonest (by simp [hh])

/-! ### Reset and waiting -/

/-- Settles O16: both states are written out by the model. -/
theorem resetState : Obligations.ResetState := by
  unfold Obligations.ResetState
  refine ⟨fun s t ht => ?_, fun s => rfl⟩
  rcases ht with rfl | rfl
  · exact ⟨rfl, rfl, rfl, rfl, rfl, rfl⟩
  · exact ⟨rfl, rfl, rfl, rfl, rfl, rfl⟩

/-- What a step that finds nothing to run does. -/
theorem step_none {s t : State} (hf : fetch s = .none t) : step s = .next t := by
  simp [step, hf]

/-- While a request is BUSY only a reset at the head of the inputs is taken (10_state.md R21). -/
theorem fetch_busy {s : State} {op : Op} {n : Nat} (hp : s.phase = .busy op n)
    (hin : s.env.inputs.head? ≠ some .reset) : fetch s = .none s := by
  unfold fetch
  rw [hp]
  cases hl : s.env.inputs with
  | nil => rfl
  | cons x rest =>
    cases x with
    | reset => simp [hl] at hin
    | request r => rfl

/-- Settles O19: nothing is fetched. -/
theorem stepsThatWait : Obligations.StepsThatWait := by
  unfold Obligations.StepsThatWait
  have hidle : ∀ s : State, s.phase = .await → s.cmdSlot = none → s.env.inputs = [] →
      step s = .next s := fun s hp hc hin => step_none (by simp [fetch, hp, hc, hin])
  exact ⟨hidle, hidle State.reset rfl rfl rfl, fun s op n hp hin => step_none (fetch_busy hp hin)⟩

theorem fetch_reset {s : State} {rest : List HostInput}
    (hs : (s.phase = .await ∧ s.cmdSlot = none) ∨ ∃ op n, s.phase = .busy op n)
    (hin : s.env.inputs = .reset :: rest) : fetch s = .none s.dropInput.applyReset := by
  rcases hs with ⟨hp, hc⟩ | ⟨op, n, hp⟩
  · simp [fetch, hp, hc, hin]
  · simp [fetch, hp, hin]

/-- Settles O20: the step takes the reset off the inputs and applies it (O16 for its values). -/
theorem resetInput : Obligations.ResetInput := by
  unfold Obligations.ResetInput
  intro s rest hs hin
  obtain ⟨hvalues, -⟩ := resetState
  obtain ⟨hphase, hhandle, hlast, hready, hout, hdir⟩ := hvalues s.dropInput _ (.inr rfl)
  exact ⟨_, step_none (fetch_reset hs hin), hphase, hhandle, hlast, hready, hout, hdir, rfl, rfl,
    by simp [State.applyReset, State.dropInput, hin], rfl, rfl, rfl⟩

/-- Settles O58: no event, no byte on the wire, no direction, and the buffers at their lengths. -/
theorem invAtReset : Obligations.InvAtReset where
  events := nofun
  wire _ := ⟨nofun, nofun⟩
  dir := nofun
  shapes := ⟨List.length_replicate, List.length_replicate, Nat.zero_le 264, Nat.zero_le 6⟩

end Sys2Proof.Machine
end

section
/-! SUPPORT. The record of host duties (70_reset_and_hazards.md R168 to R170; log entry 10): which
duties a flash command (`engineDuties`) and a byte sequence (`busDuties`, `busyDuties`) break by what
the latest write left, and that no step faults for one. -/

namespace Sys2Proof.Machine

/-! ### What a lost wire leaves selected -/

theorem State.drivenSelection_lost {s : State} (h : s.driven = .lost) :
    s.drivenSelection = none := by
  simp [State.drivenSelection, h]

theorem State.lostWire_iff (s : State) : s.lostWire = true ↔ s.driven = .lost := by
  simp [State.lostWire]

/-- What is under Flash continues no command when Flash is not selected or no byte was sent there. -/
theorem State.midCommand_eq_false {s : State}
    (h : s.drivenSelection ≠ some .flash ∨ s.duty.opcode = none) : s.midCommand = false := by
  rcases h with h | h <;> simp [State.midCommand, h]

/-! ### Flash commands -/

theorem engineDuties_open {s : State} (poll : Bool)
    (h : s.drivenSelection = some .flash ∨ s.drivenSelection = some .fpga) :
    .selectionOpen ∈ engineDuties poll s := by
  rcases h with h | h <;> simp [engineDuties, h]

theorem engineDuties_lost {s : State} (poll : Bool) (h : s.driven = .lost) :
    .selectionUnknown ∈ engineDuties poll s := by
  simp [engineDuties, State.drivenSelection_lost h, (State.lostWire_iff s).2 h]

theorem engineDuties_owed {s : State} (h : s.pollOwed = true) :
    .deviceBusy ∈ engineDuties false s := by
  simp [engineDuties, h]

/-- A status read is how a busy device is asked (R170). -/
theorem engineDuties_poll (s : State) : .deviceBusy ∉ engineDuties true s := by
  unfold engineDuties
  cases s.drivenSelection with
  | none => cases s.lostWire <;> simp
  | some d => cases d <;> simp

theorem engineDuties_idle {s : State} (poll : Bool) (h : s.drivenSelection = some .idle)
    (ho : s.pollOwed = false) : engineDuties poll s = [] := by
  simp [engineDuties, h, ho]

/-! ### Byte sequences -/

theorem busDuties_switch {s : State} {d e : Device} (sel : Bool) (h : s.drivenSelection = some d)
    (hd : d ≠ .idle) (he : e ≠ .idle) (hne : d ≠ e) : .directSwitch ∈ busDuties e sel s := by
  simp [busDuties, h, hd, he, hne]

theorem busDuties_lost {s : State} {d : Device} {sel : Bool} (h : s.driven = .lost)
    (hd : sel = false ∨ d ≠ .idle) : .selectionUnknown ∈ busDuties d sel s := by
  rcases hd with rfl | hd
  · simp [busDuties, State.drivenSelection_lost h, (State.lostWire_iff s).2 h]
  · simp [busDuties, State.drivenSelection_lost h, (State.lostWire_iff s).2 h, hd]

/-- Under Idle only a lost wire makes bytes break a duty, and SELECT idle breaks none. -/
theorem busDuties_idle {s : State} {sel : Bool} (h : sel = true ∨ s.driven ≠ .lost) :
    busDuties .idle sel s = [] := by
  have hw : (s.lostWire && !(sel && Device.idle == .idle)) = false := by
    rcases h with rfl | h
    · simp
    · simp [Bool.eq_false_iff.2 (mt (State.lostWire_iff s).1 h)]
  unfold busDuties
  split
  · simp
  · rw [hw]; rfl

theorem busyDuties_begins {s : State} (ho : s.pollOwed = true) (hm : s.midCommand = false) :
    .deviceBusy ∈ busyDuties .flash s := by
  simp [busyDuties, ho, hm]

/-! ### The duties of an instruction with the handle open -/

section

variable {s : State} (ho : s.handle = .opened)
include ho

theorem dutyBreaks_select (d : Device) : dutyBreaks (.select d) s = busDuties d true s := by
  simp [dutyBreaks, ho]

theorem dutyBreaks_spiOut (d : Device) (b : Byte) (more : List Byte) :
    dutyBreaks (.spiOut d (b :: more)) s = busDuties d false s ++ busyDuties d s := by
  simp [dutyBreaks, ho]

theorem dutyBreaks_spiIn (d : Device) {n : BitVec 16} (hn : n ≠ 0) :
    dutyBreaks (.spiIn d n) s = busDuties d false s ++ busyDuties d s ++
      (if s.wireOut.isNone then [.clockUnknown] else []) :=
  if_pos (by simpa [ho] using hn)

theorem dutyBreaks_flashPoll {t : Word} (ht : t ≠ 0) :
    dutyBreaks (.flashPoll t) s = engineDuties true s :=
  if_pos (by simpa [ho] using ht)

/-- Bytes that begin a command under Flash leave the command that stood there. -/
theorem opcodeAfter_begins (hm : s.midCommand = false) (b : Byte) (more : List Byte) :
    opcodeAfter (.spiOut .flash (b :: more)) s = some b := by
  simp [opcodeAfter, leavesCommand, hostOpcode, ho, hm]

end

/-- A commit or an erase built with SPI_OUT owes a poll from its deselect on (R170). -/
theorem owedAfter_leaves {i : Instr} (hl : leavesCommand i s = true)
    (h : s.duty.opcode = some 0x88 ∨ s.duty.opcode = some 0x7C) : owedAfter i s = true := by
  rcases h with h | h <;> simp [owedAfter, hl, h, startsOperation]

theorem dutyBreaks_spiIn_zero (d : Device) (s : State) : dutyBreaks (.spiIn d 0) s = [] :=
  if_neg (by simp)

theorem dutyBreaks_spiOut_idle {s : State} (h : s.driven ≠ .lost) (data : List Byte) :
    dutyBreaks (.spiOut .idle data) s = [] := by
  have hbusy : busyDuties .idle s = [] := rfl
  simp [dutyBreaks, busDuties_idle (sel := false) (.inr h), hbusy]

theorem dutyBreaks_flashPoll_deviceBusy (t : Word) (s : State) :
    .deviceBusy ∉ dutyBreaks (.flashPoll t) s := by
  unfold dutyBreaks
  dsimp only
  split
  · exact engineDuties_poll s
  · simp

/-- A reset hides no duty but those of SPI_IN, whose clock it makes unknown (log entry 11). -/
theorem dutyBreaks_applyReset {i : Instr} (s : State) (hi : ∀ d n, i ≠ .spiIn d n) :
    dutyBreaks i { s.applyReset with handle := s.handle } = dutyBreaks i s := by
  cases i with
  | spiIn d n => exact absurd rfl (hi d n)
  | _ => rfl

/-! ### The step and the record -/

theorem exec_keeps_duty {i : Instr} {s t : State} (h : exec i s = .next t) : t.duty = s.duty := by
  obtain ⟨u, hu, ht⟩ := (exec_cases flowFrame_closed i s).next h
  exact ht.duty.trans (hu.duty.trans (s.started_inside i.op).duty)

/-- An instruction faults on a wrong count only (20_memory.md R42). -/
theorem exec_fault_miscounted {i : Instr} {s : State} {f : Fault} (h : exec i s = .fault f) :
    f = .transportContract ∧ ∃ t, exec i s.uncounted = .next t ∧ s.Miscounted t := by
  obtain ⟨t, ht, -, hnext⟩ := exec_counted i s
  refine ⟨by cases f; rfl, t, ht, by_contra fun hm => ?_⟩
  obtain ⟨u, hu, -⟩ := hnext hm
  cases h.symm.trans hu

theorem select_never {s : State} {d : Device} {rest : List TxAnswer}
    (h : s.env.answers = .never :: rest) :
    select d s = .stuck ((s.setEnv { s.env with answers := rest }).setWireOut none) := by
  simp [select, txWrite, nextAnswer_cons _ _ _ h]

/-- SELECT's write leaves its byte on the pins, or is lost. -/
theorem exec_select_driven {s t : State} {d : Device} {a : TxAnswer} {rest : List TxAnswer}
    (ho : s.handle = .opened) (ha : s.env.answers = a :: rest)
    (ht : exec (.select d) s = .next t) :
    (∀ pins, a = .ok none pins → t.driven = .byte (selpat s.params d)) ∧
      (∀ e, a = .err e → t.driven = .lost) ∧ (a = .never → t.driven = .lost) := by
  rw [exec_select_opened ho] at ht
  refine ⟨?_, ?_, ?_⟩
  · rintro pins rfl
    rw [select, txWrite_ok (s := s.begin .select) ha] at ht
    cases ht
    rfl
  · rintro e rfl
    rw [select, txWrite_err (s := s.begin .select) ha] at ht
    cases ht
    rfl
  · rintro rfl
    rw [select_never (s := s.begin .select) ha] at ht
    cases ht
    rfl

/-- Settles O52: acceptance writes the record and no instruction does; a fault is a wrong count; and
each clause is one of the duties of a flash command or of a byte sequence. -/
theorem dutiesRecorded : Obligations.DutiesRecorded := by
  unfold Obligations.DutiesRecorded
  refine ⟨fun s r rest i hp hc hin hd => ?_, fun s t d a rest => exec_select_driven,
    fun s i hi => dutyBreaks_applyReset s hi, fun s ho => ?_⟩
  · rw [step_decoded (fetch_request hp hc hin) hd]
    exact ⟨fun t ht => congrArg HostDuty.broken (exec_keeps_duty ht),
      fun f hf => exec_fault_miscounted hf⟩
  intro engine
  have hengine : ∀ i, engine i → dutyBreaks i s = engineDuties false s := by
    rintro i (rfl | ⟨p, data, rfl⟩ | ⟨c0, c1, c2, c3, t, rfl⟩ | ⟨t, rfl⟩ | rfl) <;>
      simp [dutyBreaks, ho]
  refine ⟨fun h => ?_, fun h => ?_, fun h => dutyBreaks_spiOut_idle h, fun h => ⟨fun i hi => ?_,
    fun t ht => ?_, fun d hd => ?_, fun d b more => ?_, fun d n hn => ?_⟩, ?_, fun h d n hn => ?_,
    fun d => dutyBreaks_spiIn_zero d s, fun h => ⟨fun i hi => ?_, fun t ht => ?_⟩,
    fun h => ⟨fun i hi => ?_, fun t => dutyBreaks_flashPoll_deviceBusy t s, fun hm b more => ?_⟩,
    fun h howed i hi => ?_, fun h b more => ?_, fun h => ⟨?_, fun d n => ?_⟩⟩
  · rw [dutyBreaks_select ho]
    exact busDuties_switch true h (by decide) (by decide) (by decide)
  · rw [dutyBreaks_select ho]
    exact busDuties_switch true h (by decide) (by decide) (by decide)
  · rw [hengine i hi]
    exact engineDuties_lost false h
  · rw [dutyBreaks_flashPoll ho ht]
    exact engineDuties_lost true h
  · rw [dutyBreaks_select ho]
    exact busDuties_lost h (.inr hd)
  · rw [dutyBreaks_spiOut ho]
    exact List.mem_append_left _ (busDuties_lost h (.inl rfl))
  · rw [dutyBreaks_spiIn ho d hn]
    exact List.mem_append_left _ (List.mem_append_left _ (busDuties_lost h (.inl rfl)))
  · rw [dutyBreaks_select ho]
    exact busDuties_idle (.inl rfl)
  · rw [dutyBreaks_spiIn ho d hn]
    exact List.mem_append_right _ (by simp [h])
  · rw [hengine i hi]
    exact engineDuties_open false h
  · rw [dutyBreaks_flashPoll ho ht]
    exact engineDuties_open true h
  · rw [hengine i hi]
    exact engineDuties_owed h
  · rw [dutyBreaks_spiOut ho]
    exact List.mem_append_right _ (busyDuties_begins h (State.midCommand_eq_false hm))
  · rw [hengine i hi]
    exact engineDuties_idle false h howed
  · exact opcodeAfter_begins ho (State.midCommand_eq_false h) b more
  · exact owedAfter_leaves (by simp [leavesCommand, ho]) h
  · exact owedAfter_leaves (by simp [leavesCommand, ho]) h

end Sys2Proof.Machine
end
